-- ==== Sys2Proof/Word.lean ====
section
/-! DEFINITION. Word.lean: the machine words of the CE-408 and the eight-fold collection that its lanes need. -/

namespace Sys2Proof

/-- One byte of a record on a serial line (R163, R175). -/
abbrev Byte := BitVec 8

/-- A lane number, 0 to 7 (R74). -/
abbrev LaneId := Fin 8

/-- The 48-bit sample count, which wraps (R7). -/
abbrev SampleCount := BitVec 48

/-- Eight like things, one for each lane (R74). -/
structure Eight (α : Type) where
  l0 : α
  l1 : α
  l2 : α
  l3 : α
  l4 : α
  l5 : α
  l6 : α
  l7 : α
deriving DecidableEq, Repr

/-- The same thing for each of the eight lanes. -/
def Eight.all {α : Type} (a : α) : Eight α := ⟨a, a, a, a, a, a, a, a⟩

/-- The thing of lane `i`. -/
def Eight.get {α : Type} (e : Eight α) (i : LaneId) : α :=
  match i with
  | 0 => e.l0
  | 1 => e.l1
  | 2 => e.l2
  | 3 => e.l3
  | 4 => e.l4
  | 5 => e.l5
  | 6 => e.l6
  | 7 => e.l7

/-- The collection with the thing of lane `i` replaced. -/
def Eight.set {α : Type} (e : Eight α) (i : LaneId) (a : α) : Eight α :=
  match i with
  | 0 => { e with l0 := a }
  | 1 => { e with l1 := a }
  | 2 => { e with l2 := a }
  | 3 => { e with l3 := a }
  | 4 => { e with l4 := a }
  | 5 => { e with l5 := a }
  | 6 => { e with l6 := a }
  | 7 => { e with l7 := a }

/-- A function applied to the thing of each lane. -/
def Eight.map {α β : Type} (f : α → β) (e : Eight α) : Eight β :=
  ⟨f e.l0, f e.l1, f e.l2, f e.l3, f e.l4, f e.l5, f e.l6, f e.l7⟩

/-- The eight things in ascending lane number. -/
def Eight.toList {α : Type} (e : Eight α) : List α :=
  [e.l0, e.l1, e.l2, e.l3, e.l4, e.l5, e.l6, e.l7]

/-- The lane numbers in ascending order, the order in which the take log grants (R123). -/
def laneIds : List LaneId := [0, 1, 2, 3, 4, 5, 6, 7]

end Sys2Proof
end

