-- ==== Sys2Proof/Config.lean ====
section
/-! DEFINITION. Config.lean: what the part fixes and the values the manual leaves open. The open ones have no body:
no proof can see which value they have, so a theorem holds for every value of them. -/

namespace Sys2Proof

/-- The part code of the CE-408 in the PING reply (R176). -/
def Config.partCode : BitVec 16 := 0x0408

/-- Open: the number from which the part revision is made. The manual gives the range 1 to 255 and no value
(R160, R173; assumption 1). -/
opaque Config.revisionSeed : Nat

/-- The part revision, 1 to 255, fixed in the part (R160, R173). -/
def Config.partRevision : Byte := BitVec.ofNat 8 (1 + Config.revisionSeed % 255)

/-- Open: which of two things that the manual lets come in either order comes first, one answer for each occasion
(R113, R109, R141, R145, R171; assumption 2). The occasion is the model's own counter `State.occasion`. -/
opaque Config.firstComesFirst : Nat → Bool

/-- Open: the order in which the lanes take what reaches several of them at once, one answer for each occasion. The
manual gives their reactions no order among themselves (R59, R91, R94, R130; assumption 3). -/
opaque Config.laneOrder : Nat → Equiv.Perm LaneId

/-- The number of frames the request queue holds (R168). -/
def Config.requestQueueSize : Nat := 4

/-- The number of BUSY replies, beside those of a RESET's drain, that may wait unsent (R168). -/
def Config.busyReplyLimit : Nat := 4

/-- The number of notices the notice queue holds (R171). -/
def Config.noticeQueueSize : Nat := 32

/-- The number of records the take log holds (R120). -/
def Config.takeLogSize : Nat := 64

end Sys2Proof
end

