-- ==== Sys2Proof/Syntax.lean ====
section
/-! DEFINITION. Syntax.lean: the commands of the CE-408, one constructor of `Instr` for each row of
spec/opcode_table.json, with the operands the row's rule gives it. Operands that travel on a serial line are held as
the bytes that travel, so that every malformed value the rules refuse can be written down. -/

namespace Sys2Proof

/-- A stamp as the host sends it: a label and a subframe, unchecked (R13, R175). -/
structure Stamp where
  hh : Byte
  mm : Byte
  ss : Byte
  ff : Byte
  sf : BitVec 16
deriving DecidableEq, Repr

/-- The two ways in which a link frame can be written (R163). -/
inductive Wire where
  | binary
  | text
deriving DecidableEq, Repr

/-- What every request's frame has beside its body: the way it is written, its tag (R168), and the level of the
SERVICE line at the moment it arrives (R149, R182; assumption 4). -/
structure FrameHead where
  wire : Wire
  tag : Byte
  service : Bool
deriving DecidableEq, Repr

/-- The value a SETTING_WRITE carries, by its width on the link (R175). -/
inductive SettingValue where
  /-- One byte: a named value, or one of the two masks. -/
  | byte (b : Byte)
  /-- Four bytes, signed: a numeric value. -/
  | number (v : BitVec 32)
  /-- Six bytes: a sample count. -/
  | count (v : BitVec 48)
  /-- Twelve bytes: the two stamps of the cycle window. -/
  | window (first last : Stamp)
deriving DecidableEq, Repr

/-- The groups a CUE_WRITE selects, each with its value (R66, R178). A group that is `none` is not selected. -/
structure CueGroups where
  label : Option (BitVec 16)
  inPoint : Option Stamp
  /-- The presence field, and the stamp that is examined when presence is set (R53). -/
  outPoint : Option (Option Stamp)
  streamer : Option Byte
  /-- Count, spacing and length, written whole (R55). -/
  beeps : Option (Byte × Byte × Byte)
  tail : Option Byte
  flags : Option Byte
  /-- The mask selects INFO, which a write may not (R66). -/
  info : Bool
deriving DecidableEq, Repr

/-- A request with its body read, as the request queue holds it (R168, R176). -/
inductive Request where
  | ping
  | statusRead (mask : BitVec 16)
  | reset (scope : Byte)
  | settingRead (id rounding : Byte)
  | settingWrite (id rounding : Byte) (value : SettingValue)
  | settingSetBits (id mask : Byte)
  | settingClearBits (id mask : Byte)
  | cueSeek (bank cursor : Byte)
  | cueRead (form : Byte) (operand : BitVec 16) (count mask view rounding : Byte)
  | cueWrite (form : Byte) (operand : BitVec 16) (rounding : Byte) (groups : CueGroups)
  | cueErase (form : Byte) (operand : BitVec 16)
  | runlistWrite (lane : Byte) (slots : List (BitVec 16))
  | runlistRead (lane : Byte)
  | laneArm (lane : Byte)
  | laneDisarm (lane : Byte)
  | laneRead (lane : Byte)
  | positionJam (rounding : Byte) (stamp : Stamp)
  | positionRead (rounding : Byte)
  | takePeek (skip count rounding : Byte)
  | takeRelease (count : Byte)
deriving DecidableEq, Repr

/-- The commands of the part: the host's requests, each as it arrives on the link, and the events that reach the part
on its other lines or in its own time. One constructor for each row of spec/opcode_table.json. -/
inductive Instr where
  /-- PING (R173). -/
  | ping (h : FrameHead)
  /-- STATUS_READ (R172). -/
  | statusRead (h : FrameHead) (mask : BitVec 16)
  /-- RESET (R174). -/
  | reset (h : FrameHead) (scope : Byte)
  /-- RESET_FULL: a pending full reset takes effect (R174). -/
  | resetFull
  /-- RESET_ENGINE: a pending engine reset takes effect (R174). -/
  | resetEngine
  /-- POWER_ON_RESET (R21). -/
  | powerOnReset
  /-- SETTING_READ (R159). -/
  | settingRead (h : FrameHead) (id rounding : Byte)
  /-- SETTING_WRITE (R151). -/
  | settingWrite (h : FrameHead) (id rounding : Byte) (value : SettingValue)
  /-- ENGINE_MODE_WRITE: SETTING_WRITE of identifier 0x01 (R112). -/
  | engineModeWrite (h : FrameHead) (rounding code : Byte)
  /-- PICTURE_STANDARD_WRITE: SETTING_WRITE of identifier 0x02 (R153). -/
  | pictureStandardWrite (h : FrameHead) (rounding code : Byte)
  /-- PULL_DOWN_WRITE: SETTING_WRITE of identifier 0x03 (R2). -/
  | pullDownWrite (h : FrameHead) (rounding : Byte) (value : BitVec 32)
  /-- SAMPLE_RATE_WRITE: SETTING_WRITE of identifier 0x04 (R153). -/
  | sampleRateWrite (h : FrameHead) (rounding : Byte) (value : BitVec 32)
  /-- SOURCE_WRITE: SETTING_WRITE of identifier 0x05 (R23). -/
  | sourceWrite (h : FrameHead) (rounding code : Byte)
  /-- LOCAL_RATIO_WRITE: SETTING_WRITE of identifier 0x0B (R42). -/
  | localRatioWrite (h : FrameHead) (rounding : Byte) (value : BitVec 32)
  /-- STAGING_HOLD_WRITE: SETTING_WRITE of identifier 0x07 (R156). -/
  | stagingHoldWrite (h : FrameHead) (rounding : Byte) (value : BitVec 32)
  /-- EDGES_PER_FRAME_WRITE: SETTING_WRITE of identifier 0x30 (R41). -/
  | edgesPerFrameWrite (h : FrameHead) (rounding : Byte) (value : BitVec 32)
  /-- INDEX_STATE_WRITE: SETTING_WRITE of identifier 0x32 (R26). -/
  | indexStateWrite (h : FrameHead) (rounding : Byte) (value : BitVec 32)
  /-- TACH_FILTER_WRITE: SETTING_WRITE of identifier 0x31 (R24). -/
  | tachFilterWrite (h : FrameHead) (rounding : Byte) (value : BitVec 32)
  /-- DEFAULT_ROUNDING_WRITE: SETTING_WRITE of identifier 0x06 (R11). -/
  | defaultRoundingWrite (h : FrameHead) (rounding : Byte) (value : BitVec 32)
  /-- SETTING_SET_BITS (R161). -/
  | settingSetBits (h : FrameHead) (id mask : Byte)
  /-- SETTING_CLEAR_BITS (R161). -/
  | settingClearBits (h : FrameHead) (id mask : Byte)
  /-- CUE_SEEK (R65). -/
  | cueSeek (h : FrameHead) (bank cursor : Byte)
  /-- CUE_READ (R70). -/
  | cueRead (h : FrameHead) (form : Byte) (operand : BitVec 16) (count mask view rounding : Byte)
  /-- CUE_WRITE (R67). -/
  | cueWrite (h : FrameHead) (form : Byte) (operand : BitVec 16) (rounding : Byte) (groups : CueGroups)
  /-- CUE_ERASE (R73). -/
  | cueErase (h : FrameHead) (form : Byte) (operand : BitVec 16)
  /-- RUNLIST_WRITE (R75); the entry count is the length of the list. -/
  | runlistWrite (h : FrameHead) (lane : Byte) (slots : List (BitVec 16))
  /-- RUNLIST_READ (R79). -/
  | runlistRead (h : FrameHead) (lane : Byte)
  /-- LANE_ARM (R83). -/
  | laneArm (h : FrameHead) (lane : Byte)
  /-- LANE_DISARM (R84). -/
  | laneDisarm (h : FrameHead) (lane : Byte)
  /-- LANE_READ (R85). -/
  | laneRead (h : FrameHead) (lane : Byte)
  /-- POSITION_JAM (R40). -/
  | positionJam (h : FrameHead) (rounding : Byte) (stamp : Stamp)
  /-- POSITION_READ (R173). -/
  | positionRead (h : FrameHead) (rounding : Byte)
  /-- TAKE_PEEK (R127). -/
  | takePeek (h : FrameHead) (skip count rounding : Byte)
  /-- TAKE_RELEASE (R128). -/
  | takeRelease (h : FrameHead) (count : Byte)
  /-- FRAME_RECEIVED: bytes arrive on RXD, the last of which completes a frame (R165, R166, R168). -/
  | frameReceived (service : Bool) (bytes : List Byte)
  /-- RECEPTION_ERROR: bytes arrive on RXD, the last of which ends a frame as a reception error (R167). -/
  | receptionError (bytes : List Byte)
  /-- FRAME_GAP_TIMEOUT: more than 32 byte times have passed inside a frame (R167). -/
  | frameGapTimeout
  /-- TRANSMIT_COMPLETE: the transmitter ends the frame it is sending (R170). -/
  | transmitComplete (service : Bool)
  /-- WORD_CLOCK_SAMPLE: one period of WCK, with the raw levels of TA, TB and TZ at its sixteen subsamples,
  subsample `i` at position `i` (R24, R31). -/
  | wordClockSample (ta tb tz : BitVec 16)
  /-- CODE_RECORD: bytes arrive on CIN, the last of which ends a record (R28, R180). -/
  | codeRecord (bytes : List Byte)
  /-- CODE_RECORD_GAP: more than 4 byte times have passed inside a CIN record (R180). -/
  | codeRecordGap
  /-- STALL: the stall timer reaches its timeout (R35). -/
  | stall
  /-- DROPOUT: the dropout timer reaches its timeout (R36). -/
  | dropout
  /-- CLOCK_LOST: 1 ms has passed without a word-clock edge (R47). -/
  | clockLost
  /-- CLOCK_BACK: the first word-clock edge after a loss (R48). -/
  | clockBack
  /-- HOLD_TIMER: the hold timer reaches the nominal frame period (R145). -/
  | holdTimer
  /-- OVL_SEND_COMPLETE: an overlay record ends on OVL (R142). -/
  | ovlSendComplete
  /-- COUT_SEND_COMPLETE: a code record ends on COUT (R146). -/
  | coutSendComplete
  /-- FRAMING_START_BYTE: a byte arrives on RXD, the one that locks the framing while it is UNDECIDED (R164). -/
  | framingStartByte (byte : Byte)
deriving DecidableEq, Repr

/-- The frame head and the request of a row that is a request, and `none` for an event. The twelve setting rows are
SETTING_WRITE requests of one identifier each (R148). -/
def Instr.request? : Instr → Option (FrameHead × Request)
  | .ping h => some (h, .ping)
  | .statusRead h mask => some (h, .statusRead mask)
  | .reset h scope => some (h, .reset scope)
  | .resetFull => none
  | .resetEngine => none
  | .powerOnReset => none
  | .settingRead h id r => some (h, .settingRead id r)
  | .settingWrite h id r v => some (h, .settingWrite id r v)
  | .engineModeWrite h r c => some (h, .settingWrite 0x01 r (.byte c))
  | .pictureStandardWrite h r c => some (h, .settingWrite 0x02 r (.byte c))
  | .pullDownWrite h r v => some (h, .settingWrite 0x03 r (.number v))
  | .sampleRateWrite h r v => some (h, .settingWrite 0x04 r (.number v))
  | .sourceWrite h r c => some (h, .settingWrite 0x05 r (.byte c))
  | .localRatioWrite h r v => some (h, .settingWrite 0x0B r (.number v))
  | .stagingHoldWrite h r v => some (h, .settingWrite 0x07 r (.number v))
  | .edgesPerFrameWrite h r v => some (h, .settingWrite 0x30 r (.number v))
  | .indexStateWrite h r v => some (h, .settingWrite 0x32 r (.number v))
  | .tachFilterWrite h r v => some (h, .settingWrite 0x31 r (.number v))
  | .defaultRoundingWrite h r v => some (h, .settingWrite 0x06 r (.number v))
  | .settingSetBits h id mask => some (h, .settingSetBits id mask)
  | .settingClearBits h id mask => some (h, .settingClearBits id mask)
  | .cueSeek h bank cursor => some (h, .cueSeek bank cursor)
  | .cueRead h f o n m v r => some (h, .cueRead f o n m v r)
  | .cueWrite h f o r g => some (h, .cueWrite f o r g)
  | .cueErase h f o => some (h, .cueErase f o)
  | .runlistWrite h lane slots => some (h, .runlistWrite lane slots)
  | .runlistRead h lane => some (h, .runlistRead lane)
  | .laneArm h lane => some (h, .laneArm lane)
  | .laneDisarm h lane => some (h, .laneDisarm lane)
  | .laneRead h lane => some (h, .laneRead lane)
  | .positionJam h r st => some (h, .positionJam r st)
  | .positionRead h r => some (h, .positionRead r)
  | .takePeek h s c r => some (h, .takePeek s c r)
  | .takeRelease h c => some (h, .takeRelease c)
  | .frameReceived _ _ => none
  | .receptionError _ => none
  | .frameGapTimeout => none
  | .transmitComplete _ => none
  | .wordClockSample _ _ _ => none
  | .codeRecord _ => none
  | .codeRecordGap => none
  | .stall => none
  | .dropout => none
  | .clockLost => none
  | .clockBack => none
  | .holdTimer => none
  | .ovlSendComplete => none
  | .coutSendComplete => none
  | .framingStartByte _ => none

/-- The kind byte of a request's frame (R176). -/
def Request.kind : Request → Byte
  | .ping => 0x01
  | .statusRead _ => 0x02
  | .reset _ => 0x03
  | .settingRead _ _ => 0x04
  | .settingWrite _ _ _ => 0x05
  | .settingSetBits _ _ => 0x06
  | .settingClearBits _ _ => 0x07
  | .cueSeek _ _ => 0x08
  | .cueRead _ _ _ _ _ _ => 0x09
  | .cueWrite _ _ _ _ => 0x0A
  | .cueErase _ _ => 0x0B
  | .runlistWrite _ _ => 0x0C
  | .runlistRead _ => 0x0D
  | .laneArm _ => 0x0E
  | .laneDisarm _ => 0x0F
  | .laneRead _ => 0x10
  | .positionJam _ _ => 0x11
  | .positionRead _ => 0x12
  | .takePeek _ _ _ => 0x13
  | .takeRelease _ => 0x14

end Sys2Proof
end

