-- ==== Sys2Proof/Machine/State.lean ====
section
/-! DEFINITION. Machine/State.lean: everything the CE-408 holds, block by block (chapter 00, section 2), the reasons a
command can stop, and the part right after power-on reset. -/

namespace Sys2Proof.Machine

/-! ## Names of values -/

/-- The picture standards (R1). -/
inductive Standard where
  | std24
  | std25
  | std30
  | std30df
deriving DecidableEq, Repr

/-- The rates the sample rate setting names (R7). -/
inductive SampleRate where
  | hz48000
  | hz96000
deriving DecidableEq, Repr

/-- The rounding modes (R10). -/
inductive Rounding where
  | nearestEven
  | towardZero
  | down
  | up
  | nearestAway
deriving DecidableEq, Repr

/-- The motion sources (R22). -/
inductive Source where
  | tach
  | codeIn
  | localGen
deriving DecidableEq, Repr

/-- The tracker states (R21). -/
inductive TrackerState where
  | unreferenced
  | stopped
  | moving
  | coasting
deriving DecidableEq, Repr

/-- The engine modes (R111). -/
inductive EngineMode where
  | standby
  | rehearse
  | record
deriving DecidableEq, Repr

/-- The cycle actions (R45). -/
inductive CycleAction where
  | off
  | notify
  | wrap
  | halt
deriving DecidableEq, Repr

/-- The lane states (R74). -/
inductive LaneState where
  | idle
  | armed
  | done
deriving DecidableEq, Repr

/-- The kinds of event (R80). -/
inductive EventKind where
  | streamerStart
  | streamerEnd
  | beepOn
  | beepOff
  | punchIn
  | punchOut
  | cueEnd
deriving DecidableEq, Repr

/-- The kinds of motion update (R44). -/
inductive UpdateKind where
  | step
  | anchor
  | jump
  | wrap
deriving DecidableEq, Repr

/-- The end causes of a take (R107, R119). -/
inductive EndCause where
  | out
  | broken
  | lockLost
  | clockLost
  | standby
  | mode
  | disarmed
  | cycle
  | reset
deriving DecidableEq, Repr

/-- The causes of NOTE_TRACKER, in the row order of the table of R49. -/
inductive TrackerCause where
  | referenced
  | moving
  | stall
  | dropout
  | recovered
  | lockLost
  | hold
  | halt
  | localStop
  | source
  | standard
  | drift
  | cycleEnd
  | clockLost
  | clockBack
  | jump
deriving DecidableEq, Repr

/-- The causes of NOTE_LANE (R91, R117). -/
inductive LaneCause where
  | cueStart
  | cueSkipped
  | done
  | reArmed
  | logFull
deriving DecidableEq, Repr

/-- The marks of NOTE_EVENT (R116). -/
inductive Mark where
  | live
  | passed
  | restored
deriving DecidableEq, Repr

/-- The sticky status flags (R172). -/
inductive Flag where
  | linkFault
  | noticeLost
  | edgeError
  | skip
  | indexMisplaced
  | codeError
  | overspeed
  | drift
  | lockLost
  | logFull
  | clockLost
deriving DecidableEq, Repr

/-- The reply statuses (R169). -/
inductive Status where
  | ok
  | badKind
  | badLength
  | badField
  | badLabel
  | range
  | access
  | readOnly
  | state
  | inUse
  | overlap
  | openNotLast
  | duplicate
  | notFound
  | busy
deriving DecidableEq, Repr

/-- The framing state of the link (R164). -/
inductive Framing where
  | undecided
  | binary
  | text
deriving DecidableEq, Repr

/-- The scopes of the RESET request (R174). -/
inductive ResetScope where
  | full
  | engine
deriving DecidableEq, Repr

/-! ## Positions as the host sees them -/

/-- An exact position: a frame number and a fraction (R3, R175). -/
structure ExactPos where
  frame : Nat
  fraction : Nat
deriving DecidableEq, Repr

/-- A reported position: the stamp, then the exact position (R175). -/
structure ReportedPos where
  stamp : Stamp
  exact : ExactPos
deriving DecidableEq, Repr

/-! ## The transport tracker (R21) -/

/-- The origin of the next speed estimate: its sample, and the edges since it, forward less reverse (R32). -/
structure EstimateOrigin where
  sample : SampleCount
  net : Int
deriving DecidableEq, Repr

/-- What the tracker keeps of the last valid code record (R28). -/
structure PreviousRecord where
  base : Nat
  reverse : Bool
  arrival : SampleCount
deriving DecidableEq, Repr

/-- One filtered tach line: its filtered level and its hold count (R24). -/
structure LineFilter where
  level : Bool
  hold : Nat
deriving DecidableEq, Repr

/-- The decoder of the tach front end (R24). -/
structure Decoder where
  ta : LineFilter
  tb : LineFilter
  tz : LineFilter
  /-- The filtered levels are taken from the lines at the next subsample (R24). -/
  settle : Bool
deriving DecidableEq, Repr

/-- The tracker's record (R21). Positions are in pu. -/
structure Tracker where
  pos : Nat
  spd : Int
  state : TrackerState
  lastAnchor : Nat
  phase : Nat
  origin : Option EstimateOrigin
  previous : Option PreviousRecord
  recordInterval : Option Nat
  driftCount : Nat
  /-- Samples since the last tach edge; `none` while stopped. -/
  stallTimer : Option Nat
  /-- Samples since the last valid code record; `none` while stopped. -/
  dropoutTimer : Option Nat
  count : SampleCount
  decoder : Decoder
  /-- The word clock is lost (R47). -/
  clockLost : Bool
  /-- The bytes of the record being received on CIN after its start byte; `none` while waiting (R180). -/
  cin : Option (List Byte)
  /-- The model's own: the sample that `count` names has begun and its integration is not yet made (assumption 5). -/
  sampleBegun : Bool
  /-- The model's own: a code anchor has been taken in the sample that has begun (R31; assumption 5). -/
  anchorTaken : Bool
deriving DecidableEq, Repr

/-! ## The cue table (R51, R52) -/

/-- The contents of a cue. Positions are in pu. -/
structure Contents where
  label : BitVec 16
  inPoint : Nat
  outPoint : Option Nat
  streamer : Nat
  beepCount : Nat
  beepSpacing : Nat
  beepLength : Nat
  tail : Nat
  record : Bool
deriving DecidableEq, Repr

/-- A DEFINED slot: live contents, pending copy, and the slot properties (R52, R59). -/
structure Slot where
  live : Contents
  pending : Option Contents
  takes : Nat
  refs : Nat
  expansions : Nat
deriving DecidableEq, Repr

/-- The cue table: the DEFINED slots by slot number, strictly rising; a slot not listed is EMPTY (R51). -/
abbrev CueTable := List (Nat × Slot)

/-! ## Lanes (R74) -/

/-- A timed event of an expanded cue (R81); the beep number is 0 for the kinds that have none. -/
structure Event where
  kind : EventKind
  beep : Nat
  target : Nat
deriving DecidableEq, Repr

/-- An event on the retired stack with its mark: LIVE, or else PASSED (R81, R98). -/
structure Retired where
  event : Event
  live : Bool
deriving DecidableEq, Repr

/-- The record of a lane (R74). The queue stands head first, the stack top first. -/
structure Lane where
  state : LaneState
  runList : List Nat
  index : Nat
  queue : List Event
  stack : List Retired
  openTake : Option (BitVec 16)
  punchLine : Bool
deriving DecidableEq, Repr

/-! ## The take log (R119, R120) -/

/-- The closing fields of a take record. -/
structure Closing where
  pos : Nat
  sample : SampleCount
  cause : EndCause
deriving DecidableEq, Repr

/-- A take record; it is OPEN while it has no closing fields (R119). -/
structure Take where
  serial : BitVec 16
  lane : LaneId
  slot : Nat
  label : BitVec 16
  number : Nat
  inPos : Nat
  inSample : SampleCount
  overshoot : Nat
  closing : Option Closing
  numberHeld : Bool
  coasted : Bool
deriving DecidableEq, Repr

/-- The take log: its records, oldest first, and the next serial (R120). -/
structure TakeLog where
  records : List Take
  nextSerial : BitVec 16
deriving DecidableEq, Repr

/-! ## The actor feeds (R132) -/

/-- The label of a frame (R13, R16). -/
structure Label where
  hh : Nat
  mm : Nat
  ss : Nat
  ff : Nat
deriving DecidableEq, Repr

/-- What a lane last handed the feeds: its streamer's targets while visible, the beep that is on or 0, and its punch
state (R132). -/
structure LaneCopy where
  streamer : Option (Nat × Nat)
  tone : Nat
  punch : Bool
deriving DecidableEq, Repr

/-- A lane's three items in an overlay record (R139). -/
structure OverlayItem where
  shown : Bool
  x : Nat
  punch : Bool
deriving DecidableEq, Repr

/-- An overlay record (R139). -/
structure OverlayRecord where
  label : Label
  items : Eight OverlayItem
deriving DecidableEq, Repr

/-- A code record formed by the generator (R143). -/
structure CodeOut where
  label : Label
  drop : Bool
  hold : Bool
  reverse : Bool
deriving DecidableEq, Repr

/-- The state of the actor feeds (R132), with the TONE frame of the last sample (R138). -/
structure Feeds where
  copies : Eight LaneCopy
  phases : Eight (BitVec 24)
  increments : Eight (BitVec 24)
  tone : Eight (BitVec 16)
  /-- The record being sent on OVL; `none` while the sender is idle. -/
  ovlSending : Option OverlayRecord
  ovlHolding : Option OverlayRecord
  /-- The record being sent on COUT; `none` while the sender is idle. -/
  coutSending : Option CodeOut
  coutWaiting : Option CodeOut
  /-- Samples since the last code record was formed; `none` while stopped. -/
  holdTimer : Option Nat
deriving DecidableEq, Repr

/-! ## Settings (R148) -/

/-- An entry of the staging list: a class-F setting with its legalised value (R154). -/
inductive Staged where
  | bandLow (v : Nat)
  | bandHigh (v : Nat)
  | cycleWindow (first last : Nat)
  | cycleAction (a : CycleAction)
  | autoRearm (b : Bool)
  | toneFrequency (lane : LaneId) (hz : Nat)
  | stallTimeout (v : Nat)
  | codeLatency (v : Nat)
  | coastLimit (v : Nat)
  | driftTolerance (v : Nat)
deriving DecidableEq, Repr

/-- The applied values, the pending STANDBY entry (R111) and the staging list (R154). -/
structure Settings where
  engineMode : EngineMode
  standbyPending : Bool
  standard : Standard
  pullDown : Bool
  sampleRate : SampleRate
  source : Source
  rounding : Rounding
  stagingHold : Bool
  noticeMask : Byte
  bandLow : Nat
  bandHigh : Nat
  localRatio : Int
  cycleStart : Nat
  cycleEnd : Nat
  cycleAction : CycleAction
  autoRearm : Bool
  toneMute : Byte
  toneFrequency : Eight Nat
  toneLevel : Eight Nat
  edges : Nat
  tachFilter : Nat
  indexState : Nat
  indexCheck : Bool
  stallTimeout : Nat
  codeLatency : Nat
  coastLimit : Nat
  recorderLatency : Nat
  driftTolerance : Nat
  staging : List Staged
deriving DecidableEq, Repr

/-! ## Replies and notices (R169, R171, R177, R179) -/

/-- The outcome flags of a reply (R12, R169). -/
structure OutFlags where
  inexact : Bool
  invalid : Bool
  clamped : Bool
  staged : Bool
deriving DecidableEq, Repr

/-- A setting's value in a reply, by the width R175 gives it. -/
inductive ReportedValue where
  | byte (b : Byte)
  | number (v : Int)
  | count (v : SampleCount)
  | window (first last : ReportedPos)
deriving DecidableEq, Repr

/-- The selected groups of a cue in a reply (R178); a group that is `none` is not selected. -/
structure ReportedGroups where
  label : Option (BitVec 16)
  inPoint : Option ReportedPos
  outPoint : Option (Option ReportedPos)
  streamer : Option Nat
  beeps : Option (Nat × Nat × Nat)
  tail : Option Nat
  record : Option Bool
  /-- INFO: take counter, reference count, pending flag. -/
  info : Option (Nat × Nat × Bool)
deriving DecidableEq, Repr

/-- A cue table view (R70). -/
inductive View where
  | live
  | pending
deriving DecidableEq, Repr

/-- An entry of a CUE_READ reply: the slot, and for a DEFINED slot its view and groups (R70). -/
structure CueEntry where
  slot : Nat
  defined : Option (View × ReportedGroups)
deriving DecidableEq, Repr

/-- The closing fields of a take record as reported. -/
structure ReportedClosing where
  pos : ReportedPos
  sample : SampleCount
  cause : EndCause
deriving DecidableEq, Repr

/-- A take record as TAKE_PEEK and NOTE_TAKE carry it (R179). -/
structure ReportedTake where
  serial : BitVec 16
  lane : LaneId
  slot : Nat
  label : BitVec 16
  number : Nat
  inPos : ReportedPos
  inSample : SampleCount
  overshoot : Nat
  closing : Option ReportedClosing
  numberHeld : Bool
  coasted : Bool
deriving DecidableEq, Repr

/-- The LANE_READ reply (R85, R177). -/
structure LaneReport where
  state : LaneState
  /-- Index, slot and live label of the current cue. -/
  current : Option (Nat × Nat × BitVec 16)
  entries : Nat
  queue : List (EventKind × Nat × ExactPos)
  stack : List (EventKind × Nat × ExactPos × Bool)
  openTake : Option (BitVec 16)
  punchLine : Bool
  streamer : Bool
  tone : Nat
deriving DecidableEq, Repr

/-- The fields of a reply after its status and flags (R177). -/
inductive ReplyBody where
  | none
  | failedIndex (index : Nat)
  | ping (code : BitVec 16) (revision : Byte) (lanes : Nat) (slots : Nat)
  | status (flags : BitVec 11) (notices : Nat)
  | reset (scope : ResetScope)
  | settingRead (id : Byte) (applied : ReportedValue) (staged : Option ReportedValue)
  | settingWrite (id : Byte) (stored : ReportedValue)
  | bits (id before : Byte)
  | seek (bank cursor : Nat)
  | cueRead (entries : List CueEntry)
  | cueWrite (slot : Nat) (view : View) (groups : ReportedGroups)
  | cueErase (slot : Nat)
  | runlistWrite (count : Nat)
  | runlistRead (state : LaneState) (entries : List (Nat × BitVec 16))
  | laneArm (state : LaneState) (index : Nat)
  | laneDisarm (before : LaneState) (closed : Option (BitVec 16))
  | laneRead (report : LaneReport)
  | position (pos : ReportedPos) (ratio : Int) (state : TrackerState) (inPlay : Bool) (count : SampleCount)
  | takePeek (total opened : Nat) (nextSerial : BitVec 16) (records : List ReportedTake)
  | takeRelease (removed : Nat) (first : Option (BitVec 16)) (left : Nat)
deriving DecidableEq, Repr

/-- A reply to the host (R169). -/
structure Reply where
  kind : Byte
  tag : Byte
  status : Status
  flags : OutFlags
  body : ReplyBody
deriving DecidableEq, Repr

/-- A notice to the host (R171, R179). -/
inductive Notice where
  | event (lane : LaneId) (slot : Nat) (event : Event) (mark : Mark) (overshoot : Nat) (sample : SampleCount)
  | take (closed : Bool) (record : ReportedTake)
  | tracker (state : TrackerState) (cause : TrackerCause) (pos : ExactPos) (sample : SampleCount)
  | lane (lane : LaneId) (cause : LaneCause) (state : LaneState) (index slot : Nat) (label : BitVec 16)
      (sample : SampleCount) (punchIn : Option ExactPos)
  | fault (flag : Flag) (sample : SampleCount)
deriving DecidableEq, Repr

/-! ## The control link (R163 to R174) -/

/-- The receiver: waiting for a start byte, inside a binary frame with the bytes after its start byte, or inside a
text frame with its whole bytes and the half in hand (R165, R166). -/
inductive Receiver where
  | waiting
  | binary (bytes : List Byte)
  | text (bytes : List Byte) (half : Option (BitVec 4))
deriving DecidableEq, Repr

/-- A good frame in the request queue: its kind and tag, and its request, or the status of the common check of R168
that its bytes fail. -/
structure QueuedFrame where
  kind : Byte
  tag : Byte
  request : Except Status Request
deriving DecidableEq, Repr

/-- Why a reply is waiting: its request was executed, or it is a BUSY of R168, or a BUSY of a RESET's drain. -/
inductive ReplyOrigin where
  | executed
  | busy
  | drain
deriving DecidableEq, Repr

/-- A reply waiting to be sent (R170). -/
structure WaitingReply where
  reply : Reply
  origin : ReplyOrigin
deriving DecidableEq, Repr

/-- What the transmitter can be sending (R170). -/
inductive OutFrame where
  | reply (r : Reply)
  | notice (n : Notice)
deriving DecidableEq, Repr

/-- The state of the control link. -/
structure Link where
  framing : Framing
  receiver : Receiver
  requests : List QueuedFrame
  replies : List WaitingReply
  notices : List Notice
  /-- The frame being sent; `none` while the transmitter is idle. -/
  sending : Option OutFrame
  /-- The sticky flags, at the positions of R176. -/
  flags : BitVec 11
  bank : Nat
  cursor : Nat
  /-- An accepted RESET that has not taken effect (R174). -/
  resetPending : Option ResetScope
deriving DecidableEq, Repr

/-! ## The part -/

/-- The whole state of the part. -/
structure State where
  tracker : Tracker
  table : CueTable
  lanes : Eight Lane
  log : TakeLog
  feeds : Feeds
  settings : Settings
  link : Link
  /-- The level of the SERVICE line (R149, R182). -/
  service : Bool
  /-- The model's own: how many orders the manual leaves open have been settled; it names the next one's free value
  (assumption 2). -/
  occasion : Nat
  /-- The model's own: the commands that wait, first in, first out. -/
  pending : List Instr
deriving DecidableEq, Repr

/-- The ways a command can stop the part: there is none. The manual gives every command an effect in every state. -/
inductive Fault where
deriving DecidableEq, Repr

/-- The reasons the model gives a command no meaning. -/
inductive Refusal where
  /-- Raised by `exec` alone, for a row that has no meaning yet, by its mnemonic; safe, since nothing can then be
  proved of it. No row is in that case. -/
  | notModelled (mnemonic : String)
deriving DecidableEq, Repr

/-! ## Power-on reset -/

/-- A lane after power-on reset (R74). -/
def Lane.reset : Lane :=
  { state := .idle, runList := [], index := 0, queue := [], stack := [], openTake := none, punchLine := false }

/-- A lane copy with all three states off (R132). -/
def LaneCopy.off : LaneCopy := { streamer := none, tone := 0, punch := false }

/-- The decoder after a reset: its levels are taken from the lines at the first subsample (R24). Until then they
stand low (assumption 6). -/
def Decoder.reset : Decoder := { ta := ⟨false, 0⟩, tb := ⟨false, 0⟩, tz := ⟨false, 0⟩, settle := true }

/-- The tracker after power-on reset (R21). -/
def Tracker.reset : Tracker :=
  { pos := 0, spd := 0, state := .unreferenced, lastAnchor := 0, phase := 0, origin := none, previous := none,
    recordInterval := none, driftCount := 0, stallTimer := none, dropoutTimer := none, count := 0,
    decoder := Decoder.reset, clockLost := false, cin := none, sampleBegun := false, anchorTaken := false }

/-- The settings after power-on reset (R148, R162). The cycle window's end is frame 240, 00:00:10:00 under STD_24. -/
def Settings.reset : Settings :=
  { engineMode := .rehearse, standbyPending := false, standard := .std24, pullDown := false, sampleRate := .hz48000,
    source := .tach, rounding := .nearestEven, stagingHold := false, noticeMask := 0x1E, bandLow := 90,
    bandHigh := 110, localRatio := 1000, cycleStart := 0, cycleEnd := 240 * 2 ^ 32, cycleAction := .off,
    autoRearm := true, toneMute := 0, toneFrequency := Eight.all 1000, toneLevel := Eight.all 32, edges := 8,
    tachFilter := 2, indexState := 3, indexCheck := true, stallTimeout := 9600, codeLatency := 0, coastLimit := 10,
    recorderLatency := 0, driftTolerance := 2, staging := [] }

/-- The reset record of the overlay: frame 0 and every lane's items clear (R141). -/
def OverlayRecord.reset : OverlayRecord :=
  { label := ⟨0, 0, 0, 0⟩, items := Eight.all { shown := false, x := 0, punch := false } }

/-- The feeds after power-on reset (R132), their reset record just started on OVL (R141, R142). The increment is that
of 1,000 Hz at 48,000 samples a second (R134, R162). -/
def Feeds.reset : Feeds :=
  { copies := Eight.all LaneCopy.off, phases := Eight.all 0, increments := Eight.all 349525, tone := Eight.all 0,
    ovlSending := some OverlayRecord.reset, ovlHolding := none, coutSending := none, coutWaiting := none,
    holdTimer := none }

/-- The link after power-on reset (R164, R168, R170 to R172, R64). -/
def Link.reset : Link :=
  { framing := .undecided, receiver := .waiting, requests := [], replies := [], notices := [], sending := none,
    flags := 0, bank := 0, cursor := 0, resetPending := none }

/-- The part right after power-on reset. The SERVICE line stands low: no rule gives it a level (assumption 4). -/
def State.reset : State :=
  { tracker := Tracker.reset, table := [], lanes := Eight.all Lane.reset, log := { records := [], nextSerial := 0 },
    feeds := Feeds.reset, settings := Settings.reset, link := Link.reset, service := false, occasion := 0,
    pending := [] }

end Sys2Proof.Machine
end

