-- ==== Sys2Proof/Machine/Arith.lean ====
section
/-! DEFINITION. Machine/Arith.lean: positions, stamps and time arithmetic (chapter 1). -/

namespace Sys2Proof.Machine

/-! ## Standards (R1, R3, R5) -/

/-- The nominal frame rate (R1). -/
def Standard.fps : Standard → Nat
  | .std24 => 24
  | .std25 => 25
  | .std30 => 30
  | .std30df => 30

/-- Frames in the timecode day, FD (R1). -/
def Standard.dayFrames : Standard → Nat
  | .std24 => 2073600
  | .std25 => 2160000
  | .std30 => 2592000
  | .std30df => 2589408

/-- Frames in one hour of labels (R1). -/
def Standard.hourFrames : Standard → Nat
  | .std24 => 86400
  | .std25 => 90000
  | .std30 => 108000
  | .std30df => 107892

/-- Whether labels are drop-frame (R1). -/
def Standard.isDrop : Standard → Bool
  | .std24 => false
  | .std25 => false
  | .std30 => false
  | .std30df => true

/-- The pull-down the standard forces, if it forces one (R2). -/
def Standard.forcedPullDown : Standard → Option Bool
  | .std24 => none
  | .std25 => some false
  | .std30 => none
  | .std30df => some true

/-- Position units in a frame (R3). -/
def frameUnits : Nat := 4294967296

/-- The day length DL in pu (R3). -/
def Standard.dayLength (std : Standard) : Nat := std.dayFrames * frameUnits

/-- The reach in pu (R5). -/
def Standard.reach (std : Standard) : Nat := std.hourFrames * frameUnits

/-- The cue span limit in pu, one twelfth of an hour of frames (R5). -/
def Standard.spanLimit (std : Standard) : Nat := std.hourFrames / 12 * frameUnits

/-- A sum or difference of positions reduced into the timecode day (R3). -/
def Standard.into (std : Standard) (z : Int) : Nat := (z % (std.dayLength : Int)).toNat

/-- The signed distance d(x, y) from position `x` to position `y` (R4). -/
def Standard.dist (std : Standard) (x y : Nat) : Int :=
  ((x : Int) - y + std.dayLength / 2) % std.dayLength - std.dayLength / 2

/-- The frame number of a position (R3). -/
def frameOf (x : Nat) : Nat := x / frameUnits

/-- The fraction of a position (R3). -/
def fractionOf (x : Nat) : Nat := x % frameUnits

/-- The exact form of a position (R3). -/
def exactPos (x : Nat) : ExactPos := ⟨frameOf x, fractionOf x⟩

/-! ## Rounding (R10) -/

/-- A rounded value, and whether the rounding was not exact. -/
structure Rounded where
  value : Int
  inexact : Bool
deriving DecidableEq, Repr

/-- The exact value `num / den` rounded once by `mode`; `den` is above 0 (R10). -/
def roundQ (mode : Rounding) (num : Int) (den : Nat) : Rounded :=
  let low := num / (den : Int)
  let rest := num % (den : Int)
  if rest = 0 then ⟨low, false⟩
  else
    let value :=
      match mode with
      | .down => low
      | .up => low + 1
      | .towardZero => if num < 0 then low + 1 else low
      | .nearestEven =>
        if 2 * rest < den then low
        else if 2 * rest > den then low + 1
        else if low % 2 = 0 then low else low + 1
      | .nearestAway =>
        if 2 * rest < den then low
        else if 2 * rest > den then low + 1
        else if num < 0 then low else low + 1
    ⟨value, true⟩

/-- The mode a rounding selector names; `none` refuses the request with BAD_FIELD (R11). -/
def selectRounding (default : Rounding) (selector : Byte) : Option Rounding :=
  if selector = 0 then some .nearestEven
  else if selector = 1 then some .towardZero
  else if selector = 2 then some .down
  else if selector = 3 then some .up
  else if selector = 4 then some .nearestAway
  else if selector = 7 then some default
  else none

/-! ## Speeds (R7 to R9, R19) -/

/-- Samples a second (R7). -/
def SampleRate.hz : SampleRate → Nat
  | .hz48000 => 48000
  | .hz96000 => 96000

/-- The nominal frame period in samples, without pull-down (R7). -/
def nominalPeriod (std : Standard) (rate : SampleRate) : Nat := rate.hz / std.fps

/-- The nominal speed Spd_nom in pu per sample (R8). -/
def nominalSpeed (std : Standard) (pullDown : Bool) (rate : SampleRate) : Int :=
  if pullDown then (roundQ .nearestEven ((std.fps * frameUnits * 1000 : Nat) : Int) (1001 * rate.hz)).value
  else (roundQ .nearestEven ((std.fps * frameUnits : Nat) : Int) rate.hz).value

/-- A speed clamped to the range of ±Spd_max, 32 times the nominal speed (R9). -/
def clampSpeed (nominal spd : Int) : Int :=
  if spd > 32 * nominal then 32 * nominal
  else if spd < -(32 * nominal) then -(32 * nominal)
  else spd

/-- A speed as a ratio in thousandths of nominal, and the flags of its conversion (R19). -/
def speedRatio (mode : Rounding) (nominal spd : Int) : Int × OutFlags :=
  let r := roundQ mode (spd * 1000) nominal.toNat
  let clipped := if r.value > 32767 then 32767 else if r.value < -32767 then -32767 else r.value
  (clipped, { inexact := r.inexact, invalid := decide (clipped ≠ r.value), clamped := false, staged := false })

/-- The number of samples from count `a` to a later count `b` (R7). -/
def samplesFrom (a b : SampleCount) : Nat := (b - a).toNat

/-! ## Labels and frame numbers (R13 to R16) -/

/-- The checks of R13 that a stamp must pass under the standard in force. -/
def labelInRange (std : Standard) (hh mm ss ff : Nat) : Bool :=
  decide (hh < 24 ∧ mm < 60 ∧ ss < 60 ∧ ff < std.fps)

/-- The label names an omitted frame (R15). -/
def isOmitted (std : Standard) (mm ss ff : Nat) : Bool :=
  std.isDrop && decide (ss = 0 ∧ ff < 2 ∧ mm % 10 ≠ 0)

/-- The frame number of a checked label (R14). -/
def labelToFrame (std : Standard) (l : Label) : Nat :=
  let minutes := 60 * l.hh + l.mm
  let nondrop := (3600 * l.hh + 60 * l.mm + l.ss) * std.fps + l.ff
  if std.isDrop then nondrop - 2 * (minutes - minutes / 10) else nondrop

/-- The non-drop division of a frame count into a label (R16). -/
def divideLabel (fps n : Nat) : Label :=
  let s := n / fps
  ⟨s / 3600, s / 60 % 60, s % 60, n % fps⟩

/-- The label of a frame number (R16). -/
def frameToLabel (std : Standard) (n : Nat) : Label :=
  if std.isDrop then
    let m := n % 17982
    let n' := if m ≥ 2 then n + 18 * (n / 17982) + 2 * ((m - 2) / 1798) else n + 18 * (n / 17982)
    divideLabel 30 n'
  else divideLabel std.fps n

/-! ## Outcome flags (R12) -/

/-- All outcome flags clear. -/
def OutFlags.clear : OutFlags := { inexact := false, invalid := false, clamped := false, staged := false }

/-- The union of two sets of outcome flags (R12). -/
def OutFlags.union (a b : OutFlags) : OutFlags :=
  { inexact := a.inexact || b.inexact, invalid := a.invalid || b.invalid, clamped := a.clamped || b.clamped,
    staged := a.staged || b.staged }

/-! ## Stamps and positions (R17, R18) -/

/-- A stamp taken in: the stamp as legalised, its position, and the flags of its conversion. -/
structure TakenStamp where
  stamp : Stamp
  pos : Nat
  flags : OutFlags
deriving DecidableEq, Repr

/-- A stamp checked (R13), legalised (R15) and converted (R17); `none` is BAD_LABEL. -/
def takeStamp (std : Standard) (mode : Rounding) (st : Stamp) : Option TakenStamp :=
  if labelInRange std st.hh.toNat st.mm.toNat st.ss.toNat st.ff.toNat && decide (st.sf.toNat < 1000) then
    let omitted := isOmitted std st.mm.toNat st.ss.toNat st.ff.toNat
    let st' := if omitted then { st with ff := 2 } else st
    let frame := labelToFrame std ⟨st'.hh.toNat, st'.mm.toNat, st'.ss.toNat, st'.ff.toNat⟩
    let fraction := roundQ mode ((st'.sf.toNat * frameUnits : Nat) : Int) 1000
    some
      { stamp := st', pos := frame * frameUnits + fraction.value.toNat,
        flags := { inexact := fraction.inexact, invalid := omitted, clamped := false, staged := false } }
  else none

/-- A position reported as a stamp, and whether the subframe was not exact (R18). -/
def reportStamp (std : Standard) (mode : Rounding) (x : Nat) : Stamp × Bool :=
  let sf := roundQ mode ((fractionOf x * 1000 : Nat) : Int) frameUnits
  let carries := sf.value = 1000
  let frame := if carries then (frameOf x + 1) % std.dayFrames else frameOf x
  let l := frameToLabel std frame
  ({ hh := BitVec.ofNat 8 l.hh, mm := BitVec.ofNat 8 l.mm, ss := BitVec.ofNat 8 l.ss, ff := BitVec.ofNat 8 l.ff,
     sf := if carries then 0 else BitVec.ofNat 16 sf.value.toNat }, sf.inexact)

/-- A position reported in both forms (R72, R175). -/
def reportPos (std : Standard) (mode : Rounding) (x : Nat) : ReportedPos × OutFlags :=
  let st := reportStamp std mode x
  (⟨st.1, exactPos x⟩, { OutFlags.clear with inexact := st.2 })

/-! ## Tach transitions (R25, R29, R40) -/

/-- The position of tach transition `j` (R29). -/
def transitionPos (std : Standard) (edges j : Nat) : Nat :=
  std.into ((j / edges * frameUnits + j % edges * frameUnits / edges : Nat) : Int)

/-- The phase count of the cell that contains a position (R40). -/
def phaseOf (edges x : Nat) : Nat := frameOf x * edges + fractionOf x * edges / frameUnits

/-- The first transition position beyond `x` going forward (R30). -/
def nextTransition (std : Standard) (edges x : Nat) : Nat :=
  let j := phaseOf edges x + 1
  if transitionPos std edges j = x then transitionPos std edges (j + 1) else transitionPos std edges j

/-- The first transition position beyond `x` going in reverse (R30). -/
def previousTransition (std : Standard) (edges x : Nat) : Nat :=
  let j := phaseOf edges x
  if transitionPos std edges (j + 1) = x then transitionPos std edges j
  else if transitionPos std edges j = x then
    transitionPos std edges ((j + std.dayFrames * edges - 1) % (std.dayFrames * edges))
  else transitionPos std edges j

/-! ## The cue's own positions (R76, R80) -/

/-- The punch lead: the recorder latency in samples times Spd_nom (R76). -/
def punchLead (latency : Nat) (nominal : Int) : Nat := (latency * nominal).toNat

/-- The cue's pre-roll (R76). -/
def Contents.preRoll (c : Contents) (lead : Nat) : Nat :=
  max (c.streamer * frameUnits)
    (max (c.beepCount * c.beepSpacing * frameUnits) (if c.record then lead else 0))

/-- The cue's origin (R76). -/
def Contents.originPos (std : Standard) (c : Contents) (lead : Nat) : Nat :=
  std.into ((c.inPoint : Int) - c.preRoll lead)

/-- The cue's end; an open cue has none (R76). -/
def Contents.endPos (std : Standard) (c : Contents) : Option Nat :=
  c.outPoint.map fun out => std.into ((out : Int) + (c.tail * frameUnits : Nat))

/-- The span test (R54). -/
def Contents.spanOk (std : Standard) (c : Contents) : Bool :=
  match c.outPoint with
  | none => true
  | some out => decide (0 < std.dist out c.inPoint ∧ std.dist out c.inPoint ≤ std.spanLimit)

/-- The overlap test between an origin and the end before it (R77). -/
def overlapOk (std : Standard) (origin last : Nat) : Bool :=
  decide (0 < std.dist origin last ∧ std.dist origin last < std.reach)

/-- The tone phase increment of a frequency (R134). -/
def toneIncrement (rate : SampleRate) (hz : Nat) : BitVec 24 :=
  BitVec.ofInt 24 (roundQ .nearestEven ((hz * 2 ^ 24 : Nat) : Int) rate.hz).value

end Sys2Proof.Machine
end

