-- ==== Sys2Proof/Machine/Ops.lean ====
section
/-! DEFINITION. Machine/Ops.lean: the one way in which each block of the state is read and changed, and the codes of
named values (chapter 10). -/

namespace Sys2Proof.Machine

/-! ## Changing one block -/

/-- The state with its tracker changed by `f`. -/
def State.mapTracker (s : State) (f : Tracker → Tracker) : State := { s with tracker := f s.tracker }

/-- The state with its settings changed by `f`. -/
def State.mapSettings (s : State) (f : Settings → Settings) : State := { s with settings := f s.settings }

/-- The state with its feeds changed by `f`. -/
def State.mapFeeds (s : State) (f : Feeds → Feeds) : State := { s with feeds := f s.feeds }

/-- The state with its link changed by `f`. -/
def State.mapLink (s : State) (f : Link → Link) : State := { s with link := f s.link }

/-- The state with its cue table changed by `f`. -/
def State.mapTable (s : State) (f : CueTable → CueTable) : State := { s with table := f s.table }

/-- The state with its take log changed by `f`. -/
def State.mapLog (s : State) (f : TakeLog → TakeLog) : State := { s with log := f s.log }

/-- The state with its SERVICE line at `level` (R182). -/
def State.withService (s : State) (level : Bool) : State := { s with service := level }

/-- The lane numbered `i`. -/
def State.lane (s : State) (i : LaneId) : Lane := s.lanes.get i

/-- The state with lane `i` changed by `f`. -/
def State.mapLane (s : State) (i : LaneId) (f : Lane → Lane) : State :=
  { s with lanes := s.lanes.set i (f (s.lanes.get i)) }

/-- The free answer to the next order the manual leaves open, and the state in which it is used up (assumption 2). -/
def State.settleOrder (s : State) : Bool × State :=
  (Config.firstComesFirst s.occasion, { s with occasion := s.occasion + 1 })

/-- The free order of the lanes for what reaches several of them next, and the state in which it is used up
(assumption 3). -/
def State.settleLanes (s : State) : List LaneId × State :=
  (laneIds.map (Config.laneOrder s.occasion), { s with occasion := s.occasion + 1 })

/-! ## Quantities in force -/

/-- Spd_nom with the applied standard, pull-down and sample rate (R8). -/
def State.nominal (s : State) : Int :=
  nominalSpeed s.settings.standard s.settings.pullDown s.settings.sampleRate

/-- The punch lead with the applied recorder latency and Spd_nom (R76). -/
def State.lead (s : State) : Nat := punchLead s.settings.recorderLatency s.nominal

/-- The play state (R43). -/
def State.inPlay (s : State) : Bool :=
  decide ((s.tracker.state = .moving ∨ s.tracker.state = .coasting) ∧ 0 < s.tracker.spd
    ∧ s.settings.bandLow * s.nominal ≤ s.tracker.spd * 100
    ∧ s.tracker.spd * 100 ≤ s.settings.bandHigh * s.nominal)

/-- The tracker is UNREFERENCED or STOPPED (R153, R155). -/
def State.atRest (s : State) : Bool :=
  decide (s.tracker.state = .unreferenced ∨ s.tracker.state = .stopped)

/-! ## The cue table as a sparse list (R51) -/

/-- The slot numbered `n`, or `none` when it is EMPTY. -/
def slotAt : CueTable → Nat → Option Slot
  | [], _ => none
  | (k, v) :: t, n => if k = n then some v else slotAt t n

/-- The table with slot `n` DEFINED as `v`, its entries kept in rising order. -/
def putSlot : CueTable → Nat → Slot → CueTable
  | [], n, v => [(n, v)]
  | (k, w) :: t, n, v =>
    if n < k then (n, v) :: (k, w) :: t else if k = n then (n, v) :: t else (k, w) :: putSlot t n v

/-- The table with slot `n` EMPTY. -/
def dropSlot : CueTable → Nat → CueTable
  | [], _ => []
  | (k, w) :: t, n => if k = n then t else (k, w) :: dropSlot t n

/-- The table with slot `n`, when DEFINED, changed by `f`. -/
def changeSlot (t : CueTable) (n : Nat) (f : Slot → Slot) : CueTable :=
  match slotAt t n with
  | none => t
  | some v => putSlot t n (f v)

/-- The canonical form of the cue table: slot numbers strictly rising and below 512 (R51). -/
def tableWf : CueTable → Bool
  | [] => true
  | [(k, _)] => k < 512
  | (k, _) :: (k', v') :: t => k < k' && tableWf ((k', v') :: t)

/-- The label map: the DEFINED slot whose live label is `l` (R56). -/
def findLabel : CueTable → BitVec 16 → Option Nat
  | [], _ => none
  | (k, v) :: t, l => if v.live.label = l then some k else findLabel t l

/-- A label is taken by a slot other than `n` (R56). -/
def labelTaken (t : CueTable) (n : Nat) (l : BitVec 16) : Bool :=
  t.any fun e => decide (e.1 ≠ n) && (decide (e.2.live.label = l) || decide (e.2.pending.map (·.label) = some l))

/-- The live label of slot `n`; 0 for an EMPTY slot, which no rule asks for. -/
def State.liveLabel (s : State) (n : Nat) : BitVec 16 :=
  match slotAt s.table n with
  | none => 0
  | some v => v.live.label

/-! ## Codes of named values (R176, R177, R179) -/

/-- The position of a status flag (R176). -/
def Flag.position : Flag → Nat
  | .linkFault => 0
  | .noticeLost => 1
  | .edgeError => 2
  | .skip => 3
  | .indexMisplaced => 4
  | .codeError => 5
  | .overspeed => 6
  | .drift => 7
  | .lockLost => 8
  | .logFull => 9
  | .clockLost => 10

/-- The code of a status (R176). -/
def Status.code : Status → Byte
  | .ok => 0x00
  | .badKind => 0x01
  | .badLength => 0x02
  | .badField => 0x03
  | .badLabel => 0x04
  | .range => 0x05
  | .access => 0x06
  | .readOnly => 0x07
  | .state => 0x08
  | .inUse => 0x0A
  | .overlap => 0x0B
  | .openNotLast => 0x0C
  | .duplicate => 0x0D
  | .notFound => 0x0E
  | .busy => 0x0F

/-- The code of an engine mode (R176). -/
def EngineMode.code : EngineMode → Byte
  | .standby => 0
  | .rehearse => 1
  | .record => 2

/-- The engine mode a code names (R176). -/
def EngineMode.ofCode (c : Byte) : Option EngineMode :=
  if c = 0 then some .standby else if c = 1 then some .rehearse else if c = 2 then some .record else none

/-- The code of a standard (R176). -/
def Standard.code : Standard → Byte
  | .std24 => 0
  | .std25 => 1
  | .std30 => 2
  | .std30df => 3

/-- The standard a code names (R176). -/
def Standard.ofCode (c : Byte) : Option Standard :=
  if c = 0 then some .std24 else if c = 1 then some .std25 else if c = 2 then some .std30
  else if c = 3 then some .std30df else none

/-- The code of a source (R176). -/
def Source.code : Source → Byte
  | .tach => 0
  | .codeIn => 1
  | .localGen => 2

/-- The source a code names (R176). -/
def Source.ofCode (c : Byte) : Option Source :=
  if c = 0 then some .tach else if c = 1 then some .codeIn else if c = 2 then some .localGen else none

/-- The code of a cycle action (R176). -/
def CycleAction.code : CycleAction → Byte
  | .off => 0
  | .notify => 1
  | .wrap => 2
  | .halt => 3

/-- The cycle action a code names (R176). -/
def CycleAction.ofCode (c : Byte) : Option CycleAction :=
  if c = 0 then some .off else if c = 1 then some .notify else if c = 2 then some .wrap
  else if c = 3 then some .halt else none

/-- The code of a tracker state (R176). -/
def TrackerState.code : TrackerState → Byte
  | .unreferenced => 0
  | .stopped => 1
  | .moving => 2
  | .coasting => 3

/-- The code of a lane state (R179). -/
def LaneState.code : LaneState → Byte
  | .idle => 0
  | .armed => 1
  | .done => 2

/-- The code of an event kind (R179). -/
def EventKind.code : EventKind → Byte
  | .streamerStart => 1
  | .streamerEnd => 2
  | .beepOn => 3
  | .beepOff => 4
  | .punchIn => 5
  | .punchOut => 6
  | .cueEnd => 7

/-- The code of a mark (R179). -/
def Mark.code : Mark → Byte
  | .live => 0
  | .passed => 1
  | .restored => 2

/-- The code of an end cause (R179). -/
def EndCause.code : EndCause → Byte
  | .out => 1
  | .broken => 2
  | .lockLost => 3
  | .clockLost => 4
  | .standby => 5
  | .mode => 6
  | .disarmed => 7
  | .cycle => 8
  | .reset => 9

/-- The code of a NOTE_TRACKER cause (R179): the row of R49's table, SOURCE and STANDARD counted apart. -/
def TrackerCause.code : TrackerCause → Byte
  | .referenced => 1
  | .moving => 2
  | .stall => 3
  | .dropout => 4
  | .recovered => 5
  | .lockLost => 6
  | .hold => 7
  | .halt => 8
  | .localStop => 9
  | .source => 10
  | .standard => 11
  | .drift => 12
  | .cycleEnd => 13
  | .clockLost => 14
  | .clockBack => 15
  | .jump => 16

/-- The code of a NOTE_LANE cause (R179). -/
def LaneCause.code : LaneCause → Byte
  | .cueStart => 1
  | .cueSkipped => 2
  | .done => 3
  | .reArmed => 4
  | .logFull => 5

/-- The reason byte of a NOTE_LANE (R179). -/
def LaneCause.reason : LaneCause → Byte
  | .cueStart => 0
  | .cueSkipped => 1
  | .done => 0
  | .reArmed => 0
  | .logFull => 0

/-- The code of a view (R176). -/
def View.code : View → Byte
  | .live => 0
  | .pending => 1

/-- The code of a reset scope (R176). -/
def ResetScope.code : ResetScope → Byte
  | .full => 0
  | .engine => 1

/-- The reset scope a code names (R174, R176). -/
def ResetScope.ofCode (c : Byte) : Option ResetScope :=
  if c = 0 then some .full else if c = 1 then some .engine else none

/-- A level as a byte. -/
def boolByte (b : Bool) : Byte := if b then 1 else 0

/-- A lane number from its byte; `none` is BAD_FIELD (R75, R79, R83 to R85). -/
def laneOfByte (b : Byte) : Option LaneId := if h : b.toNat < 8 then some ⟨b.toNat, h⟩ else none

end Sys2Proof.Machine
end

