-- ==== Sys2Proof/Machine/Operands.lean ====
section
/-! DEFINITION. Machine/Operands.lean: how the values that requests carry are checked and legalised (R55, R63, R134,
R150), and the answer a request gets (R169). -/

namespace Sys2Proof.Machine

/-! ## Answers (R169) -/

/-- The status, the flags and the body of a reply. -/
structure Answer where
  status : Status
  flags : OutFlags
  body : ReplyBody
deriving DecidableEq, Repr

/-- A refusal: flags clear and no body (R12, R169). -/
def Answer.refuse (st : Status) : Answer := { status := st, flags := OutFlags.clear, body := .none }

/-- A refusal of RUNLIST_WRITE that names the failing entry (R75, R169). -/
def Answer.refuseAt (st : Status) (index : Nat) : Answer :=
  { status := st, flags := OutFlags.clear, body := .failedIndex index }

/-- An executed request's answer. -/
def Answer.ok (flags : OutFlags) (body : ReplyBody) : Answer := { status := .ok, flags := flags, body := body }

/-- The flags of a value that was clamped or not (R12). -/
def clampFlags (clamped : Bool) : OutFlags := { OutFlags.clear with clamped := clamped }

/-! ## Clamping (R55, R150) -/

/-- The legal value nearest a written one (R150). -/
def clampTo (low high : Int) (v : Int) : Int := if v < low then low else if v > high then high else v

/-- The tone frequency stored for a written one: clamped, then rounded to 10 Hz (R134). -/
def legalFrequency (v : Int) : Int := 10 * (roundQ .nearestEven (clampTo 300 3000 v) 10).value

/-- The edges per frame stored for a written value: rounded down to a multiple of 4, and clamped (R41). -/
def legalEdges (v : Int) : Int := clampTo 4 1024 (v / 4 * 4)

/-- The stored spacing of beeps (R55). -/
def legalSpacing (v : Nat) : Nat := if v < 2 then 2 else if v > 48 then 48 else v

/-- The stored length of beeps, with the stored spacing (R55). -/
def legalLength (spacing v : Nat) : Nat :=
  let w := if v < 1 then 1 else if v > 8 then 8 else v
  if w ≥ spacing then spacing - 1 else w

/-! ## Setting identifiers (R148, R175) -/

/-- The form a setting's value takes on the link (R175). -/
inductive SettingForm where
  | byte
  | number
  | count
  | window
deriving DecidableEq, Repr

/-- The access class of a setting (R149). -/
inductive Access where
  | op
  | eng
  | ro
deriving DecidableEq, Repr

/-- The catalogue: the form and the access class of an identifier; `none` is not in the catalogue (R148). -/
def catalogue (id : Byte) : Option (SettingForm × Access) :=
  match id.toNat with
  | 0x01 => some (.byte, .op)
  | 0x02 => some (.byte, .op)
  | 0x03 => some (.number, .op)
  | 0x04 => some (.number, .op)
  | 0x05 => some (.byte, .eng)
  | 0x06 => some (.number, .op)
  | 0x07 => some (.number, .op)
  | 0x08 => some (.byte, .op)
  | 0x09 => some (.number, .op)
  | 0x0A => some (.number, .op)
  | 0x0B => some (.number, .op)
  | 0x0C => some (.window, .op)
  | 0x0D => some (.byte, .op)
  | 0x0E => some (.number, .op)
  | 0x0F => some (.byte, .op)
  | 0x20 => some (.number, .op)
  | 0x21 => some (.number, .op)
  | 0x22 => some (.number, .op)
  | 0x23 => some (.number, .op)
  | 0x24 => some (.number, .op)
  | 0x25 => some (.number, .op)
  | 0x26 => some (.number, .op)
  | 0x27 => some (.number, .op)
  | 0x28 => some (.number, .op)
  | 0x29 => some (.number, .op)
  | 0x2A => some (.number, .op)
  | 0x2B => some (.number, .op)
  | 0x2C => some (.number, .op)
  | 0x2D => some (.number, .op)
  | 0x2E => some (.number, .op)
  | 0x2F => some (.number, .op)
  | 0x30 => some (.number, .eng)
  | 0x31 => some (.number, .eng)
  | 0x32 => some (.number, .eng)
  | 0x33 => some (.number, .eng)
  | 0x34 => some (.number, .eng)
  | 0x35 => some (.number, .eng)
  | 0x36 => some (.number, .eng)
  | 0x37 => some (.number, .eng)
  | 0x38 => some (.number, .eng)
  | 0x50 => some (.count, .ro)
  | 0x51 => some (.byte, .ro)
  | 0x52 => some (.number, .ro)
  | 0x53 => some (.number, .ro)
  | 0x54 => some (.number, .ro)
  | _ => none

/-- The form of a written value. -/
def formOf : SettingValue → SettingForm
  | .byte _ => .byte
  | .number _ => .number
  | .count _ => .count
  | .window _ _ => .window

/-- The lane of a tone setting: the three low positions of its identifier (R134, R135). -/
def laneOfId (id : Byte) : LaneId := ⟨id.toNat % 8, Nat.mod_lt _ (by decide)⟩

/-- The identifier of a staging-list entry (R148, R154). -/
def Staged.id : Staged → Byte
  | .bandLow _ => 0x09
  | .bandHigh _ => 0x0A
  | .cycleWindow _ _ => 0x0C
  | .cycleAction _ => 0x0D
  | .autoRearm _ => 0x0E
  | .toneFrequency lane _ => BitVec.ofNat 8 (0x20 + lane.val)
  | .stallTimeout _ => 0x34
  | .codeLatency _ => 0x35
  | .coastLimit _ => 0x36
  | .driftTolerance _ => 0x38

/-- A write joins the staging list: in place of the entry of the same setting, or at the end (R154). -/
def putStaged (list : List Staged) (e : Staged) : List Staged :=
  if list.any fun f => decide (f.id = e.id) then list.map fun f => if f.id = e.id then e else f else list ++ [e]

/-- The standard is the one in force when the entry's window was checked, so R6 takes it from the list (R6). -/
def Staged.isWindow : Staged → Bool
  | .cycleWindow _ _ => true
  | .bandLow _ => false
  | .bandHigh _ => false
  | .cycleAction _ => false
  | .autoRearm _ => false
  | .toneFrequency _ _ => false
  | .stallTimeout _ => false
  | .codeLatency _ => false
  | .coastLimit _ => false
  | .driftTolerance _ => false

/-! ## Addressing of cue requests (R63) -/


/-- The operand of a form is well formed (R63, R67 check 1). -/
def formOk (form : Byte) (operand : BitVec 16) : Bool :=
  match form.toNat with
  | 0 => decide (operand.toNat ≤ 511)
  | 1 => decide (operand.toNat ≤ 63)
  | 2 => true
  | 3 => decide (-64 ≤ operand.toInt ∧ operand.toInt ≤ 63)
  | 4 => true
  | _ => false

/-- The slot a well-formed form and operand address; `none` is NOT_FOUND (R63). -/
def addressSlot (t : CueTable) (bank cursor : Nat) (form : Byte) (operand : BitVec 16) : Option Nat :=
  match form.toNat with
  | 0 => some operand.toNat
  | 1 => some (64 * bank + operand.toNat)
  | 2 => some (64 * bank + cursor)
  | 3 => some (64 * bank + (((cursor : Int) + operand.toInt) % 64).toNat)
  | _ => findLabel t operand

/-- The form is CURSOR (R64). -/
def isCursorForm (form : Byte) : Bool := decide (form = 2)

/-- The cursor after an executed request that accessed `n` slots in a form (R64). -/
def cursorAfter (form : Byte) (cursor n : Nat) : Nat := if isCursorForm form then (cursor + n) % 64 else cursor

end Sys2Proof.Machine
end

