-- ==== Sys2Proof/WellFormed.lean ====
section
/-! DEFINITION. WellFormed.lean: which commands are of the form their row has. `exec` gives every command a meaning,
well formed or not: the checks say which commands a sender can put on the lines as that row. -/

namespace Sys2Proof

/-- The identifiers that have a row of their own in the table. -/
def settingRowIds : List Byte := [0x01, 0x02, 0x03, 0x04, 0x05, 0x06, 0x07, 0x0B, 0x30, 0x31, 0x32]

/-- A run list of `n` entries fits the 248 bytes of a frame's body (R165, R176). -/
def fitsFrame (n : Nat) : Bool := 2 + 2 * n ≤ 248

/-- The shape a command of each row has. -/
def Instr.wellFormed : Instr → Bool
  | .settingWrite _ id _ _ => ¬ settingRowIds.contains id
  | .runlistWrite _ _ slots => fitsFrame slots.length
  | .frameReceived _ bytes => bytes ≠ []
  | .receptionError bytes => bytes ≠ []
  | .codeRecord bytes => bytes.length = 7 ∧ bytes.head? = some 0x5A
  | .framingStartByte b => b = 0xC3 ∨ b = 0x3A
  | .ping _ => true
  | .statusRead _ _ => true
  | .reset _ _ => true
  | .resetFull => true
  | .resetEngine => true
  | .powerOnReset => true
  | .settingRead _ _ _ => true
  | .engineModeWrite _ _ _ => true
  | .pictureStandardWrite _ _ _ => true
  | .pullDownWrite _ _ _ => true
  | .sampleRateWrite _ _ _ => true
  | .sourceWrite _ _ _ => true
  | .localRatioWrite _ _ _ => true
  | .stagingHoldWrite _ _ _ => true
  | .edgesPerFrameWrite _ _ _ => true
  | .indexStateWrite _ _ _ => true
  | .tachFilterWrite _ _ _ => true
  | .defaultRoundingWrite _ _ _ => true
  | .settingSetBits _ _ _ => true
  | .settingClearBits _ _ _ => true
  | .cueSeek _ _ _ => true
  | .cueRead _ _ _ _ _ _ _ => true
  | .cueWrite _ _ _ _ _ => true
  | .cueErase _ _ _ => true
  | .runlistRead _ _ => true
  | .laneArm _ _ => true
  | .laneDisarm _ _ => true
  | .laneRead _ _ => true
  | .positionJam _ _ _ => true
  | .positionRead _ _ => true
  | .takePeek _ _ _ _ => true
  | .takeRelease _ _ => true
  | .frameGapTimeout => true
  | .transmitComplete _ => true
  | .wordClockSample _ _ _ => true
  | .codeRecordGap => true
  | .stall => true
  | .dropout => true
  | .clockLost => true
  | .clockBack => true
  | .holdTimer => true
  | .ovlSendComplete => true
  | .coutSendComplete => true

end Sys2Proof
end

