-- ==== Sys2Proof/Decode.lean ====
section
/-! DEFINITION. Decode.lean: a request's frame body read into a request (R168, R175 to R178), and a request written as
a frame body. The rows of spec/opcode_table.json have no bits, so no word spells a command. -/

namespace Sys2Proof

/-- The command that a word spells by the table's bits: the table gives bits to no row, so no word spells one. -/
def decodeTableWord (_nbits _w : Nat) : Option Instr := none

namespace Machine

/-! ## Reading fields (R175) -/

/-- Two bytes, most significant first (R175). -/
def word16 (a b : Byte) : BitVec 16 := a ++ b

/-- Four bytes, most significant first (R175). -/
def word32 (a b c d : Byte) : BitVec 32 := a ++ b ++ c ++ d

/-- Six bytes, most significant first (R175). -/
def word48 (a b c d e f : Byte) : BitVec 48 := a ++ b ++ c ++ d ++ e ++ f

/-- A byte that the mask selects or not, and the bytes after it. -/
def readByteIf (on : Bool) (bytes : List Byte) : Option (Option Byte × List Byte) :=
  match on, bytes with
  | false, rest => some (none, rest)
  | true, b :: rest => some (some b, rest)
  | true, [] => none

/-- A label, when selected (R178). -/
def readLabelIf (on : Bool) (bytes : List Byte) : Option (Option (BitVec 16) × List Byte) :=
  match on, bytes with
  | false, rest => some (none, rest)
  | true, a :: b :: rest => some (some (word16 a b), rest)
  | true, _ => none

/-- A stamp, when selected (R175, R178). -/
def readStampIf (on : Bool) (bytes : List Byte) : Option (Option Stamp × List Byte) :=
  match on, bytes with
  | false, rest => some (none, rest)
  | true, hh :: mm :: ss :: ff :: a :: b :: rest => some (some ⟨hh, mm, ss, ff, word16 a b⟩, rest)
  | true, _ => none

/-- The OUT group, when selected: presence, then a stamp that is ignored when presence is 0 (R178). -/
def readOutIf (on : Bool) (bytes : List Byte) : Option (Option (Option Stamp) × List Byte) :=
  match on, bytes with
  | false, rest => some (none, rest)
  | true, p :: hh :: mm :: ss :: ff :: a :: b :: rest =>
    some (some (if p = 0 then none else some ⟨hh, mm, ss, ff, word16 a b⟩), rest)
  | true, _ => none

/-- The BEEPS group, when selected (R178). -/
def readBeepsIf (on : Bool) (bytes : List Byte) : Option (Option (Byte × Byte × Byte) × List Byte) :=
  match on, bytes with
  | false, rest => some (none, rest)
  | true, n :: sp :: len :: rest => some (some (n, sp, len), rest)
  | true, _ => none

/-- The groups that a mask selects, in mask order; `none` is BAD_LENGTH (R66, R178). INFO takes no bytes in a write. -/
def readGroups (mask : Byte) (bytes : List Byte) : Option CueGroups :=
  match readLabelIf (mask.getLsbD 0) bytes with
  | none => none
  | some (label, r1) =>
    match readStampIf (mask.getLsbD 1) r1 with
    | none => none
    | some (inPoint, r2) =>
      match readOutIf (mask.getLsbD 2) r2 with
      | none => none
      | some (outPoint, r3) =>
        match readByteIf (mask.getLsbD 3) r3 with
        | none => none
        | some (streamer, r4) =>
          match readBeepsIf (mask.getLsbD 4) r4 with
          | none => none
          | some (beeps, r5) =>
            match readByteIf (mask.getLsbD 5) r5 with
            | none => none
            | some (tail, r6) =>
              match readByteIf (mask.getLsbD 6) r6 with
              | some (flags, []) =>
                some
                  { label := label, inPoint := inPoint, outPoint := outPoint, streamer := streamer, beeps := beeps,
                    tail := tail, flags := flags, info := mask.getLsbD 7 }
              | _ => none

/-- Slot numbers of two bytes each, to the end of the body; `none` is BAD_LENGTH. -/
def readSlots : List Byte → Option (List (BitVec 16))
  | [] => some []
  | [_] => none
  | a :: b :: rest => (readSlots rest).map fun t => word16 a b :: t

/-- A setting's value in the width of its identifier; `none` is BAD_LENGTH. An identifier outside the catalogue fits any
length, since its own check is the one that refuses it (R148, R151, R175). -/
def readValue (id : Byte) (bytes : List Byte) : Option SettingValue :=
  match (catalogue id).map Prod.fst, bytes with
  | some SettingForm.byte, [b] => some (.byte b)
  | some SettingForm.number, [a, b, c, d] => some (.number (word32 a b c d))
  | some SettingForm.count, [a, b, c, d, e, f] => some (.count (word48 a b c d e f))
  | some SettingForm.window, [h1, m1, s1, f1, a1, b1, h2, m2, s2, f2, a2, b2] =>
    some (.window ⟨h1, m1, s1, f1, word16 a1 b1⟩ ⟨h2, m2, s2, f2, word16 a2 b2⟩)
  | none, _ => some (.byte 0)
  | some _, _ => none

/-- A read value, or BAD_LENGTH. -/
def orBadLength {α β : Type} (f : α → β) : Option α → Except Status β
  | none => .error .badLength
  | some a => .ok (f a)

/-- A request's body read by its kind: the common checks of R168, BAD_KIND and then BAD_LENGTH (R168, R176). -/
def parseRequest (kind : Byte) (body : List Byte) : Except Status Request :=
  match kind.toNat, body with
  | 0x01, [] => .ok .ping
  | 0x02, [a, b] => .ok (.statusRead (word16 a b))
  | 0x03, [scope] => .ok (.reset scope)
  | 0x04, [id, r] => .ok (.settingRead id r)
  | 0x05, id :: r :: value => orBadLength (.settingWrite id r) (readValue id value)
  | 0x06, [id, mask] => .ok (.settingSetBits id mask)
  | 0x07, [id, mask] => .ok (.settingClearBits id mask)
  | 0x08, [bank, cursor] => .ok (.cueSeek bank cursor)
  | 0x09, [form, a, b, count, mask, view, r] => .ok (.cueRead form (word16 a b) count mask view r)
  | 0x0A, form :: a :: b :: r :: mask :: groups =>
    orBadLength (.cueWrite form (word16 a b) r) (readGroups mask groups)
  | 0x0B, [form, a, b] => .ok (.cueErase form (word16 a b))
  | 0x0C, lane :: count :: slots =>
    match readSlots slots with
    | none => .error .badLength
    | some l => if l.length = count.toNat then .ok (.runlistWrite lane l) else .error .badLength
  | 0x0D, [lane] => .ok (.runlistRead lane)
  | 0x0E, [lane] => .ok (.laneArm lane)
  | 0x0F, [lane] => .ok (.laneDisarm lane)
  | 0x10, [lane] => .ok (.laneRead lane)
  | 0x11, [r, hh, mm, ss, ff, a, b] => .ok (.positionJam r ⟨hh, mm, ss, ff, word16 a b⟩)
  | 0x12, [r] => .ok (.positionRead r)
  | 0x13, [skip, count, r] => .ok (.takePeek skip count r)
  | 0x14, [count] => .ok (.takeRelease count)
  | k, _ => if 1 ≤ k ∧ k ≤ 0x14 then .error .badLength else .error .badKind

/-! ## Writing fields (R175 to R178) -/

/-- A two-byte field (R175). -/
def bytes16 (v : BitVec 16) : List Byte := [v.extractLsb' 8 8, v.extractLsb' 0 8]

/-- A stamp in its six bytes (R175). -/
def stampField (st : Stamp) : List Byte := [st.hh, st.mm, st.ss, st.ff] ++ bytes16 st.sf

/-- A setting's value in its width (R175). -/
def valueField : SettingValue → List Byte
  | .byte b => [b]
  | .number v => [v.extractLsb' 24 8, v.extractLsb' 16 8, v.extractLsb' 8 8, v.extractLsb' 0 8]
  | .count v =>
    [v.extractLsb' 40 8, v.extractLsb' 32 8, v.extractLsb' 24 8, v.extractLsb' 16 8, v.extractLsb' 8 8,
      v.extractLsb' 0 8]
  | .window a b => stampField a ++ stampField b

/-- The mask byte of the groups (R178). -/
def maskField (g : CueGroups) : Byte :=
  (if g.label.isSome then 1 else 0) ||| (if g.inPoint.isSome then 2 else 0) ||| (if g.outPoint.isSome then 4 else 0)
    ||| (if g.streamer.isSome then 8 else 0) ||| (if g.beeps.isSome then 16 else 0)
    ||| (if g.tail.isSome then 32 else 0) ||| (if g.flags.isSome then 64 else 0) ||| (if g.info then 128 else 0)

/-- A field that is there only when its group is selected. -/
def fieldIf {α : Type} (f : α → List Byte) : Option α → List Byte
  | none => []
  | some a => f a

/-- The OUT group: presence, then the stamp, six spare bytes when presence is 0 (R178). -/
def outField : Option Stamp → List Byte
  | none => [0, 0, 0, 0, 0, 0, 0]
  | some st => 1 :: stampField st

/-- The groups in mask order (R178). -/
def groupsField (g : CueGroups) : List Byte :=
  fieldIf bytes16 g.label ++ fieldIf stampField g.inPoint ++ fieldIf outField g.outPoint
    ++ fieldIf (fun b => [b]) g.streamer ++ fieldIf (fun b => [b.1, b.2.1, b.2.2]) g.beeps
    ++ fieldIf (fun b => [b]) g.tail ++ fieldIf (fun b => [b]) g.flags

/-- The body of a request's frame (R176). -/
def requestBody : Request → List Byte
  | .ping => []
  | .statusRead mask => bytes16 mask
  | .reset scope => [scope]
  | .settingRead id r => [id, r]
  | .settingWrite id r v => [id, r] ++ valueField v
  | .settingSetBits id mask => [id, mask]
  | .settingClearBits id mask => [id, mask]
  | .cueSeek bank cursor => [bank, cursor]
  | .cueRead form operand count mask view r => [form] ++ bytes16 operand ++ [count, mask, view, r]
  | .cueWrite form operand r g => [form] ++ bytes16 operand ++ [r, maskField g] ++ groupsField g
  | .cueErase form operand => [form] ++ bytes16 operand
  | .runlistWrite lane slots => [lane, BitVec.ofNat 8 slots.length] ++ (slots.map bytes16).flatten
  | .runlistRead lane => [lane]
  | .laneArm lane => [lane]
  | .laneDisarm lane => [lane]
  | .laneRead lane => [lane]
  | .positionJam r st => [r] ++ stampField st
  | .positionRead r => [r]
  | .takePeek skip count r => [skip, count, r]
  | .takeRelease count => [count]

/-- A request that a frame's body can spell: a setting's value has the form of its identifier, and a run list fits a
frame (R165, R175). -/
def requestFits : Request → Bool
  | .settingWrite id _ v => decide ((catalogue id).map (·.1) = some (formOf v))
  | .runlistWrite _ slots => fitsFrame slots.length
  | .ping => true
  | .statusRead _ => true
  | .reset _ => true
  | .settingRead _ _ => true
  | .settingSetBits _ _ => true
  | .settingClearBits _ _ => true
  | .cueSeek _ _ => true
  | .cueRead _ _ _ _ _ _ => true
  | .cueWrite _ _ _ _ => true
  | .cueErase _ _ => true
  | .runlistRead _ => true
  | .laneArm _ => true
  | .laneDisarm _ => true
  | .laneRead _ => true
  | .positionJam _ _ => true
  | .positionRead _ => true
  | .takePeek _ _ _ => true
  | .takeRelease _ => true

end Machine

end Sys2Proof
end

