-- ==== Sys2Proof/Machine/Encode.lean ====
section
/-! DEFINITION. Machine/Encode.lean: the bytes of every record the part sends (chapter 10). The state holds what is
sent as structured data; these functions say which bytes stand on the line. -/

namespace Sys2Proof.Machine

/-! ## Fields (R175) -/

/-- A number in `n` bytes, most significant first, two's complement when negative (R175). -/
def bytesOf (n : Nat) (v : Int) : List Byte :=
  (List.range n).map fun k => BitVec.ofInt 8 (v / (256 ^ (n - 1 - k) : Nat))

/-- A stamp, 6 bytes. -/
def stampBytes (st : Stamp) : List Byte := [st.hh, st.mm, st.ss, st.ff] ++ bytesOf 2 st.sf.toNat

/-- An exact position, 7 bytes. -/
def exactBytes (x : ExactPos) : List Byte := bytesOf 3 x.frame ++ bytesOf 4 x.fraction

/-- A reported position, 13 bytes. -/
def reportedBytes (x : ReportedPos) : List Byte := stampBytes x.stamp ++ exactBytes x.exact

/-- A presence byte, and the field when it is present (R177). -/
def presenceBytes {α : Type} (f : α → List Byte) : Option α → List Byte
  | none => [0]
  | some a => 1 :: f a

/-- The check byte that makes a sum with `bytes` a multiple of 256 (R165, R180, R181). -/
def checkByte (bytes : List Byte) : Byte := -(bytes.foldl (· + ·) 0)

/-! ## Records of the feeds (R180, R181) -/

/-- The four bytes of a label. -/
def labelBytes (l : Label) : List Byte :=
  [BitVec.ofNat 8 l.hh, BitVec.ofNat 8 l.mm, BitVec.ofNat 8 l.ss, BitVec.ofNat 8 l.ff]

/-- The flag byte of a code record (R180). -/
def codeFlagByte (drop hold reverse : Bool) : Byte :=
  (if drop then 1 else 0) + (if hold then 2 else 0) + (if reverse then 4 else 0)

/-- A code record on COUT, 7 bytes (R180). -/
def CodeOut.bytes (c : CodeOut) : List Byte :=
  let inner := labelBytes c.label ++ [codeFlagByte c.drop c.hold c.reverse]
  0x5A :: inner ++ [checkByte inner]

/-- The two bytes of a lane in an overlay record (R181). -/
def OverlayItem.bytes (i : OverlayItem) : List Byte :=
  bytesOf 2 ((if i.shown then 0x8000 else 0) + (if i.punch then 0x4000 else 0) + i.x)

/-- An overlay record on OVL, 22 bytes (R181). -/
def OverlayRecord.bytes (o : OverlayRecord) : List Byte :=
  let inner := labelBytes o.label ++ (o.items.toList.map OverlayItem.bytes).flatten
  0x7E :: inner ++ [checkByte inner]

/-! ## The TONE stream (R138, R182) -/

/-- The sixteen bits of a slot of a TONE frame, most significant bit first (R182). -/
def slotBits (v : BitVec 16) : List Bool := (List.range 16).map fun k => v.getLsbD (15 - k)

/-- The bits that stand on TONE for the frame of a sample: the eight slots, slot 0 first (R138, R182). -/
def Feeds.toneStream (f : Feeds) : List Bool := (f.tone.toList.map slotBits).flatten

/-! ## Take records and notices (R179) -/

/-- A take record, 38 bytes OPEN and 58 CLOSED (R179). -/
def ReportedTake.bytes (t : ReportedTake) : List Byte :=
  bytesOf 2 t.serial.toNat ++ [boolByte t.closing.isSome, BitVec.ofNat 8 t.lane.val] ++ bytesOf 2 t.slot
    ++ bytesOf 2 t.label.toNat ++ bytesOf 2 t.number
    ++ [(if t.numberHeld then 1 else 0) + (if t.coasted then 2 else 0)]
    ++ reportedBytes t.inPos ++ bytesOf 6 t.inSample.toNat ++ bytesOf 8 t.overshoot
    ++ (match t.closing with
        | none => []
        | some c => reportedBytes c.pos ++ bytesOf 6 c.sample.toNat ++ [c.cause.code])

/-- The kind of a notice (R176). -/
def Notice.kind : Notice → Byte
  | .event .. => 0x60
  | .take .. => 0x61
  | .tracker .. => 0x62
  | .lane .. => 0x63
  | .fault .. => 0x64

/-- The body of a notice (R179). -/
def Notice.body : Notice → List Byte
  | .event i slot e mark overshoot sample =>
    [BitVec.ofNat 8 i.val] ++ bytesOf 2 slot ++ [e.kind.code, BitVec.ofNat 8 e.beep]
      ++ exactBytes (exactPos e.target) ++ [mark.code] ++ bytesOf 8 overshoot ++ bytesOf 6 sample.toNat
  | .take closed record => boolByte closed :: record.bytes
  | .tracker state cause pos sample => [state.code, cause.code] ++ exactBytes pos ++ bytesOf 6 sample.toNat
  | .lane i cause state index slot label sample punchIn =>
    [BitVec.ofNat 8 i.val, cause.code, state.code, BitVec.ofNat 8 index] ++ bytesOf 2 slot
      ++ bytesOf 2 label.toNat ++ bytesOf 6 sample.toNat ++ [cause.reason]
      ++ (match punchIn with
          | none => []
          | some x => exactBytes x)
  | .fault flag sample => BitVec.ofNat 8 flag.position :: bytesOf 6 sample.toNat

/-! ## Replies (R176 to R178) -/

/-- The flag byte of a reply (R176). -/
def OutFlags.byte (f : OutFlags) : Byte :=
  (if f.inexact then 1 else 0) + (if f.invalid then 2 else 0) + (if f.clamped then 4 else 0)
    + (if f.staged then 8 else 0)

/-- A setting's value in the width R175 gives it. -/
def ReportedValue.bytes : ReportedValue → List Byte
  | .byte b => [b]
  | .number v => bytesOf 4 v
  | .count v => bytesOf 6 v.toNat
  | .window first last => reportedBytes first ++ reportedBytes last

/-- The selected groups of a cue in mask order (R178). -/
def ReportedGroups.bytes (g : ReportedGroups) : List Byte :=
  (match g.label with
    | none => []
    | some l => bytesOf 2 l.toNat)
  ++ (match g.inPoint with
    | none => []
    | some x => reportedBytes x)
  ++ (match g.outPoint with
    | none => []
    | some x => presenceBytes reportedBytes x)
  ++ (match g.streamer with
    | none => []
    | some n => bytesOf 1 n)
  ++ (match g.beeps with
    | none => []
    | some (n, sp, len) => bytesOf 1 n ++ bytesOf 1 sp ++ bytesOf 1 len)
  ++ (match g.tail with
    | none => []
    | some n => bytesOf 1 n)
  ++ (match g.record with
    | none => []
    | some b => [boolByte b])
  ++ (match g.info with
    | none => []
    | some (takes, refs, pending) => bytesOf 2 takes ++ bytesOf 1 refs ++ [boolByte pending])

/-- A CUE_READ entry (R178). -/
def CueEntry.bytes (e : CueEntry) : List Byte :=
  bytesOf 2 e.slot ++
    match e.defined with
    | none => [0]
    | some (view, groups) => [1, view.code] ++ groups.bytes

/-- An event as LANE_READ gives it: kind, beep number and exact target (R177). -/
def laneEventBytes (k : EventKind) (beep : Nat) (target : ExactPos) : List Byte :=
  [k.code] ++ bytesOf 1 beep ++ exactBytes target

/-- The LANE_READ reply (R177). -/
def LaneReport.bytes (r : LaneReport) : List Byte :=
  [r.state.code]
    ++ (match r.current with
        | none => []
        | some (index, slot, label) => bytesOf 1 index ++ bytesOf 2 slot ++ bytesOf 2 label.toNat)
    ++ bytesOf 1 r.entries
    ++ bytesOf 1 r.queue.length ++ (r.queue.map fun e => laneEventBytes e.1 e.2.1 e.2.2).flatten
    ++ bytesOf 1 r.stack.length
    ++ (r.stack.map fun e =>
        laneEventBytes e.1 e.2.1 e.2.2.1 ++ [Mark.code (if e.2.2.2 then .live else .passed)]).flatten
    ++ presenceBytes (fun n : BitVec 16 => bytesOf 2 n.toNat) r.openTake
    ++ [boolByte r.punchLine, boolByte r.streamer] ++ bytesOf 1 r.tone

/-- The fields of a reply after its status and flags (R177). -/
def ReplyBody.bytes : ReplyBody → List Byte
  | .none => []
  | .failedIndex index => bytesOf 1 index
  | .ping code revision lanes slots => bytesOf 2 code.toNat ++ [revision] ++ bytesOf 1 lanes ++ bytesOf 2 slots
  | .status flags notices => bytesOf 2 flags.toNat ++ bytesOf 1 notices
  | .reset scope => [scope.code]
  | .settingRead id applied staged => [id] ++ applied.bytes ++ presenceBytes ReportedValue.bytes staged
  | .settingWrite id stored => [id] ++ stored.bytes
  | .bits id before => [id, before]
  | .seek bank cursor => bytesOf 1 bank ++ bytesOf 1 cursor
  | .cueRead entries => (entries.map CueEntry.bytes).flatten
  | .cueWrite slot view groups => bytesOf 2 slot ++ [view.code] ++ groups.bytes
  | .cueErase slot => bytesOf 2 slot
  | .runlistWrite count => bytesOf 1 count
  | .runlistRead state entries =>
    [state.code] ++ bytesOf 1 entries.length
      ++ (entries.map fun e => bytesOf 2 e.1 ++ bytesOf 2 e.2.toNat).flatten
  | .laneArm state index => [state.code] ++ bytesOf 1 index
  | .laneDisarm before closed => [before.code] ++ presenceBytes (fun n : BitVec 16 => bytesOf 2 n.toNat) closed
  | .laneRead report => report.bytes
  | .position pos ratio state inPlay count =>
    reportedBytes pos ++ bytesOf 2 ratio ++ [state.code, boolByte inPlay] ++ bytesOf 6 count.toNat
  | .takePeek total opened nextSerial records =>
    bytesOf 1 total ++ bytesOf 1 opened ++ bytesOf 2 nextSerial.toNat ++ bytesOf 1 records.length
      ++ (records.map ReportedTake.bytes).flatten
  | .takeRelease removed first left =>
    bytesOf 1 removed ++ presenceBytes (fun n : BitVec 16 => bytesOf 2 n.toNat) first ++ bytesOf 1 left

/-! ## Link frames (R165, R166, R170, R176) -/

/-- The kind, the tag and the body of a frame the transmitter sends; a notice carries tag 0 (R170). -/
def OutFrame.parts : OutFrame → Byte × Byte × List Byte
  | .reply r => (r.kind, r.tag, [r.status.code, r.flags.byte] ++ r.body.bytes)
  | .notice n => (n.kind, 0, n.body)

/-- The bytes of a frame from its length to its check (R176). -/
def frameCore (kind tag : Byte) (body : List Byte) : List Byte :=
  let inner := [BitVec.ofNat 8 (body.length + 2), kind, tag] ++ body
  inner ++ [checkByte inner]

/-- The upper-case hexadecimal character of a half byte (R166). -/
def hexChar (n : Nat) : Byte := if n < 10 then BitVec.ofNat 8 (0x30 + n) else BitVec.ofNat 8 (0x37 + n)

/-- The bytes that stand on the line for a frame under a framing; none while the framing is UNDECIDED (R164 to R166). -/
def wireBytes (framing : Framing) (core : List Byte) : List Byte :=
  match framing with
  | .undecided => []
  | .binary => 0xC3 :: core
  | .text => 0x3A :: (core.map fun b => [hexChar (b.toNat / 16), hexChar (b.toNat % 16)]).flatten ++ [0x0D, 0x0A]

/-- The bytes of an outgoing frame on TXD. -/
def OutFrame.wire (framing : Framing) (f : OutFrame) : List Byte :=
  wireBytes framing (frameCore f.parts.1 f.parts.2.1 f.parts.2.2)

end Sys2Proof.Machine
end

