-- ==== Sys2Proof/Machine/Flags.lean ====
section
/-! DEFINITION. Machine/Flags.lean: the sticky status flags (R172), the notices (R171), and the transmitter that takes
up what waits (R170). -/

namespace Sys2Proof.Machine

/-- The flag register with one flag set. -/
def setFlag (flags : BitVec 11) (f : Flag) : BitVec 11 := flags ||| BitVec.twoPow 11 f.position

/-- The sticky flag is set. -/
def State.hasFlag (s : State) (f : Flag) : Bool := s.link.flags.getLsbD f.position

/-- A raise sets the flag, or leaves it set (R172). -/
def State.raise (s : State) (f : Flag) : State := s.mapLink fun l => { l with flags := setFlag l.flags f }

/-- An idle transmitter starts the oldest waiting reply, or otherwise the oldest notice. It sends nothing while the
framing is UNDECIDED (R164), and no notice while a reset is pending (R170, R174). -/
def Link.start (l : Link) : Link :=
  if l.sending.isSome || decide (l.framing = .undecided) then l
  else
    match l.replies with
    | r :: rest => { l with sending := some (.reply r.reply), replies := rest }
    | [] =>
      match l.notices with
      | [] => l
      | n :: rest => if l.resetPending.isSome then l else { l with sending := some (.notice n), notices := rest }

/-- The notice mask position of a notice (R171, R176). -/
def Notice.maskPosition : Notice → Nat
  | .event .. => 0
  | .take .. => 1
  | .tracker .. => 2
  | .lane .. => 3
  | .fault .. => 4

/-- A block posts a notice: the mask discards it, or it joins the notice queue, or it is dropped with NOTICE_LOST
when the queue is full (R171). A notice that appears while the transmitter is idle starts at once (R170). -/
def State.post (s : State) (n : Notice) : State :=
  if s.settings.noticeMask.getLsbD n.maskPosition then
    if s.link.notices.length < Config.noticeQueueSize then
      s.mapLink fun l => Link.start { l with notices := l.notices ++ [n] }
    else s.raise .noticeLost
  else s

/-- A fault flag is raised; when it goes from clear to set, a NOTE_FAULT names it (R50, R167). -/
def State.raiseFault (s : State) (f : Flag) : State :=
  if s.hasFlag f then s else (s.raise f).post (.fault f s.tracker.count)

/-- The tracker reports a change of state or a jump of its own (R49). -/
def State.noteTracker (s : State) (cause : TrackerCause) : State :=
  s.post (.tracker s.tracker.state cause (exactPos s.tracker.pos) s.tracker.count)

end Sys2Proof.Machine
end

