-- ==== Sys2Proof/Machine/Cues.lean ====
section
/-! DEFINITION. Machine/Cues.lean: the cue requests (chapter 3, sections 3.6 and 3.7). -/

namespace Sys2Proof.Machine

/-- The link's cursor set (R64). -/
def State.setCursor (s : State) (c : Nat) : State := s.mapLink fun l => { l with cursor := c }

/-- An executed cue request in a form accessed `n` slots: the cursor advances in the CURSOR form (R64). -/
def State.advanceCursor (s : State) (form : Byte) (n : Nat) : State :=
  s.setCursor (cursorAfter form s.link.cursor n)

/-- The slot a well-formed form and operand address under the bank and cursor in force (R63). -/
def State.addressed (s : State) (form : Byte) (operand : BitVec 16) : Option Nat :=
  addressSlot s.table s.link.bank s.link.cursor form operand

/-- CUE_SEEK (R65). -/
def State.cueSeek (s : State) (bank cursor : Byte) : State × Answer :=
  if bank.toNat ≤ 7 ∧ cursor.toNat ≤ 63 then
    (s.mapLink fun l => { l with bank := bank.toNat, cursor := cursor.toNat },
      .ok OutFlags.clear (.seek bank.toNat cursor.toNat))
  else (s, .refuse .badField)

/-! ## CUE_READ (R70 to R72) -/

/-- The view a code names (R176). -/
def View.ofCode (c : Byte) : Option View := if c = 0 then some .live else if c = 1 then some .pending else none

/-- The contents of a slot in a view; `none` is NOT_FOUND (R70). -/
def Slot.view (v : Slot) : View → Option Contents
  | .live => some v.live
  | .pending => v.pending

/-- The flags of an absent or present report. -/
def flagsOf {α : Type} : Option (α × OutFlags) → OutFlags
  | none => OutFlags.clear
  | some x => x.2

/-- The groups of a cue that a mask selects, reported in a rounding mode, with the flags of the stamps (R70, R72,
R178). -/
def reportGroups (std : Standard) (mode : Rounding) (mask : Byte) (v : Slot) (c : Contents) :
    ReportedGroups × OutFlags :=
  let inPoint := if mask.getLsbD 1 then some (reportPos std mode c.inPoint) else none
  let outPoint := if mask.getLsbD 2 then c.outPoint.map (reportPos std mode) else none
  ({ label := if mask.getLsbD 0 then some c.label else none
     inPoint := inPoint.map (·.1)
     outPoint := if mask.getLsbD 2 then some (outPoint.map (·.1)) else none
     streamer := if mask.getLsbD 3 then some c.streamer else none
     beeps := if mask.getLsbD 4 then some (c.beepCount, c.beepSpacing, c.beepLength) else none
     tail := if mask.getLsbD 5 then some c.tail else none
     record := if mask.getLsbD 6 then some c.record else none
     info := if mask.getLsbD 7 then some (v.takes, v.refs, v.pending.isSome) else none },
    (flagsOf inPoint).union (flagsOf outPoint))

/-- The entry of one slot in a view, with its flags; `none` is NOT_FOUND (R70). -/
def State.readSlot (s : State) (mode : Rounding) (view : View) (mask : Byte) (n : Nat) :
    Option (CueEntry × OutFlags) :=
  match slotAt s.table n, view with
  | none, .live => some ({ slot := n, defined := none }, OutFlags.clear)
  | none, .pending => none
  | some v, view =>
    (v.view view).map fun c =>
      let r := reportGroups s.settings.standard mode mask v c
      ({ slot := n, defined := some (view, r.1) }, r.2)

/-- The entries of a read in read order, with the union of their flags; `none` is NOT_FOUND (R71, R72). -/
def State.readSlots (s : State) (mode : Rounding) (view : View) (mask : Byte) :
    List Nat → Option (List CueEntry × OutFlags)
  | [] => some ([], OutFlags.clear)
  | n :: rest =>
    match s.readSlot mode view mask n, s.readSlots mode view mask rest with
    | some e, some es => some (e.1 :: es.1, e.2.union es.2)
    | _, _ => none

/-- The slots of a read: those that follow the cursor in its bank in the CURSOR form, and else the one addressed
(R71). -/
def State.slotsToRead (s : State) (form : Byte) (slot count : Nat) : List Nat :=
  if isCursorForm form then (List.range count).map fun k => 64 * s.link.bank + (s.link.cursor + k) % 64
  else [slot]

/-- The count of a CUE_READ is one its form takes (R71). -/
def countOk (form : Byte) (count : Byte) : Bool :=
  decide (1 ≤ count.toNat ∧ count.toNat ≤ 4) && (isCursorForm form || decide (count = 1))

/-- CUE_READ (R70 to R72). -/
def State.cueRead (s : State) (form : Byte) (operand : BitVec 16) (count mask view rounding : Byte) :
    State × Answer :=
  match formOk form operand && countOk form count, View.ofCode view, selectRounding s.settings.rounding rounding with
  | true, some v, some mode =>
    match s.addressed form operand with
    | none => (s, .refuse .notFound)
    | some slot =>
      match s.readSlots mode v mask (s.slotsToRead form slot count.toNat) with
      | none => (s, .refuse .notFound)
      | some r => (s.advanceCursor form count.toNat, .ok r.2 (.cueRead r.1))
  | _, _, _ => (s, .refuse .badField)

/-! ## CUE_WRITE (R66 to R69) -/

/-- The mask selects no group (R66). -/
def groupsEmpty (g : CueGroups) : Bool :=
  g.label.isNone && g.inPoint.isNone && g.outPoint.isNone && g.streamer.isNone && g.beeps.isNone && g.tail.isNone
    && g.flags.isNone && !g.info

/-- The groups of a write, checked, legalised and converted (R53, R55). -/
structure LegalGroups where
  label : Option (BitVec 16)
  inPoint : Option TakenStamp
  outPoint : Option (Option TakenStamp)
  streamer : Option Nat
  beeps : Option (Nat × Nat × Nat)
  tail : Option Nat
  record : Option Bool
  flags : OutFlags
deriving DecidableEq, Repr

/-- The IN group taken in; `none` is BAD_LABEL (R53). -/
def takeInGroup (std : Standard) (mode : Rounding) : Option Stamp → Option (Option TakenStamp)
  | none => some none
  | some st => (takeStamp std mode st).map some

/-- The OUT group taken in; `none` is BAD_LABEL. The stamp is not examined when presence is clear (R53). -/
def takeOutGroup (std : Standard) (mode : Rounding) : Option (Option Stamp) → Option (Option (Option TakenStamp))
  | none => some none
  | some none => some (some none)
  | some (some st) => (takeStamp std mode st).map fun t => some (some t)

/-- A length clamped from above (R55). -/
def capped (limit : Nat) (b : Byte) : Nat := min b.toNat limit

/-- The BEEPS group as stored: count, spacing and length (R55). -/
def legalBeeps (b : Byte × Byte × Byte) : Nat × Nat × Nat :=
  let spacing := legalSpacing b.2.1.toNat
  (capped 4 b.1, spacing, legalLength spacing b.2.2.toNat)

/-- The flags of a stamp that was taken in, if there was one. -/
def TakenStamp.flagsOf : Option TakenStamp → OutFlags
  | none => OutFlags.clear
  | some t => t.flags

/-- A clamp of R55 changed one of the numeric groups of a write. -/
def groupsClamp (g : CueGroups) : Bool :=
  (match g.streamer with
    | none => false
    | some b => decide (capped 16 b ≠ b.toNat))
  || (match g.beeps with
    | none => false
    | some b => decide (legalBeeps b ≠ (b.1.toNat, b.2.1.toNat, b.2.2.toNat)))
  || (match g.tail with
    | none => false
    | some b => decide (capped 48 b ≠ b.toNat))

/-- The groups of a write legalised and converted; `none` is BAD_LABEL (R67, check 7 and after). -/
def legaliseGroups (g : CueGroups) (std : Standard) (mode : Rounding) : Option LegalGroups :=
  match takeInGroup std mode g.inPoint, takeOutGroup std mode g.outPoint with
  | some x, some y =>
    some
      { label := g.label, inPoint := x, outPoint := y, streamer := g.streamer.map (capped 16),
        beeps := g.beeps.map legalBeeps, tail := g.tail.map (capped 48), record := g.flags.map fun b => decide (b = 1),
        flags :=
          ((TakenStamp.flagsOf x).union (TakenStamp.flagsOf (y.getD none))).union (clampFlags (groupsClamp g)) }
  | _, _ => none

/-- The contents that a creation starts from, before its LABEL and IN are written (R68). -/
def Contents.created : Contents :=
  { label := 0, inPoint := 0, outPoint := none, streamer := 3, beepCount := 3, beepSpacing := 24, beepLength := 1,
    tail := 0, record := true }

/-- Contents with the selected groups replaced (R60, R69). -/
def Contents.write (c : Contents) (g : LegalGroups) : Contents :=
  let beeps := g.beeps.getD (c.beepCount, c.beepSpacing, c.beepLength)
  { label := g.label.getD c.label
    inPoint := (g.inPoint.map (·.pos)).getD c.inPoint
    outPoint := (g.outPoint.map fun o => o.map (·.pos)).getD c.outPoint
    streamer := g.streamer.getD c.streamer
    beepCount := beeps.1
    beepSpacing := beeps.2.1
    beepLength := beeps.2.2
    tail := g.tail.getD c.tail
    record := g.record.getD c.record }

/-- A stamp as converted with its exact stored position (R69). -/
def TakenStamp.echo (t : TakenStamp) : ReportedPos := ⟨t.stamp, exactPos t.pos⟩

/-- The echo of the selected groups (R69). -/
def LegalGroups.echo (g : LegalGroups) : ReportedGroups :=
  { label := g.label, inPoint := g.inPoint.map TakenStamp.echo,
    outPoint := g.outPoint.map fun o => o.map TakenStamp.echo, streamer := g.streamer, beeps := g.beeps,
    tail := g.tail, record := g.record, info := none }

/-- The contents a write starts from, and the view it writes: those of a creation, the live contents while the slot is
not expanded, and otherwise the pending copy, made from the live contents when there is none (R60, R68, R69). -/
def writeBase : Option Slot → Contents × View
  | none => (Contents.created, .live)
  | some v => if v.expansions = 0 then (v.live, .live) else (v.pending.getD v.live, .pending)

/-- The slot after a write of contents to a view (R60, R68, R69). -/
def writtenSlot (old : Option Slot) (view : View) (c : Contents) : Slot :=
  match old with
  | none => { live := c, pending := none, takes := 0, refs := 0, expansions := 0 }
  | some v =>
    match view with
    | .live => { v with live := c }
    | .pending => { v with pending := some c }

/-- Checks 4 to 6 of R67, which read the mask and the FLAGS value; `none` passes them. -/
def groupsRefusal (g : CueGroups) (old : Option Slot) : Option Status :=
  if groupsEmpty g then some .badField
  else if g.info then some .readOnly
  else if old.isNone ∧ (g.label.isNone ∨ g.inPoint.isNone) then some .badField
  else
    match g.flags with
    | none => none
    | some b => if b.toNat ≤ 1 then none else some .badField

/-- Checks 8 and 9 of R67, which read the resulting contents; `none` passes them. -/
def State.contentsRefusal (s : State) (slot : Nat) (g : LegalGroups) (c : Contents) : Option Status :=
  if c.spanOk s.settings.standard = false then some .range
  else
    match g.label with
    | none => none
    | some l => if labelTaken s.table slot l then some .duplicate else none

/-- CUE_WRITE from check 4 on, for a slot that is found (R67 to R69). -/
def State.writeSlot (s : State) (form : Byte) (slot : Nat) (mode : Rounding) (groups : CueGroups) :
    State × Answer :=
  let old := slotAt s.table slot
  match groupsRefusal groups old with
  | some st => (s, .refuse st)
  | none =>
    match legaliseGroups groups s.settings.standard mode with
    | none => (s, .refuse .badLabel)
    | some g =>
      let base := writeBase old
      let c := base.1.write g
      match s.contentsRefusal slot g c with
      | some st => (s, .refuse st)
      | none =>
        ((s.mapTable fun t => putSlot t slot (writtenSlot old base.2 c)).advanceCursor form 1,
          .ok g.flags (.cueWrite slot base.2 g.echo))

/-- CUE_WRITE, its checks in the order of R67. -/
def State.cueWrite (s : State) (form : Byte) (operand : BitVec 16) (rounding : Byte) (groups : CueGroups) :
    State × Answer :=
  if formOk form operand then
    match selectRounding s.settings.rounding rounding with
    | none => (s, .refuse .badField)
    | some mode =>
      match s.addressed form operand with
      | none => (s, .refuse .notFound)
      | some slot => s.writeSlot form slot mode groups
  else (s, .refuse .badField)

/-! ## CUE_ERASE (R73) -/

/-- CUE_ERASE (R73). -/
def State.cueErase (s : State) (form : Byte) (operand : BitVec 16) : State × Answer :=
  if formOk form operand then
    match s.addressed form operand with
    | none => (s, .refuse .notFound)
    | some slot =>
      if ((slotAt s.table slot).map (·.refs)).getD 0 = 0 then
        ((s.mapTable fun t => dropSlot t slot).advanceCursor form 1, .ok OutFlags.clear (.cueErase slot))
      else (s, .refuse .inUse)
  else (s, .refuse .badField)

end Sys2Proof.Machine
end

