-- ==== Sys2Proof/Machine/Feeds.lean ====
section
/-! DEFINITION. Machine/Feeds.lean: the cue tones, the overlay writer and the code generator (chapter 7). -/

namespace Sys2Proof.Machine

/-! ## The overlay (R139 to R142) -/

/-- The streamer x of a shown streamer (R140). -/
def streamerX (std : Standard) (pos first last : Nat) : Nat :=
  let x := (roundQ .down (1023 * std.dist pos first) (std.dist last first).toNat).value
  if x < 0 then 0 else if x > 1023 then 1023 else x.toNat

/-- The streamer of a lane copy is shown in the engine mode (R139). -/
def LaneCopy.shown (c : LaneCopy) (mode : EngineMode) : Bool := c.streamer.isSome && decide (mode ≠ .standby)

/-- A lane's items in an overlay record (R139). -/
def LaneCopy.overlayItem (c : LaneCopy) (std : Standard) (mode : EngineMode) (pos : Nat) : OverlayItem :=
  { shown := c.shown mode,
    x :=
      match c.streamer with
      | some (first, last) => if mode = .standby then 0 else streamerX std pos first last
      | none => 0,
    punch := c.punch }

/-- The overlay record that describes the feeds as they stand (R139). -/
def State.overlayRecord (s : State) : OverlayRecord :=
  { label := frameToLabel s.settings.standard (frameOf s.tracker.pos),
    items := s.feeds.copies.map fun c =>
      c.overlayItem s.settings.standard s.settings.engineMode s.tracker.pos }

/-- A record handed to the OVL sender: it starts, or takes the holding buffer (R142). -/
def Feeds.sendOverlay (f : Feeds) (r : OverlayRecord) : Feeds :=
  match f.ovlSending with
  | none => { f with ovlSending := some r }
  | some _ => { f with ovlHolding := some r }

/-- The overlay writer forms a record (R141). -/
def State.formOverlay (s : State) : State := s.mapFeeds fun f => f.sendOverlay s.overlayRecord

/-- Some lane copy holds the streamer visible (R141). -/
def Feeds.anyStreamer (f : Feeds) : Bool := f.copies.toList.any fun c => c.streamer.isSome

/-! ## Code out (R143 to R146) -/

/-- The code record of a frame, with the flags of a Spd (R143). -/
def codeOut (std : Standard) (frame : Nat) (spd : Int) : CodeOut :=
  { label := frameToLabel std frame, drop := std.isDrop, hold := decide (spd = 0), reverse := decide (spd < 0) }

/-- A record handed to the COUT sender (R146); the hold timer restarts at every record formed (R145). -/
def Feeds.sendCode (f : Feeds) (r : CodeOut) : Feeds :=
  match f.coutSending with
  | none => { f with coutSending := some r, holdTimer := some 0 }
  | some _ => { f with coutWaiting := some r, holdTimer := some 0 }

/-- In LOCAL the generator forms a code record of a frame, with the flags of a Spd (R144, R145). -/
def State.formCode (s : State) (frame : Nat) (spd : Int) : State :=
  if s.settings.source = .localGen then s.mapFeeds fun f => f.sendCode (codeOut s.settings.standard frame spd)
  else s

/-- In LOCAL the generator reports the parked picture with a HOLD record of the current frame (R145). -/
def State.formHold (s : State) : State := s.formCode (frameOf s.tracker.pos) 0

/-- The hold timer has run for a nominal frame period, or for more when the period has just been shortened, while LOCAL
is stopped (R145; assumption 42). -/
def State.holdDue (s : State) : Bool :=
  decide (s.settings.source = .localGen ∧ s.tracker.state = .stopped)
    && match s.feeds.holdTimer with
      | none => false
      | some t => decide (nominalPeriod s.settings.standard s.settings.sampleRate ≤ t)

/-! ## What a lane hands (R100, R101, R133) -/

/-- The target of the event of a kind and beep number, if it is among the retired. -/
def stackTarget (stack : List Retired) (k : EventKind) (beep : Nat) : Option Nat :=
  (stack.find? fun r => decide (r.event.kind = k ∧ r.event.beep = beep)).map (·.event.target)

/-- The target of the event of a kind and beep number, if it is in the queue. -/
def queueTarget (queue : List Event) (k : EventKind) (beep : Nat) : Option Nat :=
  (queue.find? fun e => decide (e.kind = k ∧ e.beep = beep)).map (·.target)

/-- The streamer state: visible with its two targets, or off (R100, R101). -/
def Lane.streamerState (l : Lane) : Option (Nat × Nat) :=
  match stackTarget l.stack .streamerStart 0, queueTarget l.queue .streamerEnd 0 with
  | some first, some last => some (first, last)
  | _, _ => none

/-- The tone state of beep `k` is on (R100). -/
def Lane.beepIsOn (l : Lane) (k : Nat) : Bool :=
  (stackTarget l.stack .beepOn k).isSome && (queueTarget l.queue .beepOff k).isSome

/-- The tone state: the beep that is on, or 0 (R100). -/
def Lane.toneState (l : Lane) : Nat :=
  if l.beepIsOn 4 then 4 else if l.beepIsOn 3 then 3 else if l.beepIsOn 2 then 2 else if l.beepIsOn 1 then 1 else 0

/-- The punch state by the test of R100, which asks for a PUNCH_OUT in the queue. The take of an open cue has none, and
R102 and R133 have the state on for it too: what the lane hands is `Lane.punchShown` (assumption 7). -/
def Lane.punchState (l : Lane) : Bool :=
  (l.stack.any fun r => decide (r.event.kind = .punchIn) && r.live)
    && (l.queue.any fun e => decide (e.kind = .punchOut)) && l.openTake.isSome

/-- The punch state as the lane hands it: on exactly while its line is high (R102, R133; assumption 7). -/
def Lane.punchShown (l : Lane) : Bool := l.punchLine

/-- The lane's derived states as it hands them (R101). -/
def Lane.derived (l : Lane) : LaneCopy :=
  { streamer := l.streamerState, tone := l.toneState, punch := l.punchShown }

/-- A lane hands its derived states to the feeds, with a restart of its phase when a BEEP_ON retired in the reaction
(R101, R133, R136). A change of the streamer shown or of the punch mark forms an overlay record (R141). The next TONE
frame formed is the first from a restarted phase, also when the frame of the update's sample has gone out (assumption
41). -/
def State.handFeeds (s : State) (i : LaneId) (beepBegan : Bool) : State :=
  let before := s.feeds.copies.get i
  let after := (s.lane i).derived
  let s := s.mapFeeds fun f =>
    { f with
      copies := f.copies.set i after
      phases := if beepBegan then f.phases.set i 0 else f.phases }
  if before.shown s.settings.engineMode ≠ after.shown s.settings.engineMode ∨ before.punch ≠ after.punch then
    s.formOverlay
  else s

/-! ## The cue tone (R134 to R138) -/

/-- A lane's tone is audible in the sample (R137). -/
def State.audible (s : State) (i : LaneId) : Bool :=
  decide ((s.feeds.copies.get i).tone ≠ 0) && s.inPlay && decide (s.settings.engineMode ≠ .standby)
    && !(s.settings.toneMute.getLsbD i.val)

/-- The value in a lane's slot for the sample (R135, R137). -/
def State.toneSlot (s : State) (i : LaneId) : BitVec 16 :=
  let amplitude := BitVec.ofNat 16 (s.settings.toneLevel.get i * 512)
  if s.audible i then (if (s.feeds.phases.get i).toNat < 2 ^ 23 then amplitude else -amplitude) else 0

/-- The TONE frame of a sample is formed from the phases, which then advance (R136, R138). -/
def State.toneFrame (s : State) : State :=
  let slots : Eight (BitVec 16) :=
    ⟨s.toneSlot 0, s.toneSlot 1, s.toneSlot 2, s.toneSlot 3, s.toneSlot 4, s.toneSlot 5, s.toneSlot 6,
      s.toneSlot 7⟩
  s.mapFeeds fun f =>
    { f with
      tone := slots
      phases :=
        ⟨f.phases.l0 + f.increments.l0, f.phases.l1 + f.increments.l1, f.phases.l2 + f.increments.l2,
          f.phases.l3 + f.increments.l3, f.phases.l4 + f.increments.l4, f.phases.l5 + f.increments.l5,
          f.phases.l6 + f.increments.l6, f.phases.l7 + f.increments.l7⟩ }

/-- Every lane's increment from its applied frequency and the applied sample rate (R134). -/
def State.recomputeTones (s : State) : State :=
  s.mapFeeds fun f => { f with increments := s.settings.toneFrequency.map (toneIncrement s.settings.sampleRate) }

end Sys2Proof.Machine
end

