-- ==== Sys2Proof/Machine/TakeLog.lean ====
section
/-! DEFINITION. Machine/TakeLog.lean: granting, marking and closing take records (chapter 6), and the signals of the
lanes to the cue table that go with a cue's use (chapter 3, section 3.5). -/

namespace Sys2Proof.Machine

/-! ## Expansion counts and promotion (R59, R61) -/

/-- Promotion: the pending copy becomes the live contents (R61). -/
def Slot.promote (v : Slot) : Slot :=
  match v.pending with
  | none => v
  | some c => { v with live := c, pending := none }

/-- Expansion taken: the count grows by 1 (R59). -/
def Slot.take (v : Slot) : Slot := { v with expansions := v.expansions + 1 }

/-- Expansion dropped: the count falls by 1, and at 0 a pending copy is promoted (R59, R61). -/
def Slot.drop (v : Slot) : Slot :=
  let v' := { v with expansions := v.expansions - 1 }
  if v'.expansions = 0 then v'.promote else v'

/-- A lane takes the expansion of slot `n` (R59). -/
def State.takeExpansion (s : State) (n : Nat) : State := s.mapTable fun t => changeSlot t n Slot.take

/-- A lane drops the expansion of slot `n` (R59). -/
def State.dropExpansion (s : State) (n : Nat) : State := s.mapTable fun t => changeSlot t n Slot.drop

/-! ## Take records -/

/-- A take record is OPEN (R119). -/
def Take.isOpen (t : Take) : Bool := t.closing.isNone

/-- The number of OPEN records (R127). -/
def TakeLog.openCount (g : TakeLog) : Nat := (g.records.filter Take.isOpen).length

/-- A take record as reported in a rounding mode, with the flags of its conversions (R127, R130). -/
def reportTake (std : Standard) (mode : Rounding) (t : Take) : ReportedTake × OutFlags :=
  let p := reportPos std mode t.inPos
  let closing := t.closing.map fun c =>
    let q := reportPos std mode c.pos
    (({ pos := q.1, sample := c.sample, cause := c.cause } : ReportedClosing), q.2)
  ({ serial := t.serial, lane := t.lane, slot := t.slot, label := t.label, number := t.number, inPos := p.1,
     inSample := t.inSample, overshoot := t.overshoot, closing := closing.map (·.1), numberHeld := t.numberHeld,
     coasted := t.coasted },
    match closing with
    | none => p.2
    | some c => p.2.union c.2)

/-- The log posts a NOTE_TAKE for a record as it stands, in the default rounding (R130). -/
def State.noteTake (s : State) (closed : Bool) (t : Take) : State :=
  s.post (.take closed (reportTake s.settings.standard s.settings.rounding t).1)

/-- What a lane's request for a record carries (R103). -/
structure TakeRequest where
  lane : LaneId
  slot : Nat
  inPos : Nat
  inSample : SampleCount
  overshoot : Nat
  coasting : Bool
deriving DecidableEq, Repr

/-- The take number and NUMBER_HELD that a take counter gives (R122). -/
def nextTakeNumber (counter : Nat) : Nat × Bool := if counter < 999 then (counter + 1, false) else (999, true)

/-- The record a grant forms (R121). -/
def newTake (s : State) (q : TakeRequest) : Take :=
  let counter := match slotAt s.table q.slot with
    | none => 0
    | some v => v.takes
  { serial := s.log.nextSerial, lane := q.lane, slot := q.slot, label := s.liveLabel q.slot,
    number := (nextTakeNumber counter).1, inPos := q.inPos, inSample := q.inSample, overshoot := q.overshoot,
    closing := none, numberHeld := (nextTakeNumber counter).2, coasted := q.coasting }

/-- The log holds fewer than 64 records, so it grants (R121, R124). -/
def State.logHasRoom (s : State) : Bool := s.log.records.length < Config.takeLogSize

/-- The log grants a record: the take counter, the record at the newest end, the next serial, the lane's handle and
line, and NOTE_TAKE OPENED (R102, R103, R121). -/
def State.grantTake (s : State) (q : TakeRequest) : State :=
  let t := newTake s q
  let s := s.mapTable fun tab => changeSlot tab q.slot fun v => { v with takes := (nextTakeNumber v.takes).1 }
  let s := s.mapLog fun g => { records := g.records ++ [t], nextSerial := g.nextSerial + 1 }
  let s := s.mapLane q.lane fun l => { l with openTake := some t.serial, punchLine := true }
  s.noteTake false t

/-- The PUNCH_IN on a lane's stack is marked PASSED (R104, R107). -/
def remarkPunchIn (stack : List Retired) : List Retired :=
  stack.map fun r => if r.event.kind = .punchIn then { r with live := false } else r

/-- The log closes the record of a serial (R126). -/
def closeRecord (records : List Take) (serial : BitVec 16) (c : Closing) : List Take :=
  records.map fun t => if t.serial = serial then { t with closing := some c } else t

/-- A lane closes its open take, if it has one: the record, the handle, the line, the mark of the PUNCH_IN unless the
cause is OUT, and NOTE_TAKE CLOSED (R107, R126). -/
def State.closeTake (s : State) (i : LaneId) (pos : Nat) (sample : SampleCount) (cause : EndCause) : State :=
  match (s.lane i).openTake with
  | none => s
  | some serial =>
    let c : Closing := { pos := pos, sample := sample, cause := cause }
    let s := s.mapLog fun g => { g with records := closeRecord g.records serial c }
    let s := s.mapLane i fun l =>
      { l with
        openTake := none
        punchLine := false
        stack := if cause = .out then l.stack else remarkPunchIn l.stack }
    match s.log.records.find? fun t => decide (t.serial = serial) with
    | none => s
    | some t => s.noteTake true t

/-- The entry into COASTING marks every OPEN record COASTED (R125). -/
def TakeLog.markCoasted (g : TakeLog) : TakeLog :=
  { g with records := g.records.map fun t => if t.isOpen then { t with coasted := true } else t }

/-- TAKE_RELEASE: the oldest records leave, up to a count, stopping at the first OPEN one (R128). -/
def releaseTakes : Nat → List Take → List Take
  | 0, records => records
  | _ + 1, [] => []
  | n + 1, t :: rest => if t.isOpen then t :: rest else releaseTakes n rest

end Sys2Proof.Machine
end

