-- ==== Sys2Proof/Machine/Lanes.lean ====
section
/-! DEFINITION. Machine/Lanes.lean: cue expansion (chapter 4) and the reaction of a lane to a motion update
(chapter 5). -/

namespace Sys2Proof.Machine

/-! ## Expansion (R80, R81) -/

/-- The place of a kind among events on one target (R81). -/
def EventKind.rank : EventKind → Nat
  | .punchOut => 0
  | .cueEnd => 1
  | .beepOff => 2
  | .streamerEnd => 3
  | .beepOn => 4
  | .streamerStart => 5
  | .punchIn => 6

/-- BEEP_ON k and BEEP_OFF k (R80). -/
def beepEvents (std : Standard) (c : Contents) (k : Nat) : List Event :=
  let start := std.into ((c.inPoint : Int) - (k * c.beepSpacing * frameUnits : Nat))
  [⟨.beepOn, k, start⟩, ⟨.beepOff, k, std.into ((start : Int) + (c.beepLength * frameUnits : Nat))⟩]

/-- The events of a cue with their targets, before they are ordered (R80). -/
def cueEvents (std : Standard) (c : Contents) (lead : Nat) : List Event :=
  (if c.streamer > 0 then
    [⟨.streamerStart, 0, std.into ((c.inPoint : Int) - (c.streamer * frameUnits : Nat))⟩,
     ⟨.streamerEnd, 0, c.inPoint⟩]
   else [])
  ++ ((List.range c.beepCount).map fun k => beepEvents std c (k + 1)).flatten
  ++ (if c.record then [⟨.punchIn, 0, std.into ((c.inPoint : Int) - lead)⟩] else [])
  ++ (match c.endPos std with
      | none => []
      | some last =>
        (if c.record then [⟨.punchOut, 0, std.into ((last : Int) - lead)⟩] else []) ++ [⟨.cueEnd, 0, last⟩])

/-- The forward distance of a target from the cue's origin (R81). -/
def forwardFrom (std : Standard) (origin target : Nat) : Nat := std.into ((target : Int) - origin)

/-- `a` stands before `b` in queue order (R81). -/
def eventBefore (std : Standard) (origin : Nat) (a b : Event) : Bool :=
  let x := forwardFrom std origin a.target
  let y := forwardFrom std origin b.target
  decide (x < y ∨ (x = y ∧ a.kind.rank ≤ b.kind.rank))

/-- An event put into its place in an ordered queue. -/
def insertEvent (std : Standard) (origin : Nat) (e : Event) : List Event → List Event
  | [] => [e]
  | f :: q => if eventBefore std origin e f then e :: f :: q else f :: insertEvent std origin e q

/-- The queue of a cue expanded with a lead (R80, R81). -/
def expandCue (std : Standard) (c : Contents) (lead : Nat) : List Event :=
  (cueEvents std c lead).foldl (fun q e => insertEvent std (c.originPos std lead) e q) []

/-- Lane `i` expands the cue of its run-list entry `index`, slot `n`, and is ARMED on it (R80, R83). -/
def State.expandInto (s : State) (i : LaneId) (index n : Nat) : State :=
  let queue := match slotAt s.table n with
    | none => []
    | some v => expandCue s.settings.standard v.live s.lead
  let s := s.takeExpansion n
  s.mapLane i fun l => { l with state := .armed, index := index, queue := queue, stack := [] }

/-- The origin of the cue in slot `n` with the lead in force (R76). -/
def State.originOf (s : State) (n : Nat) : Nat :=
  match slotAt s.table n with
  | none => 0
  | some v => v.live.originPos s.settings.standard s.lead

/-- The slot of the current cue of a lane, by its run list and index (R74). -/
def Lane.currentSlot (l : Lane) : Option Nat :=
  match l.state with
  | .armed => l.runList[l.index]?
  | .idle => none
  | .done => none

/-- A lane lets its current cue go: queue and stack are discarded and the expansion is dropped (R84, R86, R90). -/
def State.releaseCue (s : State) (i : LaneId) : State :=
  let current := (s.lane i).currentSlot
  let s := s.mapLane i fun l => { l with queue := [], stack := [] }
  match current with
  | none => s
  | some n => s.dropExpansion n

/-- The lane posts a NOTE_LANE (R91, R117). -/
def State.noteLane (s : State) (i : LaneId) (cause : LaneCause) (state : LaneState) (index slot : Nat)
    (punchIn : Option ExactPos) : State :=
  s.post (.lane i cause state index slot (s.liveLabel slot) s.tracker.count punchIn)

/-! ## The motion update (R44, R95) -/

/-- A motion update as the tracker hands it (R44), with whether the tracker is COASTING at its sample (R103). -/
structure MotionUpdate where
  p0 : Nat
  p1 : Nat
  kind : UpdateKind
  sample : SampleCount
  inPlay : Bool
  coasting : Bool
deriving DecidableEq, Repr

/-- The update is a play step in an engine mode (R95). -/
def MotionUpdate.playStep (u : MotionUpdate) (std : Standard) (mode : EngineMode) : Bool :=
  decide ((u.kind = .step ∨ u.kind = .anchor) ∧ u.inPlay = true ∧ mode ≠ .standby
    ∧ 0 ≤ std.dist u.p1 u.p0 ∧ std.dist u.p1 u.p0 < std.reach)

/-! ## Restore (R97) -/

/-- The events that return from the top of the stack, in the order in which they return, and the stack they leave
(R97). A top exactly one reach ahead returns, as the test has it (assumption 37). -/
def restoreSplit (std : Standard) (p1 : Nat) : List Retired → List Event × List Retired
  | [] => ([], [])
  | r :: rest =>
    if -(std.reach : Int) ≤ std.dist p1 r.event.target ∧ std.dist p1 r.event.target < 0 then
      let below := restoreSplit std p1 rest
      (r.event :: below.1, below.2)
    else ([], r :: rest)

/-- A lane posts a NOTE_EVENT for its current cue (R116). -/
def State.noteEvent (s : State) (i : LaneId) (slot : Nat) (e : Event) (mark : Mark) (overshoot : Nat)
    (sample : SampleCount) : State :=
  s.post (.event i slot e mark overshoot sample)

/-- The restore step: each event goes to the head of the queue, with a NOTE_EVENT (R97). -/
def State.restoreStep (s : State) (i : LaneId) (slot : Nat) (u : MotionUpdate) : State :=
  let split := restoreSplit s.settings.standard u.p1 (s.lane i).stack
  let s := s.mapLane i fun l => { l with stack := split.2, queue := split.1.reverse ++ l.queue }
  split.1.foldl (fun s e => s.noteEvent i slot e .restored 0 u.sample) s

/-! ## Retire (R98) -/

/-- An event just retired, with its mark and overshoot (R98). -/
structure Retirement where
  retired : Retired
  overshoot : Nat
deriving DecidableEq, Repr

/-- The retirements at the head of the queue, in queue order, and the queue they leave; they end with CUE_END (R98). -/
def retireSplit (std : Standard) (p0 p1 : Nat) (live : Bool) : List Event → List Retirement × List Event
  | [] => ([], [])
  | e :: q =>
    let d := std.dist p1 e.target
    if 0 ≤ d ∧ d < std.reach then
      let r : Retirement :=
        { retired := { event := e, live := live && decide (std.dist p0 e.target < 0) }, overshoot := d.toNat }
      if e.kind = .cueEnd then ([r], q)
      else
        let rest := retireSplit std p0 p1 live q
        (r :: rest.1, rest.2)
    else ([], e :: q)

/-- The retire step: events go onto the stack, each with a NOTE_EVENT (R98, R116). -/
def State.retireStep (s : State) (i : LaneId) (slot : Nat) (u : MotionUpdate) (live : Bool) :
    List Retirement × State :=
  let split := retireSplit s.settings.standard u.p0 u.p1 live (s.lane i).queue
  let s := s.mapLane i fun l => { l with stack := (split.1.map (·.retired)).reverse ++ l.stack, queue := split.2 }
  (split.1, split.1.foldl
    (fun s r => s.noteEvent i slot r.retired.event (if r.retired.live then .live else .passed) r.overshoot u.sample)
    s)

/-! ## Act (R99, R103 to R108) -/

/-- A PUNCH_IN crossed live in RECORD asks the log: a grant opens the take, and a refusal re-marks the PUNCH_IN, raises
LOG_FULL and posts NOTE_LANE (R103, R104, R124). -/
def State.askLog (s : State) (i : LaneId) (slot : Nat) (u : MotionUpdate) (r : Retirement) : State :=
  if s.logHasRoom then
    s.grantTake
      { lane := i, slot := slot, inPos := u.p1, inSample := u.sample, overshoot := r.overshoot,
        coasting := u.coasting }
  else
    let s := s.mapLane i fun l => { l with stack := remarkPunchIn l.stack }
    let s := s.raise .logFull
    s.noteLane i .logFull .armed (s.lane i).index slot (some (exactPos r.retired.event.target))

/-- The action on one retirement (R99). A lane asks the log only while it holds no open take (R120). -/
def State.actOn (s : State) (i : LaneId) (slot : Nat) (u : MotionUpdate) (mode : EngineMode) (r : Retirement) :
    State :=
  match r.retired.event.kind with
  | .punchIn =>
    if r.retired.live ∧ mode = .record ∧ (s.lane i).openTake = none then s.askLog i slot u r else s
  | .punchOut => s.closeTake i u.p1 u.sample .out
  | .beepOn => s
  | .beepOff => s
  | .streamerStart => s
  | .streamerEnd => s
  | .cueEnd => s

/-- A BEEP_ON is among the retirements (R101). -/
def anyBeepOn (rs : List Retirement) : Bool := rs.any fun r => decide (r.retired.event.kind = .beepOn)

/-- The target of the CUE_END that the retirements end with (R86). -/
def endedAt (rs : List Retirement) : Option Nat :=
  match rs.getLast? with
  | none => none
  | some r => if r.retired.event.kind = .cueEnd then some r.retired.event.target else none

/-! ## Advance (R86 to R88) -/

/-- The entries from `index` on are tried in turn against the end of the previous cue: the first that passes the
overlap test is kept, and the lane enters DONE past the last (R86, R87). `last` is the slot last worked or skipped. -/
def State.tryEntries (s : State) (i : LaneId) (prevEnd index last : Nat) : List Nat → State
  | [] =>
    let s := s.mapLane i fun l => { l with state := .done, index := 0, queue := [], stack := [] }
    s.noteLane i .done .done 0 last none
  | n :: rest =>
    let origin := s.originOf n
    let s := s.expandInto i index n
    if overlapOk s.settings.standard origin prevEnd then s.noteLane i .cueStart .armed index n none
    else
      let s := s.releaseCue i
      let s := s.noteLane i .cueSkipped (if rest = [] then .done else .armed) index n none
      s.tryEntries i prevEnd (index + 1) n rest

/-- Cue advance after a CUE_END with a target (R86). At its end the lane hands its states, whatever the reaction goes on
to do (R133; assumption 31). -/
def State.advance (s : State) (i : LaneId) (slot prevEnd : Nat) : State :=
  let index := (s.lane i).index + 1
  let s := s.releaseCue i
  (s.tryEntries i prevEnd index slot ((s.lane i).runList.drop index)).handFeeds i false

/-- Steps 3 and 4 of the reaction, carried on through each advance (R88, R94); at most `fuel` cues are worked. The
answer says whether a BEEP_ON retired. -/
def State.retireAndAct (s : State) (i : LaneId) (u : MotionUpdate) (live : Bool) (mode : EngineMode) :
    Nat → Bool × State
  | 0 => (false, s)
  | fuel + 1 =>
    match (s.lane i).currentSlot with
    | none => (false, s)
    | some slot =>
      let retired := s.retireStep i slot u live
      let s := retired.1.foldl (fun s r => s.actOn i slot u mode r) retired.2
      match endedAt retired.1 with
      | none => (anyBeepOn retired.1, s)
      | some prevEnd =>
        let more := (s.advance i slot prevEnd).retireAndAct i u live mode fuel
        (anyBeepOn retired.1 || more.1, more.2)

/-- One update ends at most sixteen cues of a lane, so seventeen are worked at most (R88). -/
def advanceFuel : Nat := 17

/-! ## The reaction (R94) -/

/-- The reaction of a lane to a motion update: break, restore, retire, act, and the handing (R94 to R101). The engine
mode is the one that stands when the lane takes the update. -/
def State.reactLane (s : State) (i : LaneId) (u : MotionUpdate) (mode : EngineMode) : State :=
  match (s.lane i).currentSlot with
  | none => s
  | some slot =>
    let live := u.playStep s.settings.standard mode
    let s := if live then s else s.closeTake i u.p0 u.sample .broken
    let s := s.restoreStep i slot u
    let worked := s.retireAndAct i u live mode advanceFuel
    worked.2.handFeeds i worked.1

/-- The evaluation made at LANE_ARM and at cycle re-arm: an update from `pos` to `pos`, not a play step (R83, R90). -/
def State.evaluateAt (s : State) (i : LaneId) (pos : Nat) (sample : SampleCount) : State :=
  let u : MotionUpdate :=
    { p0 := pos, p1 := pos, kind := .jump, sample := sample, inPlay := false, coasting := false }
  let worked := s.retireAndAct i u false s.settings.engineMode advanceFuel
  worked.2.handFeeds i worked.1

/-- The cycle re-arm of a lane in ARMED or DONE (R90). -/
def State.rearmLane (s : State) (i : LaneId) (u : MotionUpdate) : State :=
  let s := s.closeTake i u.p0 u.sample .cycle
  let s := s.releaseCue i
  match (s.lane i).runList with
  | [] => s
  | n :: _ =>
    let s := s.expandInto i 0 n
    let s := s.noteLane i .reArmed .armed 0 n none
    s.evaluateAt i u.p1 u.sample

/-- A lane's turn on an update: the cycle re-arm when it is triggered and the lane is not IDLE, else the reaction
(R90, R94). -/
def State.laneTurn (s : State) (i : LaneId) (u : MotionUpdate) (trigger : Bool) (mode : EngineMode) : State :=
  if trigger ∧ (s.lane i).state ≠ .idle then s.rearmLane i u else s.reactLane i u mode

/-- A lane closes its open take outside an update, at its last position, and hands its states (R101, R107). -/
def State.closeOutside (s : State) (i : LaneId) (pos : Nat) (cause : EndCause) : State :=
  match (s.lane i).openTake with
  | none => s
  | some _ => (s.closeTake i pos s.tracker.count cause).handFeeds i false

end Sys2Proof.Machine
end

