-- ==== Sys2Proof/Machine/RunLists.lean ====
section
/-! DEFINITION. Machine/RunLists.lean: the lane requests (chapter 4). -/

namespace Sys2Proof.Machine

/-! ## The checks of RUNLIST_WRITE (R75, R77) -/

/-- The index of the first element of a list that a test on its index and value picks. -/
def firstIndex (bad : Nat → Nat → Bool) : Nat → List Nat → Option Nat
  | _, [] => none
  | k, n :: rest => if bad k n then some k else firstIndex bad (k + 1) rest

/-- The later of the first two entries that name one slot (R75, check 3). -/
def duplicateIndex (slots : List Nat) : Option Nat := firstIndex (fun k n => (slots.take k).contains n) 0 slots

/-- The first entry that names an EMPTY slot (R75, check 4). -/
def emptyIndex (t : CueTable) (slots : List Nat) : Option Nat := firstIndex (fun _ n => (slotAt t n).isNone) 0 slots

/-- The slot's live contents are an open cue (R53). -/
def isOpenCue (t : CueTable) (n : Nat) : Bool :=
  match slotAt t n with
  | none => false
  | some v => v.live.outPoint.isNone

/-- The first open cue that is not the last entry (R75, check 5). -/
def openIndex (t : CueTable) (slots : List Nat) : Option Nat :=
  firstIndex (fun k n => decide (k + 1 < slots.length) && isOpenCue t n) 0 slots

/-- Two consecutive entries pass the overlap test (R77). -/
def State.pairOk (s : State) (a b : Nat) : Bool :=
  match slotAt s.table a, slotAt s.table b with
  | some x, some y =>
    match x.live.endPos s.settings.standard with
    | none => false
    | some last => overlapOk s.settings.standard (y.live.originPos s.settings.standard s.lead) last
  | _, _ => false

/-- The second entry of the first pair that overlaps (R75, check 6). -/
def State.overlapIndex (s : State) (slots : List Nat) : Option Nat :=
  firstIndex (fun k n =>
    match k with
    | 0 => false
    | j + 1 =>
      match slots[j]? with
      | none => false
      | some a => !s.pairOk a n) 0 slots

/-- Checks 3 to 6 of R75; `none` passes them. -/
def State.runListRefusal (s : State) (slots : List Nat) : Option Answer :=
  match duplicateIndex slots with
  | some k => some (.refuseAt .duplicate k)
  | none =>
    match emptyIndex s.table slots with
    | some k => some (.refuseAt .notFound k)
    | none =>
      match openIndex s.table slots with
      | some k => some (.refuseAt .openNotLast k)
      | none =>
        match s.overlapIndex slots with
        | some k => some (.refuseAt .overlap k)
        | none => none

/-! ## RUNLIST_WRITE and RUNLIST_READ (R75, R78, R79) -/

/-- The reference counts adjusted for a list that replaces another: each slot of the new list gains 1 and each slot of
the old list loses 1, so a slot in both keeps its count (R58, R78). -/
def moveRefs (t : CueTable) (before after : List Nat) : CueTable :=
  let gained := after.foldl (fun t n => changeSlot t n fun v => { v with refs := v.refs + 1 }) t
  before.foldl (fun t n => changeSlot t n fun v => { v with refs := v.refs - 1 }) gained

/-- An accepted RUNLIST_WRITE (R78). -/
def State.replaceRunList (s : State) (i : LaneId) (slots : List Nat) : State :=
  let before := (s.lane i).runList
  (s.mapTable fun t => moveRefs t before slots).mapLane i fun l => { l with state := .idle, runList := slots, index := 0 }

/-- RUNLIST_WRITE (R75, R78). -/
def State.runlistWrite (s : State) (laneByte : Byte) (entries : List (BitVec 16)) : State × Answer :=
  let slots := entries.map BitVec.toNat
  match laneOfByte laneByte with
  | none => (s, .refuse .badField)
  | some i =>
    if slots.length ≤ 16 ∧ slots.all (fun n => decide (n ≤ 511)) = true then
      if (s.lane i).state = .armed then (s, .refuse .state)
      else
        match s.runListRefusal slots with
        | some a => (s, a)
        | none => (s.replaceRunList i slots, .ok OutFlags.clear (.runlistWrite slots.length))
    else (s, .refuse .badField)

/-- RUNLIST_READ (R79). -/
def State.runlistRead (s : State) (laneByte : Byte) : Answer :=
  match laneOfByte laneByte with
  | none => .refuse .badField
  | some i =>
    .ok OutFlags.clear (.runlistRead (s.lane i).state ((s.lane i).runList.map fun n => (n, s.liveLabel n)))

/-! ## LANE_ARM, LANE_DISARM and LANE_READ (R83 to R85) -/

/-- An accepted arm on entry 0, slot `n` (R83). -/
def State.armLane (s : State) (i : LaneId) (n : Nat) : State :=
  (s.expandInto i 0 n).evaluateAt i s.tracker.pos s.tracker.count

/-- LANE_ARM (R83). -/
def State.laneArm (s : State) (laneByte : Byte) : State × Answer :=
  match laneOfByte laneByte with
  | none => (s, .refuse .badField)
  | some i =>
    match (s.lane i).runList with
    | [] => (s, .refuse .state)
    | n :: _ =>
      if (s.lane i).state ≠ .armed ∧ s.tracker.state ≠ .unreferenced then
        let s := s.armLane i n
        (s, .ok OutFlags.clear (.laneArm (s.lane i).state (s.lane i).index))
      else (s, .refuse .state)

/-- A lane enters IDLE with index 0 (R84). -/
def State.idleLane (s : State) (i : LaneId) : State := s.mapLane i fun l => { l with state := .idle, index := 0 }

/-- The disarm of a lane, by the state it is in: its closing hands its states, and so does the end of the disarm (R84,
R101, R133). -/
def State.disarmLane (s : State) (i : LaneId) : State :=
  match (s.lane i).state with
  | .idle => s
  | .done => s.idleLane i
  | .armed =>
    (((s.closeOutside i s.tracker.pos .disarmed).releaseCue i).idleLane i).handFeeds i false

/-- LANE_DISARM (R84). -/
def State.laneDisarm (s : State) (laneByte : Byte) : State × Answer :=
  match laneOfByte laneByte with
  | none => (s, .refuse .badField)
  | some i => (s.disarmLane i, .ok OutFlags.clear (.laneDisarm (s.lane i).state (s.lane i).openTake))

/-- What LANE_READ reports of a lane (R85). -/
def State.laneReport (s : State) (i : LaneId) : LaneReport :=
  let l := s.lane i
  { state := l.state
    current := l.currentSlot.map fun n => (l.index, n, s.liveLabel n)
    entries := l.runList.length
    queue := l.queue.map fun e => (e.kind, e.beep, exactPos e.target)
    stack := l.stack.map fun r => (r.event.kind, r.event.beep, exactPos r.event.target, r.live)
    openTake := l.openTake
    punchLine := l.punchLine
    streamer := l.streamerState.isSome
    tone := l.toneState }

/-- LANE_READ (R85). -/
def State.laneRead (s : State) (laneByte : Byte) : Answer :=
  match laneOfByte laneByte with
  | none => .refuse .badField
  | some i => .ok OutFlags.clear (.laneRead (s.laneReport i))

end Sys2Proof.Machine
end

