-- ==== Sys2Proof/Machine/Events.lean ====
section
/-! DEFINITION. Machine/Events.lean: what the tracker's reports do in the other blocks: motion updates, frame-boundary
events, losses of play, the application of the staging list and the entry into STANDBY. -/

namespace Sys2Proof.Machine

/-- One thing done in every lane, in ascending lane number. -/
def State.eachLane (s : State) (f : LaneId → State → State) : State := laneIds.foldl (fun s i => f i s) s

/-- More than one lane is concerned. -/
def severalLanes (concerned : LaneId → Bool) : Bool := 2 ≤ (laneIds.filter concerned).length

/-- Lane `i` has an open take. -/
def State.holdsTake (s : State) (i : LaneId) : Bool := (s.lane i).openTake.isSome

/-- One thing done in every lane whose order is seen only in the lanes that hold a take: with more than one of them the
order is free (R130; assumption 3). -/
def State.eachLaneFreely (s : State) (f : LaneId → State → State) : State :=
  if severalLanes s.holdsTake then s.settleLanes.1.foldl (fun s i => f i s) s.settleLanes.2 else s.eachLane f

/-! ## Loss of play (R109, R110) -/

/-- Each lane with an open take closes it at its last position, now, with a cause (R107). -/
def State.closeAll (s : State) (cause : EndCause) : State :=
  s.eachLaneFreely fun i s => s.closeOutside i s.tracker.pos cause

/-- The loss of play reaches the lanes (R109, R110). -/
def State.lossOfPlay (s : State) (cause : EndCause) : State := s.closeAll cause

/-- A fall of the play state since `before` reaches the lanes as a loss of play (R43, R109). -/
def State.fallOfPlay (s : State) (before : Bool) : State :=
  if before && !s.inPlay then s.lossOfPlay .broken else s

/-! ## The engine mode (R113, R141) -/

/-- The applied engine mode changes; the entry into or leaving of STANDBY forms an overlay record while some lane copy
holds the streamer visible (R141). -/
def State.setMode (s : State) (mode : EngineMode) : State :=
  let before := s.settings.engineMode
  let s := s.mapSettings fun g => { g with engineMode := mode, standbyPending := false }
  if (before = .standby) ≠ (mode = .standby) ∧ s.feeds.anyStreamer then s.formOverlay else s

/-- STANDBY written at rest takes effect: open takes close with cause STANDBY and the mode changes (R113). -/
def State.enterStandby (s : State) : State := (s.closeAll .standby).setMode .standby

/-! ## The staging list (R154, R155) -/

/-- An entry's value becomes the applied value of its setting (R155). -/
def Settings.applyEntry (g : Settings) : Staged → Settings
  | .bandLow v => { g with bandLow := v }
  | .bandHigh v => { g with bandHigh := v }
  | .cycleWindow first last => { g with cycleStart := first, cycleEnd := last }
  | .cycleAction a => { g with cycleAction := a }
  | .autoRearm b => { g with autoRearm := b }
  | .toneFrequency lane hz => { g with toneFrequency := g.toneFrequency.set lane hz }
  | .stallTimeout v => { g with stallTimeout := v }
  | .codeLatency v => { g with codeLatency := v }
  | .coastLimit v => { g with coastLimit := v }
  | .driftTolerance v => { g with driftTolerance := v }

/-- The staging list is applied in list order and emptied, the tone increments follow the applied frequencies, and a
fall of play that it finds reaches the lanes (R155, R157). -/
def State.applyStaging (s : State) : State :=
  let before := s.inPlay
  let s := s.mapSettings fun g => { g.staging.foldl Settings.applyEntry g with staging := [] }
  (s.recomputeTones).fallOfPlay before

/-- The staging list is applied unless the hold is 1 or the list is empty (R155, R156). -/
def State.applyUnheld (s : State) : State :=
  if s.settings.stagingHold || s.settings.staging.isEmpty then s else s.applyStaging

/-! ## The cycle window (R46) -/

/-- The update triggers the cycle re-arm (R46). -/
def State.rearmTriggered (s : State) (u : MotionUpdate) : Bool :=
  let std := s.settings.standard
  s.settings.autoRearm && decide (s.settings.cycleAction ≠ .off)
    && (decide (u.kind = .wrap)
        || decide (std.dist u.p1 u.p0 < 0 ∧ 0 ≤ std.dist u.p0 s.settings.cycleStart
            ∧ std.dist u.p1 s.settings.cycleStart < 0))

/-! ## Motion updates and frame boundaries (R44) -/

/-- A lane's turn on an update that brings a pending STANDBY entry with its frame boundary: the entry and the turn in
either order, lane by lane (R113; assumption 2). `mode` is the engine mode that stood before the entry. -/
def State.laneTurnAtStandby (s : State) (i : LaneId) (u : MotionUpdate) (trigger : Bool) (mode : EngineMode) : State :=
  let choice := s.settleOrder
  if choice.1 then (choice.2.closeOutside i u.p0 .standby).laneTurn i u trigger .standby
  else (choice.2.laneTurn i u trigger mode).closeOutside i u.p1 .standby

/-- A lane's turn on an update; `due` is the engine mode that a STANDBY entry at its frame boundary ends, if one does
(R94, R113). -/
def laneTakes (u : MotionUpdate) (trigger : Bool) (due : Option EngineMode) (i : LaneId) (s : State) : State :=
  match due with
  | none => s.laneTurn i u trigger s.settings.engineMode
  | some mode => s.laneTurnAtStandby i u trigger mode

/-- Lane `i` asks the log in its turn: on a log with no records, which grants every request, the turn takes a serial
(R103, R120, R121). -/
def State.asksIn (s : State) (turn : LaneId → State → State) (i : LaneId) : Bool :=
  decide ((turn i (s.mapLog fun g => { g with records := [] })).log.nextSerial ≠ s.log.nextSerial)

/-- The lanes that ask the log, granted or refused, as the lanes of an order take their turns one after another. -/
def askersIn (turn : LaneId → State → State) : List LaneId → State → List LaneId
  | [], _ => []
  | i :: rest, s =>
    let later := askersIn turn rest (turn i s)
    if s.asksIn turn i then i :: later else later

/-- All eight lanes take an update (R94, R113). They have no order among themselves, but the log takes the requests of an
update in ascending lane number (R123): with several lanes at work the order is free where the lanes that ask the log
stand in it in ascending number, and ascending where they do not. A lane's turn is taken whole (R59, R91;
assumption 3). -/
def State.lanesTake (s : State) (u : MotionUpdate) (due : Option EngineMode) : State :=
  let turn := laneTakes u (s.rearmTriggered u) due
  if severalLanes fun i => decide ((s.lane i).state ≠ .idle) then
    let choice := s.settleLanes
    let order := if (askersIn turn choice.1 choice.2).Pairwise (· < ·) then choice.1 else laneIds
    order.foldl (fun s i => turn i s) choice.2
  else s.eachLane turn

/-- The lanes take an update and the overlay writer forms the record of its frame boundary, in either order when the
lanes form records too (R141; assumption 2). -/
def State.lanesAndOverlay (s : State) (u : MotionUpdate) (due : Option EngineMode) : State :=
  let after := s.lanesTake u due
  if after.feeds.ovlSending = s.feeds.ovlSending ∧ after.feeds.ovlHolding = s.feeds.ovlHolding then
    after.formOverlay
  else
    let choice := s.settleOrder
    if choice.1 then choice.2.formOverlay.lanesTake u due else (choice.2.lanesTake u due).formOverlay

/-- The lanes and the overlay writer take an update with its frame boundary and, when it is pending, the STANDBY entry:
the engine mode changes, with the record of that change, before the lanes and the boundary's record or after them (R113,
R141; assumption 2). -/
def State.boundaryTaken (s : State) (u : MotionUpdate) : State :=
  if s.settings.standbyPending then
    let mode := s.settings.engineMode
    let choice := s.settleOrder
    if choice.1 then (choice.2.setMode .standby).lanesAndOverlay u (some mode)
    else (choice.2.lanesAndOverlay u (some mode)).setMode .standby
  else s.lanesAndOverlay u none

/-- The tracker emits a motion update from `p0` to Pos, and with it the frame-boundary event when the frame changes:
the lanes react, the overlay and code records are formed, a pending STANDBY entry takes effect, and the staging list
is applied (R44, R113, R144, R155). The code record carries the flags of `spd` (R143, R144). A loss of play that the same
report brings comes after all of it (R43, R113; assumption 38). The staging list is applied last, after a pending STANDBY
entry and the boundary's own record (R141, R155, R158; assumption 40). -/
def State.emitUpdateWith (s : State) (p0 : Nat) (kind : UpdateKind) (spd : Int) : State :=
  let u : MotionUpdate :=
    { p0 := p0, p1 := s.tracker.pos, kind := kind, sample := s.tracker.count, inPlay := s.inPlay,
      coasting := decide (s.tracker.state = .coasting) }
  if frameOf p0 = frameOf u.p1 then s.lanesTake u none
  else ((s.boundaryTaken u).formCode (frameOf u.p1) spd).applyUnheld

/-- The tracker emits a motion update from `p0` to Pos (R44). -/
def State.emitUpdate (s : State) (p0 : Nat) (kind : UpdateKind) : State := s.emitUpdateWith p0 kind s.tracker.spd

/-- The tracker emits an update when Pos changed (R31, R33, R34, R39). -/
def State.emitIfMoved (s : State) (p0 : Nat) (kind : UpdateKind) : State :=
  if s.tracker.pos = p0 then s else s.emitUpdate p0 kind

/-! ## Tracker states (R33 to R36, R49) -/

/-- The tracker enters a state and reports it (R49). -/
def State.enter (s : State) (state : TrackerState) (cause : TrackerCause) : State :=
  (s.mapTracker fun t => { t with state := state }).noteTracker cause

/-- A lane takes a pending STANDBY entry and the loss of play of one stop, in either order: the first of them closes its
open take (R109, R113; assumption 2). -/
def State.closeAtStop (s : State) (i : LaneId) (cause : EndCause) : State :=
  let choice := s.settleOrder
  choice.2.closeOutside i s.tracker.pos (if choice.1 then .standby else cause)

/-- The tracker's entry into STOPPED with a pending STANDBY entry: each lane takes the two as `State.closeAtStop` says,
and the engine mode changes before the lanes or after them (R113, R141; assumption 2). -/
def State.standbyAtStop (s : State) (cause : EndCause) : State :=
  let choice := s.settleOrder
  if choice.1 then (choice.2.setMode .standby).eachLaneFreely fun i s => s.closeAtStop i cause
  else (choice.2.eachLaneFreely fun i s => s.closeAtStop i cause).setMode .standby

/-- What the entry into STOPPED brings in the other blocks: the loss of play, a pending STANDBY entry, the staging
list, and the HOLD record of the generator (R109, R113, R145, R155). -/
def State.stoppedEffects (s : State) (cause : EndCause) : State :=
  ((if s.settings.standbyPending then s.standbyAtStop cause else s.lossOfPlay cause).formHold).applyUnheld

/-- The tracker enters STOPPED with Spd 0, reports it, and the other blocks take the entry (R35, R36, R47, R49). When a
take closes by it, its NOTE_TAKE and the report come in either order (R171; assumption 2). -/
def State.enterStopped (s : State) (cause : TrackerCause) (loss : EndCause) : State :=
  let s := s.mapTracker fun t => { t with spd := 0, state := .stopped }
  if laneIds.any s.holdsTake then
    let choice := s.settleOrder
    if choice.1 then (choice.2.noteTracker cause).stoppedEffects loss
    else (choice.2.stoppedEffects loss).noteTracker cause
  else (s.noteTracker cause).stoppedEffects loss

/-- The tracker takes the state its Spd gives: MOVING when it is not 0 and STOPPED when it is (R33, R40). -/
def State.enterBySpeed (s : State) (cause : TrackerCause) : State :=
  if s.tracker.spd = 0 then s.enterStopped cause .broken else s.enter .moving cause

end Sys2Proof.Machine
end

