-- ==== Sys2Proof/Machine/Tracker.lean ====
section
/-! DEFINITION. Machine/Tracker.lean: the transport tracker (chapter 2): the tach front end, anchors, integration,
speed, code records, and the loss and return of the word clock. -/

namespace Sys2Proof.Machine

/-! ## Speed (R9, R32, R42) -/

/-- A measured or computed speed becomes Spd, clamped to ±Spd_max; a clamp raises OVERSPEED (R9). -/
def State.setSpeed (s : State) (spd : Int) : State :=
  let clamped := clampSpeed s.nominal spd
  let s := s.mapTracker fun t => { t with spd := clamped }
  if clamped = spd then s else s.raiseFault .overspeed

/-- The speed estimate of R32 over `n` samples: direction times 2^32 times `k` over `den` times `n`, TOWARD_ZERO.
The spacing A is 2^32 / den. -/
def estimate (forward : Bool) (k : Int) (den n : Nat) : Int :=
  let num := (frameUnits : Int) * k
  (roundQ .towardZero (if forward then num else -num) (den * n)).value

/-- The estimate origin is set to the sample in hand (R32). -/
def State.setOrigin (s : State) : State :=
  s.mapTracker fun t => { t with origin := some { sample := t.count, net := 0 } }

/-- The LOCAL speed: Spd_nom times the applied ratio in thousandths, in the default rounding (R42). -/
def State.localSpeed (s : State) : Int :=
  (roundQ s.settings.rounding (s.nominal * s.settings.localRatio) 1000).value

/-- In LOCAL the speed is recomputed, with the state change and the loss of play that it brings; while the word clock
is lost it is deferred (R42, R43, R48). -/
def State.recomputeLocal (s : State) : State :=
  if s.settings.source = .localGen ∧ s.tracker.clockLost = false then
    let before := s.inPlay
    let s := s.setSpeed s.localSpeed
    if s.tracker.spd = 0 then
      if s.tracker.state = .stopped then s else s.enterStopped .localStop .broken
    else if s.tracker.state = .moving then s.fallOfPlay before
    else s.enter .moving .moving
  else s

/-- Spd_nom has taken a new value: a Spd beyond the new limit is clamped, the estimate origin is cleared, the LOCAL
speed is recomputed, and a fall of play reaches the lanes (R9, R23, R42, R153). `before` is the play state before. -/
def State.newNominal (s : State) (before : Bool) : State :=
  let s := s.setSpeed s.tracker.spd
  let s := s.mapTracker fun t => { t with origin := none }
  (s.recomputeLocal).fallOfPlay before

/-! ## The phase count (R25, R40) -/

/-- The phase count is re-derived from Pos (R40). -/
def State.rederivePhase (s : State) : State :=
  s.mapTracker fun t => { t with phase := phaseOf s.settings.edges t.pos }

/-- The phase count is re-derived from Pos in TACH (R23, R33, R38, R40). -/
def State.rederiveInTach (s : State) : State := if s.settings.source = .tach then s.rederivePhase else s

/-- The number of phase counts in the day, FD × E (R25). -/
def State.phaseCells (s : State) : Nat := s.settings.standard.dayFrames * s.settings.edges

/-! ## The tach front end (R24 to R27) -/

/-- One subsample of a line through its filter (R24). The subsample that takes the raw level sets the hold count to 0
(assumption 32). -/
def LineFilter.sample (f : LineFilter) (limit : Nat) (raw : Bool) : LineFilter :=
  if raw = f.level then { f with hold := 0 }
  else if limit ≤ f.hold + 1 then { level := raw, hold := 0 }
  else { f with hold := f.hold + 1 }

/-- The quadrature state of two levels (R25). -/
def quadrature (ta tb : Bool) : Nat := (if ta then 2 else 0) + (if tb then 1 else 0)

/-- The state that follows a quadrature state going forward: 0, 2, 3, 1, 0 (R25). -/
def forwardOf (q : Nat) : Nat := if q = 0 then 2 else if q = 2 then 3 else if q = 3 then 1 else 0

/-- The edges of a sample: forward less reverse, and whether the last was forward (R27, R32). -/
structure EdgeTally where
  net : Int
  last : Option Bool
deriving DecidableEq, Repr

/-- An edge moves the phase count by one, modulo FD × E (R25). -/
def State.movePhase (s : State) (forward : Bool) : State :=
  let cells := s.phaseCells
  s.mapTracker fun t =>
    { t with phase := if forward then (t.phase + 1) % cells else (t.phase + cells - 1) % cells }

/-- A valid index pulse against the count: SKIP and the nearest multiple of E, the lower of two (R27). -/
def State.checkIndex (s : State) : State :=
  let e := s.settings.edges
  let r := s.tracker.phase % e
  if r = 0 then s
  else
    let s := s.mapTracker fun t =>
      { t with phase := if 2 * r ≤ e then t.phase - r else (t.phase - r + e) % s.phaseCells }
    s.raiseFault .skip

/-- A rise of the filtered TZ level (R26). -/
def State.indexPulse (s : State) (q : Nat) : State :=
  if s.settings.indexCheck then
    if q = s.settings.indexState then s.checkIndex else s.raiseFault .indexMisplaced
  else s

/-- One subsample of the front end: the filters, then a transition of TA or TB, then the index pulse (R24 to R26). -/
def State.subsample (s : State) (tally : EdgeTally) (ta tb tz : Bool) : EdgeTally × State :=
  let d := s.tracker.decoder
  if d.settle then
    (tally, s.mapTracker fun t =>
      { t with decoder := { ta := ⟨ta, 0⟩, tb := ⟨tb, 0⟩, tz := ⟨tz, 0⟩, settle := false } })
  else
    let f := s.settings.tachFilter
    let d' : Decoder :=
      { ta := d.ta.sample f ta, tb := d.tb.sample f tb, tz := d.tz.sample f tz, settle := false }
    let s := s.mapTracker fun t => { t with decoder := d' }
    let q := quadrature d.ta.level d.tb.level
    let q' := quadrature d'.ta.level d'.tb.level
    let moved : EdgeTally × State :=
      if d'.ta.level ≠ d.ta.level ∧ d'.tb.level ≠ d.tb.level then (tally, s.raiseFault .edgeError)
      else if q' = q then (tally, s)
      else if q' = forwardOf q then ({ net := tally.net + 1, last := some true }, s.movePhase true)
      else ({ net := tally.net - 1, last := some false }, s.movePhase false)
    if d'.tz.level ∧ ¬ d.tz.level then (moved.1, moved.2.indexPulse q') else moved

/-- The sixteen subsamples of a sample, in order (R24). -/
def State.frontEnd (s : State) (ta tb tz : BitVec 16) : EdgeTally × State :=
  (List.range 16).foldl
    (fun a k => a.2.subsample a.1 (ta.getLsbD k) (tb.getLsbD k) (tz.getLsbD k)) ({ net := 0, last := none }, s)

/-! ## The cycle window's end (R45) -/

/-- An update from `p0` to `p1` crosses the end of the cycle window (R45). -/
def State.crossesEnd (s : State) (p0 p1 : Nat) : Bool :=
  let std := s.settings.standard
  decide (std.dist p0 s.settings.cycleEnd < 0 ∧ 0 ≤ std.dist p1 s.settings.cycleEnd
    ∧ 0 ≤ std.dist p1 p0 ∧ std.dist p1 p0 < std.reach)

/-- In TACH and CODE the tracker emits the update from `p0` to Pos, when Pos changed, and under every cycle action but
OFF it reports a crossed end (R31, R45). -/
def State.emitExternal (s : State) (p0 : Nat) (kind : UpdateKind) : State :=
  let crossed := s.crossesEnd p0 s.tracker.pos
  let action := s.settings.cycleAction
  let s := s.emitIfMoved p0 kind
  if crossed ∧ action ≠ .off then s.noteTracker .cycleEnd else s

/-! ## Anchors (R29, R30) -/

/-- The anchor rule: the candidate is applied when it lies at or ahead of Pos in its direction, and else Pos holds;
L becomes the Pos that results (R30). -/
def State.applyAnchor (s : State) (a : Nat) (forward : Bool) : State :=
  let std := s.settings.standard
  s.mapTracker fun t =>
    if 0 ≤ (if forward then std.dist a t.pos else std.dist t.pos a) then { t with pos := a, lastAnchor := a }
    else { t with lastAnchor := t.pos }

/-- Pos and L are placed at a position (R33, R34, R37 to R40). -/
def State.placePos (s : State) (x : Nat) : State := s.mapTracker fun t => { t with pos := x, lastAnchor := x }

/-- An estimate that gives Spd other than 0 starts a STOPPED tracker (R35). -/
def State.startIfEstimated (s : State) (formed : Bool) : State :=
  if formed ∧ s.tracker.state = .stopped ∧ s.tracker.spd ≠ 0 then s.enter .moving .moving else s

/-- The speed estimate of a sample with edges (R32): whether one was formed, and the state with its Spd and origin. -/
def State.tachEstimate (s : State) (tally : EdgeTally) (forward : Bool) : Bool × State :=
  match s.tracker.origin with
  | none => (false, s.setOrigin)
  | some o =>
    let net := o.net + tally.net
    let k := if forward then net else -net
    let n := max 1 (samplesFrom o.sample s.tracker.count)
    (true, (s.setSpeed (estimate forward (if k < 1 then 1 else k) s.settings.edges n)).setOrigin)

/-- A sample with edges: the estimate, the candidate of the last edge, and the ANCHOR update (R29 to R32). -/
def State.tachAnchor (s : State) (tally : EdgeTally) (forward : Bool) : State :=
  let before := s.inPlay
  let p0 := s.tracker.pos
  let s := s.mapTracker fun t => { t with stallTimer := some 0 }
  let est := s.tachEstimate tally forward
  let s := est.2
  if s.tracker.state = .unreferenced then s
  else
    let j := if forward then s.tracker.phase else s.tracker.phase + 1
    let s := s.applyAnchor (transitionPos s.settings.standard s.settings.edges j) forward
    let s := s.startIfEstimated est.1
    (s.emitExternal p0 .anchor).fallOfPlay before

/-! ## Integration (R30, R31, R36, R45) -/

/-- The next anchor position in the direction of travel (R30). -/
def State.nextAnchor (s : State) (forward : Bool) : Nat :=
  let std := s.settings.standard
  let l := s.tracker.lastAnchor
  if s.settings.source = .tach then
    if forward then nextTransition std s.settings.edges l else previousTransition std s.settings.edges l
  else if forward then std.into ((l : Int) + frameUnits) else std.into ((l : Int) - frameUnits)

/-- The position after one integration in MOVING with an external source: clamped one pu short of the next anchor
(R31). -/
def State.clampedStep (s : State) : Nat :=
  let std := s.settings.standard
  let p := std.into ((s.tracker.pos : Int) + s.tracker.spd)
  if 0 < s.tracker.spd then
    let bound := std.into ((s.nextAnchor true : Int) - 1)
    if 0 < std.dist p bound then bound else p
  else
    let bound := std.into ((s.nextAnchor false : Int) + 1)
    if std.dist p bound < 0 then bound else p

/-- A coast that has reached a limit in frames ends: Spd 0, STOPPED with cause LOCK_LOST, and the flag (R36). -/
def State.coastEnd (s : State) (limit : Nat) : State :=
  let std := s.settings.standard
  if limit * frameUnits ≤ (std.dist s.tracker.pos s.tracker.lastAnchor).natAbs then
    (s.raise .lockLost).enterStopped .lockLost .lockLost
  else s

/-- The integration of a sample in TACH or CODE (R31, R36). -/
def State.integrate (s : State) : State :=
  match s.tracker.state with
  | .unreferenced => s
  | .stopped => s
  | .moving =>
    if s.tracker.spd = 0 then s
    else
      let p1 := s.clampedStep
      (s.mapTracker fun t => { t with pos := p1 }).emitExternal s.tracker.pos .step
  | .coasting =>
    let p1 := s.settings.standard.into ((s.tracker.pos : Int) + s.tracker.spd)
    ((s.mapTracker fun t => { t with pos := p1 }).emitExternal s.tracker.pos .step).coastEnd s.settings.coastLimit

/-- The cycle action HALT in LOCAL: Pos at the end, a STEP update, the ratio 0, and STOPPED with cause HALT. The code
records of the boundary and of the stop are formed in either order (R45, R145; assumption 2). With Pos at the end there is
no update; no crossing starts there (assumption 39). -/
def State.haltAt (s : State) (last : Nat) : State :=
  let p0 := s.tracker.pos
  let s := s.mapTracker fun t => { t with pos := last }
  let s :=
    if last = p0 then s
    else if frameOf last = frameOf p0 then s.emitUpdate p0 .step
    else
      let choice := s.settleOrder
      choice.2.emitUpdateWith p0 .step (if choice.1 then 0 else choice.2.tracker.spd)
  let s := s.mapSettings fun g => { g with localRatio := 0 }
  s.enterStopped .halt .broken

/-- The integration of a sample in LOCAL, with the cycle window (R31, R42, R45). A step from Pos at the end crosses
nothing, so HALT lets it go on (assumption 39). -/
def State.integrateLocal (s : State) : State :=
  if s.tracker.state = .moving ∧ s.tracker.spd ≠ 0 then
    let std := s.settings.standard
    let p0 := s.tracker.pos
    let p1 := std.into ((p0 : Int) + s.tracker.spd)
    let plain := s.mapTracker fun t => { t with pos := p1 }
    if s.crossesEnd p0 p1 then
      match s.settings.cycleAction with
      | .off => plain.emitUpdate p0 .step
      | .notify => (plain.emitUpdate p0 .step).noteTracker .cycleEnd
      | .wrap =>
        let x := std.into ((s.settings.cycleStart : Int) + std.dist p1 s.settings.cycleEnd)
        (s.mapTracker fun t => { t with pos := x }).emitUpdate p0 .wrap
      | .halt => s.haltAt s.settings.cycleEnd
    else plain.emitUpdate p0 .step
  else s

/-! ## Timers and the sample (R7, R35, R36, R47; assumption 5) -/

/-- A running timer counts one sample. -/
def tickTimer : Option Nat → Option Nat
  | none => none
  | some t => some (t + 1)

/-- A sample begins at a word-clock edge: the count advances, and the timers count (R35, R36, R47, R145). A sample
that has begun is left as it is. -/
def State.beginSample (s : State) : State :=
  if s.tracker.sampleBegun then s
  else
    let s := s.mapTracker fun t =>
      { t with
        count := t.count + 1
        stallTimer := tickTimer t.stallTimer
        dropoutTimer := tickTimer t.dropoutTimer
        sampleBegun := true
        anchorTaken := false }
    s.mapFeeds fun f => { f with holdTimer := tickTimer f.holdTimer }

/-- The sample's processing is over. -/
def State.endSample (s : State) : State := s.mapTracker fun t => { t with sampleBegun := false, anchorTaken := false }

/-- The stall timer stands at its timeout in TACH (R35). -/
def State.stallDue (s : State) : Bool :=
  decide (s.settings.source = .tach) && match s.tracker.stallTimer with
    | none => false
    | some t => decide (s.settings.stallTimeout ≤ t)

/-- The stall: Spd 0 and no origin, a MOVING tracker STOPPED, and the timer stopped. A STOPPED tracker keeps its origin
(R35; assumption 34). -/
def State.fireStall (s : State) : State :=
  let s := s.mapTracker fun t => { t with stallTimer := none }
  match s.tracker.state with
  | .moving => (s.mapTracker fun t => { t with origin := none }).enterStopped .stall .broken
  | .unreferenced => s.mapTracker fun t => { t with spd := 0, origin := none }
  | .stopped => s
  | .coasting => s

/-- The dropout timeout in samples (R36). -/
def State.dropoutTimeout (s : State) : Nat :=
  match s.tracker.recordInterval with
  | none => 2 * nominalPeriod s.settings.standard s.settings.sampleRate
  | some n => max 64 (2 * n)

/-- The dropout timer stands at its timeout in CODE, or above one that has just been shortened (R36; assumption 42). -/
def State.dropoutDue (s : State) : Bool :=
  decide (s.settings.source = .codeIn) && match s.tracker.dropoutTimer with
    | none => false
    | some t => decide (s.dropoutTimeout ≤ t)

/-- The dropout: the interval unknown, the timer stopped, and a MOVING tracker COASTING with open takes marked COASTED
(R36, R125). -/
def State.fireDropout (s : State) : State :=
  let s := s.mapTracker fun t => { t with dropoutTimer := none, recordInterval := none }
  match s.tracker.state with
  | .moving =>
    let s := s.mapTracker fun t => { t with origin := none }
    (s.enter .coasting .dropout).mapLog TakeLog.markCoasted
  | .unreferenced => s
  | .stopped => s
  | .coasting => s

/-- The hold timer's record (R145). -/
def State.fireHold (s : State) : State := s.formHold

/-! ## Code records (R28, R29, R33, R34, R37 to R39) -/

/-- A valid code record: its frame, its flags and its base (R28). -/
structure CodeRecord where
  frame : Nat
  hold : Bool
  reverse : Bool
  base : Nat
deriving DecidableEq, Repr

/-- A code record's six bytes after the start byte checked and converted; `none` is a bad record (R28, R180). -/
def readCodeRecord (std : Standard) (hh mm ss ff flags check : Byte) : Option CodeRecord :=
  if hh + mm + ss + ff + flags + check = 0 ∧ flags.toNat < 8
      ∧ labelInRange std hh.toNat mm.toNat ss.toNat ff.toNat = true
      ∧ isOmitted std mm.toNat ss.toNat ff.toNat = false
      ∧ flags.getLsbD 0 = std.isDrop then
    let frame := labelToFrame std ⟨hh.toNat, mm.toNat, ss.toNat, ff.toNat⟩
    let hold := flags.getLsbD 1
    let reverse := flags.getLsbD 2
    some
      { frame := frame, hold := hold, reverse := reverse,
        base := if hold || reverse then frame * frameUnits else std.into ((frame + 1) * frameUnits : Nat) }
  else none

/-- The frames from the previous base to a record's base in the record's direction (R32). -/
def framesBetween (std : Standard) (previous : Nat) (r : CodeRecord) : Int :=
  (if r.reverse then std.dist previous r.base else std.dist r.base previous) / (frameUnits : Int)

/-- The frames a contiguous record has moved since the previous record; `none` when it is not contiguous (R32,
R39; assumption 11). -/
def State.contiguousFrames (s : State) (r : CodeRecord) : Option Int :=
  match s.tracker.previous, s.tracker.dropoutTimer with
  | some p, some _ =>
    let k := framesBetween s.settings.standard p.base r
    if samplesFrom p.arrival s.tracker.count ≤ s.dropoutTimeout ∧ 1 ≤ k ∧ k ≤ 8 then some k else none
  | _, _ => none

/-- A valid record becomes the previous code record, sets the record interval, and restarts the dropout timer
(R28). -/
def State.keepRecord (s : State) (r : CodeRecord) : State :=
  s.mapTracker fun t =>
    { t with
      recordInterval :=
        match t.previous with
        | none => t.recordInterval
        | some p => some (samplesFrom p.arrival t.count)
      previous := some { base := r.base, reverse := r.reverse, arrival := t.count }
      dropoutTimer := some 0 }

/-- The candidate of a record that is not HOLD: its base with the code latency at Spd (R29). -/
def State.codeCandidate (s : State) (r : CodeRecord) : Nat :=
  s.settings.standard.into ((r.base : Int) + s.settings.codeLatency * s.tracker.spd)

/-- A valid HOLD record in CODE (R34). -/
def State.codeHold (s : State) (r : CodeRecord) : State :=
  let p0 := s.tracker.pos
  let before := s.tracker.state
  let s := (s.placePos r.base).mapTracker fun t => { t with spd := 0, origin := none }
  let s := s.emitIfMoved p0 .jump
  match before with
  | .unreferenced =>
    (s.mapTracker fun t => { t with driftCount := 0 }).enterStopped .referenced .broken
  | .moving => s.enterStopped .hold .broken
  | .coasting => s.enterStopped .hold .broken
  | .stopped => if r.base = p0 then s else s.noteTracker .jump

/-- The first valid record in CODE that is not HOLD references the tracker at its base (R33). -/
def State.codeReference (s : State) (r : CodeRecord) : State :=
  let p0 := s.tracker.pos
  let s := (s.placePos r.base).setOrigin
  let s := s.mapTracker fun t => { t with driftCount := 0 }
  (s.emitIfMoved p0 .jump).enterBySpeed .referenced

/-- A valid record in COASTING that is not HOLD returns the tracker to MOVING, reported at the Pos it leaves (R37, R49;
assumption 36). -/
def State.codeRecover (s : State) (r : CodeRecord) : State :=
  let std := s.settings.standard
  let p0 := s.tracker.pos
  let a := s.codeCandidate r
  let s := s.setOrigin.mapTracker fun t => { t with state := .moving }
  let s :=
    if frameUnits < (std.dist a p0).natAbs then (s.placePos a).emitIfMoved p0 .jump
    else (s.applyAnchor a (!r.reverse)).emitExternal p0 .anchor
  s.noteTracker .recovered

/-- A record in CODE that is not contiguous is placed as a jump (R39). -/
def State.codeJump (s : State) (r : CodeRecord) : State :=
  let p0 := s.tracker.pos
  let a := s.codeCandidate r
  let s := (s.placePos a).setOrigin
  if a = p0 then s else (s.emitUpdate p0 .jump).noteTracker .jump

/-- A contiguous record in CODE: its estimate when there is an origin, then its candidate by the anchor rule (R29 to
R32, R35). -/
def State.codeAnchor (s : State) (r : CodeRecord) (k : Int) : State :=
  let before := s.inPlay
  let p0 := s.tracker.pos
  let formed := s.tracker.origin.isSome
  let s :=
    match s.tracker.origin with
    | none => s.setOrigin
    | some o => (s.setSpeed (estimate (!r.reverse) k 1 (max 1 (samplesFrom o.sample s.tracker.count)))).setOrigin
  let s := s.applyAnchor (s.codeCandidate r) (!r.reverse)
  let s := s.startIfEstimated formed
  (s.emitExternal p0 .anchor).fallOfPlay before

/-- A valid record in CODE (R31, R33, R34, R37, R39). It arrives in a sample whose integration is then not made. -/
def State.takeInCode (s : State) (r : CodeRecord) : State :=
  let s := s.beginSample
  let contiguous := s.contiguousFrames r
  let s := (s.keepRecord r).mapTracker fun t => { t with anchorTaken := true }
  if r.hold then s.codeHold r
  else
    match s.tracker.state with
    | .unreferenced => s.codeReference r
    | .coasting => s.codeRecover r
    | .stopped =>
      match contiguous with
      | some k => s.codeAnchor r k
      | none => s.codeJump r
    | .moving =>
      match contiguous with
      | some k => s.codeAnchor r k
      | none => s.codeJump r

/-- The first valid record in TACH references the tracker (R33, R34). A HOLD record sets Spd 0 and clears the estimate
origin, since it stops the tracker (R32; assumptions 22 and 35). -/
def State.tachReference (s : State) (r : CodeRecord) : State :=
  let p0 := s.tracker.pos
  let s := if r.hold then s.mapTracker fun t => { t with spd := 0, origin := none } else s
  let a := if r.hold then r.base else s.codeCandidate r
  let s := (s.placePos a).rederivePhase.mapTracker fun t => { t with driftCount := 0 }
  (s.emitIfMoved p0 .jump).enterBySpeed .referenced

/-- The drift check of a valid record in TACH, and the re-jam at the third mismatch in a row (R38). -/
def State.driftCheck (s : State) (r : CodeRecord) : State :=
  let std := s.settings.standard
  let p0 := s.tracker.pos
  let a := if r.hold then r.base else s.codeCandidate r
  if (std.dist a p0).natAbs ≤ s.settings.driftTolerance * frameUnits then
    s.mapTracker fun t => { t with driftCount := 0 }
  else if s.tracker.driftCount < 2 then s.mapTracker fun t => { t with driftCount := t.driftCount + 1 }
  else
    let s := (s.placePos a).rederivePhase.mapTracker fun t => { t with driftCount := 0 }
    ((s.raise .drift).emitUpdate p0 .jump).noteTracker .drift

/-- A valid record in TACH (R33, R38). -/
def State.takeInTach (s : State) (r : CodeRecord) : State :=
  let s := s.keepRecord r
  if s.tracker.state = .unreferenced then s.tachReference r else s.driftCheck r

/-- A record taken whole from CIN (R22, R28, R47). A bad one begins no sample, so its notice carries the count as it
stands (assumption 33). -/
def State.takeRecord (s : State) (hh mm ss ff flags check : Byte) : State :=
  if s.tracker.clockLost then s
  else
    match s.settings.source with
    | .localGen => s
    | .tach =>
      match readCodeRecord s.settings.standard hh mm ss ff flags check with
      | none => s.raiseFault .codeError
      | some r => s.takeInTach r
    | .codeIn =>
      match readCodeRecord s.settings.standard hh mm ss ff flags check with
      | none => s.raiseFault .codeError
      | some r => s.takeInCode r

/-- One byte on CIN: the receiver waits for 0x5A and then takes the next six bytes as one record (R180). -/
def State.cinByte (s : State) (b : Byte) : State :=
  match s.tracker.cin with
  | none => if b = 0x5A then s.mapTracker fun t => { t with cin := some [] } else s
  | some [hh, mm, ss, ff, flags] =>
    (s.mapTracker fun t => { t with cin := none }).takeRecord hh mm ss ff flags b
  | some bytes => s.mapTracker fun t => { t with cin := some (bytes ++ [b]) }

/-- A gap inside a CIN record ends it as a bad record; it raises CODE_ERROR where records are checked (R28, R180;
assumption 33). -/
def State.cinGap (s : State) : State :=
  match s.tracker.cin with
  | none => s
  | some _ =>
    let s := s.mapTracker fun t => { t with cin := none }
    if s.tracker.clockLost ∨ s.settings.source = .localGen then s else s.raiseFault .codeError

/-! ## The word clock (R31, R47, R48) -/

/-- The loss of the word clock (R47). -/
def State.loseClock (s : State) : State :=
  let s := (s.raise .clockLost).mapTracker fun t =>
    { t with clockLost := true, spd := 0, origin := none, sampleBegun := false, anchorTaken := false }
  match s.tracker.state with
  | .unreferenced => s.noteTracker .clockLost
  | .stopped => s.enterStopped .clockLost .clockLost
  | .moving => s.enterStopped .clockLost .clockLost
  | .coasting => s.enterStopped .clockLost .clockLost

/-- The return of the word clock (R48). -/
def State.regainClock (s : State) : State :=
  let s := s.mapTracker fun t =>
    { t with
      clockLost := false
      stallTimer := some 0
      dropoutTimer := some 0
      decoder := { t.decoder with settle := true } }
  if s.settings.source = .localGen then
    let s := s.setSpeed s.localSpeed
    let s := if s.tracker.spd = 0 then s else s.mapTracker fun t => { t with state := .moving }
    s.noteTracker .clockBack
  else s.noteTracker .clockBack

/-- What the tracker does with the sample that has begun, by its source (R22, R31, R35, R36, R145). -/
def State.sampleMotion (s : State) (ta tb tz : BitVec 16) : State :=
  match s.settings.source with
  | .tach =>
    let fe := s.frontEnd ta tb tz
    match fe.1.last with
    | some forward => fe.2.tachAnchor fe.1 forward
    | none => (if fe.2.stallDue then fe.2.fireStall else fe.2).integrate
  | .codeIn =>
    if s.tracker.anchorTaken then s else (if s.dropoutDue then s.fireDropout else s).integrate
  | .localGen => (if s.holdDue then s.fireHold else s).integrateLocal

/-- One word-clock sample (R31). An edge after a loss brings the clock back first, and the sample that it begins then
counts in the timers that the return has restarted (R48; assumption 13). -/
def State.sample (s : State) (ta tb tz : BitVec 16) : State :=
  let s := if s.tracker.clockLost then s.regainClock else s
  ((s.beginSample.sampleMotion ta tb tz).toneFrame).endSample

end Sys2Proof.Machine
end

