-- ==== Sys2Proof/Machine/Settings.lean ====
section
/-! DEFINITION. Machine/Settings.lean: writing and reading settings (chapter 8). Each `write…` takes the state and the
value of a write that has passed checks 1 to 5 of R151. -/

namespace Sys2Proof.Machine

/-! ## Answers of a write -/

/-- The answer of an executed write: the identifier and the value as stored (R151). -/
def stored (id : Byte) (flags : OutFlags) (v : ReportedValue) : Answer := .ok flags (.settingWrite id v)

/-- The answer of a numeric write stored as `v` for a written `w` (R150). -/
def storedNumber (id : Byte) (v w : Int) : Answer := stored id (clampFlags (decide (v ≠ w))) (.number v)

/-- An executed class-F write: its entry joins the staging list, and the list is applied at once when the tracker is
at rest and the hold is 0; STAGED when the entry is left waiting (R151, R154, R155). -/
def State.stage (s : State) (e : Staged) (flags : OutFlags) (v : ReportedValue) : State × Answer :=
  let s := s.mapSettings fun g => { g with staging := putStaged g.staging e }
  let s := if s.atRest then s.applyUnheld else s
  let waits := s.settings.staging.any fun f => decide (f.id = e.id)
  (s, stored e.id { flags with staged := waits } v)

/-- A class-F numeric write that is clamped to a range (R150). -/
def State.stageNumber (s : State) (make : Nat → Staged) (low high : Int) (w : Int) : State × Answer :=
  let v := clampTo low high w
  s.stage (make v.toNat) (clampFlags (decide (v ≠ w))) (.number v)

/-! ## Settings with rows of their own -/

/-- Engine mode (R112, R113, R115). -/
def State.writeEngineMode (s : State) (code : Byte) : State × Answer :=
  match EngineMode.ofCode code with
  | none => (s, .refuse .range)
  | some .standby =>
    if s.settings.engineMode = .standby then (s, stored 0x01 OutFlags.clear (.byte code))
    else if s.atRest then (s.enterStandby, stored 0x01 OutFlags.clear (.byte code))
    else
      (s.mapSettings fun g => { g with standbyPending := true },
        stored 0x01 { OutFlags.clear with staged := true } (.byte code))
  | some .rehearse =>
    let s' := if s.settings.engineMode = .record then s.closeAll .mode else s
    (s'.setMode .rehearse, stored 0x01 OutFlags.clear (.byte code))
  | some .record => (s.setMode .record, stored 0x01 OutFlags.clear (.byte code))

/-- A position reduced into the day of a new standard (R6). -/
def reducePos (std : Standard) (x : Nat) : Nat := frameOf x % std.dayFrames * frameUnits + fractionOf x

/-- A take record with its positions reduced into the day of a new standard (R6). -/
def Take.reduce (std : Standard) (t : Take) : Take :=
  { t with
    inPos := reducePos std t.inPos
    closing := t.closing.map fun c => { c with pos := reducePos std c.pos } }

/-- The settings under a new standard: the window at its reset value, its waiting entry gone, and the pull-down the
standard forces (R2, R6). -/
def Settings.underStandard (g : Settings) (std : Standard) : Settings :=
  { g with
    standard := std
    cycleStart := 0
    cycleEnd := labelToFrame std ⟨0, 0, 10, 0⟩ * frameUnits
    staging := g.staging.filter fun e => !e.isWindow
    pullDown := std.forcedPullDown.getD g.pullDown }

/-- The tracker forgets what it measured: no origin, no previous record, no interval, no mismatch (R23). -/
def State.forgetMotion (s : State) : State :=
  s.mapTracker fun t =>
    { t with spd := 0, origin := none, previous := none, recordInterval := none, driftCount := 0 }

/-- A new picture standard takes effect (R6, R23, R153). L becomes the reduced Pos, whatever it was (assumption 21). -/
def State.changeStandard (s : State) (std : Standard) : State :=
  let before := s.inPlay
  let p0 := s.tracker.pos
  let s := s.mapSettings fun g => g.underStandard std
  let s := s.mapTracker fun t => { t with pos := reducePos std t.pos, lastAnchor := reducePos std t.pos }
  let s := s.mapLog fun g => { g with records := g.records.map (Take.reduce std) }
  let s := s.rederivePhase.newNominal before
  let s := if s.settings.source = .localGen then s else s.forgetMotion.enter .unreferenced .standard
  s.emitIfMoved p0 .jump

/-- Picture standard (R153). -/
def State.writeStandard (s : State) (code : Byte) : State × Answer :=
  match Standard.ofCode code with
  | none => (s, .refuse .range)
  | some std =>
    if s.table = [] ∧ s.atRest ∧ s.lanes.toList.all (fun l => decide (l.state = .idle)) then
      (if std = s.settings.standard then s else s.changeStandard std, stored 0x02 OutFlags.clear (.byte code))
    else (s, .refuse .state)

/-- Pull-down (R2, R150, R153). -/
def State.writePullDown (s : State) (w : Int) : State × Answer :=
  if s.log.openCount ≠ 0 then (s, .refuse .state)
  else
    let applied := s.settings.standard.forcedPullDown.getD (decide (w ≠ 0))
    let before := s.inPlay
    let s' :=
      if applied = s.settings.pullDown then s
      else (s.mapSettings fun g => { g with pullDown := applied }).newNominal before
    (s', storedNumber 0x03 (if applied then 1 else 0) w)

/-- A new sample rate takes effect (R7, R153). -/
def State.changeRate (s : State) (rate : SampleRate) : State :=
  let before := s.inPlay
  let s := (s.mapSettings fun g => { g with sampleRate := rate }).newNominal before
  (s.mapTracker fun t => { t with recordInterval := none }).recomputeTones

/-- Sample rate (R153). -/
def State.writeSampleRate (s : State) (w : Int) : State × Answer :=
  if w ≠ 48000 ∧ w ≠ 96000 then (s, .refuse .range)
  else if s.log.openCount ≠ 0 then (s, .refuse .state)
  else
    let rate : SampleRate := if w = 48000 then .hz48000 else .hz96000
    (if rate = s.settings.sampleRate then s else s.changeRate rate, storedNumber 0x04 w w)

/-- A new source takes effect (R23, R24, R146). -/
def State.changeSource (s : State) (src : Source) : State :=
  match src with
  | .localGen =>
    (s.mapSettings fun g => { g with source := .localGen, localRatio := 0 }).enterStopped .source .broken
  | .tach =>
    let s := (s.mapFeeds fun f => { f with coutWaiting := none, holdTimer := none }).forgetMotion
    let s := s.mapSettings fun g => { g with source := .tach }
    let s := s.rederivePhase.mapTracker fun t => { t with decoder := { t.decoder with settle := true } }
    s.enter .unreferenced .source
  | .codeIn =>
    let s := (s.mapFeeds fun f => { f with coutWaiting := none, holdTimer := none }).forgetMotion
    (s.mapSettings fun g => { g with source := .codeIn }).enter .unreferenced .source

/-- Source (R23, R153). -/
def State.writeSource (s : State) (code : Byte) : State × Answer :=
  match Source.ofCode code with
  | none => (s, .refuse .range)
  | some src =>
    if s.atRest ∧ s.lanes.toList.all (fun l => decide (l.state ≠ .armed)) then
      (if src = s.settings.source then s else s.changeSource src, stored 0x05 OutFlags.clear (.byte code))
    else (s, .refuse .state)

/-- The rounding mode of a value 0 to 4 (R11). -/
def roundingOf (w : Int) : Option Rounding :=
  if w = 0 then some .nearestEven
  else if w = 1 then some .towardZero
  else if w = 2 then some .down
  else if w = 3 then some .up
  else if w = 4 then some .nearestAway
  else none

/-- Default rounding (R11, R42). -/
def State.writeRounding (s : State) (w : Int) : State × Answer :=
  match roundingOf w with
  | none => (s, .refuse .range)
  | some mode => ((s.mapSettings fun g => { g with rounding := mode }).recomputeLocal, storedNumber 0x06 w w)

/-- Staging hold (R156). -/
def State.writeHold (s : State) (w : Int) : State × Answer :=
  if w = 1 then (s.mapSettings fun g => { g with stagingHold := true }, storedNumber 0x07 w w)
  else if w = 0 then
    let s := s.mapSettings fun g => { g with stagingHold := false }
    (if s.atRest then s.applyUnheld else s, storedNumber 0x07 w w)
  else (s, .refuse .range)

/-- Local ratio (R42). -/
def State.writeRatio (s : State) (w : Int) : State × Answer :=
  let v := clampTo (-16000) 16000 w
  ((s.mapSettings fun g => { g with localRatio := v }).recomputeLocal, storedNumber 0x0B v w)

/-- Edges per frame (R41). -/
def State.writeEdges (s : State) (w : Int) : State × Answer :=
  if s.atRest then
    let v := legalEdges w
    let s := (s.mapSettings fun g => { g with edges := v.toNat }).rederivePhase
    (s.mapTracker fun t => { t with lastAnchor := t.pos, origin := none }, storedNumber 0x30 v w)
  else (s, .refuse .state)

/-- Tach filter (R24). -/
def State.writeFilter (s : State) (w : Int) : State × Answer :=
  let v := clampTo 0 15 w
  let s := s.mapSettings fun g => { g with tachFilter := v.toNat }
  (s.mapTracker fun t =>
    { t with
      decoder :=
        { t.decoder with
          ta := { t.decoder.ta with hold := 0 }
          tb := { t.decoder.tb with hold := 0 }
          tz := { t.decoder.tz with hold := 0 } } },
    storedNumber 0x31 v w)

/-- Index state (R26). -/
def State.writeIndexState (s : State) (w : Int) : State × Answer :=
  if s.atRest then
    let v := clampTo 0 3 w
    (s.mapSettings fun g => { g with indexState := v.toNat }, storedNumber 0x32 v w)
  else (s, .refuse .state)

/-! ## The other settings -/

/-- Notice mask: the three positions that name no kind are stored clear (R150). -/
def State.writeNoticeMask (s : State) (b : Byte) : State × Answer :=
  let v := b &&& 0x1F
  (s.mapSettings fun g => { g with noticeMask := v }, stored 0x08 (clampFlags (decide (v ≠ b))) (.byte v))

/-- Tone-mute mask (R135). -/
def State.writeToneMute (s : State) (b : Byte) : State × Answer :=
  (s.mapSettings fun g => { g with toneMute := b }, stored 0x0F OutFlags.clear (.byte b))

/-- Cycle action (R45, R150). -/
def State.writeCycleAction (s : State) (code : Byte) : State × Answer :=
  match CycleAction.ofCode code with
  | none => (s, .refuse .range)
  | some a => s.stage (.cycleAction a) OutFlags.clear (.byte code)

/-- Auto re-arm (R46, R150). -/
def State.writeAutoRearm (s : State) (w : Int) : State × Answer :=
  if w = 0 ∨ w = 1 then s.stage (.autoRearm (decide (w = 1))) OutFlags.clear (.number w)
  else (s, .refuse .range)

/-- Cycle window: each stamp is checked, legalised and converted, and the end follows the start by 1 frame up to one
reach (R45, R150). -/
def State.writeWindow (s : State) (mode : Rounding) (a b : Stamp) : State × Answer :=
  let std := s.settings.standard
  match takeStamp std mode a, takeStamp std mode b with
  | some x, some y =>
    if (frameUnits : Int) ≤ std.dist y.pos x.pos ∧ std.dist y.pos x.pos ≤ std.reach then
      s.stage (.cycleWindow x.pos y.pos) (x.flags.union y.flags)
        (.window ⟨x.stamp, exactPos x.pos⟩ ⟨y.stamp, exactPos y.pos⟩)
    else (s, .refuse .range)
  | _, _ => (s, .refuse .badLabel)

/-- Tone frequency of a lane (R134). -/
def State.writeToneFrequency (s : State) (i : LaneId) (w : Int) : State × Answer :=
  let v := legalFrequency w
  s.stage (.toneFrequency i v.toNat) (clampFlags (decide (v ≠ w))) (.number v)

/-- Tone level of a lane (R135). -/
def State.writeToneLevel (s : State) (i : LaneId) (w : Int) : State × Answer :=
  let v := clampTo 0 63 w
  (s.mapSettings fun g => { g with toneLevel := g.toneLevel.set i v.toNat },
    storedNumber (BitVec.ofNat 8 (0x28 + i.val)) v w)

/-- Index check (R26, R150). -/
def State.writeIndexCheck (s : State) (w : Int) : State × Answer :=
  if w = 0 ∨ w = 1 then
    (s.mapSettings fun g => { g with indexCheck := decide (w = 1) }, storedNumber 0x33 w w)
  else (s, .refuse .range)

/-- Recorder latency: applied at once, used at each later expansion and run-list check (R152). -/
def State.writeRecorderLatency (s : State) (w : Int) : State × Answer :=
  let v := clampTo 0 4095 w
  (s.mapSettings fun g => { g with recorderLatency := v.toNat }, storedNumber 0x37 v w)

/-! ## The write requests (R151) -/

/-- A write of a one-byte value to an identifier of that form. -/
def State.writeByte (s : State) (id : Byte) (b : Byte) : State × Answer :=
  match id.toNat with
  | 0x01 => s.writeEngineMode b
  | 0x02 => s.writeStandard b
  | 0x05 => s.writeSource b
  | 0x08 => s.writeNoticeMask b
  | 0x0D => s.writeCycleAction b
  | 0x0F => s.writeToneMute b
  | _ => (s, .refuse .badField)

/-- A write of a numeric value to an identifier of that form. -/
def State.writeNumber (s : State) (id : Byte) (w : Int) : State × Answer :=
  match id.toNat with
  | 0x03 => s.writePullDown w
  | 0x04 => s.writeSampleRate w
  | 0x06 => s.writeRounding w
  | 0x07 => s.writeHold w
  | 0x09 => s.stageNumber .bandLow 50 100 w
  | 0x0A => s.stageNumber .bandHigh 100 200 w
  | 0x0B => s.writeRatio w
  | 0x0E => s.writeAutoRearm w
  | 0x20 => s.writeToneFrequency 0 w
  | 0x21 => s.writeToneFrequency 1 w
  | 0x22 => s.writeToneFrequency 2 w
  | 0x23 => s.writeToneFrequency 3 w
  | 0x24 => s.writeToneFrequency 4 w
  | 0x25 => s.writeToneFrequency 5 w
  | 0x26 => s.writeToneFrequency 6 w
  | 0x27 => s.writeToneFrequency 7 w
  | 0x28 => s.writeToneLevel 0 w
  | 0x29 => s.writeToneLevel 1 w
  | 0x2A => s.writeToneLevel 2 w
  | 0x2B => s.writeToneLevel 3 w
  | 0x2C => s.writeToneLevel 4 w
  | 0x2D => s.writeToneLevel 5 w
  | 0x2E => s.writeToneLevel 6 w
  | 0x2F => s.writeToneLevel 7 w
  | 0x30 => s.writeEdges w
  | 0x31 => s.writeFilter w
  | 0x32 => s.writeIndexState w
  | 0x33 => s.writeIndexCheck w
  | 0x34 => s.stageNumber .stallTimeout 480 48000 w
  | 0x35 => s.stageNumber .codeLatency 0 2047 w
  | 0x36 => s.stageNumber .coastLimit 1 25 w
  | 0x37 => s.writeRecorderLatency w
  | 0x38 => s.stageNumber .driftTolerance 1 8 w
  | _ => (s, .refuse .badField)

/-- A write that has passed checks 1 to 4, by the form of its value. -/
def State.writeValue (s : State) (id : Byte) (mode : Rounding) : SettingValue → State × Answer
  | .byte b => s.writeByte id b
  | .number v => s.writeNumber id v.toInt
  | .count _ => (s, .refuse .badField)
  | .window a b => s.writeWindow mode a b

/-- SETTING_WRITE, with checks 1 to 4 of R151 in their order, behind the length check of R168. -/
def State.settingWrite (s : State) (id rounding : Byte) (value : SettingValue) : State × Answer :=
  match catalogue id with
  | none => (s, .refuse .badField)
  | some (form, access) =>
    if formOf value ≠ form then (s, .refuse .badLength)
    else
      match selectRounding s.settings.rounding rounding with
      | none => (s, .refuse .badField)
      | some mode =>
        if access = .ro then (s, .refuse .readOnly)
        else if access = .eng ∧ s.service = false then (s, .refuse .access)
        else s.writeValue id mode value

/-- The mask a bit request names: notice mask or tone-mute mask (R161). -/
def State.maskOf (s : State) (id : Byte) : Option Byte :=
  if id = 0x08 then some s.settings.noticeMask else if id = 0x0F then some s.settings.toneMute else none

/-- A bit request's new value of a mask (R161). -/
def State.storeMask (s : State) (id v : Byte) : State :=
  if id = 0x08 then s.mapSettings fun g => { g with noticeMask := v &&& 0x1F }
  else s.mapSettings fun g => { g with toneMute := v }

/-- SETTING_SET_BITS (R161). -/
def State.setBits (s : State) (id mask : Byte) : State × Answer :=
  match s.maskOf id with
  | none => (s, .refuse .badField)
  | some before =>
    (s.storeMask id (before ||| mask),
      .ok (clampFlags (decide (id = 0x08 ∧ mask &&& 0xE0 ≠ 0))) (.bits id before))

/-- SETTING_CLEAR_BITS (R161). -/
def State.clearBits (s : State) (id mask : Byte) : State × Answer :=
  match s.maskOf id with
  | none => (s, .refuse .badField)
  | some before => (s.storeMask id (before &&& ~~~mask), .ok OutFlags.clear (.bits id before))

/-! ## Reading (R159, R160) -/

/-- The number a truth value is reported as. -/
def boolNumber (b : Bool) : ReportedValue := .number (if b then 1 else 0)

/-- The selector of a rounding mode (R11). -/
def Rounding.selector : Rounding → Nat
  | .nearestEven => 0
  | .towardZero => 1
  | .down => 2
  | .up => 3
  | .nearestAway => 4

/-- A cycle window as reported, with its flags (R159). -/
def reportWindow (std : Standard) (mode : Rounding) (first last : Nat) : ReportedValue × OutFlags :=
  let a := reportPos std mode first
  let b := reportPos std mode last
  (.window a.1 b.1, a.2.union b.2)

/-- A value reported without rounding. -/
def plainValue (v : ReportedValue) : ReportedValue × OutFlags := (v, OutFlags.clear)

/-- The applied value of a setting in the catalogue, with the flags of its conversions (R159, R160). -/
def State.appliedValue (s : State) (id : Byte) (mode : Rounding) : ReportedValue × OutFlags :=
  let g := s.settings
  match id.toNat with
  | 0x01 => plainValue (.byte g.engineMode.code)
  | 0x02 => plainValue (.byte g.standard.code)
  | 0x03 => plainValue (boolNumber g.pullDown)
  | 0x04 => plainValue (.number g.sampleRate.hz)
  | 0x05 => plainValue (.byte g.source.code)
  | 0x06 => plainValue (.number g.rounding.selector)
  | 0x07 => plainValue (boolNumber g.stagingHold)
  | 0x08 => plainValue (.byte g.noticeMask)
  | 0x09 => plainValue (.number g.bandLow)
  | 0x0A => plainValue (.number g.bandHigh)
  | 0x0B => plainValue (.number g.localRatio)
  | 0x0C => reportWindow g.standard mode g.cycleStart g.cycleEnd
  | 0x0D => plainValue (.byte g.cycleAction.code)
  | 0x0E => plainValue (boolNumber g.autoRearm)
  | 0x0F => plainValue (.byte g.toneMute)
  | 0x30 => plainValue (.number g.edges)
  | 0x31 => plainValue (.number g.tachFilter)
  | 0x32 => plainValue (.number g.indexState)
  | 0x33 => plainValue (boolNumber g.indexCheck)
  | 0x34 => plainValue (.number g.stallTimeout)
  | 0x35 => plainValue (.number g.codeLatency)
  | 0x36 => plainValue (.number g.coastLimit)
  | 0x37 => plainValue (.number g.recorderLatency)
  | 0x38 => plainValue (.number g.driftTolerance)
  | 0x50 => plainValue (.count s.tracker.count)
  | 0x51 => plainValue (.byte s.tracker.state.code)
  | 0x52 => plainValue (.number s.tracker.spd)
  | 0x53 => plainValue (.number s.log.records.length)
  | 0x54 => plainValue (.number Config.partRevision.toNat)
  | n =>
    if n < 0x28 then plainValue (.number (g.toneFrequency.get (laneOfId id)))
    else plainValue (.number (g.toneLevel.get (laneOfId id)))

/-- A staging-list entry's value as reported (R159). -/
def Staged.reported (std : Standard) (mode : Rounding) : Staged → ReportedValue × OutFlags
  | .bandLow v => plainValue (.number v)
  | .bandHigh v => plainValue (.number v)
  | .cycleWindow first last => reportWindow std mode first last
  | .cycleAction a => plainValue (.byte a.code)
  | .autoRearm b => plainValue (boolNumber b)
  | .toneFrequency _ hz => plainValue (.number hz)
  | .stallTimeout v => plainValue (.number v)
  | .codeLatency v => plainValue (.number v)
  | .coastLimit v => plainValue (.number v)
  | .driftTolerance v => plainValue (.number v)

/-- The staged value of a setting: its staging-list entry, or STANDBY for a pending entry of the engine mode (R159). -/
def State.stagedValue (s : State) (id : Byte) (mode : Rounding) : Option (ReportedValue × OutFlags) :=
  if id = 0x01 then if s.settings.standbyPending then some (plainValue (.byte 0)) else none
  else (s.settings.staging.find? fun e => decide (e.id = id)).map (Staged.reported s.settings.standard mode)

/-- SETTING_READ (R159). -/
def State.settingRead (s : State) (id rounding : Byte) : Answer :=
  match catalogue id, selectRounding s.settings.rounding rounding with
  | some _, some mode =>
    let applied := s.appliedValue id mode
    let staged := s.stagedValue id mode
    let flags := match staged with
      | none => applied.2
      | some v => applied.2.union v.2
    .ok flags (.settingRead id applied.1 (staged.map (·.1)))
  | _, _ => .refuse .badField

end Sys2Proof.Machine
end

