-- ==== Sys2Proof/Machine/Requests.lean ====
section
/-! DEFINITION. Machine/Requests.lean: the requests that no other file of requests holds, and the one operation that
performs any request (R168). -/

namespace Sys2Proof.Machine

/-- PING (R173). -/
def pingAnswer : Answer := .ok OutFlags.clear (.ping Config.partCode Config.partRevision 8 512)

/-- STATUS_READ: the flags as they stand are reported, and those of the mask are then cleared (R172). -/
def State.statusRead (s : State) (mask : BitVec 16) : State × Answer :=
  (s.mapLink fun l => { l with flags := l.flags &&& ~~~(mask.setWidth 11) },
    .ok OutFlags.clear (.status s.link.flags s.link.notices.length))

/-- RESET: an accepted one waits to take effect (R174). -/
def State.askReset (s : State) (scope : Byte) : State × Answer :=
  match ResetScope.ofCode scope with
  | none => (s, .refuse .badField)
  | some sc => (s.mapLink fun l => { l with resetPending := some sc }, .ok OutFlags.clear (.reset sc))

/-! ## Position (R40, R173) -/

/-- Pos is jammed to a position: the JUMP update, L, the mismatch count, the phase count, and the reference of an
UNREFERENCED tracker (R40). -/
def State.jamTo (s : State) (x : Nat) : State :=
  let p0 := s.tracker.pos
  let referenced := decide (s.tracker.state = .unreferenced)
  let s := (s.placePos x).rederiveInTach.mapTracker fun t => { t with driftCount := 0 }
  let s := s.emitUpdate p0 .jump
  if referenced then s.enterBySpeed .referenced else s

/-- POSITION_JAM (R40). -/
def State.positionJam (s : State) (rounding : Byte) (st : Stamp) : State × Answer :=
  match selectRounding s.settings.rounding rounding with
  | none => (s, .refuse .badField)
  | some mode =>
    match takeStamp s.settings.standard mode st with
    | none => (s, .refuse .badLabel)
    | some x => (s.jamTo x.pos, .ok x.flags .none)

/-- POSITION_READ (R173). -/
def State.positionRead (s : State) (rounding : Byte) : Answer :=
  match selectRounding s.settings.rounding rounding with
  | none => .refuse .badField
  | some mode =>
    let p := reportPos s.settings.standard mode s.tracker.pos
    let r := speedRatio mode s.nominal s.tracker.spd
    .ok (p.2.union r.2) (.position p.1 r.1 s.tracker.state s.inPlay s.tracker.count)

/-! ## The take log (R127, R128) -/

/-- The union of the flags of a list of reports (R12). -/
def unionFlags {α : Type} (l : List (α × OutFlags)) : OutFlags := l.foldl (fun f x => f.union x.2) OutFlags.clear

/-- TAKE_PEEK (R127). -/
def State.takePeek (s : State) (skip count rounding : Byte) : Answer :=
  match selectRounding s.settings.rounding rounding with
  | none => .refuse .badField
  | some mode =>
    if skip.toNat ≤ 63 ∧ 1 ≤ count.toNat ∧ count.toNat ≤ 4 then
      let rs := ((s.log.records.drop skip.toNat).take count.toNat).map (reportTake s.settings.standard mode)
      .ok (unionFlags rs)
        (.takePeek s.log.records.length s.log.openCount s.log.nextSerial (rs.map (·.1)))
    else .refuse .badField

/-- TAKE_RELEASE (R128). -/
def State.takeRelease (s : State) (count : Byte) : State × Answer :=
  if count.toNat ≤ 64 then
    let left := releaseTakes count.toNat s.log.records
    let removed := s.log.records.length - left.length
    (s.mapLog fun g => { g with records := left },
      .ok OutFlags.clear
        (.takeRelease removed (if removed = 0 then none else s.log.records.head?.map (·.serial)) left.length))
  else (s, .refuse .badField)

/-! ## Every request -/

/-- A request performed in the block that owns the state it names: the state it leaves and its answer (R168). -/
def State.perform (s : State) : Request → State × Answer
  | .ping => (s, pingAnswer)
  | .statusRead mask => s.statusRead mask
  | .reset scope => s.askReset scope
  | .settingRead id r => (s, s.settingRead id r)
  | .settingWrite id r v => s.settingWrite id r v
  | .settingSetBits id mask => s.setBits id mask
  | .settingClearBits id mask => s.clearBits id mask
  | .cueSeek bank cursor => s.cueSeek bank cursor
  | .cueRead form operand count mask view r => s.cueRead form operand count mask view r
  | .cueWrite form operand r g => s.cueWrite form operand r g
  | .cueErase form operand => s.cueErase form operand
  | .runlistWrite lane slots => s.runlistWrite lane slots
  | .runlistRead lane => (s, s.runlistRead lane)
  | .laneArm lane => s.laneArm lane
  | .laneDisarm lane => s.laneDisarm lane
  | .laneRead lane => (s, s.laneRead lane)
  | .positionJam r st => s.positionJam r st
  | .positionRead r => (s, s.positionRead r)
  | .takePeek skip count r => (s, s.takePeek skip count r)
  | .takeRelease count => s.takeRelease count

end Sys2Proof.Machine
end

