-- ==== Sys2Proof/Machine/Link.lean ====
section
/-! DEFINITION. Machine/Link.lean: the receiver, the request queue and the transmitter (chapter 9). -/

namespace Sys2Proof.Machine

/-! ## Executing requests (R168, R174) -/

/-- The reply that carries an answer to a frame (R169). -/
def QueuedFrame.reply (f : QueuedFrame) (a : Answer) : Reply :=
  { kind := f.kind + 0x80, tag := f.tag, status := a.status, flags := a.flags, body := a.body }

/-- The BUSY reply to a frame (R168). -/
def QueuedFrame.busy (f : QueuedFrame) : Reply := f.reply (.refuse .busy)

/-- A frame's request performed, or refused by a common check of R168. -/
def State.performFrame (s : State) (f : QueuedFrame) : State × Answer :=
  match f.request with
  | .error st => (s, .refuse st)
  | .ok r => s.perform r

/-- A reply of an executed request is waiting to be sent (R168). -/
def Link.replyWaits (l : Link) : Bool := l.replies.any fun r => decide (r.origin = .executed)

/-- A reply joins the waiting replies (R170). -/
def Link.join (l : Link) (r : WaitingReply) : Link := { l with replies := l.replies ++ [r] }

/-- A RESET that has just been accepted answers BUSY to each request behind it (R174, step 1). -/
def Link.drain (l : Link) : Link :=
  match l.resetPending with
  | none => l
  | some _ =>
    { l with
      replies := l.replies ++ l.requests.map fun f => { reply := f.busy, origin := .drain }
      requests := [] }

/-- A request is executed, its reply is formed, and an idle transmitter starts it (R168, R170, R174). -/
def State.executeFrame (s : State) (f : QueuedFrame) : State :=
  let done := s.performFrame f
  done.1.mapLink fun l =>
    (l.join { reply := f.reply done.2, origin := .executed }).drain.start

/-- Requests are executed, from the head of the queue, until a reply of an executed request waits (R168). At most
`fuel` are executed; the queue never holds more than four. -/
def State.pump (s : State) : Nat → State
  | 0 => s
  | fuel + 1 =>
    if s.link.replyWaits then s
    else
      match s.link.requests with
      | [] => s
      | f :: rest => ((s.mapLink fun l => { l with requests := rest }).executeFrame f).pump fuel

/-- All the requests that can be executed now (R168). -/
def State.runQueue (s : State) : State := s.pump s.link.requests.length

/-! ## Good frames and reception errors (R167, R168) -/

/-- A reception error raises LINK_FAULT (R167). -/
def State.receptionFault (s : State) : State := s.raiseFault .linkFault

/-- The number of BUSY replies that wait and count toward the limit (R168). -/
def Link.busyWaiting (l : Link) : Nat := (l.replies.filter fun r => decide (r.origin = .busy)).length

/-- A good frame joins the request queue, is answered BUSY, or is dropped as a reception error (R168, R174). -/
def State.acceptFrame (s : State) (f : QueuedFrame) : State :=
  if s.link.resetPending.isSome then s.receptionFault
  else if s.link.requests.length < Config.requestQueueSize then
    (s.mapLink fun l => { l with requests := l.requests ++ [f] }).runQueue
  else if s.link.busyWaiting < Config.busyReplyLimit then
    s.mapLink fun l => (l.join { reply := f.busy, origin := .busy }).start
  else s.receptionFault

/-! ## The receiver (R164 to R167) -/

/-- The state with its receiver at `r`. -/
def State.setReceiver (s : State) (r : Receiver) : State := s.mapLink fun l => { l with receiver := r }

/-- The framing is locked; what waits to be sent can then start (R164, R170). -/
def State.lockFraming (s : State) (f : Framing) : State :=
  s.mapLink fun l => ({ l with framing := f } : Link).start

/-- A whole frame, from the length to the check, is good (R165). -/
def frameGood (bytes : List Byte) : Bool :=
  match bytes with
  | [] => false
  | n :: rest =>
    decide (2 ≤ n.toNat ∧ n.toNat ≤ 250 ∧ rest.length = n.toNat + 1) && decide (bytes.foldl (· + ·) 0 = 0)

/-- The kind, tag and body of a good frame, read into a request (R165, R168). -/
def readFrame (bytes : List Byte) : Option QueuedFrame :=
  match bytes with
  | _ :: kind :: tag :: rest => some { kind := kind, tag := tag, request := parseRequest kind rest.dropLast }
  | _ => none

/-- A frame ends: it is handed on when good, and is a reception error otherwise (R165 to R167). -/
def State.endFrame (s : State) (bytes : List Byte) : State :=
  let s := s.setReceiver .waiting
  if frameGood bytes then
    match readFrame bytes with
    | none => s.receptionFault
    | some f => s.acceptFrame f
  else s.receptionFault

/-- A byte inside a binary frame, after the bytes already taken (R165). -/
def State.binaryByte (s : State) (bytes : List Byte) (b : Byte) : State :=
  match bytes with
  | [] =>
    if 2 ≤ b.toNat ∧ b.toNat ≤ 250 then s.setReceiver (.binary [b]) else (s.setReceiver .waiting).receptionFault
  | n :: rest =>
    if rest.length = n.toNat then s.endFrame (bytes ++ [b]) else s.setReceiver (.binary (bytes ++ [b]))

/-- The half byte a hexadecimal character stands for (R166). -/
def hexValue (c : Byte) : Option (BitVec 4) :=
  let n := c.toNat
  if 0x30 ≤ n ∧ n ≤ 0x39 then some (BitVec.ofNat 4 (n - 0x30))
  else if 0x41 ≤ n ∧ n ≤ 0x46 then some (BitVec.ofNat 4 (n - 0x37))
  else if 0x61 ≤ n ∧ n ≤ 0x66 then some (BitVec.ofNat 4 (n - 0x57))
  else none

/-- A character inside a text frame (R166). -/
def State.textByte (s : State) (bytes : List Byte) (half : Option (BitVec 4)) (c : Byte) : State :=
  if c = 0x0A then s
  else if c = 0x3A then (s.setReceiver (.text [] none)).receptionFault
  else if c = 0x0D then
    match half with
    | none => s.endFrame bytes
    | some _ => (s.setReceiver .waiting).receptionFault
  else
    match hexValue c, half with
    | none, _ => (s.setReceiver .waiting).receptionFault
    | some v, none => s.setReceiver (.text bytes (some v))
    | some v, some high => s.setReceiver (.text (bytes ++ [high ++ v]) none)

/-- One byte arrives on RXD (R164 to R166). -/
def State.receiveByte (s : State) (b : Byte) : State :=
  match s.link.framing with
  | .undecided =>
    if b = 0xC3 then (s.setReceiver (.binary [])).lockFraming .binary
    else if b = 0x3A then (s.setReceiver (.text [] none)).lockFraming .text
    else s
  | .binary =>
    match s.link.receiver with
    | .binary bytes => s.binaryByte bytes b
    | .waiting => if b = 0xC3 then s.setReceiver (.binary []) else s
    | .text _ _ => if b = 0xC3 then s.setReceiver (.binary []) else s
  | .text =>
    match s.link.receiver with
    | .text bytes half => s.textByte bytes half b
    | .waiting => if b = 0x3A then s.setReceiver (.text [] none) else s
    | .binary _ => if b = 0x3A then s.setReceiver (.text [] none) else s

/-- Bytes arrive on RXD, in order. -/
def State.receiveBytes (s : State) (bytes : List Byte) : State := bytes.foldl State.receiveByte s

/-- More than 32 byte times have passed inside a frame: it is ended as a reception error (R167). -/
def State.frameGap (s : State) : State :=
  match s.link.receiver with
  | .waiting => s
  | .binary _ => (s.setReceiver .waiting).receptionFault
  | .text _ _ => (s.setReceiver .waiting).receptionFault

/-! ## The transmitter (R170) -/

/-- The transmitter ends its frame and starts the next; a reply that starts may free the next request (R168, R170). -/
def State.transmitDone (s : State) : State :=
  match s.link.sending with
  | none => s
  | some _ => (s.mapLink fun l => ({ l with sending := none } : Link).start).runQueue

/-! ## A request as a command -/

/-- The framing of a wire form (R164). -/
def framingOf : Wire → Framing
  | .binary => .binary
  | .text => .text

/-- The frame of a request as the queue holds it. -/
def requestFrame (h : FrameHead) (r : Request) : QueuedFrame := { kind := r.kind, tag := h.tag, request := .ok r }

/-- A request arrives as one whole good frame: it locks the framing when that is UNDECIDED, and a frame of the framing
not chosen is not recognised and has no effect (R164, R168). The receiver waits afterwards (assumption 10). -/
def State.submit (s : State) (h : FrameHead) (r : Request) : State :=
  let s := s.withService h.service
  let s := if s.link.framing = .undecided then s.lockFraming (framingOf h.wire) else s
  if s.link.framing = framingOf h.wire then (s.setReceiver .waiting).acceptFrame (requestFrame h r) else s

end Sys2Proof.Machine
end

