-- ==== Sys2Proof/Machine/Resets.lean ====
section
/-! DEFINITION. Machine/Resets.lean: the three resets (R21, R62, R74, R131, R147, R162, R174). -/

namespace Sys2Proof.Machine

/-! ## Power-on reset and RESET FULL -/

/-- The feeds after RESET FULL. A record being sent on OVL or COUT completes, the places behind it are emptied, and the
reset record follows on OVL (R142, R146, R147). -/
def Feeds.fullReset (f : Feeds) : Feeds :=
  Feeds.sendOverlay
    { Feeds.reset with ovlSending := f.ovlSending, ovlHolding := none, coutSending := f.coutSending } OverlayRecord.reset

/-- Power-on reset: every block at its reset value, with the reset record started on an idle OVL sender (R142); what
stands outside the part, and the model's own fields, stay (R21, R164, R170). -/
def State.powerOn (s : State) : State :=
  { State.reset with service := s.service, occasion := s.occasion, pending := s.pending }

/-- RESET FULL takes effect: as power-on reset, with the framing kept (R174), and with records being sent completing
(R142, R146). A word clock that is lost stays so. -/
def State.fullReset (s : State) : State :=
  { s.powerOn with
    feeds := s.feeds.fullReset
    tracker := { Tracker.reset with clockLost := s.tracker.clockLost }
    link := { Link.reset with framing := s.link.framing } }

/-! ## RESET ENGINE -/

/-- A lane's open take closes at its last position with cause RESET, and the lane is emptied and IDLE with its run list
kept (R74, R131). -/
def State.resetLane (s : State) (i : LaneId) : State :=
  (s.closeTake i s.tracker.pos s.tracker.count .reset).mapLane i fun l => { Lane.reset with runList := l.runList }

/-- A slot after RESET ENGINE: its expansion count 0 and its pending copy promoted (R62). -/
def Slot.engineReset (v : Slot) : Slot := Slot.promote { v with expansions := 0 }

/-- The cue table after RESET ENGINE (R51, R62). -/
def engineResetTable (t : CueTable) : CueTable := t.map fun e => (e.1, e.2.engineReset)

/-- The tracker's record after RESET ENGINE, before the LOCAL speed: the count goes on, and a lost clock stays lost
(R21). -/
def Tracker.engineReset (t : Tracker) : Tracker :=
  { Tracker.reset with count := t.count, clockLost := t.clockLost, sampleBegun := t.sampleBegun }

/-- In LOCAL the reset leaves the tracker STOPPED or MOVING by the LOCAL speed, and STOPPED while the clock is lost
(R21). -/
def State.resetLocal (s : State) : State :=
  if s.settings.source = .localGen then
    let s := s.mapTracker fun t => { t with state := .stopped }
    if s.tracker.clockLost then s
    else
      let s := s.setSpeed s.localSpeed
      if s.tracker.spd = 0 then s else s.mapTracker fun t => { t with state := .moving }
  else s

/-- The feeds after RESET ENGINE, before their records: copies off, phases and slots 0, the holding buffer and the
waiting place emptied (R146, R147). -/
def Feeds.engineReset (f : Feeds) : Feeds :=
  { f with
    copies := Eight.all LaneCopy.off, phases := Eight.all 0, tone := Eight.all 0, ovlHolding := none,
    coutWaiting := none, holdTimer := none }

/-- The code generator after RESET ENGINE: in LOCAL a HOLD record when STOPPED, and else the timer restarts (R146). -/
def State.resetCode (s : State) : State :=
  if s.settings.source = .localGen then
    if s.tracker.state = .stopped then s.formHold else s.mapFeeds fun f => { f with holdTimer := some 0 }
  else s

/-- The link after RESET ENGINE: framing, bank, cursor, flags and notices kept (R174). -/
def Link.engineReset (l : Link) : Link :=
  { l with receiver := .waiting, requests := [], replies := [], sending := none, resetPending := none }

/-- RESET ENGINE takes effect (R21, R62, R74, R131, R146, R147, R162, R174). -/
def State.engineReset (s : State) : State :=
  let s := s.eachLaneFreely fun i s => s.resetLane i
  let s := s.mapTable engineResetTable
  let s := s.mapSettings fun g => { g with staging := [], standbyPending := false }
  let s := (s.mapTracker Tracker.engineReset).resetLocal
  let s := (s.mapFeeds Feeds.engineReset).recomputeTones
  let s := s.formOverlay.resetCode
  s.mapLink fun l => l.engineReset.start

/-- A reset of a scope is pending, no reply is waiting and no frame is in transmission (R174). -/
def State.resetDue (s : State) (scope : ResetScope) : Bool :=
  decide (s.link.resetPending = some scope) && s.link.replies.isEmpty && s.link.sending.isNone

end Sys2Proof.Machine
end

