-- ==== Sys2Proof/Machine/LinkCommands.lean ====
section
/-! DEFINITION. Machine/LinkCommands.lean: the meanings of the link's own requests, of the resets, and of the bytes and
times of the control link (chapter 9). -/

namespace Sys2Proof.Machine

/-- The outcome of a command of this part. -/
abbrev Result := Host.Outcome State Fault Refusal

/-- PING (R173). -/
def execPing (h : FrameHead) (s : State) : Result := .next (s.submit h .ping)

/-- STATUS_READ (R172). -/
def execStatusRead (h : FrameHead) (mask : BitVec 16) (s : State) : Result := .next (s.submit h (.statusRead mask))

/-- RESET (R174). -/
def execReset (h : FrameHead) (scope : Byte) (s : State) : Result := .next (s.submit h (.reset scope))

/-- RESET_FULL: a pending full reset takes effect; with none due nothing happens (R174). -/
def execResetFull (s : State) : Result := .next (if s.resetDue .full then s.fullReset else s)

/-- RESET_ENGINE: a pending engine reset takes effect; with none due nothing happens (R174). -/
def execResetEngine (s : State) : Result := .next (if s.resetDue .engine then s.engineReset else s)

/-- POWER_ON_RESET (R21). -/
def execPowerOnReset (s : State) : Result := .next s.powerOn

/-- FRAME_RECEIVED (R165, R166, R168). -/
def execFrameReceived (service : Bool) (bytes : List Byte) (s : State) : Result :=
  .next ((s.withService service).receiveBytes bytes)

/-- RECEPTION_ERROR (R165 to R167). -/
def execReceptionError (bytes : List Byte) (s : State) : Result := .next (s.receiveBytes bytes)

/-- FRAME_GAP_TIMEOUT (R167). -/
def execFrameGapTimeout (s : State) : Result := .next s.frameGap

/-- TRANSMIT_COMPLETE (R168, R170). -/
def execTransmitComplete (service : Bool) (s : State) : Result := .next (s.withService service).transmitDone

/-- FRAMING_START_BYTE (R164). -/
def execFramingStartByte (byte : Byte) (s : State) : Result := .next (s.receiveByte byte)

end Sys2Proof.Machine
end

