-- ==== Sys2Proof/Machine/CueCommands.lean ====
section
/-! DEFINITION. Machine/CueCommands.lean: the meanings of the cue requests (chapter 3). -/

namespace Sys2Proof.Machine

/-- CUE_SEEK (R65). -/
def execCueSeek (h : FrameHead) (bank cursor : Byte) (s : State) : Result := .next (s.submit h (.cueSeek bank cursor))

/-- CUE_READ (R70). -/
def execCueRead (h : FrameHead) (form : Byte) (operand : BitVec 16) (count mask view rounding : Byte) (s : State) :
    Result :=
  .next (s.submit h (.cueRead form operand count mask view rounding))

/-- CUE_WRITE (R67). -/
def execCueWrite (h : FrameHead) (form : Byte) (operand : BitVec 16) (rounding : Byte) (groups : CueGroups)
    (s : State) : Result :=
  .next (s.submit h (.cueWrite form operand rounding groups))

/-- CUE_ERASE (R73). -/
def execCueErase (h : FrameHead) (form : Byte) (operand : BitVec 16) (s : State) : Result :=
  .next (s.submit h (.cueErase form operand))

end Sys2Proof.Machine
end

