-- ==== Sys2Proof/Machine/LaneCommands.lean ====
section
/-! DEFINITION. Machine/LaneCommands.lean: the meanings of the lane requests (chapter 4) and of the requests on the
take log (chapter 6). -/

namespace Sys2Proof.Machine

/-- RUNLIST_WRITE (R75). -/
def execRunlistWrite (h : FrameHead) (lane : Byte) (slots : List (BitVec 16)) (s : State) : Result :=
  .next (s.submit h (.runlistWrite lane slots))

/-- RUNLIST_READ (R79). -/
def execRunlistRead (h : FrameHead) (lane : Byte) (s : State) : Result := .next (s.submit h (.runlistRead lane))

/-- LANE_ARM (R83). -/
def execLaneArm (h : FrameHead) (lane : Byte) (s : State) : Result := .next (s.submit h (.laneArm lane))

/-- LANE_DISARM (R84). -/
def execLaneDisarm (h : FrameHead) (lane : Byte) (s : State) : Result := .next (s.submit h (.laneDisarm lane))

/-- LANE_READ (R85). -/
def execLaneRead (h : FrameHead) (lane : Byte) (s : State) : Result := .next (s.submit h (.laneRead lane))

/-- TAKE_PEEK (R127). -/
def execTakePeek (h : FrameHead) (skip count rounding : Byte) (s : State) : Result :=
  .next (s.submit h (.takePeek skip count rounding))

/-- TAKE_RELEASE (R128). -/
def execTakeRelease (h : FrameHead) (count : Byte) (s : State) : Result := .next (s.submit h (.takeRelease count))

end Sys2Proof.Machine
end

