-- ==== Sys2Proof/Machine/MotionCommands.lean ====
section
/-! DEFINITION. Machine/MotionCommands.lean: the meanings of the position requests, of the events of the transport
tracker (chapter 2), and of those of the actor feeds (chapter 7). -/

namespace Sys2Proof.Machine

/-- POSITION_JAM (R40). -/
def execPositionJam (h : FrameHead) (rounding : Byte) (stamp : Stamp) (s : State) : Result :=
  .next (s.submit h (.positionJam rounding stamp))

/-- POSITION_READ (R173). -/
def execPositionRead (h : FrameHead) (rounding : Byte) (s : State) : Result :=
  .next (s.submit h (.positionRead rounding))

/-- WORD_CLOCK_SAMPLE (R31). -/
def execWordClockSample (ta tb tz : BitVec 16) (s : State) : Result := .next (s.sample ta tb tz)

/-- CODE_RECORD: the bytes of a record on CIN (R28, R180). -/
def execCodeRecord (bytes : List Byte) (s : State) : Result := .next (bytes.foldl State.cinByte s)

/-- CODE_RECORD_GAP (R180). -/
def execCodeRecordGap (s : State) : Result := .next s.cinGap

/-- STALL (R35): the sample at which the stall timer reaches its timeout begins, and the stall is taken; nothing happens
when the timer does not reach it. -/
def execStall (s : State) : Result :=
  .next (if s.tracker.clockLost = false ∧ s.beginSample.stallDue = true then s.beginSample.fireStall else s)

/-- DROPOUT (R36): the sample at which the dropout timer reaches its timeout begins, and the dropout is taken; nothing
happens when the timer does not reach it. -/
def execDropout (s : State) : Result :=
  .next (if s.tracker.clockLost = false ∧ s.beginSample.dropoutDue = true then s.beginSample.fireDropout else s)

/-- CLOCK_LOST (R47); a clock that is lost already is not lost again. -/
def execClockLost (s : State) : Result := .next (if s.tracker.clockLost then s else s.loseClock)

/-- CLOCK_BACK (R48); a clock that is not lost does not come back. -/
def execClockBack (s : State) : Result := .next (if s.tracker.clockLost then s.regainClock else s)

/-- HOLD_TIMER (R145): the sample at which the hold timer reaches the nominal frame period begins, and the HOLD record
is formed; nothing happens when the timer does not reach it. -/
def execHoldTimer (s : State) : Result :=
  .next (if s.tracker.clockLost = false ∧ s.beginSample.holdDue = true then s.beginSample.fireHold else s)

/-- The OVL sender ends its record, and the one in the holding buffer starts (R142). -/
def Feeds.overlaySent (f : Feeds) : Feeds :=
  match f.ovlSending with
  | none => f
  | some _ => { f with ovlSending := f.ovlHolding, ovlHolding := none }

/-- The COUT sender ends its record, and the waiting one starts (R146). -/
def Feeds.codeSent (f : Feeds) : Feeds :=
  match f.coutSending with
  | none => f
  | some _ => { f with coutSending := f.coutWaiting, coutWaiting := none }

/-- OVL_SEND_COMPLETE (R142). -/
def execOvlSendComplete (s : State) : Result := .next (s.mapFeeds Feeds.overlaySent)

/-- COUT_SEND_COMPLETE (R146). -/
def execCoutSendComplete (s : State) : Result := .next (s.mapFeeds Feeds.codeSent)

end Sys2Proof.Machine
end

