-- ==== Sys2Proof/Machine/SettingCommands.lean ====
section
/-! DEFINITION. Machine/SettingCommands.lean: the meanings of the setting requests (chapter 8). -/

namespace Sys2Proof.Machine

/-- SETTING_READ (R159). -/
def execSettingRead (h : FrameHead) (id rounding : Byte) (s : State) : Result :=
  .next (s.submit h (.settingRead id rounding))

/-- SETTING_WRITE (R151). -/
def execSettingWrite (h : FrameHead) (id rounding : Byte) (value : SettingValue) (s : State) : Result :=
  .next (s.submit h (.settingWrite id rounding value))

/-- ENGINE_MODE_WRITE (R112). -/
def execEngineModeWrite (h : FrameHead) (rounding code : Byte) (s : State) : Result :=
  .next (s.submit h (.settingWrite 0x01 rounding (.byte code)))

/-- PICTURE_STANDARD_WRITE (R153). -/
def execPictureStandardWrite (h : FrameHead) (rounding code : Byte) (s : State) : Result :=
  .next (s.submit h (.settingWrite 0x02 rounding (.byte code)))

/-- PULL_DOWN_WRITE (R2, R153). -/
def execPullDownWrite (h : FrameHead) (rounding : Byte) (value : BitVec 32) (s : State) : Result :=
  .next (s.submit h (.settingWrite 0x03 rounding (.number value)))

/-- SAMPLE_RATE_WRITE (R153). -/
def execSampleRateWrite (h : FrameHead) (rounding : Byte) (value : BitVec 32) (s : State) : Result :=
  .next (s.submit h (.settingWrite 0x04 rounding (.number value)))

/-- SOURCE_WRITE (R23). -/
def execSourceWrite (h : FrameHead) (rounding code : Byte) (s : State) : Result :=
  .next (s.submit h (.settingWrite 0x05 rounding (.byte code)))

/-- LOCAL_RATIO_WRITE (R42). -/
def execLocalRatioWrite (h : FrameHead) (rounding : Byte) (value : BitVec 32) (s : State) : Result :=
  .next (s.submit h (.settingWrite 0x0B rounding (.number value)))

/-- STAGING_HOLD_WRITE (R156). -/
def execStagingHoldWrite (h : FrameHead) (rounding : Byte) (value : BitVec 32) (s : State) : Result :=
  .next (s.submit h (.settingWrite 0x07 rounding (.number value)))

/-- EDGES_PER_FRAME_WRITE (R41). -/
def execEdgesPerFrameWrite (h : FrameHead) (rounding : Byte) (value : BitVec 32) (s : State) : Result :=
  .next (s.submit h (.settingWrite 0x30 rounding (.number value)))

/-- INDEX_STATE_WRITE (R26). -/
def execIndexStateWrite (h : FrameHead) (rounding : Byte) (value : BitVec 32) (s : State) : Result :=
  .next (s.submit h (.settingWrite 0x32 rounding (.number value)))

/-- TACH_FILTER_WRITE (R24). -/
def execTachFilterWrite (h : FrameHead) (rounding : Byte) (value : BitVec 32) (s : State) : Result :=
  .next (s.submit h (.settingWrite 0x31 rounding (.number value)))

/-- DEFAULT_ROUNDING_WRITE (R11). -/
def execDefaultRoundingWrite (h : FrameHead) (rounding : Byte) (value : BitVec 32) (s : State) : Result :=
  .next (s.submit h (.settingWrite 0x06 rounding (.number value)))

/-- SETTING_SET_BITS (R161). -/
def execSettingSetBits (h : FrameHead) (id mask : Byte) (s : State) : Result :=
  .next (s.submit h (.settingSetBits id mask))

/-- SETTING_CLEAR_BITS (R161). -/
def execSettingClearBits (h : FrameHead) (id mask : Byte) (s : State) : Result :=
  .next (s.submit h (.settingClearBits id mask))

end Sys2Proof.Machine
end

