-- ==== Sys2Proof/Machine/Dispatch.lean ====
section
/-! DEFINITION. Machine/Dispatch.lean: each command's meaning, one arm for each row of the table. -/

namespace Sys2Proof.Machine

/-- The effect of a command on the part, its queue of waiting commands apart. -/
def exec (i : Instr) (s : State) : Host.Outcome State Fault Refusal :=
  match i with
  | .ping h => Sys2Proof.Machine.execPing h s
  | .statusRead h mask => Sys2Proof.Machine.execStatusRead h mask s
  | .reset h scope => Sys2Proof.Machine.execReset h scope s
  | .resetFull => Sys2Proof.Machine.execResetFull s
  | .resetEngine => Sys2Proof.Machine.execResetEngine s
  | .powerOnReset => Sys2Proof.Machine.execPowerOnReset s
  | .settingRead h id rounding => Sys2Proof.Machine.execSettingRead h id rounding s
  | .settingWrite h id rounding value => Sys2Proof.Machine.execSettingWrite h id rounding value s
  | .engineModeWrite h rounding code => Sys2Proof.Machine.execEngineModeWrite h rounding code s
  | .pictureStandardWrite h rounding code => Sys2Proof.Machine.execPictureStandardWrite h rounding code s
  | .pullDownWrite h rounding value => Sys2Proof.Machine.execPullDownWrite h rounding value s
  | .sampleRateWrite h rounding value => Sys2Proof.Machine.execSampleRateWrite h rounding value s
  | .sourceWrite h rounding code => Sys2Proof.Machine.execSourceWrite h rounding code s
  | .localRatioWrite h rounding value => Sys2Proof.Machine.execLocalRatioWrite h rounding value s
  | .stagingHoldWrite h rounding value => Sys2Proof.Machine.execStagingHoldWrite h rounding value s
  | .edgesPerFrameWrite h rounding value => Sys2Proof.Machine.execEdgesPerFrameWrite h rounding value s
  | .indexStateWrite h rounding value => Sys2Proof.Machine.execIndexStateWrite h rounding value s
  | .tachFilterWrite h rounding value => Sys2Proof.Machine.execTachFilterWrite h rounding value s
  | .defaultRoundingWrite h rounding value => Sys2Proof.Machine.execDefaultRoundingWrite h rounding value s
  | .settingSetBits h id mask => Sys2Proof.Machine.execSettingSetBits h id mask s
  | .settingClearBits h id mask => Sys2Proof.Machine.execSettingClearBits h id mask s
  | .cueSeek h bank cursor => Sys2Proof.Machine.execCueSeek h bank cursor s
  | .cueRead h form operand count mask view rounding => Sys2Proof.Machine.execCueRead h form operand count mask view rounding s
  | .cueWrite h form operand rounding groups => Sys2Proof.Machine.execCueWrite h form operand rounding groups s
  | .cueErase h form operand => Sys2Proof.Machine.execCueErase h form operand s
  | .runlistWrite h lane slots => Sys2Proof.Machine.execRunlistWrite h lane slots s
  | .runlistRead h lane => Sys2Proof.Machine.execRunlistRead h lane s
  | .laneArm h lane => Sys2Proof.Machine.execLaneArm h lane s
  | .laneDisarm h lane => Sys2Proof.Machine.execLaneDisarm h lane s
  | .laneRead h lane => Sys2Proof.Machine.execLaneRead h lane s
  | .positionJam h rounding stamp => Sys2Proof.Machine.execPositionJam h rounding stamp s
  | .positionRead h rounding => Sys2Proof.Machine.execPositionRead h rounding s
  | .takePeek h skip count rounding => Sys2Proof.Machine.execTakePeek h skip count rounding s
  | .takeRelease h count => Sys2Proof.Machine.execTakeRelease h count s
  | .frameReceived service bytes => Sys2Proof.Machine.execFrameReceived service bytes s
  | .receptionError bytes => Sys2Proof.Machine.execReceptionError bytes s
  | .frameGapTimeout => Sys2Proof.Machine.execFrameGapTimeout s
  | .transmitComplete service => Sys2Proof.Machine.execTransmitComplete service s
  | .wordClockSample ta tb tz => Sys2Proof.Machine.execWordClockSample ta tb tz s
  | .codeRecord bytes => Sys2Proof.Machine.execCodeRecord bytes s
  | .codeRecordGap => Sys2Proof.Machine.execCodeRecordGap s
  | .stall => Sys2Proof.Machine.execStall s
  | .dropout => Sys2Proof.Machine.execDropout s
  | .clockLost => Sys2Proof.Machine.execClockLost s
  | .clockBack => Sys2Proof.Machine.execClockBack s
  | .holdTimer => Sys2Proof.Machine.execHoldTimer s
  | .ovlSendComplete => Sys2Proof.Machine.execOvlSendComplete s
  | .coutSendComplete => Sys2Proof.Machine.execCoutSendComplete s
  | .framingStartByte byte => Sys2Proof.Machine.execFramingStartByte byte s

end Sys2Proof.Machine
end

