-- ==== Sys2Proof/Safety.lean ====
section
/-! DEFINITION. Safety.lean: what is always true of a sound part, and the terms in which claims about commands are
stated. -/

namespace Sys2Proof.Machine

/-! ## A sound state -/

/-- A lane's record is of the form its state asks for: outside ARMED it holds no events and its index is 0 (R74, R82),
in ARMED its index names an entry (R74), the punch line is high exactly while a take is open (R102), and its run list
fits (R75). -/
def Lane.sound (l : Lane) : Prop :=
  (l.state ≠ .armed → l.queue = [] ∧ l.stack = [] ∧ l.index = 0)
    ∧ (l.state = .armed → l.index < l.runList.length)
    ∧ l.punchLine = l.openTake.isSome
    ∧ l.runList.length ≤ 16

/-- The link's queues, its bank and its cursor are within their sizes (R64, R168, R171). -/
def Link.sound (l : Link) : Prop :=
  l.requests.length ≤ Config.requestQueueSize ∧ l.notices.length ≤ Config.noticeQueueSize ∧ l.bank < 8
    ∧ l.cursor < 64

/-- The serials of a log run without gaps from the oldest record to the newest, counted modulo 65,536, and the newest
is one less than the next serial (R120). -/
def serialsRun (next : BitVec 16) : List Take → Prop
  | [] => True
  | [t] => t.serial + 1 = next
  | t :: u :: rest => t.serial + 1 = u.serial ∧ serialsRun next (u :: rest)

/-- The take log holds at most 64 records, and their serials run (R120). -/
def TakeLog.sound (g : TakeLog) : Prop :=
  g.records.length ≤ Config.takeLogSize ∧ serialsRun g.nextSerial g.records

/-- The state is sound: the table is in its canonical form with slot numbers below 512 (R51), and every lane, the link
and the take log are sound. -/
def State.sound (s : State) : Prop :=
  tableWf s.table = true ∧ (∀ i, (s.lane i).sound) ∧ s.link.sound ∧ s.log.sound

/-- The contents of a cue satisfy the ranges of R52 and the span test of R54 under a standard. -/
def Contents.legal (std : Standard) (c : Contents) : Prop :=
  c.inPoint < std.dayLength ∧ (∀ o, c.outPoint = some o → o < std.dayLength) ∧ c.streamer ≤ 16 ∧ c.beepCount ≤ 4
    ∧ 2 ≤ c.beepSpacing ∧ c.beepSpacing ≤ 48 ∧ 1 ≤ c.beepLength ∧ c.beepLength ≤ 8 ∧ c.beepLength < c.beepSpacing
    ∧ c.tail ≤ 48 ∧ c.spanOk std = true

/-- A slot's live contents and pending copy are legal, and its take counter is at most 999 (R52, R57). -/
def Slot.legal (std : Standard) (v : Slot) : Prop :=
  v.live.legal std ∧ (∀ c, v.pending = some c → c.legal std) ∧ v.takes ≤ 999

/-- Every DEFINED slot is legal under the standard in force (R52). -/
def State.contentsSound (s : State) : Prop :=
  ∀ n v, slotAt s.table n = some v → v.legal s.settings.standard

/-- The cycle window, applied and waiting, lies in the timecode day (R3, R45). -/
def Settings.windowSound (g : Settings) : Prop :=
  g.cycleStart < g.standard.dayLength ∧ g.cycleEnd < g.standard.dayLength
    ∧ ∀ first last, Staged.cycleWindow first last ∈ g.staging →
        first < g.standard.dayLength ∧ last < g.standard.dayLength

/-- The position and the last anchor lie in the timecode day (R3, R21), the speed within ±Spd_max (R9), and the cycle
window in the day (R45). -/
def State.motionSound (s : State) : Prop :=
  s.tracker.pos < s.settings.standard.dayLength ∧ s.tracker.lastAnchor < s.settings.standard.dayLength
    ∧ -(32 * s.nominal) ≤ s.tracker.spd ∧ s.tracker.spd ≤ 32 * s.nominal ∧ s.settings.windowSound

/-- The number of lanes whose run list names slot `n` (R58). -/
def State.namedBy (s : State) (n : Nat) : Nat :=
  (laneIds.filter fun i => (s.lane i).runList.contains n).length

/-- The reference count of slot `n`, 0 for an EMPTY slot (R58). -/
def State.refsOf (s : State) (n : Nat) : Nat :=
  match slotAt s.table n with
  | none => 0
  | some v => v.refs

/-- The reference counts are right: every count equals the number of lanes whose run list names the slot, and no list
names a slot twice (R58, R75). -/
def State.refsSound (s : State) : Prop :=
  (∀ n, s.refsOf n = s.namedBy n) ∧ ∀ i, (s.lane i).runList.Nodup

/-- The number of ARMED lanes whose current cue stands in slot `n` (R92). -/
def State.workedBy (s : State) (n : Nat) : Nat :=
  (laneIds.filter fun i => decide ((s.lane i).currentSlot = some n)).length

/-- The expansion count of slot `n`, 0 for an EMPTY slot (R59). -/
def State.expansionsOf (s : State) (n : Nat) : Nat :=
  match slotAt s.table n with
  | none => 0
  | some v => v.expansions

/-- The expansion counts are right: every count equals the number of ARMED lanes whose current cue is the slot (R59,
R92). -/
def State.expansionsSound (s : State) : Prop := ∀ n, s.expansionsOf n = s.workedBy n

/-- Takes and lanes agree: a lane's open-take handle names an OPEN record of that lane, the lane of every OPEN record
holds its serial, and no two OPEN records are of one lane (R102, R120). -/
def State.takesSound (s : State) : Prop :=
  (∀ i n, (s.lane i).openTake = some n → ∃ t ∈ s.log.records, t.serial = n ∧ t.lane = i ∧ t.closing = none)
    ∧ (∀ t ∈ s.log.records, t.closing = none → (s.lane t.lane).openTake = some t.serial)
    ∧ s.log.records.Pairwise fun a b => a.closing = none → b.closing = none → a.lane ≠ b.lane

/-- The events of a lane's current cue: the stack from bottom to top, then the queue (R82). -/
def Lane.line (l : Lane) : List Event := (l.stack.map (·.event)).reverse ++ l.queue

/-- Events stand in the order of a cue: nothing behind CUE_END, neither a PUNCH_OUT nor a PUNCH_IN before a PUNCH_IN, and
a PUNCH_OUT where a PUNCH_IN and a CUE_END stand (R80, R81). -/
def cueOrdered (line : List Event) : Prop :=
  line.Pairwise (fun a b => a.kind ≠ .cueEnd ∧ (b.kind = .punchIn → a.kind ≠ .punchIn ∧ a.kind ≠ .punchOut))
    ∧ ((∃ e ∈ line, e.kind = .punchIn) → (∃ e ∈ line, e.kind = .cueEnd) → ∃ e ∈ line, e.kind = .punchOut)

/-- A lane works its cue in order: outside ARMED it has no open take (R74), its events stand in the order of a cue (R82),
and with an open take its PUNCH_IN is among them and its PUNCH_OUT has not retired (R102, R108). -/
def Lane.cueSound (l : Lane) : Prop :=
  (l.state ≠ .armed → l.openTake = none) ∧ cueOrdered l.line
    ∧ (l.openTake.isSome = true → (∃ e ∈ l.line, e.kind = .punchIn) ∧ ∀ r ∈ l.stack, r.event.kind ≠ .punchOut)

/-- Every lane works its cue in order, and the recorder latency is within its range (R74, R82, R152). -/
def State.cuesSound (s : State) : Prop := (∀ i, (s.lane i).cueSound) ∧ s.settings.recorderLatency ≤ 4095

/-- Labels are unique: no label stands in two slots, live or pending (R56). -/
def State.labelsSound (s : State) : Prop :=
  ∀ m n v w, slotAt s.table m = some v → slotAt s.table n = some w → m ≠ n →
    v.live.label ≠ w.live.label
      ∧ ∀ c, v.pending = some c → c.label ≠ w.live.label ∧ ∀ d, w.pending = some d → c.label ≠ d.label

/-- No lane has an open take (R102). -/
def State.noTakeOpen (s : State) : Prop := ∀ i, (s.lane i).openTake = none

/-- No lane is ARMED, so no motion update changes a lane (R94). -/
def State.noneArmed (s : State) : Prop := ∀ i, (s.lane i).state ≠ .armed

/-- A stop of the tracker brings nothing to the lanes and the settings: no take is open, no STANDBY entry is pending and
the staging list is empty (R109, R113, R155). -/
def State.quiet (s : State) : Prop :=
  s.noTakeOpen ∧ s.settings.standbyPending = false ∧ s.settings.staging = []

/-! ## Values written -/

/-- A written tone frequency is stored as `10 * k`: the range 300 to 3,000, then the nearest multiple of 10, and halfway
the one whose count of tens is even (R134). -/
def roundsToTens (w : Int) (k : Nat) : Prop :=
  (w ≤ 300 ∧ k = 30) ∨ (3000 ≤ w ∧ k = 300)
    ∨ (300 < w ∧ w < 3000 ∧ (10 * k - 5 < w ∧ w < 10 * k + 5 ∨ (w = 10 * k - 5 ∨ w = 10 * k + 5) ∧ k % 2 = 0))

/-- A stamp whose label or subframe is out of range under a standard (R13). -/
def labelOutOfRange (std : Standard) (st : Stamp) : Prop :=
  24 ≤ st.hh.toNat ∨ 60 ≤ st.mm.toNat ∨ 60 ≤ st.ss.toNat ∨ std.fps ≤ st.ff.toNat ∨ 1000 ≤ st.sf.toNat

/-! ## One sample -/

/-- The next word-clock sample is a step in LOCAL: the clock is present, no sample has begun, and the tracker is MOVING
(R31, R42). -/
def State.stepping (s : State) : Prop :=
  s.tracker.clockLost = false ∧ s.tracker.sampleBegun = false ∧ s.settings.source = .localGen
    ∧ s.tracker.state = .moving ∧ s.tracker.spd ≠ 0

/-- Pos after one step of Spd in the timecode day (R31). -/
def State.steppedPos (s : State) : Nat := s.settings.standard.into ((s.tracker.pos : Int) + s.tracker.spd)

/-- The lanes but lane `i` are IDLE, so it alone takes an update (R94). -/
def State.onlyLane (s : State) (i : LaneId) : Prop := ∀ j, j ≠ i → (s.lane j).state = .idle

/-- A head of the queue with this target retires on an update to `p1` (R98). -/
def retires (std : Standard) (p1 target : Nat) : Prop := 0 ≤ std.dist p1 target ∧ std.dist p1 target < std.reach

/-- A top of the stack with this target returns on an update to `p1` (R97). -/
def returns (std : Standard) (p1 target : Nat) : Prop :=
  -(std.reach : Int) ≤ std.dist p1 target ∧ std.dist p1 target < 0

/-- A step from `p0` to `p1` crosses the end of the cycle window (R45). -/
def State.crossing (s : State) (p0 p1 : Nat) : Prop :=
  let std := s.settings.standard
  std.dist p0 s.settings.cycleEnd < 0 ∧ 0 ≤ std.dist p1 s.settings.cycleEnd ∧ 0 ≤ std.dist p1 p0
    ∧ std.dist p1 p0 < std.reach

/-- The take of a serial, if one is held, closed in a list of records (R107, R126). -/
def closedIn (records : List Take) (held : Option (BitVec 16)) (c : Closing) : List Take :=
  records.map fun r => if held = some r.serial then { r with closing := some c } else r

/-! ## Requests on a ready link -/

/-- The link can execute a request at once: its framing is that of the frame, the receiver waits for a start byte, no
request and no reply waits, and no reset is pending (R164, R168, R174). -/
def State.ready (s : State) (h : FrameHead) : Prop :=
  s.link.framing = framingOf h.wire ∧ s.link.receiver = .waiting ∧ s.link.requests = [] ∧ s.link.replies = []
    ∧ s.link.resetPending = none

/-- The reply that an executed request of a kind gets (R169). -/
def replyTo (h : FrameHead) (kind : Byte) (a : Answer) : Reply :=
  { kind := kind + 0x80, tag := h.tag, status := a.status, flags := a.flags, body := a.body }

/-- The state once the reply to an executed request is formed: it joins the waiting replies, and an idle transmitter
starts it (R168, R170). -/
def State.replied (s : State) (h : FrameHead) (kind : Byte) (a : Answer) : State :=
  s.mapLink fun l => (l.join { reply := replyTo h kind a, origin := .executed }).start

/-- A request is refused: nothing but its reply comes of it (R169). -/
def State.refusedWith (s : State) (h : FrameHead) (kind : Byte) (st : Status) : State :=
  s.replied h kind (.refuse st)

end Sys2Proof.Machine
end

