-- ==== Sys2Proof/Certificates/Slice0/Obligations.lean ====
section
/-! DEFINITION. Certificates/Slice0/Obligations.lean: the statements for the provers, by chapter of the manual. A
request's statement is made on a ready link (`State.ready`): its conclusion is the next state whole, so that it says what
the request changes and that nothing else changes. The rows that are events are stated on every state that has their
cause. -/

open Sys2Proof Sys2Proof.Machine

/-! ## The queue of commands, and what every step keeps -/

/-- One step runs the command at the front of the queue on the state with the queue's rest. -/
def Obligations.StepRunsTheFrontCommand : Prop :=
  ∀ (c : Instr) (rest : List Instr) (s : State),
    step { s with pending := c :: rest } = exec c { s with pending := rest }

/-- Every command answers a next state in every state, and none touches the commands that wait behind it. That a row
whose cause is absent answers too, with the state as it is, is the model's own choice, log entry 12. -/
def Obligations.EveryCommandAnswersAndSparesTheQueue : Prop :=
  ∀ (c : Instr) (s : State), ∃ t, exec c s = .next t ∧ t.pending = s.pending

/-- The state after power-on reset is sound in every sense in which the steps are claimed to keep soundness: its table,
lanes, link and log, its motion, its reference counts and expansion counts, its cues and their labels, and its takes
(R51, R52, R56, R58, R59, R74, R92, R102, R120). -/
def Obligations.ResetStateIsSound : Prop :=
  State.reset.sound ∧ State.reset.motionSound ∧ State.reset.refsSound ∧ State.reset.contentsSound
    ∧ State.reset.labelsSound ∧ State.reset.expansionsSound ∧ State.reset.takesSound ∧ State.reset.cuesSound

/-- Every step keeps the table's slot numbers rising and below 512, the lanes' records of the form their state asks for,
the link's queues, bank and cursor within their sizes, and the log's size and run of serials. With them it keeps takes
and lanes in agreement: a lane's handle names an OPEN record of that lane, the lane of every OPEN record holds it, and no
two OPEN records are of one lane. And while every slot's contents are legal it keeps every lane at work in order: no lane
in IDLE or DONE has an open take, the stack read upward and then the queue stand in the order of a cue, and a lane with an
open take has its PUNCH_IN among them and no PUNCH_OUT retired (R51, R64, R74, R80, R81, R82, R102, R108, R120, R152, R168,
R171). -/
def Obligations.StepKeepsTheStateSound : Prop :=
  ∀ s t : State, s.sound → step s = .next t →
    t.sound ∧ (s.takesSound → t.takesSound) ∧ (s.contentsSound → s.cuesSound → t.cuesSound)

/-- Every step of a sound state keeps Pos and L in the timecode day, Spd within ±Spd_max, and the cycle window in the
day (R3, R9, R21, R45). -/
def Obligations.StepKeepsMotionWithinTheDay : Prop :=
  ∀ s t : State, s.sound → s.motionSound → step s = .next t → t.motionSound

/-- Every step of a sound state keeps each reference count equal to the number of run-list entries that name the slot,
and each run list free of duplicates, and with them each expansion count equal to the number of ARMED lanes whose current
cue is the slot (R58, R59, R75, R78, R92). -/
def Obligations.StepKeepsReferenceCountsRight : Prop :=
  ∀ s t : State, s.sound → s.refsSound → step s = .next t →
    t.refsSound ∧ (s.expansionsSound → t.expansionsSound)

/-- Every step of a sound state keeps the contents of every DEFINED slot within the ranges of R52 and the span test of
R54 with its take counter at most 999, and keeps the labels of the table unique, live and pending (R52, R54, R55, R56,
R57). -/
def Obligations.StepKeepsTheCueTableLegal : Prop :=
  ∀ s t : State, s.sound → step s = .next t →
    (s.contentsSound → t.contentsSound) ∧ (s.labelsSound → t.labelsSound)


/-- A framing once set stays until the next power-on reset, which makes it UNDECIDED; RESET FULL and RESET ENGINE keep
it (R164). -/
def Obligations.FramingStaysUntilPowerOnReset : Prop :=
  (∀ (c : Instr) (s t : State), c ≠ .powerOnReset → s.link.framing ≠ .undecided → exec c s = .next t →
      t.link.framing = s.link.framing)
    ∧ ∀ s t : State, exec .powerOnReset s = .next t → t.link.framing = .undecided

/-! ## Resets -/

/-- The part right after power-on reset (R21, R51, R62, R64, R74, R131, R132, R141, R148, R164, R168, R172). -/
def Obligations.PowerOnLeavesTheStatedValues : Prop :=
  let s := State.reset
  (s.tracker.pos = 0 ∧ s.tracker.spd = 0 ∧ s.tracker.state = .unreferenced ∧ s.tracker.lastAnchor = 0
      ∧ s.tracker.phase = 0 ∧ s.tracker.origin = none ∧ s.tracker.previous = none
      ∧ s.tracker.recordInterval = none ∧ s.tracker.driftCount = 0 ∧ s.tracker.stallTimer = none
      ∧ s.tracker.dropoutTimer = none ∧ s.tracker.count = 0)
    ∧ s.table = []
    ∧ (∀ i, s.lane i =
        { state := .idle, runList := [], index := 0, queue := [], stack := [], openTake := none, punchLine := false })
    ∧ s.log.records = [] ∧ s.log.nextSerial = 0
    ∧ (∀ i, s.feeds.copies.get i = LaneCopy.off ∧ s.feeds.phases.get i = 0 ∧ s.feeds.tone.get i = 0
        ∧ s.feeds.increments.get i = 349525)
    ∧ s.feeds.ovlSending = some OverlayRecord.reset ∧ s.feeds.ovlHolding = none ∧ s.feeds.coutSending = none
    ∧ s.feeds.coutWaiting = none ∧ s.feeds.holdTimer = none
    ∧ s.link.framing = .undecided ∧ s.link.requests = [] ∧ s.link.replies = [] ∧ s.link.notices = []
    ∧ s.link.flags = 0 ∧ s.link.bank = 0 ∧ s.link.cursor = 0
    ∧ s.settings.staging = [] ∧ s.settings.standbyPending = false

/-- The applied value of every setting of the catalogue after power-on reset, as SETTING_READ reports it (R148). -/
def Obligations.SettingsResetAsTheCatalogueSays : Prop :=
  let value (id : Byte) := (State.reset.appliedValue id .nearestEven).1
  value 0x01 = .byte 1 ∧ value 0x02 = .byte 0 ∧ value 0x03 = .number 0 ∧ value 0x04 = .number 48000
    ∧ value 0x05 = .byte 0 ∧ value 0x06 = .number 0 ∧ value 0x07 = .number 0 ∧ value 0x08 = .byte 0x1E
    ∧ value 0x09 = .number 90 ∧ value 0x0A = .number 110 ∧ value 0x0B = .number 1000
    ∧ value 0x0C = .window ⟨⟨0, 0, 0, 0, 0⟩, ⟨0, 0⟩⟩ ⟨⟨0, 0, 10, 0, 0⟩, ⟨240, 0⟩⟩
    ∧ value 0x0D = .byte 0 ∧ value 0x0E = .number 1 ∧ value 0x0F = .byte 0
    ∧ (∀ n < 8, value (BitVec.ofNat 8 (0x20 + n)) = .number 1000 ∧ value (BitVec.ofNat 8 (0x28 + n)) = .number 32)
    ∧ value 0x30 = .number 8 ∧ value 0x31 = .number 2 ∧ value 0x32 = .number 3 ∧ value 0x33 = .number 1
    ∧ value 0x34 = .number 9600 ∧ value 0x35 = .number 0 ∧ value 0x36 = .number 10 ∧ value 0x37 = .number 0
    ∧ value 0x38 = .number 2

/-- POWER_ON_RESET returns every block to its reset value, with both senders cut short and the reset record started on
OVL. A RESET_FULL that is due does the same, but a record being sent on OVL or COUT completes: the reset record follows
on OVL, and the places behind the senders are empty. It keeps the framing, and the word clock stays lost when it is
(R21, R131, R142, R146, R162, R164, R174). That power-on cuts a record short is the model's own reading, log entry 16: R147
by its letter lets it complete. That the clock stays lost is the model's own too, log entry 15. -/
def Obligations.FullResetsReturnEveryBlockToItsResetValue : Prop :=
  ∀ s : State,
    exec .powerOnReset s = .next { State.reset with
        service := s.service, occasion := s.occasion, pending := s.pending }
    ∧ (s.resetDue .full = true → ∃ f : Feeds, exec .resetFull s = .next { State.reset with
          tracker := { Tracker.reset with clockLost := s.tracker.clockLost },
          feeds := f, link := { Link.reset with framing := s.link.framing },
          service := s.service, occasion := s.occasion, pending := s.pending }
      ∧ f.copies = Eight.all LaneCopy.off ∧ f.phases = Eight.all 0 ∧ f.tone = Eight.all 0
      ∧ f.increments = Eight.all 349525 ∧ f.coutSending = s.feeds.coutSending ∧ f.coutWaiting = none
      ∧ f.holdTimer = none
      ∧ (s.feeds.ovlSending = none → f.ovlSending = some OverlayRecord.reset ∧ f.ovlHolding = none)
      ∧ (∀ r, s.feeds.ovlSending = some r → f.ovlSending = some r ∧ f.ovlHolding = some OverlayRecord.reset))

/-- RESET_ENGINE, when it is due, completes: the table keeps its slots with every pending copy promoted and every
expansion count 0, every lane is IDLE with its run list kept, the staging list is emptied without being applied and the
other settings stay, Pos, L and the phase count are 0 while the sample count goes on, and every tone phase and copy is
off. The log keeps every record as it is and its next serial, but a record that a lane holds closes at Pos and at the
count with cause RESET, and so none is left OPEN. The link keeps its framing, bank and cursor and every flag that is set
(R21, R62, R74, R107, R126, R131, R132, R147, R162, R164, R174). -/
def Obligations.EngineResetKeepsWhatItsRulesKeep : Prop :=
  ∀ s : State, s.resetDue .engine = true → ∃ t, exec .resetEngine s = .next t
    ∧ (∀ n, slotAt t.table n =
        (slotAt s.table n).map fun v => { v with live := v.pending.getD v.live, pending := none, expansions := 0 })
    ∧ (∀ i, t.lane i = { Lane.reset with runList := (s.lane i).runList })
    ∧ t.settings = { s.settings with staging := [], standbyPending := false }
    ∧ t.tracker.pos = 0 ∧ t.tracker.lastAnchor = 0 ∧ t.tracker.phase = 0 ∧ t.tracker.origin = none
    ∧ t.tracker.previous = none ∧ t.tracker.recordInterval = none ∧ t.tracker.count = s.tracker.count
    ∧ (s.settings.source ≠ .localGen → t.tracker.state = .unreferenced ∧ t.tracker.spd = 0)
    ∧ (s.settings.source = .localGen → s.tracker.clockLost = true → t.tracker.state = .stopped ∧ t.tracker.spd = 0)
    ∧ (s.settings.source = .localGen → s.tracker.clockLost = false →
        t.tracker.spd = clampSpeed s.nominal s.localSpeed
          ∧ (t.tracker.spd = 0 → t.tracker.state = .stopped) ∧ (t.tracker.spd ≠ 0 → t.tracker.state = .moving))
    ∧ t.log.nextSerial = s.log.nextSerial
    ∧ t.log.records = (s.log.records.map fun r =>
        if ∃ i, (s.lane i).openTake = some r.serial then
          { r with closing := some ⟨s.tracker.pos, s.tracker.count, .reset⟩ }
        else r)
    ∧ (s.takesSound → ∀ r ∈ t.log.records, r.closing.isSome = true)
    ∧ t.feeds.copies = Eight.all LaneCopy.off ∧ t.feeds.phases = Eight.all 0 ∧ t.feeds.tone = Eight.all 0
    ∧ t.link.framing = s.link.framing ∧ t.link.bank = s.link.bank ∧ t.link.cursor = s.link.cursor
    ∧ (∀ f, s.hasFlag f = true → t.hasFlag f = true) ∧ t.link.receiver = .waiting ∧ t.link.requests = []
    ∧ t.link.replies = [] ∧ t.link.resetPending = none

/-! ## The control link (chapter 9) -/

/-- PING on a ready link answers with the part code 0x0408, a revision of 1 to 255 (the value is open, log entry 1), 8
lanes and 512 slots, and changes nothing else (R168, R169, R173). -/
def Obligations.PingAnswersWithThePart : Prop :=
  1 ≤ Config.partRevision.toNat ∧ Config.partRevision.toNat ≤ 255
    ∧ ∀ (s : State) (h : FrameHead), s.ready h →
      exec (.ping h) s = .next ((s.withService h.service).replied h 0x01
        (.ok OutFlags.clear (.ping 0x0408 Config.partRevision 8 512)))

/-- STATUS_READ on a ready link reports the eleven flags as they stand and the number of notices that wait, and then
clears the flags its mask marks; positions that name no flag are ignored (R172). -/
def Obligations.StatusReadReportsThenClears : Prop :=
  ∀ (s : State) (h : FrameHead) (mask : BitVec 16), s.ready h → ∃ t u,
    exec (.statusRead h mask) s = .next (t.replied h 0x02
        (.ok OutFlags.clear (.status s.link.flags s.link.notices.length)))
    ∧ t = (s.withService h.service).mapLink (fun l => { l with flags := u })
    ∧ ∀ f : Flag, t.hasFlag f = (s.hasFlag f && !mask.getLsbD f.position)

/-- RESET on a ready link: a scope of 0 or 1 is accepted, answered with the scope, and then waits to take effect; any
other is refused with BAD_FIELD (R174). -/
def Obligations.ResetRequestIsAnsweredAndWaits : Prop :=
  ∀ (s : State) (h : FrameHead) (scope : Byte), s.ready h →
    exec (.reset h scope) s =
      if scope = 0 then
        .next (((s.withService h.service).mapLink fun l => { l with resetPending := some .full }).replied h 0x03
          (.ok OutFlags.clear (.reset .full)))
      else if scope = 1 then
        .next (((s.withService h.service).mapLink fun l => { l with resetPending := some .engine }).replied h 0x03
          (.ok OutFlags.clear (.reset .engine)))
      else .next ((s.withService h.service).refusedWith h 0x03 .badField)

/-- A RESET that is executed from the queue, when the reply before it starts to be sent, has every request behind it
removed and answered BUSY in queue order, behind its own reply (R174, step 1). -/
def Obligations.ResetDrainsTheRequestQueue : Prop :=
  ∀ (s : State) (service : Bool) (x : OutFrame) (r : Reply) (tag : Byte) (rest : List QueuedFrame),
    s.link.sending = some x → s.link.framing ≠ .undecided → s.link.replies = [⟨r, .executed⟩] →
    s.link.requests = ⟨0x03, tag, .ok (.reset 0)⟩ :: rest → s.link.resetPending = none →
    exec (.transmitComplete service) s = .next ((s.withService service).mapLink fun l =>
      { l with
        sending := some (.reply r)
        requests := []
        resetPending := some .full
        replies := ⟨⟨0x83, tag, .ok, OutFlags.clear, .reset .full⟩, .executed⟩ :: rest.map fun f =>
          ⟨⟨f.kind + 0x80, f.tag, .busy, OutFlags.clear, .none⟩, .drain⟩ })

/-- A good frame that is not executed at once. While a reset is pending it is dropped as a reception error, whatever its
request. While a reply of an executed request waits, it joins the end of a queue of fewer than 4, and nothing is
executed. When the queue is full it is answered BUSY while fewer than 4 such replies wait, and is otherwise dropped as a
reception error (R168, R174). -/
def Obligations.GoodFramesQueueOrAreTurnedAway : Prop :=
  ∀ (c : Instr) (s : State) (h : FrameHead) (r : Request), c.request? = some (h, r) →
    s.link.framing = framingOf h.wire → s.link.receiver = .waiting →
    let u := s.withService h.service
    (s.link.resetPending.isSome = true → exec c s = .next (u.raiseFault .linkFault))
    ∧ (s.link.resetPending = none →
      (s.link.requests.length < 4 → (∃ w ∈ s.link.replies, w.origin = .executed) →
        exec c s = .next (u.mapLink fun l => { l with requests := l.requests ++ [⟨r.kind, h.tag, .ok r⟩] }))
      ∧ (s.link.requests.length = 4 → exec c s =
        if (s.link.replies.filter fun w => decide (w.origin = .busy)).length < 4 then
          .next (u.mapLink fun l =>
            ({ l with
              replies := l.replies ++ [⟨⟨r.kind + 0x80, h.tag, .busy, OutFlags.clear, .none⟩, .busy⟩] } : Link).start)
        else .next (u.raiseFault .linkFault)))


/-- While the framing is UNDECIDED, a byte 0xC3 locks it to BINARY and ':' to TEXT, and begins the first frame, and what
waits to be sent can start; every other byte is discarded. A request's row brings its whole frame, and so locks the
framing too; under the other framing it is not recognised, and nothing but the level of SERVICE is taken from it (R164,
R170; the row is log entry 10). -/
def Obligations.FirstStartByteLocksTheFraming : Prop :=
  (∀ s : State, s.link.framing = .undecided →
    exec (.framingStartByte 0xC3) s =
        .next (s.mapLink fun l => ({ l with framing := .binary, receiver := .binary [] } : Link).start)
    ∧ exec (.framingStartByte 0x3A) s =
        .next (s.mapLink fun l => ({ l with framing := .text, receiver := .text [] none } : Link).start)
    ∧ ∀ b : Byte, b ≠ 0xC3 → b ≠ 0x3A → exec (.framingStartByte b) s = .next s)
  ∧ ∀ (c : Instr) (s : State) (h : FrameHead) (r : Request), c.request? = some (h, r) →
    (s.link.framing = .undecided → ∃ t, exec c s = .next t ∧ t.link.framing = framingOf h.wire)
    ∧ (s.link.framing ≠ .undecided → s.link.framing ≠ framingOf h.wire →
        exec c s = .next (s.withService h.service))


/-- The end of a frame starts the oldest waiting reply, and with none the oldest notice, unless a reset is pending, when
no notice starts. No request waits in these cases (R170, R174). That the row does nothing for an idle transmitter is the
model's own choice, log entry 12. -/
def Obligations.TransmitterTakesRepliesBeforeNotices : Prop :=
  ∀ (s : State) (service : Bool),
    (s.link.sending = none → exec (.transmitComplete service) s = .next (s.withService service))
    ∧ ∀ x, s.link.sending = some x → s.link.framing ≠ .undecided → s.link.requests = [] →
      (∀ w rest, s.link.replies = w :: rest →
        exec (.transmitComplete service) s = .next ((s.withService service).mapLink fun l =>
          { l with sending := some (.reply w.reply), replies := rest }))
      ∧ (∀ n rest, s.link.replies = [] → s.link.notices = n :: rest → s.link.resetPending = none →
        exec (.transmitComplete service) s = .next ((s.withService service).mapLink fun l =>
          { l with sending := some (.notice n), notices := rest }))
      ∧ (s.link.replies = [] → (s.link.notices = [] ∨ s.link.resetPending.isSome = true) →
        exec (.transmitComplete service) s = .next ((s.withService service).mapLink fun l =>
          { l with sending := none }))

/-- When the reply of the last executed request starts to be sent, the request at the head of the queue is executed, and
its reply waits behind those formed before it; the requests behind it wait on. Shown for a PING (R168). -/
def Obligations.NextRequestRunsWhenTheReplyStarts : Prop :=
  ∀ (s : State) (service : Bool) (x : OutFrame) (r : Reply) (tag : Byte) (busy : List WaitingReply)
    (rest : List QueuedFrame), s.link.sending = some x → s.link.framing ≠ .undecided → s.link.resetPending = none →
    s.link.replies = ⟨r, .executed⟩ :: busy → (∀ w ∈ busy, w.origin = .busy) →
    s.link.requests = ⟨0x01, tag, .ok .ping⟩ :: rest →
    exec (.transmitComplete service) s = .next ((s.withService service).mapLink fun l =>
      { l with
        sending := some (.reply r)
        replies := busy ++
          [⟨⟨0x81, tag, .ok, OutFlags.clear, .ping 0x0408 Config.partRevision 8 512⟩, .executed⟩]
        requests := rest })

/-- The body of every request that a frame can carry, read by its kind, gives the request back with every field (R168,
R175, R176, R178). That INFO takes no bytes in a write is the model's own reading, log entry 19. -/
def Obligations.BodiesReadBackAsTheirRequests : Prop :=
  ∀ r : Request, requestFits r = true → parseRequest r.kind (requestBody r) = .ok r

/-- The bytes of a request's frame, binary or text, received by a waiting receiver, act as the row of that request does,
in every state of the queue and the transmitter (R164, R165, R166, R168, R176). -/
def Obligations.FrameBytesActAsTheirRequest : Prop :=
  ∀ (c : Instr) (s : State) (h : FrameHead) (r : Request), c.request? = some (h, r) → requestFits r = true →
    s.link.receiver = .waiting → (s.link.framing = .undecided ∨ s.link.framing = framingOf h.wire) →
    ∃ t, exec (.frameReceived h.service (wireBytes (framingOf h.wire) (frameCore r.kind h.tag (requestBody r)))) s = .next t
      ∧ exec c s = .next t

/-- A binary frame ends as a reception error when its length lies outside 2 to 250, at that byte, or when its sum fails,
at its check: LINK_FAULT is raised, and the receiver waits (R165, R167). -/
def Obligations.BinaryReceptionErrorsRaiseLinkFault : Prop :=
  ∀ (s : State) (n : Byte), s.link.framing = .binary → s.link.receiver = .waiting →
    (n.toNat < 2 ∨ 250 < n.toNat → exec (.receptionError [0xC3, n]) s = .next (s.raiseFault .linkFault))
    ∧ ∀ rest : List Byte, 2 ≤ n.toNat → n.toNat ≤ 250 → rest.length = n.toNat + 1 →
      (n :: rest).foldl (· + ·) 0 ≠ 0 → exec (.receptionError (0xC3 :: n :: rest)) s = .next (s.raiseFault .linkFault)

/-- Inside a text frame: a ':' is a reception error that begins a new frame, a character that is neither hexadecimal nor
CR nor LF is a reception error, a CR after half a byte is one, and an LF is ignored. A gap of more than 32 byte times
inside a frame of either framing is a reception error; outside a frame it does nothing. A reception error that finds
LINK_FAULT clear sets it, and a NOTE_FAULT joins the queue when the mask enables FAULT, the queue has room and the
transmitter is busy; one that finds it set posts nothing (R50, R166, R167, R171). -/
def Obligations.ReceptionErrorsInsideAFrame : Prop :=
  (∀ (s : State) (bytes : List Byte) (half : Option (BitVec 4)) (c : Byte), s.link.framing = .text →
    s.link.receiver = .text bytes half →
    exec (.receptionError [0x3A]) s = .next ((s.setReceiver (.text [] none)).raiseFault .linkFault)
    ∧ (hexValue c = none → c ≠ 0x0A → c ≠ 0x0D → c ≠ 0x3A →
        exec (.receptionError [c]) s = .next ((s.setReceiver .waiting).raiseFault .linkFault))
    ∧ (half.isSome = true →
        exec (.receptionError [0x0D]) s = .next ((s.setReceiver .waiting).raiseFault .linkFault))
    ∧ exec (.receptionError [0x0A]) s = .next s)
  ∧ ∀ s : State,
    (s.link.receiver = .waiting → exec .frameGapTimeout s = .next s)
    ∧ (s.link.receiver ≠ .waiting → s.hasFlag .linkFault = true →
        exec .frameGapTimeout s = .next (s.setReceiver .waiting))
    ∧ (s.link.receiver ≠ .waiting → s.hasFlag .linkFault = false → s.settings.noticeMask.getLsbD 4 = true →
        s.link.notices.length < 32 → s.link.sending.isSome = true →
        exec .frameGapTimeout s = .next (s.mapLink fun l =>
          { l with
            receiver := .waiting
            flags := l.flags ||| 1
            notices := l.notices ++ [.fault .linkFault s.tracker.count] }))


/-! ## Settings (chapter 8) -/

/-- SETTING_READ of an identifier of the catalogue, with a good selector, reports the applied value and the value that
waits, if one does; outside the cycle window no flag is set. The five read-only settings are the sample count, the
tracker state, Spd, the number of take records and the revision. Another identifier or selector is refused with
BAD_FIELD. Nothing but the reply comes of it (R11, R159, R160). -/
def Obligations.SettingReadReportsAppliedAndStaged : Prop :=
  ∀ (s : State) (h : FrameHead) (id rounding : Byte), s.ready h →
    (catalogue id = none ∨ selectRounding s.settings.rounding rounding = none →
      exec (.settingRead h id rounding) s = .next ((s.withService h.service).refusedWith h 0x04 .badField))
    ∧ ∀ mode, (catalogue id).isSome = true → selectRounding s.settings.rounding rounding = some mode →
      (∃ flags, (id ≠ 0x0C → flags = OutFlags.clear)
        ∧ exec (.settingRead h id rounding) s = .next ((s.withService h.service).replied h 0x04
          (.ok flags (.settingRead id (s.appliedValue id mode).1 ((s.stagedValue id mode).map (·.1))))))
      ∧ (s.appliedValue 0x50 mode).1 = .count s.tracker.count
      ∧ (s.appliedValue 0x51 mode).1 = .byte s.tracker.state.code
      ∧ (s.appliedValue 0x52 mode).1 = .number s.tracker.spd
      ∧ (s.appliedValue 0x53 mode).1 = .number s.log.records.length
      ∧ (s.appliedValue 0x54 mode).1 = .number Config.partRevision.toNat

/-- The checks of SETTING_WRITE come in their order: an identifier outside the catalogue, a value of another width, a
selector outside R11, a read-only setting, and an engineering setting while SERVICE is low; a refused write changes
nothing (R149, R151, R168). -/
def Obligations.SettingWriteRefusalsComeInOrder : Prop :=
  ∀ (s : State) (h : FrameHead) (id rounding : Byte) (v : SettingValue), s.ready h →
    let refused (st : Status) :=
      exec (.settingWrite h id rounding v) s = .next ((s.withService h.service).refusedWith h 0x05 st)
    (catalogue id = none → refused .badField)
    ∧ ∀ form access, catalogue id = some (form, access) →
      (formOf v ≠ form → refused .badLength)
      ∧ (formOf v = form →
        (selectRounding s.settings.rounding rounding = none → refused .badField)
        ∧ ((selectRounding s.settings.rounding rounding).isSome = true →
          (access = .ro → refused .readOnly) ∧ (access = .eng → h.service = false → refused .access)))

/-- SETTING_WRITE of a class-I setting without a row of its own: the value is clamped or its unnamed positions cleared,
with CLAMPED when that changed it, it takes hold at once, and nothing else changes (R135, R150, R152). -/
def Obligations.ImmediateSettingsTakeHoldAtOnce : Prop :=
  ∀ (s : State) (h : FrameHead) (rounding b : Byte) (v : BitVec 32), s.ready h → h.service = true →
    (selectRounding s.settings.rounding rounding).isSome = true →
    let after (id : Byte) (value : SettingValue) (f : Settings → Settings) (clamped : Bool) (r : ReportedValue) :=
      exec (.settingWrite h id rounding value) s =
        .next (((s.withService h.service).mapSettings f).replied h 0x05
          (.ok { OutFlags.clear with clamped := clamped } (.settingWrite id r)))
    after 0x08 (.byte b) (fun g => { g with noticeMask := b &&& 0x1F }) (decide (b &&& 0x1F ≠ b)) (.byte (b &&& 0x1F))
    ∧ after 0x0F (.byte b) (fun g => { g with toneMute := b }) false (.byte b)
    ∧ (∀ i : LaneId, after (0x28 + BitVec.ofNat 8 i.val) (.number v)
        (fun g => { g with toneLevel := g.toneLevel.set i (max 0 (min 63 v.toInt)).toNat })
        (decide (v.toInt < 0 ∨ 63 < v.toInt)) (.number (max 0 (min 63 v.toInt))))
    ∧ after 0x37 (.number v) (fun g => { g with recorderLatency := (max 0 (min 4095 v.toInt)).toNat })
        (decide (v.toInt < 0 ∨ 4095 < v.toInt)) (.number (max 0 (min 4095 v.toInt)))
    ∧ after 0x33 (.number 0) (fun g => { g with indexCheck := false }) false (.number 0)
    ∧ after 0x33 (.number 1) (fun g => { g with indexCheck := true }) false (.number 1)
    ∧ (v ≠ 0 → v ≠ 1 → exec (.settingWrite h 0x33 rounding (.number v)) s =
        .next ((s.withService h.service).refusedWith h 0x05 .range))

/-- SETTING_WRITE of a class-F setting while the tracker is UNREFERENCED or STOPPED, the hold is 0 and nothing waits:
the legalised value is applied at once, the list stays empty, the tone increments are those of the applied frequencies,
and the reply is without STAGED. A tone frequency is clamped to 300 to 3,000 and rounded to a multiple of 10, halfway to
the even count of tens, with CLAMPED when that changed it. The cycle window takes both stamps in the request's mode, and
is refused with BAD_LABEL when a label is out of range and with RANGE unless its end follows its start by 1 frame up to
one reach; INVALID reports an omitted label, taken as the first label after it. A cycle action above 3 and an auto re-arm
other than 0 and 1 are refused with RANGE (R15, R45, R134, R150, R154, R155, R157). That the reply shows the window's
stamps as legalised, with their exact positions, is the model's own reading, log entry 20. -/
def Obligations.FrameClassWriteAtRestIsAppliedAtOnce : Prop :=
  ∀ (s : State) (h : FrameHead) (rounding : Byte) (v : BitVec 32), s.ready h → h.service = true →
    (selectRounding s.settings.rounding rounding).isSome = true → s.atRest = true →
    s.settings.stagingHold = false → s.settings.staging = [] →
    let std := s.settings.standard
    let refused (id : Byte) (value : SettingValue) (st : Status) :=
      exec (.settingWrite h id rounding value) s = .next ((s.withService h.service).refusedWith h 0x05 st)
    let after (id : Byte) (value : SettingValue) (f : Settings → Settings) (clamped : Bool) (r : ReportedValue) :=
      exec (.settingWrite h id rounding value) s =
        .next (((s.withService h.service).mapSettings f).recomputeTones.replied h 0x05
          (.ok { OutFlags.clear with clamped := clamped } (.settingWrite id r)))
    let ranged (id : Byte) (low high : Int) (f : Nat → Settings → Settings) :=
      after id (.number v) (f (max low (min high v.toInt)).toNat) (decide (v.toInt < low ∨ high < v.toInt))
        (.number (max low (min high v.toInt)))
    ranged 0x09 50 100 (fun n g => { g with bandLow := n })
    ∧ ranged 0x0A 100 200 (fun n g => { g with bandHigh := n })
    ∧ ranged 0x34 480 48000 (fun n g => { g with stallTimeout := n })
    ∧ ranged 0x35 0 2047 (fun n g => { g with codeLatency := n })
    ∧ ranged 0x36 1 25 (fun n g => { g with coastLimit := n })
    ∧ ranged 0x38 1 8 (fun n g => { g with driftTolerance := n })
    ∧ (∀ (i : LaneId) (k : Nat), roundsToTens v.toInt k →
        after (0x20 + BitVec.ofNat 8 i.val) (.number v)
          (fun g => { g with toneFrequency := g.toneFrequency.set i (10 * k) }) (decide (v.toInt ≠ 10 * k))
          (.number (10 * k)))
    ∧ (∀ a : CycleAction, after 0x0D (.byte a.code) (fun g => { g with cycleAction := a }) false (.byte a.code))
    ∧ after 0x0E (.number 0) (fun g => { g with autoRearm := false }) false (.number 0)
    ∧ after 0x0E (.number 1) (fun g => { g with autoRearm := true }) false (.number 1)
    ∧ (∀ code : Byte, 3 < code.toNat → refused 0x0D (.byte code) .range)
    ∧ (v ≠ 0 → v ≠ 1 → refused 0x0E (.number v) .range)
    ∧ ∀ (mode : Rounding) (a b : Stamp), selectRounding s.settings.rounding rounding = some mode →
      (labelOutOfRange std a ∨ labelOutOfRange std b → refused 0x0C (.window a b) .badLabel)
      ∧ ∀ x y, takeStamp std mode a = some x → takeStamp std mode b = some y →
        (¬(2 ^ 32 ≤ std.dist y.pos x.pos ∧ std.dist y.pos x.pos ≤ std.reach) → refused 0x0C (.window a b) .range)
        ∧ (2 ^ 32 ≤ std.dist y.pos x.pos → std.dist y.pos x.pos ≤ std.reach →
          exec (.settingWrite h 0x0C rounding (.window a b)) s =
            .next (((s.withService h.service).mapSettings fun g =>
              { g with cycleStart := x.pos, cycleEnd := y.pos }).recomputeTones.replied h 0x05
                (.ok (x.flags.union y.flags)
                  (.settingWrite 0x0C (.window ⟨x.stamp, exactPos x.pos⟩ ⟨y.stamp, exactPos y.pos⟩)))))
        ∧ x.flags.invalid = isOmitted std a.mm.toNat a.ss.toNat a.ff.toNat
        ∧ x.stamp = (if isOmitted std a.mm.toNat a.ss.toNat a.ff.toNat then { a with ff := 2 } else a)

/-- SETTING_WRITE of a class-F setting while the tracker is MOVING or COASTING, or the hold is 1: the legalised value, of
the cycle window, the cycle action, auto re-arm and the tone frequencies too, waits with STAGED, at the end of the list,
or in place of the entry of the same setting; nothing is applied. What is refused at rest is refused here with the same
status (R45, R134, R150, R154, R155, R156). That the reply shows the window's stamps as legalised, with their exact
positions, is the model's own reading, log entry 20. -/
def Obligations.FrameClassWriteWaitsInMotionOrHold : Prop :=
  (∀ (s : State) (h : FrameHead) (rounding : Byte) (v : BitVec 32), s.ready h → h.service = true →
    (selectRounding s.settings.rounding rounding).isSome = true →
    (s.atRest = false ∨ s.settings.stagingHold = true) →
    let waits (id : Byte) (low high : Int) (e : Nat → Staged) :=
      exec (.settingWrite h id rounding (.number v)) s =
        .next (((s.withService h.service).mapSettings fun g =>
            { g with staging := putStaged g.staging (e (max low (min high v.toInt)).toNat) }).replied h 0x05
          (.ok { OutFlags.clear with clamped := decide (v.toInt < low ∨ high < v.toInt), staged := true }
            (.settingWrite id (.number (max low (min high v.toInt))))))
    let std := s.settings.standard
    let refused (id : Byte) (value : SettingValue) (st : Status) :=
      exec (.settingWrite h id rounding value) s = .next ((s.withService h.service).refusedWith h 0x05 st)
    let joins (id : Byte) (value : SettingValue) (e : Staged) (flags : OutFlags) (r : ReportedValue) :=
      exec (.settingWrite h id rounding value) s =
        .next (((s.withService h.service).mapSettings fun g => { g with staging := putStaged g.staging e }).replied h 0x05
          (.ok { flags with staged := true } (.settingWrite id r)))
    (waits 0x09 50 100 .bandLow ∧ waits 0x0A 100 200 .bandHigh ∧ waits 0x34 480 48000 .stallTimeout
      ∧ waits 0x35 0 2047 .codeLatency ∧ waits 0x36 1 25 .coastLimit ∧ waits 0x38 1 8 .driftTolerance)
    ∧ (∀ (i : LaneId) (k : Nat), roundsToTens v.toInt k →
        joins (0x20 + BitVec.ofNat 8 i.val) (.number v) (.toneFrequency i (10 * k))
          { OutFlags.clear with clamped := decide (v.toInt ≠ 10 * k) } (.number (10 * k)))
    ∧ (∀ a : CycleAction, joins 0x0D (.byte a.code) (.cycleAction a) OutFlags.clear (.byte a.code))
    ∧ joins 0x0E (.number 0) (.autoRearm false) OutFlags.clear (.number 0)
    ∧ joins 0x0E (.number 1) (.autoRearm true) OutFlags.clear (.number 1)
    ∧ (∀ code : Byte, 3 < code.toNat → refused 0x0D (.byte code) .range)
    ∧ (v ≠ 0 → v ≠ 1 → refused 0x0E (.number v) .range)
    ∧ ∀ (mode : Rounding) (a b : Stamp), selectRounding s.settings.rounding rounding = some mode →
      (labelOutOfRange std a ∨ labelOutOfRange std b → refused 0x0C (.window a b) .badLabel)
      ∧ ∀ x y, takeStamp std mode a = some x → takeStamp std mode b = some y →
        (¬(2 ^ 32 ≤ std.dist y.pos x.pos ∧ std.dist y.pos x.pos ≤ std.reach) → refused 0x0C (.window a b) .range)
        ∧ (2 ^ 32 ≤ std.dist y.pos x.pos → std.dist y.pos x.pos ≤ std.reach →
          joins 0x0C (.window a b) (.cycleWindow x.pos y.pos) (x.flags.union y.flags)
            (.window ⟨x.stamp, exactPos x.pos⟩ ⟨y.stamp, exactPos y.pos⟩)))
  ∧ (∀ (l : List Staged) (e : Staged), (∀ f ∈ l, f.id ≠ e.id) → putStaged l e = l ++ [e])
  ∧ ∀ (a b : List Staged) (f e : Staged), f.id = e.id → (∀ x ∈ a ++ b, x.id ≠ e.id) →
      putStaged (a ++ f :: b) e = a ++ e :: b

/-- STAGING_HOLD_WRITE: 1 sets the hold; 0 releases it, and at rest the waiting list is applied in its order and
emptied, while in motion or with nothing waiting it only releases it; any other value is refused with RANGE
(R155, R156). -/
def Obligations.StagingHoldWriteReleasesTheList : Prop :=
  ∀ (s : State) (h : FrameHead) (rounding : Byte) (v : BitVec 32), s.ready h →
    (selectRounding s.settings.rounding rounding).isSome = true →
    let u := s.withService h.service
    let ok (n : Int) : Answer := .ok OutFlags.clear (.settingWrite 0x07 (.number n))
    exec (.stagingHoldWrite h rounding 1) s =
        .next ((u.mapSettings fun g => { g with stagingHold := true }).replied h 0x05 (ok 1))
    ∧ ((s.atRest = false ∨ s.settings.staging = []) → exec (.stagingHoldWrite h rounding 0) s =
        .next ((u.mapSettings fun g => { g with stagingHold := false }).replied h 0x05 (ok 0)))
    ∧ (s.atRest = true → s.settings.staging ≠ [] → exec (.stagingHoldWrite h rounding 0) s =
        .next ((u.mapSettings fun g =>
          { g.staging.foldl Settings.applyEntry { g with stagingHold := false } with staging := [] }).recomputeTones.replied
            h 0x05 (ok 0)))
    ∧ (v ≠ 0 → v ≠ 1 → exec (.stagingHoldWrite h rounding v) s = .next (u.refusedWith h 0x05 .range))

/-- ENGINE_MODE_WRITE: STANDBY in motion waits with STAGED; STANDBY written in STANDBY changes nothing; at rest it takes
effect; REHEARSE and RECORD take effect at once and clear an entry that waits; another code is refused with RANGE. While
no take is open and no lane shows a streamer, nothing else changes (R111, R112, R113). -/
def Obligations.EngineModeWritesTakeEffect : Prop :=
  ∀ (s : State) (h : FrameHead) (rounding code : Byte), s.ready h →
    (selectRounding s.settings.rounding rounding).isSome = true →
    let u := s.withService h.service
    let reply (c : Byte) (staged : Bool) : Answer :=
      .ok { OutFlags.clear with staged := staged } (.settingWrite 0x01 (.byte c))
    let enters (mode : EngineMode) :=
      exec (.engineModeWrite h rounding mode.code) s = .next ((u.mapSettings fun g =>
        { g with engineMode := mode, standbyPending := false }).replied h 0x05 (reply mode.code false))
    (2 < code.toNat → exec (.engineModeWrite h rounding code) s = .next (u.refusedWith h 0x05 .range))
    ∧ (s.settings.engineMode = .standby → exec (.engineModeWrite h rounding 0) s =
        .next (u.replied h 0x05 (reply 0 false)))
    ∧ (s.settings.engineMode ≠ .standby → s.atRest = false → exec (.engineModeWrite h rounding 0) s =
        .next ((u.mapSettings fun g => { g with standbyPending := true }).replied h 0x05 (reply 0 true)))
    ∧ (s.noTakeOpen → s.feeds.anyStreamer = false →
        enters .rehearse ∧ enters .record
        ∧ (s.settings.engineMode ≠ .standby → s.atRest = true → enters .standby))

/-- Leaving RECORD closes every open take: a write of REHEARSE with cause MODE, a write of STANDBY at rest with cause
STANDBY. Afterwards no take is open, every punch line is low, and each record that a lane held has closed at Pos and at
the current count with that cause (R107, R109, R113, R126). -/
def Obligations.LeavingRecordClosesEveryTake : Prop :=
  ∀ (s : State) (h : FrameHead) (rounding : Byte), s.ready h → s.sound →
    (selectRounding s.settings.rounding rounding).isSome = true → s.settings.engineMode = .record →
    let closes (code : Byte) (mode : EngineMode) (cause : EndCause) :=
      ∃ t, exec (.engineModeWrite h rounding code) s = .next t ∧ t.settings.engineMode = mode
        ∧ (∀ i, (t.lane i).openTake = none ∧ (t.lane i).punchLine = false)
        ∧ t.log.records.length = s.log.records.length
        ∧ ∀ i serial, (s.lane i).openTake = some serial → ∀ r ∈ t.log.records, r.serial = serial →
            r.closing = some ⟨s.tracker.pos, s.tracker.count, cause⟩
    closes 1 .rehearse .mode ∧ (s.atRest = true → closes 0 .standby .standby)

/-- PICTURE_STANDARD_WRITE is accepted while the cue table is empty, the tracker is at rest and every lane is IDLE, and
refused with STATE otherwise; a code above 3 is refused with RANGE, and the standard in force is written without effect.
A new standard reduces Pos into its day with its fraction kept, puts the cycle window back to its first ten seconds, takes
a waiting window away, forces the pull-down where it does, and outside LOCAL leaves the tracker UNREFERENCED with Spd 0
and nothing measured (R2, R6, R23, R45, R153). That L becomes the new Pos, whatever it was, is the model's own choice, log
entry 21. -/
def Obligations.PictureStandardWriteStartsANewDay : Prop :=
  ∀ (s : State) (h : FrameHead) (rounding : Byte), s.ready h →
    (selectRounding s.settings.rounding rounding).isSome = true →
    let u := s.withService h.service
    let free := s.table = [] ∧ s.atRest = true ∧ ∀ i, (s.lane i).state = .idle
    (∀ code : Byte, 3 < code.toNat → exec (.pictureStandardWrite h rounding code) s =
        .next (u.refusedWith h 0x05 .range))
    ∧ ∀ std : Standard,
      (¬free → exec (.pictureStandardWrite h rounding std.code) s = .next (u.refusedWith h 0x05 .state))
      ∧ (free → std = s.settings.standard → exec (.pictureStandardWrite h rounding std.code) s =
          .next (u.replied h 0x05 (.ok OutFlags.clear (.settingWrite 0x02 (.byte std.code)))))
      ∧ (free → std ≠ s.settings.standard → ∃ t, exec (.pictureStandardWrite h rounding std.code) s = .next t
          ∧ t.settings.standard = std
          ∧ frameOf t.tracker.pos = frameOf s.tracker.pos % std.dayFrames
          ∧ fractionOf t.tracker.pos = fractionOf s.tracker.pos
          ∧ t.tracker.lastAnchor = t.tracker.pos
          ∧ t.settings.cycleStart = 0 ∧ t.settings.cycleEnd = 10 * std.fps * frameUnits
          ∧ (∀ e ∈ t.settings.staging, e.isWindow = false)
          ∧ (std = .std25 → t.settings.pullDown = false) ∧ (std = .std30df → t.settings.pullDown = true)
          ∧ (std ≠ .std25 → std ≠ .std30df → t.settings.pullDown = s.settings.pullDown)
          ∧ t.table = [] ∧ (s.noTakeOpen → ∀ i, t.lane i = s.lane i)
          ∧ (s.settings.source ≠ .localGen → t.tracker.state = .unreferenced ∧ t.tracker.spd = 0
              ∧ t.tracker.origin = none ∧ t.tracker.previous = none ∧ t.tracker.recordInterval = none
              ∧ t.tracker.driftCount = 0))

/-- PULL_DOWN_WRITE and SAMPLE_RATE_WRITE are refused with STATE while a take record is OPEN; a rate other than 48,000
and 96,000 is refused with RANGE. The pull-down stored is the one the standard forces, or else whether the value is not
0, with CLAMPED when that is not the value sent. A value that is in force has no effect; outside LOCAL, with no take of
a lane open and Spd within the new limit, a new one clears the estimate origin, and a new rate clears the record
interval and gives the tone increments anew; nothing else changes (R2, R7, R23, R134, R150, R153). -/
def Obligations.PullDownAndSampleRateWrites : Prop :=
  ∀ (s : State) (h : FrameHead) (rounding : Byte) (v : BitVec 32), s.ready h →
    (selectRounding s.settings.rounding rounding).isSome = true →
    let u := s.withService h.service
    let down := s.settings.standard.forcedPullDown.getD (decide (v ≠ 0))
    let downReply : Answer := .ok { OutFlags.clear with clamped := decide ((if down then 1 else 0 : Int) ≠ v.toInt) }
      (.settingWrite 0x03 (.number (if down then 1 else 0)))
    let rateReply (r : SampleRate) : Answer := .ok OutFlags.clear (.settingWrite 0x04 (.number r.hz))
    (s.log.openCount ≠ 0 → exec (.pullDownWrite h rounding v) s = .next (u.refusedWith h 0x05 .state))
    ∧ (s.log.openCount ≠ 0 → ∀ r : SampleRate,
        exec (.sampleRateWrite h rounding (BitVec.ofNat 32 r.hz)) s = .next (u.refusedWith h 0x05 .state))
    ∧ (v ≠ 48000 → v ≠ 96000 → exec (.sampleRateWrite h rounding v) s = .next (u.refusedWith h 0x05 .range))
    ∧ (s.log.openCount = 0 → down = s.settings.pullDown →
        exec (.pullDownWrite h rounding v) s = .next (u.replied h 0x05 downReply))
    ∧ (s.log.openCount = 0 → exec (.sampleRateWrite h rounding (BitVec.ofNat 32 s.settings.sampleRate.hz)) s =
        .next (u.replied h 0x05 (rateReply s.settings.sampleRate)))
    ∧ (s.log.openCount = 0 → s.noTakeOpen → s.settings.source ≠ .localGen →
        (down ≠ s.settings.pullDown →
          s.tracker.spd.natAbs ≤ 32 * nominalSpeed s.settings.standard down s.settings.sampleRate →
          exec (.pullDownWrite h rounding v) s =
            .next (((u.mapSettings fun g => { g with pullDown := down }).mapTracker fun t =>
              { t with origin := none }).replied h 0x05 downReply))
        ∧ ∀ r : SampleRate, r ≠ s.settings.sampleRate →
          s.tracker.spd.natAbs ≤ 32 * nominalSpeed s.settings.standard s.settings.pullDown r →
          exec (.sampleRateWrite h rounding (BitVec.ofNat 32 r.hz)) s =
            .next (((u.mapSettings fun g => { g with sampleRate := r }).mapTracker fun t =>
              { t with origin := none, recordInterval := none }).recomputeTones.replied h 0x05 (rateReply r)))

/-- SOURCE_WRITE asks for SERVICE, a tracker at rest and no lane ARMED: ACCESS, RANGE and STATE refuse it in that order.
A write of the source in force has no effect. TACH and CODE leave the tracker UNREFERENCED with Spd 0 and nothing
measured, and stop the generator's waiting record and hold timer; TACH re-derives the phase count and takes the line
levels anew. LOCAL sets the local ratio 0 and leaves the tracker STOPPED with Spd 0, and forms a HOLD record. A
NOTE_TRACKER reports the change, and stands before the reply (R22, R23, R24, R49, R145, R146, R149, R151, R153, R168,
R170). The model's own readings are two: the report comes also when the tracker was UNREFERENCED before and is after, log
entry 21; and it is posted before the reply is formed, so that an idle transmitter sends it first, log entry 14. -/
def Obligations.SourceWriteChangesTheSource : Prop :=
  ∀ (s : State) (h : FrameHead) (rounding code : Byte), s.ready h →
    (selectRounding s.settings.rounding rounding).isSome = true →
    let u := s.withService h.service
    let ok (src : Source) : Answer := .ok OutFlags.clear (.settingWrite 0x05 (.byte src.code))
    let lost (t : Tracker) : Tracker :=
      { t with spd := 0, origin := none, previous := none, recordInterval := none, driftCount := 0,
               state := .unreferenced }
    let still (f : Feeds) : Feeds := { f with coutWaiting := none, holdTimer := none }
    (h.service = false → exec (.sourceWrite h rounding code) s = .next (u.refusedWith h 0x05 .access))
    ∧ (h.service = true →
      (2 < code.toNat → exec (.sourceWrite h rounding code) s = .next (u.refusedWith h 0x05 .range))
      ∧ (∀ src : Source, ¬(s.atRest = true ∧ s.noneArmed) →
          exec (.sourceWrite h rounding src.code) s = .next (u.refusedWith h 0x05 .state))
      ∧ (s.atRest = true → s.noneArmed →
        exec (.sourceWrite h rounding s.settings.source.code) s = .next (u.replied h 0x05 (ok s.settings.source))
        ∧ (s.settings.source ≠ .tach → exec (.sourceWrite h rounding 0) s =
            .next (((((u.mapFeeds still).mapSettings fun g => { g with source := .tach }).mapTracker fun t =>
              { lost t with
                phase := phaseOf s.settings.edges t.pos
                decoder := { t.decoder with settle := true } }).noteTracker .source).replied h 0x05 (ok .tach)))
        ∧ (s.settings.source ≠ .codeIn → exec (.sourceWrite h rounding 1) s =
            .next (((((u.mapFeeds still).mapSettings fun g => { g with source := .codeIn }).mapTracker lost).noteTracker
              .source).replied h 0x05 (ok .codeIn)))
        ∧ (s.settings.source ≠ .localGen → s.quiet → exec (.sourceWrite h rounding 2) s =
            .next (((((u.mapSettings fun g => { g with source := .localGen, localRatio := 0 }).mapTracker fun t =>
              { t with spd := 0, state := .stopped }).noteTracker .source).formHold).replied h 0x05 (ok .localGen)))))

/-- LOCAL_RATIO_WRITE stores the ratio, clamped to ±16,000. Outside LOCAL, and while the word clock is lost, nothing else
changes. In LOCAL, Spd becomes Spd_nom times the ratio in thousandths, rounded in the default mode: other than 0 it
leaves the tracker MOVING, with cause MOVING from STOPPED; 0 leaves it STOPPED, with cause LOCAL_STOP from MOVING and a
HOLD record (R9, R42, R48, R49, R145, R168, R170). That the NOTE_TRACKER is posted before the reply is formed, so that an
idle transmitter sends it first, is the model's own reading, log entry 14. -/
def Obligations.LocalRatioWriteSetsTheSpeed : Prop :=
  ∀ (s : State) (h : FrameHead) (rounding : Byte) (v : BitVec 32), s.ready h →
    (selectRounding s.settings.rounding rounding).isSome = true →
    let w := max (-16000) (min 16000 v.toInt)
    let spd := (roundQ s.settings.rounding (s.nominal * w) 1000).value
    let u := (s.withService h.service).mapSettings fun g => { g with localRatio := w }
    let replied (t : State) :=
      t.replied h 0x05 (.ok { OutFlags.clear with clamped := decide (v.toInt < -16000 ∨ 16000 < v.toInt) }
        (.settingWrite 0x0B (.number w)))
    (s.settings.source ≠ .localGen ∨ s.tracker.clockLost = true →
      exec (.localRatioWrite h rounding v) s = .next (replied u))
    ∧ (s.settings.source = .localGen → s.tracker.clockLost = false → s.quiet →
      (spd ≠ 0 → s.tracker.state = .moving → exec (.localRatioWrite h rounding v) s =
          .next (replied (u.mapTracker fun t => { t with spd := spd })))
      ∧ (spd ≠ 0 → s.tracker.state = .stopped → exec (.localRatioWrite h rounding v) s =
          .next (replied ((u.mapTracker fun t => { t with spd := spd, state := .moving }).noteTracker .moving)))
      ∧ (spd = 0 → s.tracker.state = .stopped → exec (.localRatioWrite h rounding v) s =
          .next (replied (u.mapTracker fun t => { t with spd := 0 })))
      ∧ (spd = 0 → s.tracker.state = .moving → exec (.localRatioWrite h rounding v) s =
          .next (replied (((u.mapTracker fun t => { t with spd := 0, state := .stopped }).noteTracker
            .localStop).formHold))))

/-- The settings of the tach front end ask for SERVICE. EDGES_PER_FRAME_WRITE and INDEX_STATE_WRITE ask for a tracker at
rest too, and are refused with STATE otherwise. Edges are rounded down to a multiple of 4 and clamped to 4 to 1,024;
the phase count follows from Pos, L becomes Pos, and the estimate origin is cleared. The index state is clamped to 0 to
3, and the filter to 0 to 15 with the hold counts restarted. DEFAULT_ROUNDING_WRITE of 0 to 4 sets the default rounding,
and outside LOCAL changes nothing else; any other value is refused with RANGE (R11, R24, R26, R41, R42, R149, R151,
R153). -/
def Obligations.TachAndRoundingWrites : Prop :=
  ∀ (s : State) (h : FrameHead) (rounding : Byte) (v : BitVec 32), s.ready h →
    (selectRounding s.settings.rounding rounding).isSome = true →
    let u := s.withService h.service
    let ok (id : Byte) (n : Int) : Answer :=
      .ok { OutFlags.clear with clamped := decide (n ≠ v.toInt) } (.settingWrite id (.number n))
    let edges := max 4 (min 1024 (v.toInt / 4 * 4))
    let rest (f : LineFilter) : LineFilter := { f with hold := 0 }
    (h.service = false →
      exec (.edgesPerFrameWrite h rounding v) s = .next (u.refusedWith h 0x05 .access)
      ∧ exec (.indexStateWrite h rounding v) s = .next (u.refusedWith h 0x05 .access)
      ∧ exec (.tachFilterWrite h rounding v) s = .next (u.refusedWith h 0x05 .access))
    ∧ (h.service = true →
      (s.atRest = false →
        exec (.edgesPerFrameWrite h rounding v) s = .next (u.refusedWith h 0x05 .state)
        ∧ exec (.indexStateWrite h rounding v) s = .next (u.refusedWith h 0x05 .state))
      ∧ (s.atRest = true →
        exec (.edgesPerFrameWrite h rounding v) s =
          .next (((u.mapSettings fun g => { g with edges := edges.toNat }).mapTracker fun t =>
            { t with phase := phaseOf edges.toNat t.pos, lastAnchor := t.pos, origin := none }).replied h 0x05
              (ok 0x30 edges))
        ∧ exec (.indexStateWrite h rounding v) s =
          .next ((u.mapSettings fun g => { g with indexState := (max 0 (min 3 v.toInt)).toNat }).replied h 0x05
            (ok 0x32 (max 0 (min 3 v.toInt)))))
      ∧ exec (.tachFilterWrite h rounding v) s =
          .next (((u.mapSettings fun g => { g with tachFilter := (max 0 (min 15 v.toInt)).toNat }).mapTracker fun t =>
            { t with decoder := { ta := rest t.decoder.ta, tb := rest t.decoder.tb, tz := rest t.decoder.tz,
                                  settle := t.decoder.settle } }).replied h 0x05
              (ok 0x31 (max 0 (min 15 v.toInt)))))
    ∧ (∀ mode : Rounding, s.settings.source ≠ .localGen →
        exec (.defaultRoundingWrite h rounding (BitVec.ofNat 32 mode.selector)) s =
          .next ((u.mapSettings fun g => { g with rounding := mode }).replied h 0x05
            (.ok OutFlags.clear (.settingWrite 0x06 (.number mode.selector)))))
    ∧ (v.toInt < 0 ∨ 4 < v.toInt →
        exec (.defaultRoundingWrite h rounding v) s = .next (u.refusedWith h 0x05 .range))


/-- SETTING_SET_BITS sets, and SETTING_CLEAR_BITS clears, every marked position of the notice mask or the tone-mute mask
and leaves the others; the reply gives the mask as it stood before. On the notice mask the three positions that name no
kind stay clear, with CLAMPED when they were marked to be set. Every other identifier is refused with BAD_FIELD. Nothing
else changes (R150, R161). -/
def Obligations.BitRequestsChangeTheMarkedPositions : Prop :=
  ∀ (s : State) (h : FrameHead) (id mask : Byte), s.ready h →
    let u := s.withService h.service
    let ok (kind : Byte) (clamped : Bool) (before : Byte) (t : State) : Host.Outcome State Fault Refusal :=
      .next (t.replied h kind (.ok { OutFlags.clear with clamped := clamped } (.bits id before)))
    (id ≠ 0x08 → id ≠ 0x0F →
      exec (.settingSetBits h id mask) s = .next (u.refusedWith h 0x06 .badField)
      ∧ exec (.settingClearBits h id mask) s = .next (u.refusedWith h 0x07 .badField))
    ∧ (id = 0x08 →
      exec (.settingSetBits h id mask) s = ok 0x06 (decide (mask &&& 0xE0 ≠ 0)) s.settings.noticeMask
        (u.mapSettings fun g => { g with noticeMask := (g.noticeMask ||| mask) &&& 0x1F })
      ∧ exec (.settingClearBits h id mask) s = ok 0x07 false s.settings.noticeMask
        (u.mapSettings fun g => { g with noticeMask := (g.noticeMask &&& ~~~mask) &&& 0x1F }))
    ∧ (id = 0x0F →
      exec (.settingSetBits h id mask) s = ok 0x06 false s.settings.toneMute
        (u.mapSettings fun g => { g with toneMute := g.toneMute ||| mask })
      ∧ exec (.settingClearBits h id mask) s = ok 0x07 false s.settings.toneMute
        (u.mapSettings fun g => { g with toneMute := g.toneMute &&& ~~~mask }))

/-! ## The cue table (chapter 3) -/

/-- CUE_SEEK with a bank of 0 to 7 and a cursor of 0 to 63 sets both and replies with them; with a bank above 7 or a
cursor above 63 it is refused with BAD_FIELD, and both stay. No slot is touched (R65). -/
def Obligations.CueSeekSetsBankAndCursor : Prop :=
  ∀ (s : State) (h : FrameHead) (bank cursor : Byte), s.ready h →
    exec (.cueSeek h bank cursor) s =
      if bank.toNat ≤ 7 ∧ cursor.toNat ≤ 63 then
        .next (((s.withService h.service).mapLink fun l =>
          { l with bank := bank.toNat, cursor := cursor.toNat }).replied h 0x08
            (.ok OutFlags.clear (.seek bank.toNat cursor.toNat)))
      else .next ((s.withService h.service).refusedWith h 0x08 .badField)

/-- The five forms of addressing: ABSOLUTE, BANK, CURSOR, RELATIVE, which wraps in the bank, and LABEL, which finds the
slot that holds the label live when there is one; and the cursor advances, wrapping, in the CURSOR form only
(R56, R63, R64). -/
def Obligations.AddressingFormsNameTheirSlots : Prop :=
  ∀ (s : State) (operand : BitVec 16) (n : Nat), s.sound →
    s.addressed 0 operand = some operand.toNat
    ∧ s.addressed 1 operand = some (64 * s.link.bank + operand.toNat)
    ∧ s.addressed 2 operand = some (64 * s.link.bank + s.link.cursor)
    ∧ (∃ k, s.addressed 3 operand = some (64 * s.link.bank + k) ∧ k < 64
        ∧ (k : Int) % 64 = (s.link.cursor + operand.toInt) % 64)
    ∧ (s.labelsSound → ∀ k v, slotAt s.table k = some v → v.live.label = operand → s.addressed 4 operand = some k)
    ∧ ((∀ k v, slotAt s.table k = some v → v.live.label ≠ operand) → s.addressed 4 operand = none)
    ∧ (s.advanceCursor 2 n).link.cursor = (s.link.cursor + n) % 64
    ∧ ∀ form : Byte, form ≠ 2 → s.advanceCursor form n = s

/-- CUE_READ of one slot by its number: an EMPTY slot reads as such in view LIVE and is NOT_FOUND in view PENDING; a
DEFINED slot reports the selected groups of its live contents, or of its pending copy, which is NOT_FOUND when there is
none. A form above 4, a slot above 511, a count other than 1, a view above 1 or a selector outside R11 is refused with
BAD_FIELD. Nothing but the reply comes of it. In the CURSOR form 1 to 4 slots that follow the cursor in its bank,
wrapping, are read, and the cursor advances by as many (R63, R64, R70, R71, R72). That BAD_FIELD comes before NOT_FOUND is
the model's own choice, log entry 18. -/
def Obligations.CueReadReportsSlots : Prop :=
  ∀ (s : State) (h : FrameHead) (operand : BitVec 16) (mask rounding : Byte), s.ready h →
    let u := s.withService h.service
    let read (form count view : Byte) := exec (.cueRead h form operand count mask view rounding) s
    (∀ form count view : Byte, 4 < form.toNat ∨ (form = 0 ∧ 511 < operand.toNat) ∨ (form = 0 ∧ count ≠ 1)
        ∨ 1 < view.toNat ∨ selectRounding s.settings.rounding rounding = none →
      read form count view = .next (u.refusedWith h 0x09 .badField))
    ∧ ∀ mode, selectRounding s.settings.rounding rounding = some mode →
      (operand.toNat ≤ 511 → slotAt s.table operand.toNat = none →
        read 0 1 0 = .next (u.replied h 0x09 (.ok OutFlags.clear (.cueRead [⟨operand.toNat, none⟩])))
        ∧ read 0 1 1 = .next (u.refusedWith h 0x09 .notFound))
      ∧ (∀ v, operand.toNat ≤ 511 → slotAt s.table operand.toNat = some v →
        let report (view : View) (c : Contents) : Host.Outcome State Fault Refusal :=
          let r := reportGroups s.settings.standard mode mask v c
          .next (u.replied h 0x09 (.ok (r.2.union OutFlags.clear) (.cueRead [⟨operand.toNat, some (view, r.1)⟩])))
        read 0 1 0 = report .live v.live
        ∧ (v.pending = none → read 0 1 1 = .next (u.refusedWith h 0x09 .notFound))
        ∧ ∀ c, v.pending = some c → read 0 1 1 = report .pending c)
      ∧ ∀ count : Byte, 1 ≤ count.toNat → count.toNat ≤ 4 → ∃ entries flags,
        read 2 count 0 = .next ((u.mapLink fun l => { l with cursor := (l.cursor + count.toNat) % 64 }).replied h 0x09
          (.ok flags (.cueRead entries)))
        ∧ entries.map (·.slot) =
          (List.range count.toNat).map (fun k => 64 * s.link.bank + (s.link.cursor + k) % 64)
        ∧ ∀ e ∈ entries, (e.defined = none ↔ slotAt s.table e.slot = none)


/-- CUE_WRITE of an EMPTY slot with LABEL and IN creates a cue: streamer 3, three beeps 24 frames apart and 1 frame long,
tail 0, no OUT, RECORD set, take counter and counts 0. A label that another slot holds is DUPLICATE, a bad IN stamp is
BAD_LABEL, and a write without LABEL or IN is BAD_FIELD. Every other slot, and all else, stays (R52, R56, R67, R68,
R69). -/
def Obligations.CueWriteCreatesACue : Prop :=
  ∀ (s : State) (h : FrameHead) (slot label : BitVec 16) (rounding : Byte) (mode : Rounding) (stamp : Stamp),
    s.ready h → slot.toNat ≤ 511 → slotAt s.table slot.toNat = none →
    selectRounding s.settings.rounding rounding = some mode →
    let u := s.withService h.service
    let groups (l : Option (BitVec 16)) (p : Option Stamp) : CueGroups :=
      { label := l, inPoint := p, outPoint := none, streamer := none, beeps := none, tail := none, flags := none,
        info := false }
    let write (g : CueGroups) := exec (.cueWrite h 0 slot rounding g) s
    (∀ g : CueGroups, g.info = false → g.label = none ∨ g.inPoint = none →
        write g = .next (u.refusedWith h 0x0A .badField))
    ∧ (takeStamp s.settings.standard mode stamp = none →
        write (groups (some label) (some stamp)) = .next (u.refusedWith h 0x0A .badLabel))
    ∧ ∀ x, takeStamp s.settings.standard mode stamp = some x →
      ((∃ e ∈ s.table, e.1 ≠ slot.toNat ∧ (e.2.live.label = label ∨ e.2.pending.map (·.label) = some label)) →
        write (groups (some label) (some stamp)) = .next (u.refusedWith h 0x0A .duplicate))
      ∧ ((∀ e ∈ s.table, e.2.live.label ≠ label ∧ e.2.pending.map (·.label) ≠ some label) →
        write (groups (some label) (some stamp)) = .next ((u.mapTable fun t => putSlot t slot.toNat
          { live :=
              { label := label, inPoint := x.pos, outPoint := none, streamer := 3, beepCount := 3, beepSpacing := 24,
                beepLength := 1, tail := 0, record := true },
            pending := none, takes := 0, refs := 0, expansions := 0 }).replied h 0x0A
          (.ok ((x.flags.union OutFlags.clear).union OutFlags.clear) (.cueWrite slot.toNat .live
            { label := some label, inPoint := some ⟨x.stamp, exactPos x.pos⟩, outPoint := none, streamer := none,
              beeps := none, tail := none, record := none, info := none }))))

/-- CUE_WRITE of a DEFINED slot replaces the selected groups and keeps the others: in the live contents while no lane has
the cue expanded, and otherwise in a pending copy, made from the live contents when there is none. Shown for TAIL and
FLAGS, with a tail above 48 clamped; a FLAGS value above 1 is BAD_FIELD, and a selected INFO is READ_ONLY. The slot's
counters stay (R55, R60, R66, R67, R69). -/
def Obligations.CueWriteKeepsUnselectedGroups : Prop :=
  ∀ (s : State) (h : FrameHead) (slot : BitVec 16) (rounding tail : Byte) (record : Bool) (v : Slot),
    s.ready h → slot.toNat ≤ 511 → slotAt s.table slot.toNat = some v → v.legal s.settings.standard →
    (selectRounding s.settings.rounding rounding).isSome = true →
    let u := s.withService h.service
    let groups (f : Byte) (info : Bool) : CueGroups :=
      { label := none, inPoint := none, outPoint := none, streamer := none, beeps := none, tail := some tail,
        flags := some f, info := info }
    let write (g : CueGroups) := exec (.cueWrite h 0 slot rounding g) s
    let change (c : Contents) : Contents := { c with tail := min tail.toNat 48, record := record }
    let done (view : View) (w : Slot) : Host.Outcome State Fault Refusal :=
      .next ((u.mapTable fun t => putSlot t slot.toNat w).replied h 0x0A
        (.ok { OutFlags.clear with clamped := decide (48 < tail.toNat) } (.cueWrite slot.toNat view
          { label := none, inPoint := none, outPoint := none, streamer := none, beeps := none,
            tail := some (min tail.toNat 48), record := some record, info := none })))
    (∀ f : Byte, write (groups f true) = .next (u.refusedWith h 0x0A .readOnly))
    ∧ (∀ f : Byte, 1 < f.toNat → write (groups f false) = .next (u.refusedWith h 0x0A .badField))
    ∧ (v.expansions = 0 → write (groups (boolByte record) false) = done .live { v with live := change v.live })
    ∧ (v.expansions ≠ 0 → write (groups (boolByte record) false) =
        done .pending { v with pending := some (change (v.pending.getD v.live)) })

/-- CUE_ERASE by slot number: a slot that a run list names is IN_USE and stays; any other becomes EMPTY, or stays so, and
every other slot keeps its contents (R73). -/
def Obligations.CueEraseEmptiesAnUnusedSlot : Prop :=
  ∀ (s : State) (h : FrameHead) (slot : BitVec 16), s.ready h → s.sound → slot.toNat ≤ 511 →
    (s.refsOf slot.toNat ≠ 0 →
      exec (.cueErase h 0 slot) s = .next ((s.withService h.service).refusedWith h 0x0B .inUse))
    ∧ (s.refsOf slot.toNat = 0 → ∃ table, exec (.cueErase h 0 slot) s =
        .next (((s.withService h.service).mapTable fun _ => table).replied h 0x0B
          (.ok OutFlags.clear (.cueErase slot.toNat)))
      ∧ slotAt table slot.toNat = none ∧ ∀ n, n ≠ slot.toNat → slotAt table n = slotAt s.table n)

/-! ## Run lists and lanes (chapter 4) -/

/-- RUNLIST_WRITE on a lane that is not ARMED, of at most 16 different DEFINED slots of which only the last may be an
open cue and each two neighbours pass the overlap test: the lane is IDLE on the new list with index 0, the reference
count of each slot gains 1 for the new list and loses 1 for the old, and nothing else changes (R53, R58, R75, R77,
R78). -/
def Obligations.RunlistWriteReplacesTheList : Prop :=
  ∀ (s : State) (h : FrameHead) (i : LaneId) (slots : List (BitVec 16)), s.ready h → s.sound →
    (s.lane i).runList.Nodup → (s.lane i).state ≠ .armed → slots.length ≤ 16 → (slots.map BitVec.toNat).Nodup →
    (∀ n ∈ slots, (slotAt s.table n.toNat).isSome = true) →
    (∀ a b, [a, b] <:+: slots.map BitVec.toNat → s.pairOk a b = true) →
    ∃ table, exec (.runlistWrite h (BitVec.ofNat 8 i.val) slots) s =
        .next ((((s.withService h.service).mapTable fun _ => table).mapLane i fun l =>
          { l with state := .idle, runList := slots.map BitVec.toNat, index := 0 }).replied h 0x0C
            (.ok OutFlags.clear (.runlistWrite slots.length)))
      ∧ ∀ n, slotAt table n = (slotAt s.table n).map fun v =>
          { v with refs := v.refs + (if n ∈ slots.map BitVec.toNat then 1 else 0)
                    - (if n ∈ (s.lane i).runList then 1 else 0) }

/-- RUNLIST_WRITE is refused with BAD_FIELD for a lane above 7, more than 16 entries or a slot above 511, with STATE
while the lane is ARMED, with DUPLICATE and the index of the later of two equal entries, and with NOT_FOUND and the
index of an entry whose slot is EMPTY; shown for lists of two entries. Nothing changes (R75, R169). -/
def Obligations.RunlistWriteRefusals : Prop :=
  ∀ (s : State) (h : FrameHead) (lane : Byte) (slots : List (BitVec 16)), s.ready h →
    let u := s.withService h.service
    let refused (l : List (BitVec 16)) (a : Answer) :=
      exec (.runlistWrite h lane l) s = .next (u.replied h 0x0C a)
    (8 ≤ lane.toNat ∨ 16 < slots.length ∨ (∃ n ∈ slots, 511 < n.toNat) → refused slots (.refuse .badField))
    ∧ ∀ i : LaneId, i.val = lane.toNat → slots.length ≤ 16 → (∀ n ∈ slots, n.toNat ≤ 511) →
      ((s.lane i).state = .armed → refused slots (.refuse .state))
      ∧ ((s.lane i).state ≠ .armed → ∀ a b : BitVec 16, slots = [a, b] →
        (a = b → refused slots (.refuseAt .duplicate 1))
        ∧ (a ≠ b → slotAt s.table a.toNat = none → refused slots (.refuseAt .notFound 0))
        ∧ (a ≠ b → (slotAt s.table a.toNat).isSome = true → slotAt s.table b.toNat = none →
            refused slots (.refuseAt .notFound 1))
        ∧ (∀ v w, a ≠ b → slotAt s.table a.toNat = some v → slotAt s.table b.toNat = some w →
          (v.live.outPoint = none → refused slots (.refuseAt .openNotLast 0))
          ∧ (v.live.outPoint ≠ none → s.pairOk a.toNat b.toNat = false → refused slots (.refuseAt .overlap 1))))

/-- RUNLIST_READ carries a lane number, 0 to 7; any other is refused with BAD_FIELD. The reply carries the lane's state,
its entry count, and each entry's slot number and live label in run order. The read changes no state (R79). -/
def Obligations.RunlistReadReportsTheList : Prop :=
  ∀ (s : State) (h : FrameHead) (lane : Byte), s.ready h →
    (8 ≤ lane.toNat →
      exec (.runlistRead h lane) s = .next ((s.withService h.service).refusedWith h 0x0D .badField))
    ∧ ∀ i : LaneId, i.val = lane.toNat → ∃ entries, exec (.runlistRead h lane) s =
        .next ((s.withService h.service).replied h 0x0D
          (.ok OutFlags.clear (.runlistRead (s.lane i).state entries)))
      ∧ entries.length = (s.lane i).runList.length
      ∧ ∀ (k : Nat) (e : Nat × BitVec 16), entries[k]? = some e → (s.lane i).runList[k]? = some e.1
          ∧ ∀ v, slotAt s.table e.1 = some v → e.2 = v.live.label

/-- LANE_READ reports the lane's record and its derived states, and changes nothing; a lane above 7 is refused with
BAD_FIELD (R74, R85, R100). -/
def Obligations.LaneReadReportsTheRecord : Prop :=
  ∀ (s : State) (h : FrameHead) (lane : Byte), s.ready h →
    (8 ≤ lane.toNat →
      exec (.laneRead h lane) s = .next ((s.withService h.service).refusedWith h 0x10 .badField))
    ∧ ∀ i : LaneId, i.val = lane.toNat → ∃ r : LaneReport, exec (.laneRead h lane) s =
        .next ((s.withService h.service).replied h 0x10 (.ok OutFlags.clear (.laneRead r)))
      ∧ r.state = (s.lane i).state ∧ r.entries = (s.lane i).runList.length
      ∧ r.queue = (s.lane i).queue.map (fun e => (e.kind, e.beep, exactPos e.target))
      ∧ r.stack = (s.lane i).stack.map (fun e => (e.event.kind, e.event.beep, exactPos e.event.target, e.live))
      ∧ r.openTake = (s.lane i).openTake ∧ r.punchLine = (s.lane i).punchLine
      ∧ r.streamer = (s.lane i).streamerState.isSome ∧ r.tone = (s.lane i).toneState
      ∧ ((s.lane i).state ≠ .armed → r.current = none)
      ∧ ((s.lane i).state = .armed → ∀ n v, (s.lane i).runList[(s.lane i).index]? = some n →
          slotAt s.table n = some v → r.current = some ((s.lane i).index, n, v.live.label))

/-- LANE_ARM is refused with BAD_FIELD for a lane above 7, and with STATE while the lane is ARMED, its run list is empty
or the tracker is UNREFERENCED. Accepted with no event of entry 0 behind Pos within one reach, on a lane that shows
nothing, it makes the lane ARMED with index 0 on the cue's queue, takes its expansion, and changes nothing else. A cue has
the events of R80, each once and with the target stated there, and its queue holds them in the order of R81. The other
two expansions, shown for a lane at work alone: when CUE_END retires, the expansion of the cue is dropped, and the lane
goes on to the next entry that passes the overlap test, with an entry that fails it expanded, dropped and skipped, or
enters DONE past the last; and a cycle re-arm, at a WRAP, closes an open take at P0 with cause CYCLE, drops the expansion
and takes that of entry 0, in ARMED and in DONE (R59, R80, R81, R83, R86, R87, R90, R107). -/
def Obligations.LaneArmExpandsTheFirstEntry : Prop :=
  (∀ (s : State) (h : FrameHead) (lane : Byte), s.ready h →
    let u := s.withService h.service
    (8 ≤ lane.toNat → exec (.laneArm h lane) s = .next (u.refusedWith h 0x0E .badField))
    ∧ ∀ i : LaneId, i.val = lane.toNat →
      ((s.lane i).state = .armed ∨ (s.lane i).runList = [] ∨ s.tracker.state = .unreferenced →
        exec (.laneArm h lane) s = .next (u.refusedWith h 0x0E .state))
      ∧ ∀ n rest v, (s.lane i).state ≠ .armed → s.tracker.state ≠ .unreferenced →
        (s.lane i).runList = n :: rest → slotAt s.table n = some v → (s.lane i).openTake = none →
        (s.lane i).punchLine = false → s.feeds.copies.get i = LaneCopy.off →
        (∀ e, (expandCue s.settings.standard v.live s.lead).head? = some e →
          s.settings.standard.dist s.tracker.pos e.target < 0
            ∨ s.settings.standard.reach ≤ s.settings.standard.dist s.tracker.pos e.target) →
        exec (.laneArm h lane) s =
          .next (((u.mapTable fun t => changeSlot t n fun w => { w with expansions := w.expansions + 1 }).mapLane i fun l =>
            { l with
              state := .armed, index := 0, queue := expandCue s.settings.standard v.live s.lead, stack := [] }).replied
              h 0x0E (.ok OutFlags.clear (.laneArm .armed 0))))
  ∧ (∀ (std : Standard) (c : Contents) (lead : Nat), (expandCue std c lead).Perm (cueEvents std c lead)
      ∧ (expandCue std c lead).Pairwise (fun a b => eventBefore std (c.originPos std lead) a b = true)
      ∧ (cueEvents std c lead).Nodup
      ∧ ∀ e, e ∈ cueEvents std c lead ↔
        (c.streamer > 0 ∧ (e = ⟨.streamerStart, 0, std.into (c.inPoint - c.streamer * 2 ^ 32 : Int)⟩
            ∨ e = ⟨.streamerEnd, 0, c.inPoint⟩))
        ∨ (∃ k, 1 ≤ k ∧ k ≤ c.beepCount ∧ (e = ⟨.beepOn, k, std.into (c.inPoint - k * c.beepSpacing * 2 ^ 32 : Int)⟩
            ∨ e = ⟨.beepOff, k, std.into (c.inPoint - k * c.beepSpacing * 2 ^ 32 + c.beepLength * 2 ^ 32 : Int)⟩))
        ∨ (c.record = true ∧ e = ⟨.punchIn, 0, std.into (c.inPoint - lead : Int)⟩)
        ∨ ∃ out, c.outPoint = some out
          ∧ (c.record = true ∧ e = ⟨.punchOut, 0, std.into (out + c.tail * 2 ^ 32 - lead : Int)⟩
            ∨ e = ⟨.cueEnd, 0, std.into (out + c.tail * 2 ^ 32 : Int)⟩))
  ∧ (∀ (s : State) (ta tb tz : BitVec 16) (i : LaneId) (n : Nat) (e : Event),
    let std := s.settings.standard
    let l := s.lane i
    let p1 := s.steppedPos
    let dropped := changeSlot s.table n Slot.drop
    s.stepping → s.settings.cycleAction = .off → frameOf p1 = frameOf s.tracker.pos → s.onlyLane i → l.state = .armed →
    l.runList[l.index]? = some n → l.openTake = none → l.punchLine = false → l.queue = [e] → e.kind = .cueEnd →
    retires std p1 e.target → (∀ r, l.stack.head? = some r → ¬returns std p1 r.event.target) →
    (l.runList[l.index + 1]? = none → ∃ t, exec (.wordClockSample ta tb tz) s = .next t ∧ t.table = dropped
      ∧ t.lane i = { l with state := .done, index := 0, queue := [], stack := [] } ∧ t.log = s.log)
    ∧ ∀ m w, l.runList[l.index + 1]? = some m → slotAt dropped m = some w →
      (overlapOk std (w.live.originPos std s.lead) e.target = true →
        (∀ f, (expandCue std w.live s.lead).head? = some f → ¬retires std p1 f.target) →
        ∃ t, exec (.wordClockSample ta tb tz) s = .next t ∧ t.table = changeSlot dropped m Slot.take
          ∧ t.lane i = { l with index := l.index + 1, queue := expandCue std w.live s.lead, stack := [] }
          ∧ t.log = s.log)
      ∧ (overlapOk std (w.live.originPos std s.lead) e.target = false → l.runList[l.index + 2]? = none →
        ∃ t, exec (.wordClockSample ta tb tz) s = .next t
          ∧ t.table = changeSlot (changeSlot dropped m Slot.take) m Slot.drop
          ∧ t.lane i = { l with state := .done, index := 0, queue := [], stack := [] } ∧ t.log = s.log))
  ∧ ∀ (s : State) (ta tb tz : BitVec 16) (i : LaneId) (n : Nat) (rest : List Nat) (w : Slot),
    let std := s.settings.standard
    let l := s.lane i
    let x := std.into (s.settings.cycleStart + std.dist s.steppedPos s.settings.cycleEnd : Int)
    let dropped := match l.currentSlot with
      | some m => changeSlot s.table m Slot.drop
      | none => s.table
    s.stepping → s.settings.cycleAction = .wrap → s.settings.autoRearm = true → s.crossing s.tracker.pos s.steppedPos →
    s.settings.standbyPending = false → s.settings.staging = [] → s.onlyLane i → l.state ≠ .idle →
    l.runList = n :: rest → l.punchLine = l.openTake.isSome → slotAt dropped n = some w →
    (∀ f, (expandCue std w.live s.lead).head? = some f → ¬retires std x f.target) →
    ∃ t, exec (.wordClockSample ta tb tz) s = .next t ∧ t.tracker.pos = x ∧ t.table = changeSlot dropped n Slot.take
      ∧ t.lane i = { Lane.reset with
          state := .armed, runList := n :: rest, queue := expandCue std w.live s.lead }
      ∧ t.log.records = closedIn s.log.records l.openTake ⟨s.tracker.pos, s.tracker.count + 1, .cycle⟩
      ∧ t.log.nextSerial = s.log.nextSerial

/-- LANE_DISARM answers with the state the lane was in and the serial of the take it closes. An IDLE lane stays as it is
and a DONE lane enters IDLE. An ARMED lane enters IDLE with index 0 and its queue and stack discarded, and drops its
expansion; on a lane that shows nothing and has no open take nothing else changes. An open take closes at Pos and at the
current count with cause DISARMED, and the line drops. The run list stays (R59, R61, R84, R107, R126). -/
def Obligations.LaneDisarmReturnsTheLaneToIdle : Prop :=
  ∀ (s : State) (h : FrameHead) (lane : Byte), s.ready h →
    let u := s.withService h.service
    (8 ≤ lane.toNat → exec (.laneDisarm h lane) s = .next (u.refusedWith h 0x0F .badField))
    ∧ ∀ i : LaneId, i.val = lane.toNat →
      let answer : Answer := .ok OutFlags.clear (.laneDisarm (s.lane i).state (s.lane i).openTake)
      ((s.lane i).state = .idle → exec (.laneDisarm h lane) s = .next (u.replied h 0x0F answer))
      ∧ ((s.lane i).state = .done → exec (.laneDisarm h lane) s =
          .next ((u.mapLane i fun l => { l with state := .idle, index := 0 }).replied h 0x0F answer))
      ∧ (∀ n, (s.lane i).state = .armed → (s.lane i).runList[(s.lane i).index]? = some n →
        (s.lane i).openTake = none → (s.lane i).punchLine = false → s.feeds.copies.get i = LaneCopy.off →
        exec (.laneDisarm h lane) s =
          .next (((u.mapTable fun t => changeSlot t n Slot.drop).mapLane i fun l =>
            { l with state := .idle, index := 0, queue := [], stack := [] }).replied h 0x0F answer))
      ∧ ∀ serial, (s.lane i).state = .armed → (s.lane i).openTake = some serial → ∃ t : State,
        exec (.laneDisarm h lane) s = .next (t.replied h 0x0F answer)
          ∧ t.lane i = { Lane.reset with runList := (s.lane i).runList }
          ∧ (∀ j, j ≠ i → t.lane j = s.lane j)
          ∧ t.log.nextSerial = s.log.nextSerial
          ∧ t.log.records = s.log.records.map fun r =>
              if r.serial = serial then { r with closing := some ⟨s.tracker.pos, s.tracker.count, .disarmed⟩ } else r

/-! ## Position (chapters 1 and 2) -/

/-- POSITION_JAM with a good stamp places Pos and L there in every tracker state and every source, clears the mismatch
count, re-derives the phase count in TACH, and references an UNREFERENCED tracker, STOPPED or MOVING by its Spd; while
every lane is IDLE no lane, slot or take record changes. A selector outside R11 is refused with BAD_FIELD and a label out
of range with BAD_LABEL. POSITION_READ reports Pos in both forms, the speed in thousandths of nominal within ±32,767, the
tracker state, the play state and the sample count, and changes nothing (R11, R13, R18, R19, R40, R43, R173). That the
selector is checked before the label is the model's own choice, log entry 18. -/
def Obligations.PositionRequests : Prop :=
  ∀ (s : State) (h : FrameHead) (rounding : Byte) (stamp : Stamp), s.ready h →
    let u := s.withService h.service
    let std := s.settings.standard
    (selectRounding s.settings.rounding rounding = none →
      exec (.positionJam h rounding stamp) s = .next (u.refusedWith h 0x11 .badField)
      ∧ exec (.positionRead h rounding) s = .next (u.refusedWith h 0x12 .badField))
    ∧ ∀ mode, selectRounding s.settings.rounding rounding = some mode →
      (takeStamp std mode stamp = none →
        exec (.positionJam h rounding stamp) s = .next (u.refusedWith h 0x11 .badLabel))
      ∧ (∀ x, takeStamp std mode stamp = some x → ∃ t : State,
        exec (.positionJam h rounding stamp) s = .next (t.replied h 0x11 (.ok x.flags .none))
          ∧ t.tracker.pos = x.pos ∧ t.tracker.lastAnchor = x.pos ∧ t.tracker.driftCount = 0
          ∧ t.tracker.count = s.tracker.count ∧ t.tracker.spd = s.tracker.spd
          ∧ (s.settings.source = .tach → t.tracker.phase = phaseOf s.settings.edges x.pos)
          ∧ (s.tracker.state ≠ .unreferenced → t.tracker.state = s.tracker.state)
          ∧ (s.tracker.state = .unreferenced →
              t.tracker.state = if s.tracker.spd = 0 then .stopped else .moving)
          ∧ ((∀ i, (s.lane i).state = .idle) → s.noTakeOpen →
              (∀ i, t.lane i = s.lane i) ∧ t.table = s.table ∧ t.log = s.log))
      ∧ ∃ p ratio flags, exec (.positionRead h rounding) s = .next (u.replied h 0x12
          (.ok flags (.position p ratio s.tracker.state s.inPlay s.tracker.count)))
        ∧ p.exact = ⟨frameOf s.tracker.pos, fractionOf s.tracker.pos⟩
        ∧ p.stamp = (reportStamp std mode s.tracker.pos).1
        ∧ ratio = max (-32767) (min 32767 (roundQ mode (s.tracker.spd * 1000) s.nominal.toNat).value)
        ∧ flags.clamped = false ∧ flags.staged = false
        ∧ (flags.invalid = true ↔ ratio ≠ (roundQ mode (s.tracker.spd * 1000) s.nominal.toNat).value)

/-- The label of every frame of the day passes the checks of R13, is not an omitted one, and converts back to the frame;
and every label that passes and is not omitted is the label of its frame. A stamp whose subframe is a multiple of 125 is
taken in exactly, and its position reports it back, in every rounding mode (R13, R14, R15, R16, R17, R18). -/
def Obligations.LabelsAndStampsRoundTrip : Prop :=
  (∀ (std : Standard) (n : Nat), n < std.dayFrames →
    let l := frameToLabel std n
    labelInRange std l.hh l.mm l.ss l.ff = true ∧ isOmitted std l.mm l.ss l.ff = false ∧ labelToFrame std l = n)
  ∧ (∀ (std : Standard) (l : Label), labelInRange std l.hh l.mm l.ss l.ff = true →
      isOmitted std l.mm l.ss l.ff = false →
      labelToFrame std l < std.dayFrames ∧ frameToLabel std (labelToFrame std l) = l)
  ∧ ∀ (std : Standard) (mode : Rounding) (stamp : Stamp) (x : TakenStamp), takeStamp std mode stamp = some x →
      stamp.sf.toNat % 125 = 0 → x.flags.inexact = false ∧ reportStamp std mode x.pos = (x.stamp, false)

/-! ## The take log (chapter 6) -/

/-- TAKE_PEEK with a skip of 0 to 63, a count of 1 to 4 and a good selector reports the log's size, its OPEN records, the
next serial, and the records from the skip on, up to the count, and changes nothing. TAKE_RELEASE with a count of 0 to 64
removes records from the oldest end until the count is reached, the oldest is OPEN or the log is empty, and reports how
many it removed, the serial of the first, and how many are left; nothing else changes. Other operands are refused with
BAD_FIELD (R11, R127, R128). -/
def Obligations.TakeRequestsReadAndRelease : Prop :=
  ∀ (s : State) (h : FrameHead) (skip count rounding : Byte), s.ready h →
    let u := s.withService h.service
    (63 < skip.toNat ∨ count = 0 ∨ 4 < count.toNat ∨ selectRounding s.settings.rounding rounding = none →
      exec (.takePeek h skip count rounding) s = .next (u.refusedWith h 0x13 .badField))
    ∧ (∀ mode, skip.toNat ≤ 63 → 1 ≤ count.toNat → count.toNat ≤ 4 →
      selectRounding s.settings.rounding rounding = some mode → ∃ flags,
        exec (.takePeek h skip count rounding) s = .next (u.replied h 0x13 (.ok flags
          (.takePeek s.log.records.length (s.log.records.filter fun r => r.closing.isNone).length s.log.nextSerial
            (((s.log.records.drop skip.toNat).take count.toNat).map fun r =>
              (reportTake s.settings.standard mode r).1)))))
    ∧ (64 < count.toNat → exec (.takeRelease h count) s = .next (u.refusedWith h 0x14 .badField))
    ∧ (count.toNat ≤ 64 → ∃ gone left, s.log.records = gone ++ left
      ∧ (∀ r ∈ gone, r.closing.isSome = true) ∧ gone.length ≤ count.toNat
      ∧ (gone.length = count.toNat ∨ left = [] ∨ ∃ r rest, left = r :: rest ∧ r.closing = none)
      ∧ exec (.takeRelease h count) s = .next ((u.mapLog fun g => { g with records := left }).replied h 0x14
          (.ok OutFlags.clear (.takeRelease gone.length (gone.head?.map (·.serial)) left.length))))

/-! ## Motion (chapters 2, 5 and 7) -/

/-- One word-clock sample, with the word clock present. In LOCAL, MOVING with every lane IDLE and the cycle action OFF,
Pos advances by Spd in the timecode day and the count by 1; within one frame nothing else changes but the timers and the
tone phases, and with a new frame an overlay record and a code record are formed. In LOCAL a step that crosses the end of
the cycle window is taken under OFF and NOTIFY, is replaced under WRAP by start plus the overshoot, and ends under HALT
with Pos at the end, the ratio 0 and the tracker STOPPED. In CODE, UNREFERENCED or STOPPED with no dropout timer running,
Pos holds. In CODE and TACH, MOVING with no timer at its limit and no edge, Pos advances by Spd but not past one pu short
of the next anchor position. COASTING, it advances unclamped, and at the coast limit from L the tracker is STOPPED with
LOCK_LOST. In TACH a rise of TA, with the filter at 0 or 1 and all lines low, is one forward edge: UNREFERENCED, the phase
count grows by 1 in its day, the stall timer restarts, the estimate origin is set, and Pos holds; MOVING, the estimate of
the edges since the origin becomes Spd, and Pos goes to the transition when it lies at or ahead of Pos and else holds, with
L at Pos (R24, R25, R29, R30, R31, R32, R36, R42, R44, R45, R136, R144). -/
def Obligations.WordClockSampleMoves : Prop :=
  ∀ (s : State) (ta tb tz : BitVec 16), s.tracker.clockLost = false → s.tracker.sampleBegun = false →
    let std := s.settings.standard
    let p1 := s.steppedPos
    let idle := ∀ i, (s.lane i).state = .idle
    let ticked : Tracker :=
      { s.tracker with
        count := s.tracker.count + 1, stallTimer := s.tracker.stallTimer.map (· + 1),
        dropoutTimer := s.tracker.dropoutTimer.map (· + 1), sampleBegun := false, anchorTaken := false }
    let paced (f : Feeds) := f.copies = s.feeds.copies ∧ f.increments = s.feeds.increments
      ∧ ∀ i, f.phases.get i = s.feeds.phases.get i + s.feeds.increments.get i
    let clamped (ahead behind : Nat) :=
      if 0 < s.tracker.spd then (if 0 < std.dist p1 ahead then ahead else p1)
      else if std.dist p1 behind < 0 then behind else p1
    let steps (ta tb tz : BitVec 16) (p : Nat) :=
      ∃ f, exec (.wordClockSample ta tb tz) s = .next { s with tracker := { ticked with pos := p }, feeds := f }
        ∧ paced f
    let lines (a b c : Bool) := s.tracker.decoder = ⟨⟨a, 0⟩, ⟨b, 0⟩, ⟨c, 0⟩, false⟩
    let level (a : Bool) : BitVec 16 := if a then 0xFFFF else 0
    (s.settings.source = .localGen → s.tracker.state = .moving → s.tracker.spd ≠ 0 → idle → s.quiet →
      s.settings.cycleAction = .off →
      ∃ f, exec (.wordClockSample ta tb tz) s = .next { s with tracker := { ticked with pos := p1 }, feeds := f }
        ∧ paced f
        ∧ (frameOf p1 = frameOf s.tracker.pos → f.ovlSending = s.feeds.ovlSending
          ∧ f.ovlHolding = s.feeds.ovlHolding ∧ f.coutSending = s.feeds.coutSending
          ∧ f.coutWaiting = s.feeds.coutWaiting ∧ f.holdTimer = s.feeds.holdTimer.map (· + 1))
        ∧ (frameOf p1 ≠ frameOf s.tracker.pos → f.holdTimer = some 0
          ∧ (s.feeds.coutSending = none →
              f.coutSending = some ⟨frameToLabel std (frameOf p1), std.isDrop, false, decide (s.tracker.spd < 0)⟩)
          ∧ (s.feeds.ovlSending = none →
              f.ovlSending.map (·.label) = some (frameToLabel std (frameOf p1)))))
    ∧ (s.stepping → s.crossing s.tracker.pos p1 → ∃ t, exec (.wordClockSample ta tb tz) s = .next t ∧
        match s.settings.cycleAction with
        | .off => t.tracker.pos = p1 ∧ t.tracker.state = .moving ∧ t.tracker.spd = s.tracker.spd
        | .notify => t.tracker.pos = p1 ∧ t.tracker.state = .moving ∧ t.tracker.spd = s.tracker.spd
        | .wrap => t.tracker.pos = std.into (s.settings.cycleStart + std.dist p1 s.settings.cycleEnd : Int)
            ∧ t.tracker.state = .moving ∧ t.tracker.spd = s.tracker.spd
        | .halt => t.tracker.pos = s.settings.cycleEnd ∧ t.tracker.state = .stopped ∧ t.tracker.spd = 0
            ∧ t.settings.localRatio = 0)
    ∧ (s.settings.source = .codeIn → s.tracker.state = .unreferenced ∨ s.tracker.state = .stopped →
      s.tracker.dropoutTimer = none → s.tracker.anchorTaken = false →
      ∃ f, exec (.wordClockSample ta tb tz) s = .next { s with tracker := ticked, feeds := f } ∧ paced f)
    ∧ (s.settings.cycleAction = .off → idle → s.quiet → s.tracker.anchorTaken = false →
      (s.settings.source = .codeIn → s.tracker.state = .moving → s.tracker.spd ≠ 0 →
        (∀ k, s.tracker.dropoutTimer = some k → k + 1 < s.dropoutTimeout) →
        steps ta tb tz (clamped (std.into (s.tracker.lastAnchor + 2 ^ 32 - 1 : Int))
          (std.into (s.tracker.lastAnchor - 2 ^ 32 + 1 : Int))))
      ∧ (∀ a b c, s.settings.source = .tach → s.tracker.state = .moving → s.tracker.spd ≠ 0 → lines a b c →
        (∀ k, s.tracker.stallTimer = some k → k + 1 < s.settings.stallTimeout) →
        steps (level a) (level b) (level c)
          (clamped (std.into (nextTransition std s.settings.edges s.tracker.lastAnchor - 1 : Int))
            (std.into (previousTransition std s.settings.edges s.tracker.lastAnchor + 1 : Int))))
      ∧ (s.settings.source = .codeIn → s.tracker.state = .coasting → s.tracker.dropoutTimer = none →
        ((std.dist p1 s.tracker.lastAnchor).natAbs < s.settings.coastLimit * 2 ^ 32 → steps ta tb tz p1)
        ∧ (s.settings.coastLimit * 2 ^ 32 ≤ (std.dist p1 s.tracker.lastAnchor).natAbs →
          ∃ t, exec (.wordClockSample ta tb tz) s = .next t
            ∧ t.tracker = { ticked with pos := p1, spd := 0, state := .stopped } ∧ t.hasFlag .lockLost = true
            ∧ t.settings = s.settings ∧ t.table = s.table ∧ t.lanes = s.lanes ∧ t.log = s.log)))
    ∧ (s.settings.source = .tach → s.settings.tachFilter ≤ 1 → lines false false false →
      let phase := (s.tracker.phase + 1) % (std.dayFrames * s.settings.edges)
      let edged : Tracker :=
        { ticked with
          phase := phase
          stallTimer := some 0
          origin := some ⟨s.tracker.count + 1, 0⟩
          decoder := ⟨⟨true, 0⟩, ⟨false, 0⟩, ⟨false, 0⟩, false⟩ }
      (s.tracker.state = .unreferenced → s.tracker.origin = none →
        ∃ f, exec (.wordClockSample 0xFFFF 0 0) s = .next { s with tracker := edged, feeds := f } ∧ paced f)
      ∧ ∀ o, s.tracker.state = .moving → s.tracker.origin = some o →
        let spd := clampSpeed s.nominal
          (2 ^ 32 * max 1 (o.net + 1) / (s.settings.edges * max 1 (samplesFrom o.sample (s.tracker.count + 1)) : Nat))
        let a := std.into
          (phase / s.settings.edges * 2 ^ 32 + phase % s.settings.edges * 2 ^ 32 / s.settings.edges : Nat)
        let p := if 0 ≤ std.dist a s.tracker.pos then a else s.tracker.pos
        ∃ t, exec (.wordClockSample 0xFFFF 0 0) s = .next t
          ∧ t.tracker = { edged with spd := spd, pos := p, lastAnchor := p })

/-- The TONE frame that every sample forms: a lane's slot carries plus or minus 512 times its level, by the half of the
period in which its phase stood, while a beep of it is on, the play state is true, the engine mode is not STANDBY and its
mute is clear; and 0 otherwise. The phase then advances by the increment. The frame stands on TONE as 128 bits, slot 0
first, each slot most significant bit first (R135, R136, R137, R138, R182). -/
def Obligations.EverySampleFormsItsToneFrame : Prop :=
  ∀ (s t : State) (ta tb tz : BitVec 16), exec (.wordClockSample ta tb tz) s = .next t →
    (∀ i,
    let phase := t.feeds.phases.get i - t.feeds.increments.get i
    let level := BitVec.ofNat 16 (t.settings.toneLevel.get i * 512)
    t.feeds.tone.get i =
      if (t.feeds.copies.get i).tone ≠ 0 ∧ t.inPlay = true ∧ t.settings.engineMode ≠ .standby
          ∧ t.settings.toneMute.getLsbD i.val = false then
        if phase.toNat < 8388608 then level else -level
      else 0)
    ∧ t.feeds.toneStream.length = 128
    ∧ ∀ (i : LaneId) (k : Nat), k < 16 →
        t.feeds.toneStream[16 * i.val + k]? = some ((t.feeds.tone.get i).getLsbD (15 - k))

/-- A sample in LOCAL that carries a lane forward over its PUNCH_IN in the play state and in RECORD. With fewer than 64
records the log grants a take: its record names the lane, the cue and its live label, the next take number, Pos after the
step, the sample and the overshoot, and joins the log as OPEN; the next serial and the slot's take counter advance; the
PUNCH_IN stands on the stack LIVE, and the lane holds the serial and raises its line. With 64 records the take is
refused: the PUNCH_IN stands PASSED, LOG_FULL is raised, and the log, the slot and the line stay. A sample that carries
the lane over its PUNCH_OUT in the play state closes an open take OUT at P1 and leaves the PUNCH_IN's mark. A step that is
no play step closes an open take BROKEN at P0, with the PUNCH_IN marked PASSED and the line low, and then every event at
the top of the stack that lies ahead of P1 within one reach returns to the head of the queue (R95, R96, R97, R98, R99, R102,
R103, R104, R107, R108, R121, R124). That an event exactly one reach ahead returns too is the model's own reading, log
entry 37. -/
def Obligations.PunchInOpensATake : Prop :=
  (∀ (s : State) (ta tb tz : BitVec 16) (i : LaneId) (n : Nat) (v : Slot) (e : Event) (rest : List Event),
    let std := s.settings.standard
    let p1 := std.into ((s.tracker.pos : Int) + s.tracker.spd)
    let l := s.lane i
    s.tracker.clockLost = false → s.tracker.sampleBegun = false → s.settings.source = .localGen →
    s.tracker.state = .moving → s.inPlay = true → s.settings.engineMode = .record →
    s.settings.cycleAction = .off → frameOf p1 = frameOf s.tracker.pos →
    0 ≤ std.dist p1 s.tracker.pos → std.dist p1 s.tracker.pos < std.reach →
    tableWf s.table = true → (∀ j, j ≠ i → (s.lane j).state = .idle) → l.state = .armed →
    l.runList[l.index]? = some n → slotAt s.table n = some v → v.takes < 999 → l.stack = [] → l.openTake = none →
    l.queue = e :: rest → e.kind = .punchIn → std.dist s.tracker.pos e.target < 0 → 0 ≤ std.dist p1 e.target →
    std.dist p1 e.target < std.reach →
    (∀ f, rest.head? = some f → std.dist p1 f.target < 0 ∨ std.reach ≤ std.dist p1 f.target) →
    ∃ t, exec (.wordClockSample ta tb tz) s = .next t ∧ t.tracker.pos = p1
      ∧ (∀ j, j ≠ i → t.lane j = s.lane j)
      ∧ (s.log.records.length < 64 →
        t.log.nextSerial = s.log.nextSerial + 1
        ∧ t.log.records = s.log.records ++
          [{ serial := s.log.nextSerial, lane := i, slot := n, label := v.live.label, number := v.takes + 1,
             inPos := p1, inSample := s.tracker.count + 1, overshoot := (std.dist p1 e.target).toNat, closing := none,
             numberHeld := false, coasted := false }]
        ∧ slotAt t.table n = some { v with takes := v.takes + 1 }
        ∧ t.lane i = { l with queue := rest, stack := [⟨e, true⟩], openTake := some s.log.nextSerial,
                              punchLine := true })
      ∧ (64 ≤ s.log.records.length → t.log = s.log ∧ t.table = s.table ∧ t.hasFlag .logFull = true
        ∧ t.lane i = { l with queue := rest, stack := [⟨e, false⟩] }))
  ∧ ∀ (s : State) (ta tb tz : BitVec 16) (i : LaneId) (n : Nat),
    let std := s.settings.standard
    let l := s.lane i
    let p0 := s.tracker.pos
    let p1 := s.steppedPos
    let play := s.inPlay = true ∧ s.settings.engineMode ≠ .standby ∧ 0 ≤ std.dist p1 p0 ∧ std.dist p1 p0 < std.reach
    s.stepping → s.settings.cycleAction = .off → frameOf p1 = frameOf p0 → s.onlyLane i → l.state = .armed →
    l.runList[l.index]? = some n → l.punchLine = l.openTake.isSome →
    (∀ e rest serial, play → l.openTake = some serial → l.queue = e :: rest → e.kind = .punchOut →
      retires std p1 e.target → (∀ f, rest.head? = some f → ¬retires std p1 f.target) →
      (∀ r, l.stack.head? = some r → ¬returns std p1 r.event.target) →
      ∃ t, exec (.wordClockSample ta tb tz) s = .next t ∧ t.tracker.pos = p1 ∧ t.table = s.table
        ∧ (∀ j, j ≠ i → t.lane j = s.lane j)
        ∧ t.lane i = { l with
            queue := rest, stack := ⟨e, decide (std.dist p0 e.target < 0)⟩ :: l.stack, openTake := none,
            punchLine := false }
        ∧ t.log = { s.log with
            records := closedIn s.log.records (some serial) ⟨p1, s.tracker.count + 1, .out⟩ })
    ∧ (∀ back kept, ¬play → l.stack = back ++ kept → (∀ r ∈ back, returns std p1 r.event.target) →
      (∀ r, kept.head? = some r → ¬returns std p1 r.event.target) →
      (∀ f, l.queue.head? = some f → back = [] → ¬retires std p1 f.target) →
      ∃ t, exec (.wordClockSample ta tb tz) s = .next t ∧ t.tracker.pos = p1 ∧ t.table = s.table
        ∧ (∀ j, j ≠ i → t.lane j = s.lane j)
        ∧ t.lane i = { l with
            queue := (back.map (·.event)).reverse ++ l.queue
            stack := kept.map fun r =>
              if l.openTake.isSome = true ∧ r.event.kind = .punchIn then { r with live := false } else r
            openTake := none
            punchLine := false }
        ∧ t.log = { s.log with
            records := closedIn s.log.records l.openTake ⟨p0, s.tracker.count + 1, .broken⟩ })

/-- STALL in TACH, DROPOUT in CODE and HOLD_TIMER in LOCAL, at the sample that brings their timer to its limit, which
begins with them. The stall leaves a MOVING tracker STOPPED with Spd 0 and no origin. The dropout leaves a MOVING tracker
COASTING with no record interval and no origin, and marks the OPEN take records COASTED. The hold timer of a STOPPED
tracker forms a HOLD record of the frame in which Pos stands. NOTE_TRACKER reports the first two. A row whose timer does
not run, or whose source is not in force, does nothing: that is the model's own choice, log entry 12. So is that the
three rows begin the sample, with the count and the timers advanced and the notice stamped with the new count, log
entry 5; and so is that a dropout or hold timer already above a limit that has been shortened counts as having reached it,
log entry 42 (R7, R35, R36, R49, R125, R145). For the stall timer R157 says so itself. -/
def Obligations.TimersActAtTheirLimit : Prop :=
  ∀ s : State, s.tracker.clockLost = false →
    let b := s.beginSample
    (∀ k, s.settings.source = .tach → b.tracker.stallTimer = some k → s.settings.stallTimeout ≤ k →
      s.tracker.state = .moving → s.quiet → exec .stall s = .next ((b.mapTracker fun t =>
        { t with stallTimer := none, origin := none, spd := 0, state := .stopped }).noteTracker .stall))
    ∧ (∀ k, s.settings.source = .codeIn → b.tracker.dropoutTimer = some k →
      (match s.tracker.recordInterval with
        | none => 2 * (s.settings.sampleRate.hz / s.settings.standard.fps)
        | some n => max 64 (2 * n)) ≤ k →
      s.tracker.state = .moving → exec .dropout s = .next (((b.mapTracker fun t =>
        { t with dropoutTimer := none, recordInterval := none, origin := none, state := .coasting }).noteTracker
          .dropout).mapLog fun g => { g with
            records := g.records.map fun r => if r.closing = none then { r with coasted := true } else r }))
    ∧ (∀ k, s.settings.source = .localGen → b.feeds.holdTimer = some k →
      s.settings.sampleRate.hz / s.settings.standard.fps ≤ k → s.tracker.state = .stopped →
      exec .holdTimer s = .next (b.mapFeeds fun f => f.sendCode
        ⟨frameToLabel s.settings.standard (frameOf s.tracker.pos), s.settings.standard.isDrop, true, false⟩))
    ∧ (s.settings.source ≠ .tach ∨ b.tracker.stallTimer = none → exec .stall s = .next s)
    ∧ (s.settings.source ≠ .codeIn ∨ b.tracker.dropoutTimer = none → exec .dropout s = .next s)
    ∧ (s.settings.source ≠ .localGen ∨ b.feeds.holdTimer = none → exec .holdTimer s = .next s)

/-- CLOCK_LOST raises its flag, clears Spd and the origin, and leaves a referenced tracker STOPPED; an UNREFERENCED one
stays. Every open take closes at Pos and at the halted count with cause CLOCK_LOST while no STANDBY entry is pending.
CLOCK_BACK restarts the stall and dropout timers and takes the line levels anew; outside LOCAL the tracker stays as it
is, and in LOCAL Spd follows the ratio and the tracker is MOVING when it is not 0. NOTE_TRACKER reports both (R24, R42, R47,
R48, R49, R107, R145). The model's own are three points: lost while lost, or back while present, they do nothing (log
entry 12); CLOCK_BACK leaves the count as it is (log entry 13); and the loss is an entry into STOPPED, with its HOLD
record, also for a tracker that was STOPPED already (log entry 23). -/
def Obligations.ClockLossAndReturn : Prop :=
  ∀ s : State,
    (s.tracker.clockLost = true → exec .clockLost s = .next s)
    ∧ (s.tracker.clockLost = false → exec .clockBack s = .next s)
    ∧ (s.tracker.clockLost = false →
      let lost := (s.raise .clockLost).mapTracker fun t =>
        { t with clockLost := true, spd := 0, origin := none, sampleBegun := false, anchorTaken := false }
      (s.tracker.state = .unreferenced → exec .clockLost s = .next (lost.noteTracker .clockLost))
      ∧ (s.tracker.state ≠ .unreferenced → s.quiet → exec .clockLost s =
          .next ((lost.mapTracker fun t => { t with state := .stopped }).noteTracker .clockLost).formHold)
      ∧ (s.tracker.state ≠ .unreferenced → s.sound → s.settings.standbyPending = false → ∃ t,
          exec .clockLost s = .next t ∧ t.tracker.state = .stopped ∧ t.hasFlag .clockLost = true
            ∧ (∀ i, (t.lane i).openTake = none ∧ (t.lane i).punchLine = false)
            ∧ ∀ i serial, (s.lane i).openTake = some serial → ∀ r ∈ t.log.records, r.serial = serial →
                r.closing = some ⟨s.tracker.pos, s.tracker.count, .clockLost⟩))
    ∧ (s.tracker.clockLost = true →
      let back := s.mapTracker fun t =>
        { t with
          clockLost := false, stallTimer := some 0, dropoutTimer := some 0,
          decoder := { t.decoder with settle := true } }
      let spd := (roundQ s.settings.rounding (s.nominal * s.settings.localRatio) 1000).value
      (s.settings.source ≠ .localGen → exec .clockBack s = .next (back.noteTracker .clockBack))
      ∧ (s.settings.source = .localGen → spd.natAbs ≤ 32 * s.nominal →
          exec .clockBack s = .next ((back.mapTracker fun t =>
            { t with spd := spd, state := if spd = 0 then t.state else .moving }).noteTracker .clockBack)))

/-- The seven bytes of the code record that COUT carries for a frame read back on CIN as that frame with its flags. With
the receiver waiting, other bytes than 0x5A are discarded. In CODE a record whose check fails raises CODE_ERROR; the first
good record that is not HOLD places Pos and L at its base, which is the start of the next frame going forward and of its
own in reverse, and references the tracker, STOPPED or MOVING by its Spd. In MOVING a good record that is not HOLD takes
its sample without an integration: a contiguous one, 1 to 8 frames on, forms the estimate of those frames since the origin
as Spd and takes its base with the code latency by the anchor rule, at or ahead of Pos in its direction, with L at Pos; one
that is not contiguous places Pos and L at that candidate and keeps Spd. A gap inside a record raises CODE_ERROR. That a
record and its sample are counted as here is log entry 5, when a record is contiguous log entry 11, and that a gap outside
a record does nothing log entry 12: those are the model's own choices (R28, R29, R30, R32, R33, R36, R39, R143, R180). -/
def Obligations.CodeRecordsReferenceTheTracker : Prop :=
  (∀ (std : Standard) (n : Nat) (hold reverse : Bool), n < std.dayFrames → ∃ hh mm ss ff flags check : Byte,
    (CodeOut.mk (frameToLabel std n) std.isDrop hold reverse).bytes = [0x5A, hh, mm, ss, ff, flags, check]
    ∧ readCodeRecord std hh mm ss ff flags check = some
        { frame := n, hold := hold, reverse := reverse,
          base := (if hold = true ∨ reverse = true then n else (n + 1) % std.dayFrames) * frameUnits })
  ∧ (∀ (s : State) (bytes : List Byte), s.tracker.cin = none → (∀ b ∈ bytes, b ≠ 0x5A) →
      exec (.codeRecord bytes) s = .next s)
  ∧ (∀ (s : State) (hh mm ss ff flags check : Byte), s.tracker.cin = none → s.tracker.clockLost = false →
      s.settings.source = .codeIn →
      (hh + mm + ss + ff + flags + check ≠ 0 →
        exec (.codeRecord [0x5A, hh, mm, ss, ff, flags, check]) s = .next (s.raiseFault .codeError))
      ∧ ∀ r, readCodeRecord s.settings.standard hh mm ss ff flags check = some r → r.hold = false →
        s.tracker.state = .unreferenced → ∃ t,
        exec (.codeRecord [0x5A, hh, mm, ss, ff, flags, check]) s = .next t
          ∧ t.tracker.pos = r.base ∧ t.tracker.lastAnchor = r.base
          ∧ t.tracker.state = (if s.tracker.spd = 0 then .stopped else .moving)
          ∧ t.tracker.previous = some ⟨r.base, r.reverse, t.tracker.count⟩
          ∧ t.tracker.origin = some ⟨t.tracker.count, 0⟩ ∧ t.tracker.dropoutTimer = some 0
          ∧ t.tracker.driftCount = 0 ∧ t.tracker.cin = none)
  ∧ (∀ (s : State) (hh mm ss ff flags check : Byte) (r : CodeRecord) (p : PreviousRecord) (o : EstimateOrigin),
      let std := s.settings.standard
      let count := s.beginSample.tracker.count
      let k := (if r.reverse then std.dist p.base r.base else std.dist r.base p.base) / 2 ^ 32
      let n := max 1 (samplesFrom o.sample count)
      let spd := clampSpeed s.nominal ((if r.reverse then -1 else 1) * (2 ^ 32 * k / n))
      let near := 1 ≤ k ∧ k ≤ 8 ∧ samplesFrom p.arrival count ≤ s.dropoutTimeout
      let a (v : Int) := std.into (r.base + s.settings.codeLatency * v : Int)
      let ahead := 0 ≤ (if r.reverse then std.dist s.tracker.pos (a spd) else std.dist (a spd) s.tracker.pos)
      s.tracker.cin = none → s.tracker.clockLost = false → s.settings.source = .codeIn →
      readCodeRecord std hh mm ss ff flags check = some r → r.hold = false → s.tracker.state = .moving →
      s.tracker.previous = some p → s.tracker.origin = some o → s.tracker.dropoutTimer.isSome = true →
      ∃ t, exec (.codeRecord [0x5A, hh, mm, ss, ff, flags, check]) s = .next t
        ∧ t.tracker.state = .moving ∧ t.tracker.count = count ∧ t.tracker.anchorTaken = true
        ∧ t.tracker.previous = some ⟨r.base, r.reverse, count⟩
        ∧ t.tracker.recordInterval = some (samplesFrom p.arrival count)
        ∧ t.tracker.origin = some ⟨count, 0⟩ ∧ t.tracker.dropoutTimer = some 0
        ∧ (near → t.tracker.spd = spd ∧ t.tracker.pos = (if ahead then a spd else s.tracker.pos)
            ∧ t.tracker.lastAnchor = t.tracker.pos)
        ∧ (¬near → t.tracker.spd = s.tracker.spd ∧ t.tracker.pos = a s.tracker.spd
            ∧ t.tracker.lastAnchor = t.tracker.pos))
  ∧ ∀ s : State, (s.tracker.cin = none → exec .codeRecordGap s = .next s)
      ∧ (s.tracker.cin.isSome = true → s.tracker.clockLost = false → s.settings.source ≠ .localGen →
        exec .codeRecordGap s = .next ((s.mapTracker fun t => { t with cin := none }).raiseFault .codeError))

/-- When the record being sent on OVL or COUT ends, the one that waits starts and its place is empty, or the sender is
idle. Nothing else changes (R142, R146). That the row does nothing for an idle sender is the model's own choice, log
entry 12. -/
def Obligations.SendersStartTheWaitingRecord : Prop :=
  ∀ s : State,
    (s.feeds.ovlSending = none → exec .ovlSendComplete s = .next s)
    ∧ (s.feeds.ovlSending.isSome = true → exec .ovlSendComplete s =
        .next (s.mapFeeds fun f => { f with ovlSending := f.ovlHolding, ovlHolding := none }))
    ∧ (s.feeds.coutSending = none → exec .coutSendComplete s = .next s)
    ∧ (s.feeds.coutSending.isSome = true → exec .coutSendComplete s =
        .next (s.mapFeeds fun f => { f with coutSending := f.coutWaiting, coutWaiting := none }))
end

