-- ==== Sys2Proof/Laws/State.lean ====
section
/-! SUPPORT. Laws/State.lean: what each update of the state does to each of its fields, and the laws of the eight-fold
collection. -/

namespace Sys2Proof

/-! ## Eight things -/

/-- Reading back the thing just set, or another. -/
@[simp] theorem Eight.get_set {α : Type} (e : Eight α) (i j : LaneId) (a : α) :
    (e.set i a).get j = if j = i then a else e.get j := by
  fin_cases i <;> fin_cases j <;> rfl

@[simp] theorem Eight.get_all {α : Type} (a : α) (i : LaneId) : (Eight.all a).get i = a := by
  fin_cases i <;> rfl

@[simp] theorem Eight.get_map {α β : Type} (f : α → β) (e : Eight α) (i : LaneId) :
    (e.map f).get i = f (e.get i) := by
  fin_cases i <;> rfl

theorem Eight.mem_toList {α : Type} (e : Eight α) (a : α) : a ∈ e.toList ↔ ∃ i, e.get i = a := by
  constructor
  · intro h
    simp only [Eight.toList, List.mem_cons, List.not_mem_nil, or_false] at h
    rcases h with h | h | h | h | h | h | h | h
    · exact ⟨0, h.symm⟩
    · exact ⟨1, h.symm⟩
    · exact ⟨2, h.symm⟩
    · exact ⟨3, h.symm⟩
    · exact ⟨4, h.symm⟩
    · exact ⟨5, h.symm⟩
    · exact ⟨6, h.symm⟩
    · exact ⟨7, h.symm⟩
  · rintro ⟨i, rfl⟩
    fin_cases i <;> simp [Eight.toList, Eight.get]

/-- Two collections with the same things are the same. -/
theorem Eight.ext_get {α : Type} {a b : Eight α} (h : ∀ i, a.get i = b.get i) : a = b := by
  have h0 := h 0; have h1 := h 1; have h2 := h 2; have h3 := h 3
  have h4 := h 4; have h5 := h 5; have h6 := h 6; have h7 := h 7
  cases a; cases b
  simp_all [Eight.get]

namespace Machine

variable (s : State)

/-! ## One block replaced -/

@[simp] theorem State.mapTracker_tracker (f : Tracker → Tracker) : (s.mapTracker f).tracker = f s.tracker := rfl
@[simp] theorem State.mapTracker_table (f : Tracker → Tracker) : (s.mapTracker f).table = s.table := rfl
@[simp] theorem State.mapTracker_lanes (f : Tracker → Tracker) : (s.mapTracker f).lanes = s.lanes := rfl
@[simp] theorem State.mapTracker_log (f : Tracker → Tracker) : (s.mapTracker f).log = s.log := rfl
@[simp] theorem State.mapTracker_feeds (f : Tracker → Tracker) : (s.mapTracker f).feeds = s.feeds := rfl
@[simp] theorem State.mapTracker_settings (f : Tracker → Tracker) : (s.mapTracker f).settings = s.settings := rfl
@[simp] theorem State.mapTracker_link (f : Tracker → Tracker) : (s.mapTracker f).link = s.link := rfl
@[simp] theorem State.mapTracker_service (f : Tracker → Tracker) : (s.mapTracker f).service = s.service := rfl
@[simp] theorem State.mapTracker_occasion (f : Tracker → Tracker) : (s.mapTracker f).occasion = s.occasion := rfl
@[simp] theorem State.mapTracker_pending (f : Tracker → Tracker) : (s.mapTracker f).pending = s.pending := rfl

@[simp] theorem State.mapSettings_tracker (f : Settings → Settings) : (s.mapSettings f).tracker = s.tracker := rfl
@[simp] theorem State.mapSettings_table (f : Settings → Settings) : (s.mapSettings f).table = s.table := rfl
@[simp] theorem State.mapSettings_lanes (f : Settings → Settings) : (s.mapSettings f).lanes = s.lanes := rfl
@[simp] theorem State.mapSettings_log (f : Settings → Settings) : (s.mapSettings f).log = s.log := rfl
@[simp] theorem State.mapSettings_feeds (f : Settings → Settings) : (s.mapSettings f).feeds = s.feeds := rfl
@[simp] theorem State.mapSettings_settings (f : Settings → Settings) :
    (s.mapSettings f).settings = f s.settings := rfl
@[simp] theorem State.mapSettings_link (f : Settings → Settings) : (s.mapSettings f).link = s.link := rfl
@[simp] theorem State.mapSettings_service (f : Settings → Settings) : (s.mapSettings f).service = s.service := rfl
@[simp] theorem State.mapSettings_occasion (f : Settings → Settings) : (s.mapSettings f).occasion = s.occasion := rfl
@[simp] theorem State.mapSettings_pending (f : Settings → Settings) : (s.mapSettings f).pending = s.pending := rfl

@[simp] theorem State.mapFeeds_tracker (f : Feeds → Feeds) : (s.mapFeeds f).tracker = s.tracker := rfl
@[simp] theorem State.mapFeeds_table (f : Feeds → Feeds) : (s.mapFeeds f).table = s.table := rfl
@[simp] theorem State.mapFeeds_lanes (f : Feeds → Feeds) : (s.mapFeeds f).lanes = s.lanes := rfl
@[simp] theorem State.mapFeeds_log (f : Feeds → Feeds) : (s.mapFeeds f).log = s.log := rfl
@[simp] theorem State.mapFeeds_feeds (f : Feeds → Feeds) : (s.mapFeeds f).feeds = f s.feeds := rfl
@[simp] theorem State.mapFeeds_settings (f : Feeds → Feeds) : (s.mapFeeds f).settings = s.settings := rfl
@[simp] theorem State.mapFeeds_link (f : Feeds → Feeds) : (s.mapFeeds f).link = s.link := rfl
@[simp] theorem State.mapFeeds_service (f : Feeds → Feeds) : (s.mapFeeds f).service = s.service := rfl
@[simp] theorem State.mapFeeds_occasion (f : Feeds → Feeds) : (s.mapFeeds f).occasion = s.occasion := rfl
@[simp] theorem State.mapFeeds_pending (f : Feeds → Feeds) : (s.mapFeeds f).pending = s.pending := rfl

@[simp] theorem State.mapLink_tracker (f : Link → Link) : (s.mapLink f).tracker = s.tracker := rfl
@[simp] theorem State.mapLink_table (f : Link → Link) : (s.mapLink f).table = s.table := rfl
@[simp] theorem State.mapLink_lanes (f : Link → Link) : (s.mapLink f).lanes = s.lanes := rfl
@[simp] theorem State.mapLink_log (f : Link → Link) : (s.mapLink f).log = s.log := rfl
@[simp] theorem State.mapLink_feeds (f : Link → Link) : (s.mapLink f).feeds = s.feeds := rfl
@[simp] theorem State.mapLink_settings (f : Link → Link) : (s.mapLink f).settings = s.settings := rfl
@[simp] theorem State.mapLink_link (f : Link → Link) : (s.mapLink f).link = f s.link := rfl
@[simp] theorem State.mapLink_service (f : Link → Link) : (s.mapLink f).service = s.service := rfl
@[simp] theorem State.mapLink_occasion (f : Link → Link) : (s.mapLink f).occasion = s.occasion := rfl
@[simp] theorem State.mapLink_pending (f : Link → Link) : (s.mapLink f).pending = s.pending := rfl

@[simp] theorem State.mapTable_tracker (f : CueTable → CueTable) : (s.mapTable f).tracker = s.tracker := rfl
@[simp] theorem State.mapTable_table (f : CueTable → CueTable) : (s.mapTable f).table = f s.table := rfl
@[simp] theorem State.mapTable_lanes (f : CueTable → CueTable) : (s.mapTable f).lanes = s.lanes := rfl
@[simp] theorem State.mapTable_log (f : CueTable → CueTable) : (s.mapTable f).log = s.log := rfl
@[simp] theorem State.mapTable_feeds (f : CueTable → CueTable) : (s.mapTable f).feeds = s.feeds := rfl
@[simp] theorem State.mapTable_settings (f : CueTable → CueTable) : (s.mapTable f).settings = s.settings := rfl
@[simp] theorem State.mapTable_link (f : CueTable → CueTable) : (s.mapTable f).link = s.link := rfl
@[simp] theorem State.mapTable_service (f : CueTable → CueTable) : (s.mapTable f).service = s.service := rfl
@[simp] theorem State.mapTable_occasion (f : CueTable → CueTable) : (s.mapTable f).occasion = s.occasion := rfl
@[simp] theorem State.mapTable_pending (f : CueTable → CueTable) : (s.mapTable f).pending = s.pending := rfl

@[simp] theorem State.mapLog_tracker (f : TakeLog → TakeLog) : (s.mapLog f).tracker = s.tracker := rfl
@[simp] theorem State.mapLog_table (f : TakeLog → TakeLog) : (s.mapLog f).table = s.table := rfl
@[simp] theorem State.mapLog_lanes (f : TakeLog → TakeLog) : (s.mapLog f).lanes = s.lanes := rfl
@[simp] theorem State.mapLog_log (f : TakeLog → TakeLog) : (s.mapLog f).log = f s.log := rfl
@[simp] theorem State.mapLog_feeds (f : TakeLog → TakeLog) : (s.mapLog f).feeds = s.feeds := rfl
@[simp] theorem State.mapLog_settings (f : TakeLog → TakeLog) : (s.mapLog f).settings = s.settings := rfl
@[simp] theorem State.mapLog_link (f : TakeLog → TakeLog) : (s.mapLog f).link = s.link := rfl
@[simp] theorem State.mapLog_service (f : TakeLog → TakeLog) : (s.mapLog f).service = s.service := rfl
@[simp] theorem State.mapLog_occasion (f : TakeLog → TakeLog) : (s.mapLog f).occasion = s.occasion := rfl
@[simp] theorem State.mapLog_pending (f : TakeLog → TakeLog) : (s.mapLog f).pending = s.pending := rfl

@[simp] theorem State.withService_tracker (level : Bool) : (s.withService level).tracker = s.tracker := rfl
@[simp] theorem State.withService_table (level : Bool) : (s.withService level).table = s.table := rfl
@[simp] theorem State.withService_lanes (level : Bool) : (s.withService level).lanes = s.lanes := rfl
@[simp] theorem State.withService_log (level : Bool) : (s.withService level).log = s.log := rfl
@[simp] theorem State.withService_feeds (level : Bool) : (s.withService level).feeds = s.feeds := rfl
@[simp] theorem State.withService_settings (level : Bool) : (s.withService level).settings = s.settings := rfl
@[simp] theorem State.withService_link (level : Bool) : (s.withService level).link = s.link := rfl
@[simp] theorem State.withService_service (level : Bool) : (s.withService level).service = level := rfl
@[simp] theorem State.withService_occasion (level : Bool) : (s.withService level).occasion = s.occasion := rfl
@[simp] theorem State.withService_pending (level : Bool) : (s.withService level).pending = s.pending := rfl

/-! ## One lane replaced -/

@[simp] theorem State.mapLane_tracker (i : LaneId) (f : Lane → Lane) : (s.mapLane i f).tracker = s.tracker := rfl
@[simp] theorem State.mapLane_table (i : LaneId) (f : Lane → Lane) : (s.mapLane i f).table = s.table := rfl
@[simp] theorem State.mapLane_log (i : LaneId) (f : Lane → Lane) : (s.mapLane i f).log = s.log := rfl
@[simp] theorem State.mapLane_feeds (i : LaneId) (f : Lane → Lane) : (s.mapLane i f).feeds = s.feeds := rfl
@[simp] theorem State.mapLane_settings (i : LaneId) (f : Lane → Lane) : (s.mapLane i f).settings = s.settings := rfl
@[simp] theorem State.mapLane_link (i : LaneId) (f : Lane → Lane) : (s.mapLane i f).link = s.link := rfl
@[simp] theorem State.mapLane_service (i : LaneId) (f : Lane → Lane) : (s.mapLane i f).service = s.service := rfl
@[simp] theorem State.mapLane_occasion (i : LaneId) (f : Lane → Lane) : (s.mapLane i f).occasion = s.occasion := rfl
@[simp] theorem State.mapLane_pending (i : LaneId) (f : Lane → Lane) : (s.mapLane i f).pending = s.pending := rfl

/-- Lane `j` after lane `i` is changed. -/
@[simp] theorem State.lane_mapLane (i j : LaneId) (f : Lane → Lane) :
    (s.mapLane i f).lane j = if j = i then f (s.lane i) else s.lane j := by
  simp [State.lane, State.mapLane]

@[simp] theorem State.lane_mapTracker (i : LaneId) (f : Tracker → Tracker) : (s.mapTracker f).lane i = s.lane i := rfl
@[simp] theorem State.lane_mapSettings (i : LaneId) (f : Settings → Settings) :
    (s.mapSettings f).lane i = s.lane i := rfl
@[simp] theorem State.lane_mapFeeds (i : LaneId) (f : Feeds → Feeds) : (s.mapFeeds f).lane i = s.lane i := rfl
@[simp] theorem State.lane_mapLink (i : LaneId) (f : Link → Link) : (s.mapLink f).lane i = s.lane i := rfl
@[simp] theorem State.lane_mapTable (i : LaneId) (f : CueTable → CueTable) : (s.mapTable f).lane i = s.lane i := rfl
@[simp] theorem State.lane_mapLog (i : LaneId) (f : TakeLog → TakeLog) : (s.mapLog f).lane i = s.lane i := rfl
@[simp] theorem State.lane_withService (i : LaneId) (level : Bool) : (s.withService level).lane i = s.lane i := rfl

/-! ## A free order used up -/

@[simp] theorem State.settleOrder_tracker : s.settleOrder.2.tracker = s.tracker := rfl
@[simp] theorem State.settleOrder_table : s.settleOrder.2.table = s.table := rfl
@[simp] theorem State.settleOrder_lanes : s.settleOrder.2.lanes = s.lanes := rfl
@[simp] theorem State.settleOrder_log : s.settleOrder.2.log = s.log := rfl
@[simp] theorem State.settleOrder_feeds : s.settleOrder.2.feeds = s.feeds := rfl
@[simp] theorem State.settleOrder_settings : s.settleOrder.2.settings = s.settings := rfl
@[simp] theorem State.settleOrder_link : s.settleOrder.2.link = s.link := rfl
@[simp] theorem State.settleOrder_service : s.settleOrder.2.service = s.service := rfl
@[simp] theorem State.settleOrder_occasion : s.settleOrder.2.occasion = s.occasion + 1 := rfl
@[simp] theorem State.settleOrder_pending : s.settleOrder.2.pending = s.pending := rfl
@[simp] theorem State.lane_settleOrder (i : LaneId) : s.settleOrder.2.lane i = s.lane i := rfl

@[simp] theorem State.settleLanes_tracker : s.settleLanes.2.tracker = s.tracker := rfl
@[simp] theorem State.settleLanes_table : s.settleLanes.2.table = s.table := rfl
@[simp] theorem State.settleLanes_lanes : s.settleLanes.2.lanes = s.lanes := rfl
@[simp] theorem State.settleLanes_log : s.settleLanes.2.log = s.log := rfl
@[simp] theorem State.settleLanes_feeds : s.settleLanes.2.feeds = s.feeds := rfl
@[simp] theorem State.settleLanes_settings : s.settleLanes.2.settings = s.settings := rfl
@[simp] theorem State.settleLanes_link : s.settleLanes.2.link = s.link := rfl
@[simp] theorem State.settleLanes_service : s.settleLanes.2.service = s.service := rfl
@[simp] theorem State.settleLanes_occasion : s.settleLanes.2.occasion = s.occasion + 1 := rfl
@[simp] theorem State.settleLanes_pending : s.settleLanes.2.pending = s.pending := rfl
@[simp] theorem State.lane_settleLanes (i : LaneId) : s.settleLanes.2.lane i = s.lane i := rfl

/-! ## The same update twice -/

@[simp] theorem State.mapLink_mapLink (f g : Link → Link) :
    (s.mapLink f).mapLink g = s.mapLink fun l => g (f l) := rfl

@[simp] theorem State.mapTracker_mapTracker (f g : Tracker → Tracker) :
    (s.mapTracker f).mapTracker g = s.mapTracker fun t => g (f t) := rfl

@[simp] theorem State.mapSettings_mapSettings (f g : Settings → Settings) :
    (s.mapSettings f).mapSettings g = s.mapSettings fun t => g (f t) := rfl

@[simp] theorem State.mapFeeds_mapFeeds (f g : Feeds → Feeds) :
    (s.mapFeeds f).mapFeeds g = s.mapFeeds fun t => g (f t) := rfl

end Machine

end Sys2Proof
end

