-- ==== Sys2Proof/Laws/Table.lean ====
section
/-! SUPPORT. Laws/Table.lean: the cue table as a sparse list: reading after writing, and the canonical form (R51). -/

namespace Sys2Proof.Machine

/-- Every slot number of the table is above `k`. -/
def allAbove (k : Nat) (t : CueTable) : Prop := ∀ e ∈ t, k < e.1

theorem tableWf_cons (e : Nat × Slot) (t : CueTable) :
    tableWf (e :: t) = true ↔ e.1 < 512 ∧ allAbove e.1 t ∧ tableWf t = true := by
  induction t generalizing e with
  | nil => simp [tableWf, allAbove]
  | cons f t ih =>
    obtain ⟨k, v⟩ := e
    obtain ⟨k', v'⟩ := f
    constructor
    · intro h
      simp only [tableWf, Bool.and_eq_true, decide_eq_true_eq] at h
      have h2 := (ih (k', v')).1 h.2
      refine ⟨by have := h2.1; simp only at *; omega, ?_, h.2⟩
      intro x hx
      rcases List.mem_cons.1 hx with rfl | hx
      · exact h.1
      · have := h2.2.1 x hx; simp only at *; omega
    · rintro ⟨h1, h2, h3⟩
      simp only [tableWf, Bool.and_eq_true, decide_eq_true_eq]
      exact ⟨h2 (k', v') (by simp), h3⟩

theorem slotAt_of_allAbove {t : CueTable} {k : Nat} (h : allAbove k t) (n : Nat) (hn : n ≤ k) : slotAt t n = none := by
  induction t with
  | nil => rfl
  | cons e t ih =>
    obtain ⟨j, v⟩ := e
    have hj : k < j := h (j, v) (by simp)
    simp only [slotAt]
    rw [if_neg (by omega)]
    exact ih fun x hx => h x (by simp [hx])

theorem slotAt_lt {t : CueTable} (h : tableWf t = true) {n : Nat} {v : Slot} (hv : slotAt t n = some v) : n < 512 := by
  induction t with
  | nil => simp [slotAt] at hv
  | cons e t ih =>
    obtain ⟨j, w⟩ := e
    have hw := (tableWf_cons (j, w) t).1 h
    simp only [slotAt] at hv
    split at hv
    · rename_i hj; subst hj; exact hw.1
    · exact ih hw.2.2 hv

/-- Reading a slot after a write of a slot. -/
theorem slotAt_putSlot {t : CueTable} (h : tableWf t = true) (n m : Nat) (v : Slot) :
    slotAt (putSlot t n v) m = if m = n then some v else slotAt t m := by
  induction t with
  | nil => simp [putSlot, slotAt, eq_comm]
  | cons e t ih =>
    obtain ⟨j, w⟩ := e
    have hw := (tableWf_cons (j, w) t).1 h
    simp only [putSlot]
    split
    · simp [slotAt, eq_comm]
    · split
      · rename_i hj; subst hj
        simp only [slotAt, eq_comm]
        split <;> simp_all
      · simp only [slotAt, ih hw.2.2]
        split
        · rename_i hj; subst hj; rw [if_neg (by omega)]
        · rfl

theorem allAbove_putSlot {t : CueTable} {k n : Nat} {v : Slot} (h : allAbove k t) (hn : k < n) :
    allAbove k (putSlot t n v) := by
  induction t with
  | nil => intro x hx; simp [putSlot] at hx; subst hx; exact hn
  | cons e t ih =>
    obtain ⟨j, w⟩ := e
    have hj : k < j := h (j, w) (by simp)
    have ht : allAbove k t := fun x hx => h x (by simp [hx])
    simp only [putSlot]
    split
    · intro x hx
      rcases List.mem_cons.1 hx with rfl | hx
      · exact hn
      · exact h x hx
    · split
      · intro x hx
        rcases List.mem_cons.1 hx with rfl | hx
        · exact hn
        · exact ht x hx
      · intro x hx
        rcases List.mem_cons.1 hx with rfl | hx
        · exact hj
        · exact ih ht x hx

/-- A write keeps the canonical form. -/
theorem tableWf_putSlot {t : CueTable} (h : tableWf t = true) {n : Nat} (hn : n < 512) (v : Slot) :
    tableWf (putSlot t n v) = true := by
  induction t with
  | nil => simp [putSlot, tableWf, hn]
  | cons e t ih =>
    obtain ⟨j, w⟩ := e
    have hw := (tableWf_cons (j, w) t).1 h
    simp only [putSlot]
    split
    · rename_i hlt
      rw [tableWf_cons]
      refine ⟨hn, ?_, h⟩
      intro x hx
      rcases List.mem_cons.1 hx with rfl | hx
      · exact hlt
      · have := hw.2.1 x hx; simp only at *; omega
    · split
      · rename_i hj; subst hj
        rw [tableWf_cons]; exact ⟨hn, hw.2.1, hw.2.2⟩
      · rw [tableWf_cons]
        exact ⟨hw.1, allAbove_putSlot hw.2.1 (by simp only; omega), ih hw.2.2⟩

/-- Reading a slot after an erase. -/
theorem slotAt_dropSlot {t : CueTable} (h : tableWf t = true) (n m : Nat) :
    slotAt (dropSlot t n) m = if m = n then none else slotAt t m := by
  induction t with
  | nil => simp [dropSlot, slotAt]
  | cons e t ih =>
    obtain ⟨j, w⟩ := e
    have hw := (tableWf_cons (j, w) t).1 h
    simp only [dropSlot]
    split
    · rename_i hj; subst hj
      split
      · rename_i hm; subst hm
        exact slotAt_of_allAbove hw.2.1 _ (Nat.le_refl _)
      · rename_i hm
        simp only [slotAt]; rw [if_neg (by omega)]
    · rename_i hj
      simp only [slotAt, ih hw.2.2]
      by_cases hjm : j = m
      · subst hjm; simp [hj]
      · simp [hjm]

theorem mem_dropSlot {t : CueTable} {n : Nat} {x : Nat × Slot} (hx : x ∈ dropSlot t n) : x ∈ t := by
  induction t with
  | nil => simp [dropSlot] at hx
  | cons e t ih =>
    obtain ⟨j, w⟩ := e
    simp only [dropSlot] at hx
    split at hx
    · exact List.mem_cons_of_mem _ hx
    · rcases List.mem_cons.1 hx with rfl | hx
      · simp
      · exact List.mem_cons_of_mem _ (ih hx)

/-- An erase keeps the canonical form. -/
theorem tableWf_dropSlot {t : CueTable} (h : tableWf t = true) (n : Nat) : tableWf (dropSlot t n) = true := by
  induction t with
  | nil => rfl
  | cons e t ih =>
    obtain ⟨j, w⟩ := e
    have hw := (tableWf_cons (j, w) t).1 h
    simp only [dropSlot]
    split
    · exact hw.2.2
    · rw [tableWf_cons]
      exact ⟨hw.1, fun x hx => hw.2.1 x (mem_dropSlot hx), ih hw.2.2⟩

/-- A change of a slot keeps the canonical form. -/
theorem tableWf_changeSlot {t : CueTable} (h : tableWf t = true) (n : Nat) (f : Slot → Slot) :
    tableWf (changeSlot t n f) = true := by
  unfold changeSlot
  split
  · exact h
  · rename_i v hv
    exact tableWf_putSlot h (slotAt_lt h hv) _

/-- Reading a slot after a change of a slot. -/
theorem slotAt_changeSlot {t : CueTable} (h : tableWf t = true) (n m : Nat) (f : Slot → Slot) :
    slotAt (changeSlot t n f) m = if m = n then (slotAt t m).map f else slotAt t m := by
  unfold changeSlot
  split
  · rename_i hv
    split
    · rename_i hm; subst hm; simp [hv]
    · rfl
  · rename_i v hv
    rw [slotAt_putSlot h]
    split
    · rename_i hm; subst hm; simp [hv]
    · rfl

/-- A change of every slot in place. -/
theorem slotAt_map (t : CueTable) (f : Slot → Slot) (n : Nat) :
    slotAt (t.map fun e => (e.1, f e.2)) n = (slotAt t n).map f := by
  induction t with
  | nil => rfl
  | cons e t ih =>
    obtain ⟨j, w⟩ := e
    simp only [List.map_cons, slotAt, ih]
    split <;> rfl

theorem tableWf_map {t : CueTable} (h : tableWf t = true) (f : Slot → Slot) :
    tableWf (t.map fun e => (e.1, f e.2)) = true := by
  induction t with
  | nil => rfl
  | cons e t ih =>
    obtain ⟨j, w⟩ := e
    have hw := (tableWf_cons (j, w) t).1 h
    rw [List.map_cons, tableWf_cons]
    refine ⟨hw.1, ?_, ih hw.2.2⟩
    intro x hx
    obtain ⟨y, hy, rfl⟩ := List.mem_map.1 hx
    exact hw.2.1 y hy

end Sys2Proof.Machine
end

