-- ==== Sys2Proof/Laws/Evolves.lean ====
section
/-! SUPPORT. Laws/Evolves.lean: what any event of the part, and the work a request causes in other blocks, can do to the
state: one relation, closed under composition, with one lemma for each operation that is not a request's own. -/

namespace Sys2Proof.Machine

/-! ## The relation -/

/-- What an event of another block can do to the link: send what waits, add notices, and raise flags. -/
structure Link.Evolves (l m : Link) : Prop where
  framing : m.framing = l.framing
  receiver : m.receiver = l.receiver
  requests : m.requests = l.requests
  bank : m.bank = l.bank
  cursor : m.cursor = l.cursor
  resetPending : m.resetPending = l.resetPending
  replies : m.replies <:+ l.replies
  notices : l.notices.length ≤ 32 → m.notices.length ≤ 32
  flags : ∀ k, l.flags.getLsbD k = true → m.flags.getLsbD k = true

/-- A slot holds a label, live or in its pending copy (R56). -/
def Slot.holds (v : Slot) (l : BitVec 16) : Prop := v.live.label = l ∨ ∃ c, v.pending = some c ∧ c.label = l

/-- Every slot of a table holds only labels that the same slot of another table holds. -/
def labelsWithin (t u : CueTable) : Prop :=
  ∀ n v, slotAt t n = some v → ∃ w, slotAt u n = some w ∧ ∀ l, v.holds l → w.holds l

theorem labelsWithin.refl (t : CueTable) : labelsWithin t t := fun _ v h => ⟨v, h, fun _ => id⟩

theorem labelsWithin.trans {a b c : CueTable} (h : labelsWithin b a) (g : labelsWithin c b) : labelsWithin c a := by
  intro n v hv
  obtain ⟨w, hw, h1⟩ := g n v hv
  obtain ⟨x, hx, h2⟩ := h n w hw
  exact ⟨x, hx, fun l hl => h2 l (h1 l hl)⟩

/-- What an event can do to the state. -/
structure Evolves (s t : State) : Prop where
  link : s.link.Evolves t.link
  service : t.service = s.service
  pending : t.pending = s.pending
  occasion : s.occasion ≤ t.occasion
  standard : t.settings.standard = s.settings.standard
  pullDown : t.settings.pullDown = s.settings.pullDown
  sampleRate : t.settings.sampleRate = s.settings.sampleRate
  table : tableWf s.table = true →
    tableWf t.table = true ∧ ∀ n, (slotAt t.table n).map Slot.refs = (slotAt s.table n).map Slot.refs
  runLists : ∀ i, (t.lane i).runList = (s.lane i).runList
  lanes : ∀ i, (s.lane i).sound → (t.lane i).sound
  log : s.log.sound → t.log.sound
  motion : s.motionSound → t.motionSound
  contents : tableWf s.table = true → s.contentsSound → t.contentsSound
  labels : tableWf s.table = true → labelsWithin t.table s.table

theorem Link.Evolves.refl (l : Link) : l.Evolves l :=
  ⟨rfl, rfl, rfl, rfl, rfl, rfl, List.suffix_refl _, id, fun _ => id⟩

theorem Link.Evolves.trans {a b c : Link} (h : a.Evolves b) (g : b.Evolves c) : a.Evolves c :=
  ⟨g.framing.trans h.framing, g.receiver.trans h.receiver, g.requests.trans h.requests, g.bank.trans h.bank,
    g.cursor.trans h.cursor, g.resetPending.trans h.resetPending, g.replies.trans h.replies,
    fun x => g.notices (h.notices x), fun k x => g.flags k (h.flags k x)⟩

theorem Evolves.refl (s : State) : Evolves s s :=
  ⟨.refl _, rfl, rfl, Nat.le_refl _, rfl, rfl, rfl, fun h => ⟨h, fun _ => rfl⟩, fun _ => rfl, fun _ => id, id, id,
    fun _ => id, fun _ => .refl _⟩

theorem Evolves.trans {a b c : State} (h : Evolves a b) (g : Evolves b c) : Evolves a c :=
  ⟨h.link.trans g.link, g.service.trans h.service, g.pending.trans h.pending, h.occasion.trans g.occasion,
    g.standard.trans h.standard, g.pullDown.trans h.pullDown, g.sampleRate.trans h.sampleRate,
    fun x => ⟨(g.table (h.table x).1).1, fun n => ((g.table (h.table x).1).2 n).trans ((h.table x).2 n)⟩,
    fun i => (g.runLists i).trans (h.runLists i), fun i x => g.lanes i (h.lanes i x), fun x => g.log (h.log x),
    fun x => g.motion (h.motion x), fun w x => g.contents (h.table w).1 (h.contents w x),
    fun w => (h.labels w).trans (g.labels (h.table w).1)⟩

theorem Evolves.nominal {s t : State} (h : Evolves s t) : t.nominal = s.nominal := by
  simp only [State.nominal, h.standard, h.pullDown, h.sampleRate]

/-! ## Changes of one block -/

/-- The motion of a state depends on its tracker's position, anchor and speed and on its settings. -/
theorem motionSound_congr {s t : State} (hp : t.tracker.pos = s.tracker.pos)
    (hl : t.tracker.lastAnchor = s.tracker.lastAnchor) (hv : t.tracker.spd = s.tracker.spd)
    (hg : t.settings = s.settings) (h : s.motionSound) : t.motionSound := by
  simp only [State.motionSound, State.nominal, hp, hl, hv, hg] at *
  exact h

variable (s : State)

theorem evolves_mapFeeds (f : Feeds → Feeds) : Evolves s (s.mapFeeds f) :=
  ⟨.refl _, rfl, rfl, Nat.le_refl _, rfl, rfl, rfl, fun h => ⟨h, fun _ => rfl⟩, fun _ => rfl, fun _ => id, id, id,
    fun _ => id, fun _ => .refl _⟩

theorem evolves_settleOrder : Evolves s s.settleOrder.2 :=
  ⟨.refl _, rfl, rfl, Nat.le_succ _, rfl, rfl, rfl, fun h => ⟨h, fun _ => rfl⟩, fun _ => rfl, fun _ => id, id, id,
    fun _ => id, fun _ => .refl _⟩

theorem evolves_mapLink {f : Link → Link} (h : s.link.Evolves (f s.link)) : Evolves s (s.mapLink f) :=
  ⟨h, rfl, rfl, Nat.le_refl _, rfl, rfl, rfl, fun h => ⟨h, fun _ => rfl⟩, fun _ => rfl, fun _ => id, id, id,
    fun _ => id, fun _ => .refl _⟩

theorem evolves_mapTracker {f : Tracker → Tracker}
    (h : s.motionSound → (s.mapTracker f).motionSound) : Evolves s (s.mapTracker f) :=
  ⟨.refl _, rfl, rfl, Nat.le_refl _, rfl, rfl, rfl, fun h => ⟨h, fun _ => rfl⟩, fun _ => rfl, fun _ => id, id, h,
    fun _ => id, fun _ => .refl _⟩

/-- A change of the tracker that keeps position, anchor and speed. -/
theorem evolves_track {f : Tracker → Tracker}
    (h : (f s.tracker).pos = s.tracker.pos ∧ (f s.tracker).lastAnchor = s.tracker.lastAnchor
      ∧ (f s.tracker).spd = s.tracker.spd) : Evolves s (s.mapTracker f) :=
  evolves_mapTracker s fun x => motionSound_congr h.1 h.2.1 h.2.2 rfl x

theorem evolves_mapLog {f : TakeLog → TakeLog}
    (h : s.log.sound → (f s.log).sound) : Evolves s (s.mapLog f) :=
  ⟨.refl _, rfl, rfl, Nat.le_refl _, rfl, rfl, rfl, fun h => ⟨h, fun _ => rfl⟩, fun _ => rfl, fun _ => id, h, id,
    fun _ => id, fun _ => .refl _⟩

theorem evolves_mapTable {f : CueTable → CueTable}
    (h : tableWf s.table = true →
      tableWf (f s.table) = true ∧ ∀ n, (slotAt (f s.table) n).map Slot.refs = (slotAt s.table n).map Slot.refs)
    (hc : tableWf s.table = true → s.contentsSound → (s.mapTable f).contentsSound)
    (hl : tableWf s.table = true → labelsWithin (f s.table) s.table) : Evolves s (s.mapTable f) :=
  ⟨.refl _, rfl, rfl, Nat.le_refl _, rfl, rfl, rfl, h, fun _ => rfl, fun _ => id, id, id, hc, hl⟩

/-- A change of one slot that brings no label of its own. -/
theorem labelsWithin_changeSlot {t : CueTable} (hw : tableWf t = true) (n : Nat) {f : Slot → Slot}
    (h : ∀ v l, (f v).holds l → v.holds l) : labelsWithin (changeSlot t n f) t := by
  intro m v hv
  rw [slotAt_changeSlot hw] at hv
  split at hv
  · obtain ⟨w, hw', rfl⟩ := Option.map_eq_some_iff.1 hv
    exact ⟨w, hw', h w⟩
  · exact ⟨v, hv, fun _ => id⟩

/-- A change of one slot that keeps its reference count and its legality, and brings no label of its own. -/
theorem evolves_changeSlot (n : Nat) {f : Slot → Slot} (h : ∀ v, (f v).refs = v.refs)
    (hl : ∀ v, v.legal s.settings.standard → (f v).legal s.settings.standard)
    (hb : ∀ v l, (f v).holds l → v.holds l) : Evolves s (s.mapTable fun t => changeSlot t n f) := by
  refine evolves_mapTable s (fun hw => ⟨tableWf_changeSlot hw n f, fun m => ?_⟩) (fun hw hc m v hv => ?_)
    fun hw => labelsWithin_changeSlot hw n hb
  · rw [slotAt_changeSlot hw]
    split
    · cases slotAt s.table m <;> simp [h]
    · rfl
  · simp only [State.mapTable_table] at hv
    rw [slotAt_changeSlot hw] at hv
    split at hv
    · obtain ⟨w, hw', rfl⟩ := Option.map_eq_some_iff.1 hv
      exact hl w (hc m w hw')
    · exact hc m v hv

theorem evolves_mapLane (i : LaneId) {f : Lane → Lane} (hr : (f (s.lane i)).runList = (s.lane i).runList)
    (hs : (s.lane i).sound → (f (s.lane i)).sound) : Evolves s (s.mapLane i f) := by
  refine ⟨.refl _, rfl, rfl, Nat.le_refl _, rfl, rfl, rfl, fun h => ⟨h, fun _ => rfl⟩, fun j => ?_, fun j => ?_, id,
    id, fun _ => id, fun _ => .refl _⟩
  · rw [State.lane_mapLane]; split
    · rename_i h; subst h; exact hr
    · rfl
  · rw [State.lane_mapLane]; split
    · rename_i h; subst h; exact hs
    · exact id

theorem evolves_mapSettings {f : Settings → Settings} (h1 : (f s.settings).standard = s.settings.standard)
    (h2 : (f s.settings).pullDown = s.settings.pullDown) (h3 : (f s.settings).sampleRate = s.settings.sampleRate)
    (hw : s.settings.windowSound → (f s.settings).windowSound) : Evolves s (s.mapSettings f) := by
  refine ⟨.refl _, rfl, rfl, Nat.le_refl _, h1, h2, h3, fun h => ⟨h, fun _ => rfl⟩, fun _ => rfl, fun _ => id, id,
    ?_, fun _ h n v hv => ?_, fun _ => .refl _⟩
  · rintro ⟨a, b, c, d, e⟩
    simp only [State.motionSound, State.nominal, State.mapSettings, h1, h2, h3]
    exact ⟨a, b, c, d, hw e⟩
  · simp only [State.mapSettings, h1]
    exact h n v hv

/-- A step in either branch of a choice. -/
theorem evolves_ite {c : Prop} [Decidable c] {s a b : State} (ha : c → Evolves s a) (hb : ¬c → Evolves s b) :
    Evolves s (if c then a else b) := by
  split
  · exact ha ‹_›
  · exact hb ‹_›

/-- A fold of steps. -/
theorem evolves_foldl {α : Type} (f : State → α → State) (hf : ∀ s a, Evolves s (f s a)) (l : List α) (s : State) :
    Evolves s (l.foldl f s) := by
  induction l generalizing s with
  | nil => exact .refl s
  | cons a l ih => exact (hf s a).trans (ih _)

/-! ## Flags and notices (R170 to R172) -/

theorem setFlag_getLsbD (flags : BitVec 11) (f : Flag) (k : Nat) (h : flags.getLsbD k = true) :
    (setFlag flags f).getLsbD k = true := by
  simp [setFlag, h]

/-- Starting the transmitter takes what waits and nothing else. -/
theorem Link.start_evolves (l : Link) : l.Evolves l.start := by
  unfold Link.start
  split
  · exact .refl l
  · split
    · rename_i r rest h
      exact ⟨rfl, rfl, rfl, rfl, rfl, rfl, by rw [h]; exact List.suffix_cons _ _, id, fun _ => id⟩
    · split
      · exact .refl l
      · split
        · exact .refl l
        · rename_i n rest hn _
          exact ⟨rfl, rfl, rfl, rfl, rfl, rfl, List.suffix_refl _, fun h => by simp [hn] at h; simp; omega,
            fun _ => id⟩

theorem raise_evolves (f : Flag) : Evolves s (s.raise f) :=
  evolves_mapLink s
    ⟨rfl, rfl, rfl, rfl, rfl, rfl, List.suffix_refl _, id, fun k h => setFlag_getLsbD _ _ k h⟩

theorem post_evolves (n : Notice) : Evolves s (s.post n) := by
  unfold State.post
  split
  · split
    · rename_i h
      refine evolves_mapLink s (Link.Evolves.trans (b := { s.link with notices := s.link.notices ++ [n] }) ?_
        (Link.start_evolves _))
      refine ⟨rfl, rfl, rfl, rfl, rfl, rfl, List.suffix_refl _, fun _ => ?_, fun _ => id⟩
      simp only [Config.noticeQueueSize] at h
      simp; omega
    · exact raise_evolves s _
  · exact .refl s

theorem raiseFault_evolves (f : Flag) : Evolves s (s.raiseFault f) := by
  unfold State.raiseFault
  split
  · exact .refl s
  · exact (raise_evolves s f).trans (post_evolves _ _)

theorem noteTracker_evolves (c : TrackerCause) : Evolves s (s.noteTracker c) := post_evolves _ _

/-! ## The feeds (chapter 7) -/

theorem formOverlay_evolves : Evolves s s.formOverlay := evolves_mapFeeds s _

theorem formCode_evolves (frame : Nat) (spd : Int) : Evolves s (s.formCode frame spd) := by
  unfold State.formCode; split
  · exact evolves_mapFeeds s _
  · exact .refl s

theorem formHold_evolves : Evolves s s.formHold := formCode_evolves s _ _

theorem handFeeds_evolves (i : LaneId) (b : Bool) : Evolves s (s.handFeeds i b) := by
  unfold State.handFeeds
  dsimp only
  refine Evolves.trans (evolves_mapFeeds s _) (evolves_ite (fun _ => formOverlay_evolves _) fun _ => .refl _)

theorem toneFrame_evolves : Evolves s s.toneFrame := by
  unfold State.toneFrame
  exact evolves_mapFeeds s _

theorem recomputeTones_evolves : Evolves s s.recomputeTones := evolves_mapFeeds s _

/-! ## The take log (chapter 6) -/

theorem takeExpansion_evolves (n : Nat) : Evolves s (s.takeExpansion n) :=
  evolves_changeSlot s n (fun _ => rfl) (fun _ h => h) fun _ _ h => h

theorem Slot.promote_refs (v : Slot) : v.promote.refs = v.refs := by
  unfold Slot.promote; split <;> rfl

theorem Slot.promote_legal {std : Standard} {v : Slot} (h : v.legal std) : v.promote.legal std := by
  unfold Slot.promote
  split
  · exact h
  · rename_i c hc
    exact ⟨h.2.1 c hc, fun _ x => by simp at x, h.2.2⟩

/-- Promotion brings no label of its own (R61). -/
theorem Slot.promote_holds {v : Slot} {l : BitVec 16} (h : v.promote.holds l) : v.holds l := by
  unfold Slot.promote at h
  split at h
  · exact h
  · rename_i c hc
    rcases h with h | ⟨_, h, _⟩
    · exact .inr ⟨c, hc, h⟩
    · simp at h

theorem dropExpansion_evolves (n : Nat) : Evolves s (s.dropExpansion n) := by
  refine evolves_changeSlot s n (fun v => ?_) (fun v h => ?_) fun v l h => ?_
  · unfold Slot.drop
    dsimp only
    split
    · rw [Slot.promote_refs]
    · rfl
  · unfold Slot.drop
    dsimp only
    split
    · exact Slot.promote_legal h
    · exact h
  · unfold Slot.drop at h
    dsimp only at h
    split at h
    · exact Slot.promote_holds (v := { v with expansions := v.expansions - 1 }) h
    · exact h

theorem nextTakeNumber_le (n : Nat) : (nextTakeNumber n).1 ≤ 999 := by
  unfold nextTakeNumber
  split <;> simp
  omega

/-- A run of serials grows at its newest end. -/
theorem serialsRun_append {next : BitVec 16} {l : List Take} (h : serialsRun next l) {t : Take}
    (ht : t.serial = next) : serialsRun (next + 1) (l ++ [t]) := by
  induction l with
  | nil => simp [serialsRun, ht]
  | cons u l ih =>
    cases l with
    | nil =>
      simp only [serialsRun] at h
      exact ⟨h.trans ht.symm, by simp [serialsRun, ht]⟩
    | cons w l =>
      simp only [serialsRun] at h
      exact ⟨h.1, ih h.2⟩

/-- A run of serials shrinks at its oldest end. -/
theorem serialsRun_tail {next : BitVec 16} {t : Take} {l : List Take} (h : serialsRun next (t :: l)) :
    serialsRun next l := by
  cases l with
  | nil => trivial
  | cons u l => exact h.2

/-- A change of the records that keeps their serials. -/
theorem serialsRun_map {next : BitVec 16} {l : List Take} (f : Take → Take) (hf : ∀ t, (f t).serial = t.serial)
    (h : serialsRun next l) : serialsRun next (l.map f) := by
  induction l with
  | nil => trivial
  | cons u l ih =>
    cases l with
    | nil => simpa [serialsRun, hf] using h
    | cons w l => exact ⟨by rw [hf, hf]; exact h.1, ih h.2⟩

theorem grantTake_evolves (q : TakeRequest) (h : s.logHasRoom = true) : Evolves s (s.grantTake q) := by
  unfold State.grantTake State.noteTake
  dsimp only
  refine Evolves.trans ?_ (post_evolves _ _)
  refine Evolves.trans (evolves_changeSlot s q.slot (f := fun v => { v with takes := (nextTakeNumber v.takes).1 })
    (fun _ => rfl) (fun _ h => ⟨h.1, h.2.1, nextTakeNumber_le _⟩) fun _ _ h => h) (Evolves.trans ?_ (evolves_mapLane _ _ rfl ?_))
  · refine evolves_mapLog _ fun hl => ⟨?_, serialsRun_append hl.2 rfl⟩
    have h : s.log.records.length < Config.takeLogSize := of_decide_eq_true h
    simp only [State.mapTable_log, List.length_append, List.length_singleton]
    omega
  · exact fun ⟨a, b, _, d⟩ => ⟨a, b, rfl, d⟩

theorem closeRecord_length (l : List Take) (n : BitVec 16) (c : Closing) : (closeRecord l n c).length = l.length := by
  simp [closeRecord]

theorem remarkPunchIn_nil : remarkPunchIn [] = [] := rfl

theorem closeTake_evolves (i : LaneId) (pos : Nat) (sample : SampleCount) (cause : EndCause) :
    Evolves s (s.closeTake i pos sample cause) := by
  unfold State.closeTake
  split
  · exact .refl s
  · rename_i serial _
    dsimp only
    have h1 : Evolves s (s.mapLog fun g => { g with records := closeRecord g.records serial ⟨pos, sample, cause⟩ }) :=
      evolves_mapLog s fun h => ⟨by simpa [closeRecord_length] using h.1,
        serialsRun_map _ (fun t => by split <;> rfl) h.2⟩
    refine Evolves.trans (h1.trans (evolves_mapLane _ i (f := fun l =>
      { l with
        openTake := none
        punchLine := false
        stack := if cause = .out then l.stack else remarkPunchIn l.stack }) rfl ?_)) ?_
    · · rintro ⟨a, b, _, d⟩
        refine ⟨fun h => ?_, b, rfl, d⟩
        obtain ⟨x, y, z⟩ := a h
        refine ⟨x, ?_, z⟩
        simp only
        split
        · exact y
        · rw [y]; rfl
    · generalize List.find? _ _ = o
      cases o with
      | none => exact .refl _
      | some t => exact post_evolves _ _

theorem markCoasted_evolves : Evolves s (s.mapLog TakeLog.markCoasted) :=
  evolves_mapLog s fun h => ⟨by simpa [TakeLog.markCoasted] using h.1,
    serialsRun_map _ (fun t => by split <;> rfl) h.2⟩

/-! ## The lanes (chapters 4 and 5) -/

theorem expandInto_evolves (i : LaneId) (index n : Nat) (h : index < (s.lane i).runList.length) :
    Evolves s (s.expandInto i index n) := by
  unfold State.expandInto
  dsimp only
  refine (takeExpansion_evolves s n).trans (evolves_mapLane _ i rfl ?_)
  rintro ⟨_, _, c, d⟩
  exact ⟨fun h => absurd rfl h, fun _ => h, c, d⟩

theorem releaseCue_evolves (i : LaneId) : Evolves s (s.releaseCue i) := by
  unfold State.releaseCue
  dsimp only
  have h1 : Evolves s (s.mapLane i fun l => { l with queue := [], stack := [] }) :=
    evolves_mapLane s i rfl fun ⟨a, b, c, d⟩ => ⟨fun h => ⟨rfl, rfl, (a h).2.2⟩, b, c, d⟩
  split
  · exact h1
  · exact h1.trans (dropExpansion_evolves _ _)

theorem noteLane_evolves (i : LaneId) (c : LaneCause) (st : LaneState) (index slot : Nat) (p : Option ExactPos) :
    Evolves s (s.noteLane i c st index slot p) := post_evolves _ _

theorem noteEvent_evolves (i : LaneId) (slot : Nat) (e : Event) (m : Mark) (o : Nat) (n : SampleCount) :
    Evolves s (s.noteEvent i slot e m o n) := post_evolves _ _

theorem restoreStep_evolves (i : LaneId) (slot : Nat) (u : MotionUpdate) : Evolves s (s.restoreStep i slot u) := by
  unfold State.restoreStep
  dsimp only
  refine (evolves_mapLane s i rfl ?_).trans (evolves_foldl _ (fun _ _ => noteEvent_evolves _ _ _ _ _ _ _) _ _)
  rintro ⟨a, b, c, d⟩
  refine ⟨fun h => ?_, b, c, d⟩
  obtain ⟨x, y, z⟩ := a h
  simp only [y, x, restoreSplit]
  exact ⟨rfl, trivial, z⟩

theorem retireStep_evolves (i : LaneId) (slot : Nat) (u : MotionUpdate) (live : Bool) :
    Evolves s (s.retireStep i slot u live).2 := by
  unfold State.retireStep
  dsimp only
  refine (evolves_mapLane s i rfl ?_).trans (evolves_foldl _ (fun _ _ => noteEvent_evolves _ _ _ _ _ _ _) _ _)
  rintro ⟨a, b, c, d⟩
  refine ⟨fun h => ?_, b, c, d⟩
  obtain ⟨x, y, z⟩ := a h
  simp only [x, y, retireSplit]
  exact ⟨trivial, rfl, z⟩

theorem askLog_evolves (i : LaneId) (slot : Nat) (u : MotionUpdate) (r : Retirement) :
    Evolves s (s.askLog i slot u r) := by
  unfold State.askLog
  split
  · rename_i h; exact grantTake_evolves s _ h
  · dsimp only
    refine Evolves.trans ?_ (noteLane_evolves _ _ _ _ _ _ _)
    refine (evolves_mapLane s i rfl ?_).trans (raise_evolves _ _)
    rintro ⟨a, b, c, d⟩
    exact ⟨fun h => ⟨(a h).1, by simp only [(a h).2.1]; rfl, (a h).2.2⟩, b, c, d⟩

theorem actOn_evolves (i : LaneId) (slot : Nat) (u : MotionUpdate) (mode : EngineMode) (r : Retirement) :
    Evolves s (s.actOn i slot u mode r) := by
  unfold State.actOn
  split
  · exact evolves_ite (fun _ => askLog_evolves _ _ _ _ _) fun _ => .refl _
  · exact closeTake_evolves _ _ _ _ _
  all_goals exact .refl _

theorem tryEntries_evolves (i : LaneId) (prevEnd index last : Nat) (l : List Nat)
    (h : l = (s.lane i).runList.drop index) : Evolves s (s.tryEntries i prevEnd index last l) := by
  induction l generalizing s index last with
  | nil =>
    unfold State.tryEntries
    refine Evolves.trans (evolves_mapLane s i rfl ?_) (noteLane_evolves _ _ _ _ _ _ _)
    rintro ⟨_, _, c, d⟩
    exact ⟨fun _ => ⟨rfl, rfl, rfl⟩, fun h => by simp at h, c, d⟩
  | cons n rest ih =>
    have hi : index < (s.lane i).runList.length := by
      by_contra hc
      rw [List.drop_eq_nil_of_le (by omega)] at h
      simp at h
    have hrest : rest = (s.lane i).runList.drop (index + 1) := by
      rw [List.drop_eq_getElem_cons hi] at h
      exact (List.cons.inj h).2
    unfold State.tryEntries
    dsimp only
    have he := expandInto_evolves s i index n hi
    split
    · exact he.trans (noteLane_evolves _ _ _ _ _ _ _)
    · have hx := (he.trans (releaseCue_evolves _ i)).trans
        (noteLane_evolves _ i .cueSkipped (if rest = [] then .done else .armed) index n none)
      exact hx.trans (ih _ _ _ (by rw [hx.runLists i]; exact hrest))

theorem advance_evolves (i : LaneId) (slot prevEnd : Nat) : Evolves s (s.advance i slot prevEnd) := by
  unfold State.advance
  dsimp only
  have h := releaseCue_evolves s i
  exact (h.trans (tryEntries_evolves _ i _ _ _ _ rfl)).trans (handFeeds_evolves _ _ _)

theorem retireAndAct_evolves (i : LaneId) (u : MotionUpdate) (live : Bool) (mode : EngineMode) (fuel : Nat) :
    Evolves s (s.retireAndAct i u live mode fuel).2 := by
  induction fuel generalizing s with
  | zero => exact .refl s
  | succ fuel ih =>
    unfold State.retireAndAct
    split
    · exact .refl s
    · rename_i slot _
      dsimp only
      have h := (retireStep_evolves s i slot u live).trans
        (evolves_foldl (fun s r => s.actOn i slot u mode r) (fun _ _ => actOn_evolves _ _ _ _ _ _)
          (s.retireStep i slot u live).1 _)
      split
      · exact h
      · exact (h.trans (advance_evolves _ _ _ _)).trans (ih _)

theorem reactLane_evolves (i : LaneId) (u : MotionUpdate) (mode : EngineMode) :
    Evolves s (s.reactLane i u mode) := by
  unfold State.reactLane
  split
  · exact .refl s
  · dsimp only
    refine Evolves.trans ?_ (handFeeds_evolves _ _ _)
    refine Evolves.trans ?_ (retireAndAct_evolves _ _ _ _ _ _)
    refine Evolves.trans ?_ (restoreStep_evolves _ _ _ _)
    exact evolves_ite (fun _ => .refl s) fun _ => closeTake_evolves _ _ _ _ _

theorem evaluateAt_evolves (i : LaneId) (pos : Nat) (sample : SampleCount) :
    Evolves s (s.evaluateAt i pos sample) := by
  unfold State.evaluateAt
  exact (retireAndAct_evolves _ _ _ _ _ _).trans (handFeeds_evolves _ _ _)

theorem rearmLane_evolves (i : LaneId) (u : MotionUpdate) : Evolves s (s.rearmLane i u) := by
  unfold State.rearmLane
  dsimp only
  have h := (closeTake_evolves s i u.p0 u.sample .cycle).trans (releaseCue_evolves _ i)
  split
  · exact h
  · rename_i n l hl
    refine h.trans (Evolves.trans ?_ (evaluateAt_evolves _ _ _ _))
    exact (expandInto_evolves _ i 0 n (by rw [hl]; simp)).trans (noteLane_evolves _ _ _ _ _ _ _)

theorem laneTurn_evolves (i : LaneId) (u : MotionUpdate) (trigger : Bool) (mode : EngineMode) :
    Evolves s (s.laneTurn i u trigger mode) :=
  evolves_ite (fun _ => rearmLane_evolves _ _ _) fun _ => reactLane_evolves _ _ _ _

theorem closeOutside_evolves (i : LaneId) (pos : Nat) (cause : EndCause) :
    Evolves s (s.closeOutside i pos cause) := by
  unfold State.closeOutside
  split
  · exact .refl s
  · exact (closeTake_evolves _ _ _ _ _).trans (handFeeds_evolves _ _ _)

/-! ## Events among the blocks -/

theorem eachLane_evolves (f : LaneId → State → State) (hf : ∀ i s, Evolves s (f i s)) : Evolves s (s.eachLane f) :=
  evolves_foldl _ (fun s i => hf i s) _ _

theorem evolves_settleLanes : Evolves s s.settleLanes.2 := evolves_settleOrder s

theorem eachLaneFreely_evolves (f : LaneId → State → State) (hf : ∀ i s, Evolves s (f i s)) :
    Evolves s (s.eachLaneFreely f) :=
  evolves_ite (fun _ => (evolves_settleLanes s).trans (evolves_foldl _ (fun s i => hf i s) _ _)) fun _ =>
    eachLane_evolves s f hf

theorem closeAll_evolves (c : EndCause) : Evolves s (s.closeAll c) :=
  eachLaneFreely_evolves s _ fun _ _ => closeOutside_evolves _ _ _ _

theorem lossOfPlay_evolves (c : EndCause) : Evolves s (s.lossOfPlay c) := closeAll_evolves s c

theorem fallOfPlay_evolves (b : Bool) : Evolves s (s.fallOfPlay b) :=
  evolves_ite (fun _ => lossOfPlay_evolves _ _) fun _ => .refl _

theorem setMode_evolves (m : EngineMode) : Evolves s (s.setMode m) := by
  unfold State.setMode
  dsimp only
  have h : Evolves s (s.mapSettings fun g => { g with engineMode := m, standbyPending := false }) :=
    evolves_mapSettings s rfl rfl rfl id
  split
  · exact h.trans (formOverlay_evolves _)
  · exact h

theorem enterStandby_evolves : Evolves s s.enterStandby := (closeAll_evolves s _).trans (setMode_evolves _ _)

/-- Applying the staging list keeps the grid, and every window it holds. -/
theorem applyEntries_grid (l : List Staged) (g : Settings) :
    (l.foldl Settings.applyEntry g).standard = g.standard ∧ (l.foldl Settings.applyEntry g).pullDown = g.pullDown
      ∧ (l.foldl Settings.applyEntry g).sampleRate = g.sampleRate := by
  induction l generalizing g with
  | nil => exact ⟨rfl, rfl, rfl⟩
  | cons e l ih =>
    obtain ⟨a, b, c⟩ := ih (g.applyEntry e)
    simp only [List.foldl_cons, a, b, c]
    cases e <;> exact ⟨rfl, rfl, rfl⟩

theorem applyEntries_window (l : List Staged) (g : Settings) (dl : Nat)
    (hl : ∀ first last, Staged.cycleWindow first last ∈ l → first < dl ∧ last < dl)
    (hg : g.cycleStart < dl ∧ g.cycleEnd < dl) :
    (l.foldl Settings.applyEntry g).cycleStart < dl ∧ (l.foldl Settings.applyEntry g).cycleEnd < dl := by
  induction l generalizing g with
  | nil => exact hg
  | cons e l ih =>
    refine ih _ (fun a b h => hl a b (List.mem_cons_of_mem _ h)) ?_
    cases e <;> first
      | exact hg
      | exact hl _ _ (by simp [Settings.applyEntry])

theorem applyStaging_evolves : Evolves s s.applyStaging := by
  unfold State.applyStaging
  dsimp only
  refine Evolves.trans ?_ (fallOfPlay_evolves _ _)
  refine Evolves.trans ?_ (recomputeTones_evolves _)
  have hg := applyEntries_grid s.settings.staging s.settings
  refine evolves_mapSettings s hg.1 hg.2.1 hg.2.2 ?_
  rintro ⟨a, b, c⟩
  have hw := applyEntries_window s.settings.staging s.settings _ c ⟨a, b⟩
  simp only [Settings.windowSound, hg.1]
  exact ⟨hw.1, hw.2, fun _ _ h => by simp at h⟩

theorem applyUnheld_evolves : Evolves s s.applyUnheld :=
  evolves_ite (fun _ => .refl _) fun _ => applyStaging_evolves _

theorem laneTurnAtStandby_evolves (i : LaneId) (u : MotionUpdate) (trigger : Bool) (mode : EngineMode) :
    Evolves s (s.laneTurnAtStandby i u trigger mode) := by
  unfold State.laneTurnAtStandby
  dsimp only
  refine evolves_ite (fun _ => ?_) fun _ => ?_
  · exact (evolves_settleOrder s).trans ((closeOutside_evolves _ _ _ _).trans (laneTurn_evolves _ _ _ _ _))
  · exact (evolves_settleOrder s).trans ((laneTurn_evolves _ _ _ _ _).trans (closeOutside_evolves _ _ _ _))

theorem laneTakes_evolves (u : MotionUpdate) (trigger : Bool) (due : Option EngineMode) (i : LaneId) :
    Evolves s (laneTakes u trigger due i s) := by
  cases due
  · exact laneTurn_evolves _ _ _ _ _
  · exact laneTurnAtStandby_evolves _ _ _ _ _

theorem lanesTake_evolves (u : MotionUpdate) (due : Option EngineMode) : Evolves s (s.lanesTake u due) := by
  have ht : ∀ trigger i s, Evolves s (laneTakes u trigger due i s) := fun _ i s => laneTakes_evolves s u _ due i
  unfold State.lanesTake
  dsimp only
  refine evolves_ite (fun _ => (evolves_settleLanes s).trans ?_) fun _ => eachLane_evolves s _ (ht _)
  exact evolves_foldl _ (fun s i => ht _ i s) _ _

theorem askersIn_sublist (turn : LaneId → State → State) (order : List LaneId) (s : State) :
    (askersIn turn order s).Sublist order := by
  induction order generalizing s with
  | nil => exact .refl _
  | cons i rest ih =>
    simp only [askersIn]
    split
    · exact (ih _).cons_cons i
    · exact (ih _).cons i

/-- The free order of the lanes names every lane once. -/
theorem settleLanes_perm : s.settleLanes.1.Perm laneIds := by
  have all : ∀ i : LaneId, i ∈ laneIds := by decide
  have nodup : laneIds.Nodup := by decide
  exact (List.perm_ext_iff_of_nodup (nodup.map (Config.laneOrder s.occasion).injective) nodup).2 fun i =>
    ⟨fun _ => all i, fun _ => List.mem_map.2 ⟨(Config.laneOrder s.occasion).symm i, all _, by simp⟩⟩

/-- What the lanes do with an update: they take their turns one after another, every lane once, in an order in which
those that ask the log stand in ascending number (R94, R123). -/
theorem lanesTake_order (u : MotionUpdate) (due : Option EngineMode) : ∃ (order : List LaneId) (n : Nat),
    let turn := laneTakes u (s.rearmTriggered u) due
    let start := { s with occasion := n }
    order.Perm laneIds ∧ (askersIn turn order start).Pairwise (· < ·)
      ∧ s.lanesTake u due = order.foldl (fun s i => turn i s) start := by
  have ascends : ∀ turn x, (askersIn turn laneIds x).Pairwise (· < ·) := fun turn x =>
    (by decide : laneIds.Pairwise (· < ·)).sublist (askersIn_sublist turn laneIds x)
  unfold State.lanesTake
  dsimp only
  split
  · split
    · exact ⟨_, _, settleLanes_perm s, ‹_›, rfl⟩
    · exact ⟨laneIds, _, .refl _, ascends _ _, rfl⟩
  · exact ⟨laneIds, s.occasion, .refl _, ascends _ _, rfl⟩

theorem lanesAndOverlay_evolves (u : MotionUpdate) (due : Option EngineMode) :
    Evolves s (s.lanesAndOverlay u due) := by
  unfold State.lanesAndOverlay
  dsimp only
  refine evolves_ite (fun _ => (lanesTake_evolves _ _ _).trans (formOverlay_evolves _)) fun _ => ?_
  refine evolves_ite (fun _ => ?_) fun _ => ?_
  · exact (evolves_settleOrder s).trans ((formOverlay_evolves _).trans (lanesTake_evolves _ _ _))
  · exact (evolves_settleOrder s).trans ((lanesTake_evolves _ _ _).trans (formOverlay_evolves _))

theorem boundaryTaken_evolves (u : MotionUpdate) : Evolves s (s.boundaryTaken u) := by
  unfold State.boundaryTaken
  dsimp only
  refine evolves_ite (fun _ => (evolves_settleOrder s).trans ?_) fun _ => lanesAndOverlay_evolves _ _ _
  exact evolves_ite (fun _ => (setMode_evolves _ _).trans (lanesAndOverlay_evolves _ _ _)) fun _ =>
    (lanesAndOverlay_evolves _ _ _).trans (setMode_evolves _ _)

theorem emitUpdateWith_evolves (p0 : Nat) (kind : UpdateKind) (spd : Int) :
    Evolves s (s.emitUpdateWith p0 kind spd) := by
  unfold State.emitUpdateWith
  dsimp only
  refine evolves_ite (fun _ => lanesTake_evolves _ _ _) fun _ => ?_
  exact ((boundaryTaken_evolves s _).trans (formCode_evolves _ _ _)).trans (applyUnheld_evolves _)

theorem emitUpdate_evolves (p0 : Nat) (kind : UpdateKind) : Evolves s (s.emitUpdate p0 kind) :=
  emitUpdateWith_evolves _ _ _ _

theorem emitIfMoved_evolves (p0 : Nat) (kind : UpdateKind) : Evolves s (s.emitIfMoved p0 kind) :=
  evolves_ite (fun _ => .refl _) fun _ => emitUpdate_evolves _ _ _

theorem enter_evolves (st : TrackerState) (c : TrackerCause) : Evolves s (s.enter st c) :=
  (evolves_track s ⟨rfl, rfl, rfl⟩).trans (noteTracker_evolves _ _)

theorem closeAtStop_evolves (i : LaneId) (c : EndCause) : Evolves s (s.closeAtStop i c) :=
  (evolves_settleOrder s).trans (closeOutside_evolves _ _ _ _)

theorem standbyAtStop_evolves (c : EndCause) : Evolves s (s.standbyAtStop c) := by
  have ht : ∀ s : State, Evolves s (s.eachLaneFreely fun i s => s.closeAtStop i c) := fun s =>
    eachLaneFreely_evolves s _ fun i s => closeAtStop_evolves s i c
  unfold State.standbyAtStop
  dsimp only
  refine (evolves_settleOrder s).trans (evolves_ite (fun _ => ?_) fun _ => ?_)
  · exact (setMode_evolves _ _).trans (ht _)
  · exact (ht _).trans (setMode_evolves _ _)

theorem stoppedEffects_evolves (c : EndCause) : Evolves s (s.stoppedEffects c) := by
  unfold State.stoppedEffects
  refine Evolves.trans (Evolves.trans ?_ (formHold_evolves _)) (applyUnheld_evolves _)
  exact evolves_ite (fun _ => standbyAtStop_evolves _ _) fun _ => lossOfPlay_evolves _ _

end Sys2Proof.Machine
end

