-- ==== Sys2Proof/Laws/Motion.lean ====
section
/-! SUPPORT. Laws/Motion.lean: what the operations of the transport tracker can do to the state, by the relation of
Laws/Evolves.lean, and the bounds of positions and speeds. -/

namespace Sys2Proof.Machine

/-! ## Bounds (R3, R8, R9) -/

theorem dayLength_pos (std : Standard) : 0 < std.dayLength := by cases std <;> decide

/-- A reduced position lies in the day (R3). -/
theorem into_lt (std : Standard) (z : Int) : std.into z < std.dayLength := by
  have h := dayLength_pos std
  unfold Standard.into
  have h1 := Int.emod_nonneg z (b := (std.dayLength : Int)) (by omega)
  have h2 := Int.emod_lt_of_pos z (b := (std.dayLength : Int)) (by omega)
  omega

/-- The nominal speed is above 0 (R8). -/
theorem nominalSpeed_pos (std : Standard) (pd : Bool) (rate : SampleRate) : 0 < nominalSpeed std pd rate := by
  cases std <;> cases pd <;> cases rate <;> decide

theorem State.nominal_pos (s : State) : 0 < s.nominal := nominalSpeed_pos _ _ _

/-- A clamped speed is within ±Spd_max (R9). -/
theorem clampSpeed_bounds {nominal : Int} (h : 0 < nominal) (v : Int) :
    -(32 * nominal) ≤ clampSpeed nominal v ∧ clampSpeed nominal v ≤ 32 * nominal := by
  unfold clampSpeed
  split
  · omega
  · split <;> omega

/-- The middle of a transition is below the day length (R29). -/
theorem transitionPos_lt (std : Standard) (edges j : Nat) : transitionPos std edges j < std.dayLength := into_lt _ _

variable (s : State)

/-- A change of the tracker that sets its speed within the limits and keeps its position and anchor. -/
theorem evolves_speed {f : Tracker → Tracker}
    (h : (f s.tracker).pos = s.tracker.pos ∧ (f s.tracker).lastAnchor = s.tracker.lastAnchor)
    (hv : -(32 * s.nominal) ≤ (f s.tracker).spd ∧ (f s.tracker).spd ≤ 32 * s.nominal) :
    Evolves s (s.mapTracker f) := by
  refine evolves_mapTracker s ?_
  rintro ⟨a, b, _, _, e⟩
  refine ⟨?_, ?_, hv.1, hv.2, e⟩
  · simp only [State.mapTracker_tracker, h.1]; exact a
  · simp only [State.mapTracker_tracker, h.2]; exact b

/-- A change of the tracker that places its position and anchor in the day and keeps its speed. -/
theorem evolves_place {f : Tracker → Tracker}
    (hp : s.motionSound → (f s.tracker).pos < s.settings.standard.dayLength)
    (hl : s.motionSound → (f s.tracker).lastAnchor < s.settings.standard.dayLength)
    (hv : (f s.tracker).spd = s.tracker.spd) : Evolves s (s.mapTracker f) := by
  refine evolves_mapTracker s fun h => ?_
  have h1 := hp h
  have h2 := hl h
  obtain ⟨_, _, c, d, e⟩ := h
  refine ⟨h1, h2, ?_, ?_, e⟩
  · simp only [State.mapTracker_tracker, hv]; exact c
  · simp only [State.mapTracker_tracker, hv]; exact d

/-- Speed 0 is within the limits. -/
theorem zero_speed : -(32 * s.nominal) ≤ (0 : Int) ∧ (0 : Int) ≤ 32 * s.nominal := by
  have := s.nominal_pos
  omega

/-! ## Speed -/

theorem setSpeed_evolves (v : Int) : Evolves s (s.setSpeed v) := by
  unfold State.setSpeed
  dsimp only
  have h : Evolves s (s.mapTracker fun t => { t with spd := clampSpeed s.nominal v }) :=
    evolves_speed s ⟨rfl, rfl⟩ (clampSpeed_bounds s.nominal_pos v)
  exact evolves_ite (fun _ => h) fun _ => h.trans (raiseFault_evolves _ _)

theorem setOrigin_evolves : Evolves s s.setOrigin := evolves_track s ⟨rfl, rfl, rfl⟩

theorem enterStopped_evolves (c : TrackerCause) (l : EndCause) : Evolves s (s.enterStopped c l) := by
  unfold State.enterStopped
  dsimp only
  refine (evolves_speed s (f := fun t => { t with spd := 0, state := .stopped }) ⟨rfl, rfl⟩ (zero_speed s)).trans ?_
  refine evolves_ite (fun _ => (evolves_settleOrder _).trans ?_) fun _ =>
    (noteTracker_evolves _ _).trans (stoppedEffects_evolves _ _)
  exact evolves_ite (fun _ => (noteTracker_evolves _ _).trans (stoppedEffects_evolves _ _)) fun _ =>
    (stoppedEffects_evolves _ _).trans (noteTracker_evolves _ _)

theorem enterBySpeed_evolves (c : TrackerCause) : Evolves s (s.enterBySpeed c) :=
  evolves_ite (fun _ => enterStopped_evolves _ _ _) fun _ => enter_evolves _ _ _

theorem recomputeLocal_evolves : Evolves s s.recomputeLocal := by
  unfold State.recomputeLocal
  dsimp only
  refine evolves_ite (fun _ => ?_) fun _ => .refl s
  refine Evolves.trans (setSpeed_evolves s s.localSpeed) ?_
  refine evolves_ite (fun _ => ?_) fun _ => ?_
  · exact evolves_ite (fun _ => .refl _) fun _ => enterStopped_evolves _ _ _
  · exact evolves_ite (fun _ => fallOfPlay_evolves _ _) fun _ => enter_evolves _ _ _

/-! ## The front end -/

theorem rederivePhase_evolves : Evolves s s.rederivePhase := evolves_track s ⟨rfl, rfl, rfl⟩

theorem rederiveInTach_evolves : Evolves s s.rederiveInTach :=
  evolves_ite (fun _ => rederivePhase_evolves _) fun _ => .refl _

theorem movePhase_evolves (b : Bool) : Evolves s (s.movePhase b) := by
  unfold State.movePhase
  exact evolves_track s ⟨rfl, rfl, rfl⟩

theorem checkIndex_evolves : Evolves s s.checkIndex := by
  unfold State.checkIndex
  dsimp only
  refine evolves_ite (fun _ => .refl s) fun _ => ?_
  refine Evolves.trans (evolves_track s ?_) (raiseFault_evolves _ _)
  exact ⟨rfl, rfl, rfl⟩

theorem indexPulse_evolves (q : Nat) : Evolves s (s.indexPulse q) :=
  evolves_ite (fun _ => evolves_ite (fun _ => checkIndex_evolves _) fun _ => raiseFault_evolves _ _) fun _ => .refl _

theorem subsample_evolves (tally : EdgeTally) (ta tb tz : Bool) : Evolves s (s.subsample tally ta tb tz).2 := by
  unfold State.subsample
  dsimp only
  split
  · dsimp only
    refine evolves_track s ?_
    exact ⟨rfl, rfl, rfl⟩
  · have key : ∀ (d' : Decoder) (q q' : Nat) (c : Prop) [Decidable c], Evolves s
        (if c then ((tally, (s.mapTracker fun t => { t with decoder := d' }).raiseFault .edgeError) : EdgeTally × State)
          else if q' = q then (tally, s.mapTracker fun t => { t with decoder := d' })
          else if q' = forwardOf q then
            ({ net := tally.net + 1, last := some true },
              (s.mapTracker fun t => { t with decoder := d' }).movePhase true)
          else
            ({ net := tally.net - 1, last := some false },
              (s.mapTracker fun t => { t with decoder := d' }).movePhase false)).2 := by
      intro d' q q' c _
      have h : Evolves s (s.mapTracker fun t => { t with decoder := d' }) := evolves_track s ⟨rfl, rfl, rfl⟩
      split
      · exact h.trans (raiseFault_evolves _ _)
      · split
        · exact h
        · split
          · exact h.trans (movePhase_evolves _ _)
          · exact h.trans (movePhase_evolves _ _)
    split
    · exact (key _ _ _ _).trans (indexPulse_evolves _ _)
    · exact key _ _ _ _

theorem frontEnd_evolves (ta tb tz : BitVec 16) : Evolves s (s.frontEnd ta tb tz).2 := by
  unfold State.frontEnd
  have key : ∀ (l : List Nat) (a : EdgeTally × State), Evolves a.2
      (l.foldl (fun a k => a.2.subsample a.1 (ta.getLsbD k) (tb.getLsbD k) (tz.getLsbD k)) a).2 := by
    intro l
    induction l with
    | nil => exact fun a => .refl _
    | cons k l ih => exact fun a => (subsample_evolves a.2 a.1 _ _ _).trans (ih _)
  exact key _ ({ net := 0, last := none }, s)

/-! ## Anchors and integration -/

theorem emitExternal_evolves (p0 : Nat) (k : UpdateKind) : Evolves s (s.emitExternal p0 k) := by
  unfold State.emitExternal
  dsimp only
  exact Evolves.trans (emitIfMoved_evolves s p0 k)
    (evolves_ite (fun _ => noteTracker_evolves _ _) fun _ => .refl _)

theorem applyAnchor_evolves (a : Nat) (fw : Bool) (h : a < s.settings.standard.dayLength) :
    Evolves s (s.applyAnchor a fw) := by
  unfold State.applyAnchor
  dsimp only
  have key : ∀ d : Tracker → Int, Evolves s (s.mapTracker fun t =>
      if 0 ≤ d t then { t with pos := a, lastAnchor := a } else { t with lastAnchor := t.pos }) := by
    intro d
    refine evolves_place s (fun x => ?_) (fun x => ?_) ?_
    · split
      · exact h
      · exact x.1
    · split
      · exact h
      · exact x.1
    · split <;> rfl
  exact key fun t => if fw = true then s.settings.standard.dist a t.pos else s.settings.standard.dist t.pos a

theorem placePos_evolves (x : Nat) (h : x < s.settings.standard.dayLength) : Evolves s (s.placePos x) :=
  evolves_place s (fun _ => h) (fun _ => h) rfl

theorem startIfEstimated_evolves (b : Bool) : Evolves s (s.startIfEstimated b) :=
  evolves_ite (fun _ => enter_evolves _ _ _) fun _ => .refl _

theorem tachEstimate_evolves (tally : EdgeTally) (fw : Bool) : Evolves s (s.tachEstimate tally fw).2 := by
  unfold State.tachEstimate
  split
  · exact setOrigin_evolves s
  · exact (setSpeed_evolves s _).trans (setOrigin_evolves _)

theorem tachAnchor_evolves (tally : EdgeTally) (fw : Bool) : Evolves s (s.tachAnchor tally fw) := by
  unfold State.tachAnchor
  dsimp only
  have h := Evolves.trans (b := s.mapTracker fun t => { t with stallTimer := some 0 })
    (evolves_track s ⟨rfl, rfl, rfl⟩) (tachEstimate_evolves _ tally fw)
  refine evolves_ite (fun _ => h) fun _ => ?_
  refine (Evolves.trans (h.trans ?_) (startIfEstimated_evolves _ _)).trans
    ((emitExternal_evolves _ _ _).trans (fallOfPlay_evolves _ _))
  exact applyAnchor_evolves _ _ _ (transitionPos_lt _ _ _)

theorem clampedStep_lt : s.clampedStep < s.settings.standard.dayLength := by
  unfold State.clampedStep
  dsimp only
  split <;> split <;> exact into_lt _ _

/-- Pos alone moves, to a position in the day. -/
theorem evolves_move (p : Nat) (h : p < s.settings.standard.dayLength) :
    Evolves s (s.mapTracker fun t => { t with pos := p }) :=
  evolves_place s (fun _ => h) (fun x => x.2.1) rfl

theorem coastEnd_evolves (limit : Nat) : Evolves s (s.coastEnd limit) := by
  unfold State.coastEnd
  dsimp only
  exact evolves_ite (fun _ => (raise_evolves _ _).trans (enterStopped_evolves _ _ _)) fun _ => .refl _

theorem integrate_evolves : Evolves s s.integrate := by
  unfold State.integrate
  split
  · exact .refl s
  · exact .refl s
  · refine evolves_ite (fun _ => .refl s) fun _ => ?_
    exact (evolves_move s _ (clampedStep_lt s)).trans (emitExternal_evolves _ _ _)
  · exact ((evolves_move s _ (into_lt _ _)).trans (emitExternal_evolves _ _ _)).trans (coastEnd_evolves _ _)

/-- A change of the settings that keeps the grid and every window. -/
theorem evolves_ratio (v : Int) : Evolves s (s.mapSettings fun g => { g with localRatio := v }) :=
  evolves_mapSettings s rfl rfl rfl id

theorem haltAt_evolves : Evolves s (s.haltAt s.settings.cycleEnd) := by
  unfold State.haltAt
  dsimp only
  refine Evolves.trans ?_ (enterStopped_evolves _ _ _)
  refine Evolves.trans ?_ (evolves_ratio _ _)
  have h : Evolves s (s.mapTracker fun t => { t with pos := s.settings.cycleEnd }) :=
    evolves_place s (fun x => x.2.2.2.2.2.1) (fun x => x.2.1) rfl
  refine h.trans (evolves_ite (fun _ => .refl _) fun _ => evolves_ite (fun _ => emitUpdate_evolves _ _ _) fun _ => ?_)
  exact (evolves_settleOrder _).trans (emitUpdateWith_evolves _ _ _ _)

theorem integrateLocal_evolves : Evolves s s.integrateLocal := by
  unfold State.integrateLocal
  dsimp only
  refine evolves_ite (fun _ => ?_) fun _ => .refl s
  have h : Evolves s ((s.mapTracker fun t =>
      { t with pos := s.settings.standard.into ((s.tracker.pos : Int) + s.tracker.spd) }).emitUpdate
        s.tracker.pos .step) := (evolves_move s _ (into_lt _ _)).trans (emitUpdate_evolves _ _ _)
  refine evolves_ite (fun _ => ?_) fun _ => h
  split
  · exact h
  · exact h.trans (noteTracker_evolves _ _)
  · exact (evolves_move s _ (into_lt _ _)).trans (emitUpdate_evolves _ _ _)
  · exact haltAt_evolves s

/-! ## Timers, code records, the word clock -/

theorem beginSample_evolves : Evolves s s.beginSample := by
  unfold State.beginSample
  dsimp only
  refine evolves_ite (fun _ => .refl s) fun _ => ?_
  refine Evolves.trans ?_ (evolves_mapFeeds _ _)
  exact evolves_track s ⟨rfl, rfl, rfl⟩

theorem endSample_evolves : Evolves s s.endSample := evolves_track s ⟨rfl, rfl, rfl⟩

theorem fireStall_evolves : Evolves s s.fireStall := by
  unfold State.fireStall
  dsimp only
  have h : Evolves s (s.mapTracker fun t => { t with stallTimer := none }) := evolves_track s ⟨rfl, rfl, rfl⟩
  split
  · refine (h.trans ?_).trans (enterStopped_evolves _ _ _)
    exact evolves_track _ ⟨rfl, rfl, rfl⟩
  · exact h.trans (evolves_speed _ ⟨rfl, rfl⟩ (zero_speed _))
  · exact h
  · exact h

theorem fireDropout_evolves : Evolves s s.fireDropout := by
  unfold State.fireDropout
  dsimp only
  have h : Evolves s (s.mapTracker fun t => { t with dropoutTimer := none, recordInterval := none }) :=
    evolves_track s ⟨rfl, rfl, rfl⟩
  split
  · refine h.trans (Evolves.trans ?_ (markCoasted_evolves _))
    refine Evolves.trans ?_ (enter_evolves _ _ _)
    exact evolves_track _ ⟨rfl, rfl, rfl⟩
  all_goals exact h

theorem fireHold_evolves : Evolves s s.fireHold := formHold_evolves s

/-- The frame of a checked label lies in the day (R14). -/
theorem labelToFrame_lt {std : Standard} {hh mm ss ff : Nat} (h : labelInRange std hh mm ss ff = true) :
    labelToFrame std ⟨hh, mm, ss, ff⟩ < std.dayFrames := by
  simp only [labelInRange, decide_eq_true_eq] at h
  cases std <;> simp only [Standard.fps] at h <;>
    simp only [labelToFrame, Standard.fps, Standard.isDrop, Standard.dayFrames, if_true, Bool.false_eq_true, if_false]
    <;> omega

theorem readCodeRecord_base {std : Standard} {hh mm ss ff fl ck : Byte} {r : CodeRecord}
    (h : readCodeRecord std hh mm ss ff fl ck = some r) : r.base < std.dayLength := by
  unfold readCodeRecord at h
  split at h
  · rename_i hc
    dsimp only at h
    have hf := labelToFrame_lt hc.2.2.1
    injection h with h
    subst h
    dsimp only
    split
    · unfold Standard.dayLength
      exact Nat.mul_lt_mul_of_pos_right hf (by decide)
    · exact into_lt _ _
  · simp at h

theorem keepRecord_evolves (r : CodeRecord) : Evolves s (s.keepRecord r) := evolves_track s ⟨rfl, rfl, rfl⟩

theorem codeCandidate_lt (r : CodeRecord) : s.codeCandidate r < s.settings.standard.dayLength := into_lt _ _

theorem codeHold_evolves (r : CodeRecord) (hr : r.base < s.settings.standard.dayLength) :
    Evolves s (s.codeHold r) := by
  unfold State.codeHold
  dsimp only
  have h := ((placePos_evolves s _ hr).trans
    (evolves_speed _ (f := fun t => { t with spd := 0, origin := none }) ⟨rfl, rfl⟩ (zero_speed _))).trans
      (emitIfMoved_evolves _ s.tracker.pos .jump)
  split
  · refine (h.trans ?_).trans (enterStopped_evolves _ _ _)
    exact evolves_track _ ⟨rfl, rfl, rfl⟩
  · exact h.trans (enterStopped_evolves _ _ _)
  · exact h.trans (enterStopped_evolves _ _ _)
  · exact evolves_ite (fun _ => h) fun _ => h.trans (noteTracker_evolves _ _)

theorem codeReference_evolves (r : CodeRecord) (hr : r.base < s.settings.standard.dayLength) :
    Evolves s (s.codeReference r) := by
  unfold State.codeReference
  dsimp only
  refine Evolves.trans ?_ (enterBySpeed_evolves _ _)
  refine Evolves.trans ?_ (emitIfMoved_evolves _ _ _)
  refine ((placePos_evolves s _ hr).trans (setOrigin_evolves _)).trans ?_
  exact evolves_track _ ⟨rfl, rfl, rfl⟩

theorem codeRecover_evolves (r : CodeRecord) : Evolves s (s.codeRecover r) := by
  unfold State.codeRecover
  dsimp only
  have h : Evolves s (s.setOrigin.mapTracker fun t => { t with state := .moving }) :=
    (setOrigin_evolves s).trans (evolves_track _ ⟨rfl, rfl, rfl⟩)
  have ha : s.codeCandidate r
      < (s.setOrigin.mapTracker fun t => { t with state := .moving }).settings.standard.dayLength := by
    rw [h.standard]; exact codeCandidate_lt s r
  refine Evolves.trans (h.trans ?_) (noteTracker_evolves _ _)
  refine evolves_ite (fun _ => ?_) fun _ => ?_
  · exact (placePos_evolves _ _ ha).trans (emitIfMoved_evolves _ _ _)
  · exact (applyAnchor_evolves _ _ _ ha).trans (emitExternal_evolves _ _ _)

theorem codeJump_evolves (r : CodeRecord) : Evolves s (s.codeJump r) := by
  unfold State.codeJump
  dsimp only
  have h := (placePos_evolves s _ (codeCandidate_lt s r)).trans (setOrigin_evolves _)
  exact evolves_ite (fun _ => h) fun _ => h.trans ((emitUpdate_evolves _ _ _).trans (noteTracker_evolves _ _))

theorem codeAnchor_evolves (r : CodeRecord) (k : Int) : Evolves s (s.codeAnchor r k) := by
  unfold State.codeAnchor
  dsimp only
  have key : ∀ t b, Evolves s t →
      Evolves s ((((t.applyAnchor (t.codeCandidate r) (!r.reverse)).startIfEstimated
        b).emitExternal s.tracker.pos .anchor).fallOfPlay s.inPlay) := fun t b h =>
    (((h.trans (applyAnchor_evolves t _ _ (codeCandidate_lt t r))).trans (startIfEstimated_evolves _ _)).trans
      (emitExternal_evolves _ _ _)).trans (fallOfPlay_evolves _ _)
  refine key _ _ ?_
  split
  · exact setOrigin_evolves s
  · exact (setSpeed_evolves s _).trans (setOrigin_evolves _)

theorem takeInCode_evolves (r : CodeRecord) (hr : r.base < s.settings.standard.dayLength) :
    Evolves s (s.takeInCode r) := by
  unfold State.takeInCode
  dsimp only
  have h : Evolves s ((s.beginSample.keepRecord r).mapTracker fun t => { t with anchorTaken := true }) := by
    refine ((beginSample_evolves s).trans (keepRecord_evolves _ r)).trans ?_
    exact evolves_track _ ⟨rfl, rfl, rfl⟩
  have hr' : r.base <
      ((s.beginSample.keepRecord r).mapTracker fun t => { t with anchorTaken := true }).settings.standard.dayLength := by
    rw [h.standard]; exact hr
  refine evolves_ite (fun _ => h.trans (codeHold_evolves _ r hr')) fun _ => ?_
  split
  · exact h.trans (codeReference_evolves _ r hr')
  · exact h.trans (codeRecover_evolves _ r)
  · split
    · exact h.trans (codeAnchor_evolves _ r _)
    · exact h.trans (codeJump_evolves _ r)
  · split
    · exact h.trans (codeAnchor_evolves _ r _)
    · exact h.trans (codeJump_evolves _ r)

theorem tachReference_evolves (r : CodeRecord) (hr : r.base < s.settings.standard.dayLength) :
    Evolves s (s.tachReference r) := by
  unfold State.tachReference
  dsimp only
  refine Evolves.trans ?_ (enterBySpeed_evolves _ _)
  refine Evolves.trans ?_ (emitIfMoved_evolves _ _ _)
  have h : Evolves s (if r.hold = true then s.mapTracker fun t => { t with spd := 0, origin := none } else s) :=
    evolves_ite (fun _ => evolves_speed s ⟨rfl, rfl⟩ (zero_speed s)) fun _ => .refl s
  refine h.trans ?_
  have hp := placePos_evolves (if r.hold = true then s.mapTracker fun t => { t with spd := 0, origin := none } else s)
    (if r.hold = true then r.base
      else (if r.hold = true then s.mapTracker fun t => { t with spd := 0, origin := none } else s).codeCandidate r) (by
      by_cases hh : r.hold = true
      · rw [h.standard]; simp only [hh, if_true]; exact hr
      · simp only [hh, Bool.false_eq_true, if_false]; exact codeCandidate_lt s r)
  refine (hp.trans (rederivePhase_evolves _)).trans ?_
  exact evolves_track _ ⟨rfl, rfl, rfl⟩

theorem driftCheck_evolves (r : CodeRecord) (hr : r.base < s.settings.standard.dayLength) :
    Evolves s (s.driftCheck r) := by
  unfold State.driftCheck
  dsimp only
  refine evolves_ite (fun _ => evolves_track s ⟨rfl, rfl, rfl⟩) fun _ => ?_
  refine evolves_ite (fun _ => evolves_track s ⟨rfl, rfl, rfl⟩) fun _ => ?_
  have ha : (if r.hold = true then r.base else s.codeCandidate r) < s.settings.standard.dayLength := by
    split
    · exact hr
    · exact codeCandidate_lt s r
  refine Evolves.trans ?_ (noteTracker_evolves _ _)
  refine Evolves.trans ?_ (emitUpdate_evolves _ _ _)
  refine Evolves.trans ?_ (raise_evolves _ _)
  refine ((placePos_evolves s _ ha).trans (rederivePhase_evolves _)).trans ?_
  exact evolves_track _ ⟨rfl, rfl, rfl⟩

theorem takeInTach_evolves (r : CodeRecord) (hr : r.base < s.settings.standard.dayLength) :
    Evolves s (s.takeInTach r) := by
  unfold State.takeInTach
  dsimp only
  refine evolves_ite (fun _ => ?_) fun _ => ?_
  · exact (keepRecord_evolves s r).trans (tachReference_evolves _ r hr)
  · exact (keepRecord_evolves s r).trans (driftCheck_evolves _ r hr)

theorem takeRecord_evolves (hh mm ss ff fl ck : Byte) : Evolves s (s.takeRecord hh mm ss ff fl ck) := by
  unfold State.takeRecord
  refine evolves_ite (fun _ => .refl s) fun _ => ?_
  split
  · exact .refl s
  · split
    · exact raiseFault_evolves _ _
    · rename_i r hr; exact takeInTach_evolves s r (readCodeRecord_base hr)
  · split
    · exact raiseFault_evolves _ _
    · rename_i r hr; exact takeInCode_evolves s r (readCodeRecord_base hr)

theorem cinByte_evolves (b : Byte) : Evolves s (s.cinByte b) := by
  unfold State.cinByte
  split
  · exact evolves_ite (fun _ => evolves_track s ⟨rfl, rfl, rfl⟩) fun _ => .refl s
  · refine Evolves.trans ?_ (takeRecord_evolves _ _ _ _ _ _ _)
    exact evolves_track s ⟨rfl, rfl, rfl⟩
  · exact evolves_track s ⟨rfl, rfl, rfl⟩

theorem cinBytes_evolves (l : List Byte) : Evolves s (l.foldl State.cinByte s) :=
  evolves_foldl _ (fun s b => cinByte_evolves s b) l s

theorem cinGap_evolves : Evolves s s.cinGap := by
  unfold State.cinGap
  split
  · exact .refl s
  · dsimp only
    have h : Evolves s (s.mapTracker fun t => { t with cin := none }) := evolves_track s ⟨rfl, rfl, rfl⟩
    exact evolves_ite (fun _ => h) fun _ => h.trans (raiseFault_evolves _ _)

theorem loseClock_evolves : Evolves s s.loseClock := by
  unfold State.loseClock
  dsimp only
  have h : Evolves s ((s.raise .clockLost).mapTracker fun t =>
      { t with clockLost := true, spd := 0, origin := none, sampleBegun := false, anchorTaken := false }) :=
    (raise_evolves s _).trans (evolves_speed _ ⟨rfl, rfl⟩ (zero_speed _))
  split
  · exact h.trans (noteTracker_evolves _ _)
  all_goals exact h.trans (enterStopped_evolves _ _ _)

theorem regainClock_evolves : Evolves s s.regainClock := by
  unfold State.regainClock
  dsimp only
  have h : Evolves s (s.mapTracker fun t =>
      { t with
        clockLost := false
        stallTimer := some 0
        dropoutTimer := some 0
        decoder := { t.decoder with settle := true } }) := evolves_track s ⟨rfl, rfl, rfl⟩
  refine evolves_ite (fun _ => ?_) fun _ => h.trans (noteTracker_evolves _ _)
  refine Evolves.trans ?_ (noteTracker_evolves _ _)
  refine Evolves.trans (h.trans (setSpeed_evolves _ _)) (evolves_ite (fun _ => .refl _) fun _ => evolves_track _ ?_)
  exact ⟨rfl, rfl, rfl⟩

theorem sampleMotion_evolves (ta tb tz : BitVec 16) : Evolves s (s.sampleMotion ta tb tz) := by
  unfold State.sampleMotion
  split
  · dsimp only
    have h := frontEnd_evolves s ta tb tz
    split
    · exact h.trans (tachAnchor_evolves _ _ _)
    · refine h.trans (Evolves.trans ?_ (integrate_evolves _))
      exact evolves_ite (fun _ => fireStall_evolves _) fun _ => .refl _
  · refine evolves_ite (fun _ => .refl s) fun _ => Evolves.trans ?_ (integrate_evolves _)
    exact evolves_ite (fun _ => fireDropout_evolves _) fun _ => .refl _
  · refine Evolves.trans ?_ (integrateLocal_evolves _)
    exact evolves_ite (fun _ => fireHold_evolves _) fun _ => .refl _

theorem sample_evolves (ta tb tz : BitVec 16) : Evolves s (s.sample ta tb tz) := by
  unfold State.sample
  dsimp only
  have h : Evolves s (if s.tracker.clockLost = true then s.regainClock else s) :=
    evolves_ite (fun _ => regainClock_evolves _) fun _ => .refl _
  exact (((h.trans (beginSample_evolves _)).trans (sampleMotion_evolves _ _ _ _)).trans (toneFrame_evolves _)).trans
    (endSample_evolves _)

end Sys2Proof.Machine
end

