-- ==== Sys2Proof/Laws/Serves.lean ====
section
/-! SUPPORT. Laws/Serves.lean: what performing a request can do to the state: a relation weaker than that of
Laws/Evolves.lean, closed under composition, with one lemma for each request. -/

namespace Sys2Proof.Machine

/-- What performing a request can do to the state. -/
structure Serves (s t : State) : Prop where
  framing : t.link.framing = s.link.framing
  receiver : t.link.receiver = s.link.receiver
  requests : t.link.requests = s.link.requests
  replies : t.link.replies <:+ s.link.replies
  notices : s.link.notices.length ≤ 32 → t.link.notices.length ≤ 32
  bank : s.link.bank < 8 → t.link.bank < 8
  cursor : s.link.cursor < 64 → t.link.cursor < 64
  service : t.service = s.service
  pending : t.pending = s.pending
  occasion : s.occasion ≤ t.occasion
  table : tableWf s.table = true → tableWf t.table = true
  lanes : ∀ i, (s.lane i).sound → (t.lane i).sound
  log : s.log.sound → t.log.sound
  contents : tableWf s.table = true → s.contentsSound → t.contentsSound
  motion : s.motionSound → t.motionSound
  refs : tableWf s.table = true → s.refsSound → t.refsSound
  labels : tableWf s.table = true → s.labelsSound → t.labelsSound

/-- Labels are unique when no two slots hold the same one. -/
theorem labelsSound_iff (s : State) : s.labelsSound ↔ ∀ m n v w l, slotAt s.table m = some v →
    slotAt s.table n = some w → v.holds l → w.holds l → m = n := by
  constructor
  · intro h m n v w l hv hw h1 h2
    by_contra hne
    have a := h m n v w hv hw hne
    have b := h n m w v hw hv (Ne.symm hne)
    rcases h1 with h1 | ⟨c, hc, h1⟩ <;> rcases h2 with h2 | ⟨d, hd, h2⟩
    · exact a.1 (h1.trans h2.symm)
    · exact (b.2 d hd).1 (h2.trans h1.symm)
    · exact (a.2 c hc).1 (h1.trans h2.symm)
    · exact (a.2 c hc).2 d hd (h1.trans h2.symm)
  · intro h m n v w hv hw hne
    refine ⟨fun e => hne (h m n v w _ hv hw (.inl rfl) (.inl e.symm)), fun c hc => ⟨fun e => ?_, fun d hd e => ?_⟩⟩
    · exact hne (h m n v w _ hv hw (.inr ⟨c, hc, rfl⟩) (.inl e.symm))
    · exact hne (h m n v w _ hv hw (.inr ⟨c, hc, rfl⟩) (.inr ⟨d, hd, e.symm⟩))

/-- Labels stay unique when every slot holds only labels it held. -/
theorem labelsSound_within {s t : State} (h : labelsWithin t.table s.table) (hs : s.labelsSound) : t.labelsSound := by
  rw [labelsSound_iff] at hs ⊢
  intro m n v w l hv hw h1 h2
  obtain ⟨v', hv', g1⟩ := h m v hv
  obtain ⟨w', hw', g2⟩ := h n w hw
  exact hs m n v' w' l hv' hw' (g1 l h1) (g2 l h2)

theorem Serves.refl (s : State) : Serves s s :=
  ⟨rfl, rfl, rfl, List.suffix_refl _, id, id, id, rfl, rfl, Nat.le_refl _, id, fun _ => id, id, fun _ => id, id,
    fun _ => id, fun _ => id⟩

theorem Serves.trans {a b c : State} (h : Serves a b) (g : Serves b c) : Serves a c :=
  ⟨g.framing.trans h.framing, g.receiver.trans h.receiver, g.requests.trans h.requests, g.replies.trans h.replies,
    fun x => g.notices (h.notices x), fun x => g.bank (h.bank x), fun x => g.cursor (h.cursor x),
    g.service.trans h.service, g.pending.trans h.pending, h.occasion.trans g.occasion,
    fun x => g.table (h.table x), fun i x => g.lanes i (h.lanes i x), fun x => g.log (h.log x),
    fun w x => g.contents (h.table w) (h.contents w x), fun x => g.motion (h.motion x),
    fun w x => g.refs (h.table w) (h.refs w x), fun w x => g.labels (h.table w) (h.labels w x)⟩

theorem refsOf_eq (s : State) (n : Nat) : s.refsOf n = ((slotAt s.table n).map Slot.refs).getD 0 := by
  unfold State.refsOf
  cases slotAt s.table n <;> rfl

/-- Right reference counts depend on the counts and the run lists. -/
theorem refsSound_congr {s t : State} (hr : ∀ n, (slotAt t.table n).map Slot.refs = (slotAt s.table n).map Slot.refs)
    (hl : ∀ i, (t.lane i).runList = (s.lane i).runList) (h : s.refsSound) : t.refsSound := by
  refine ⟨fun n => ?_, fun i => ?_⟩
  · have h1 := h.1 n
    rw [refsOf_eq] at h1 ⊢
    rw [hr n, h1]
    simp only [State.namedBy, hl]
  · rw [hl i]; exact h.2 i

theorem Evolves.serves {s t : State} (h : Evolves s t) : Serves s t :=
  ⟨h.link.framing, h.link.receiver, h.link.requests, h.link.replies, h.link.notices,
    fun x => by rw [h.link.bank]; exact x, fun x => by rw [h.link.cursor]; exact x, h.service, h.pending, h.occasion,
    fun w => (h.table w).1, h.lanes, h.log, h.contents, h.motion, fun w => refsSound_congr (h.table w).2 h.runLists,
    fun w => labelsSound_within (h.labels w)⟩

variable (s : State)

/-- Positions and windows in the day, whatever the speed. -/
def State.placesSound (s : State) : Prop :=
  s.tracker.pos < s.settings.standard.dayLength ∧ s.tracker.lastAnchor < s.settings.standard.dayLength
    ∧ s.settings.windowSound

/-- Setting the speed brings it within the limits. -/
theorem setSpeed_motion (v : Int) (h : s.placesSound) : (s.setSpeed v).motionSound := by
  have h1 : (s.mapTracker fun t => { t with spd := clampSpeed s.nominal v }).motionSound :=
    ⟨h.1, h.2.1, (clampSpeed_bounds s.nominal_pos v).1, (clampSpeed_bounds s.nominal_pos v).2, h.2.2⟩
  unfold State.setSpeed
  dsimp only
  split
  · exact h1
  · exact (raiseFault_evolves _ _).motion h1

/-- A change of state in which only the settings, and after it the motion, is in question. -/
theorem serves_mapSettings {f : Settings → Settings} (hs : (f s.settings).standard = s.settings.standard)
    (h : s.motionSound → (s.mapSettings f).motionSound) : Serves s (s.mapSettings f) :=
  ⟨rfl, rfl, rfl, List.suffix_refl _, id, id, id, rfl, rfl, Nat.le_refl _, id, fun _ => id, id,
    fun _ x n v hv => by simp only [State.mapSettings, hs]; exact x n v hv, h, fun _ => id, fun _ => id⟩

/-- A change of the link's own fields that a request makes. -/
theorem serves_mapLink {f : Link → Link} (h1 : (f s.link).framing = s.link.framing)
    (h2 : (f s.link).receiver = s.link.receiver) (h3 : (f s.link).requests = s.link.requests)
    (h4 : (f s.link).replies = s.link.replies) (h5 : (f s.link).notices = s.link.notices)
    (hb : s.link.bank < 8 → (f s.link).bank < 8) (hc : s.link.cursor < 64 → (f s.link).cursor < 64) :
    Serves s (s.mapLink f) :=
  ⟨h1, h2, h3, by rw [State.mapLink_link, h4], fun x => by rw [State.mapLink_link, h5]; exact x, hb, hc, rfl, rfl,
    Nat.le_refl _, id, fun _ => id, id, fun _ => id, id, fun _ => id, fun _ => id⟩

/-- A change of the table that a request makes. -/
theorem serves_mapTable {f : CueTable → CueTable} (hw : tableWf s.table = true → tableWf (f s.table) = true)
    (hc : tableWf s.table = true → s.contentsSound → (s.mapTable f).contentsSound)
    (hr : tableWf s.table = true → s.refsSound → (s.mapTable f).refsSound)
    (hl : tableWf s.table = true → s.labelsSound → (s.mapTable f).labelsSound) : Serves s (s.mapTable f) :=
  ⟨rfl, rfl, rfl, List.suffix_refl _, id, id, id, rfl, rfl, Nat.le_refl _, hw, fun _ => id, id, hc, id, hr, hl⟩

theorem serves_mapLog {f : TakeLog → TakeLog} (h : s.log.sound → (f s.log).sound) :
    Serves s (s.mapLog f) := (evolves_mapLog s h).serves

/-! ## Settings (chapter 8) -/

theorem putStaged_mem {l : List Staged} {e x : Staged} (h : x ∈ putStaged l e) : x = e ∨ x ∈ l := by
  unfold putStaged at h
  split at h
  · obtain ⟨y, hy, hx⟩ := List.mem_map.1 h
    split at hx
    · exact .inl hx.symm
    · exact .inr (hx ▸ hy)
  · rcases List.mem_append.1 h with h | h
    · exact .inr h
    · exact .inl (List.mem_singleton.1 h)

theorem stage_serves (e : Staged) (fl : OutFlags) (v : ReportedValue)
    (he : ∀ a b, e = .cycleWindow a b → a < s.settings.standard.dayLength ∧ b < s.settings.standard.dayLength) :
    Serves s (s.stage e fl v).1 := by
  unfold State.stage
  dsimp only
  have h : Evolves s (s.mapSettings fun g => { g with staging := putStaged g.staging e }) := by
    refine evolves_mapSettings s rfl rfl rfl ?_
    rintro ⟨a, b, c⟩
    refine ⟨a, b, fun x y hm => ?_⟩
    rcases putStaged_mem hm with hm | hm
    · exact he _ _ hm.symm
    · exact c _ _ hm
  exact (h.trans (evolves_ite (fun _ => applyUnheld_evolves _) fun _ => .refl _)).serves

theorem stageNumber_serves (make : Nat → Staged) (lo hi w : Int) (hm : ∀ n a b, make n ≠ .cycleWindow a b) :
    Serves s (s.stageNumber make lo hi w).1 := by
  unfold State.stageNumber
  exact stage_serves s _ _ _ fun a b h => absurd h (hm _ a b)

theorem writeEngineMode_serves (c : Byte) : Serves s (s.writeEngineMode c).1 := by
  unfold State.writeEngineMode
  split
  · exact .refl s
  · split
    · exact .refl s
    · split
      · exact (enterStandby_evolves s).serves
      · exact (evolves_mapSettings s (f := fun g => { g with standbyPending := true }) rfl rfl rfl id).serves
  · dsimp only
    exact (Evolves.trans (evolves_ite (fun _ => closeAll_evolves _ _) fun _ => .refl s) (setMode_evolves _ _)).serves
  · exact (setMode_evolves s _).serves

theorem forgetMotion_evolves : Evolves s s.forgetMotion := evolves_speed s ⟨rfl, rfl⟩ (zero_speed s)

theorem reducePos_lt (std : Standard) (x : Nat) : reducePos std x < std.dayLength := by
  unfold reducePos Standard.dayLength
  have h1 : frameOf x % std.dayFrames < std.dayFrames := Nat.mod_lt _ (by cases std <;> decide)
  have h2 : fractionOf x < frameUnits := Nat.mod_lt _ (by decide)
  calc frameOf x % std.dayFrames * frameUnits + fractionOf x
      < frameOf x % std.dayFrames * frameUnits + frameUnits := by omega
    _ = (frameOf x % std.dayFrames + 1) * frameUnits := by ring
    _ ≤ std.dayFrames * frameUnits := Nat.mul_le_mul_right _ h1

/-- With places in the day, a new nominal speed leaves the motion sound. -/
theorem newNominal_motion (b : Bool) (h : s.placesSound) : (s.newNominal b).motionSound := by
  unfold State.newNominal
  dsimp only
  refine (fallOfPlay_evolves _ _).motion ((recomputeLocal_evolves _).motion ?_)
  exact (evolves_track (s.setSpeed s.tracker.spd) (f := fun t => { t with origin := none }) ⟨rfl, rfl, rfl⟩).motion
    (setSpeed_motion s _ h)

theorem newNominal_evolves (b : Bool) : Evolves s (s.newNominal b) := by
  unfold State.newNominal
  dsimp only
  refine Evolves.trans ?_ (fallOfPlay_evolves _ _)
  refine Evolves.trans ?_ (recomputeLocal_evolves _)
  refine Evolves.trans (setSpeed_evolves s s.tracker.spd) (evolves_track _ ?_)
  exact ⟨rfl, rfl, rfl⟩

/-- The relation without its clause on motion. -/
structure ServesBut (s t : State) : Prop where
  framing : t.link.framing = s.link.framing
  receiver : t.link.receiver = s.link.receiver
  requests : t.link.requests = s.link.requests
  replies : t.link.replies <:+ s.link.replies
  notices : s.link.notices.length ≤ 32 → t.link.notices.length ≤ 32
  bank : s.link.bank < 8 → t.link.bank < 8
  cursor : s.link.cursor < 64 → t.link.cursor < 64
  service : t.service = s.service
  pending : t.pending = s.pending
  occasion : s.occasion ≤ t.occasion
  table : tableWf s.table = true → tableWf t.table = true
  lanes : ∀ i, (s.lane i).sound → (t.lane i).sound
  log : s.log.sound → t.log.sound
  refs : tableWf s.table = true → s.refsSound → t.refsSound
  labels : tableWf s.table = true → s.labelsSound → t.labelsSound

theorem Serves.but {s t : State} (h : Serves s t) : ServesBut s t :=
  ⟨h.framing, h.receiver, h.requests, h.replies, h.notices, h.bank, h.cursor, h.service, h.pending, h.occasion,
    h.table, h.lanes, h.log, h.refs, h.labels⟩

theorem ServesBut.trans {a b c : State} (h : ServesBut a b) (g : ServesBut b c) : ServesBut a c :=
  ⟨g.framing.trans h.framing, g.receiver.trans h.receiver, g.requests.trans h.requests, g.replies.trans h.replies,
    fun x => g.notices (h.notices x), fun x => g.bank (h.bank x), fun x => g.cursor (h.cursor x),
    g.service.trans h.service, g.pending.trans h.pending, h.occasion.trans g.occasion,
    fun x => g.table (h.table x), fun i x => g.lanes i (h.lanes i x), fun x => g.log (h.log x),
    fun w x => g.refs (h.table w) (h.refs w x), fun w x => g.labels (h.table w) (h.labels w x)⟩

theorem ServesBut.serves {s t : State} (h : ServesBut s t)
    (hc : tableWf s.table = true → s.contentsSound → t.contentsSound) (hm : s.motionSound → t.motionSound) :
    Serves s t :=
  ⟨h.framing, h.receiver, h.requests, h.replies, h.notices, h.bank, h.cursor, h.service, h.pending, h.occasion,
    h.table, h.lanes, h.log, hc, hm, h.refs, h.labels⟩

/-- Any change of the settings or the tracker alone serves but for the motion. -/
theorem but_mapSettings (f : Settings → Settings) : ServesBut s (s.mapSettings f) :=
  ⟨rfl, rfl, rfl, List.suffix_refl _, id, id, id, rfl, rfl, Nat.le_refl _, id, fun _ => id, id, fun _ => id, fun _ => id⟩

theorem but_mapTracker (f : Tracker → Tracker) : ServesBut s (s.mapTracker f) :=
  ⟨rfl, rfl, rfl, List.suffix_refl _, id, id, id, rfl, rfl, Nat.le_refl _, id, fun _ => id, id, fun _ => id, fun _ => id⟩

theorem places_of_motion {s : State} (h : s.motionSound) : s.placesSound := ⟨h.1, h.2.1, h.2.2.2.2⟩

theorem resetWindow_lt (std : Standard) :
    0 < std.dayLength ∧ labelToFrame std ⟨0, 0, 10, 0⟩ * frameUnits < std.dayLength := by
  cases std <;> decide

/-- An empty table stays empty whatever evolves. -/
theorem Evolves.contents_of_empty {s t : State} (h : Evolves s t) (h0 : s.table = []) : t.contentsSound := by
  intro n v hv
  have h1 := (h.table (by rw [h0]; rfl)).2 n
  rw [hv, h0] at h1
  simp [slotAt] at h1

theorem changeStandard_serves (std : Standard) (ht : s.table = []) : Serves s (s.changeStandard std) := by
  unfold State.changeStandard
  dsimp only
  refine Serves.trans ?_ (emitIfMoved_evolves _ _ _).serves
  refine Serves.trans (b := State.newNominal _ _) ?_
    (evolves_ite (fun _ => .refl _) fun _ => (forgetMotion_evolves _).trans (enter_evolves _ _ _)).serves
  refine ServesBut.serves ?_ (fun _ _ => ((rederivePhase_evolves _).trans (newNominal_evolves _ _)).contents_of_empty ht)
    fun h => newNominal_motion _ _ ?_
  · refine ServesBut.trans ?_ (newNominal_evolves _ _).serves.but
    refine ServesBut.trans ?_ (rederivePhase_evolves _).serves.but
    refine ServesBut.trans ?_ (serves_mapLog _ fun h => ⟨by simpa using h.1, serialsRun_map (Take.reduce std) (fun _ => rfl) h.2⟩).but
    exact (but_mapSettings s _).trans (but_mapTracker _ _)
  · refine ⟨reducePos_lt _ _, reducePos_lt _ _, (resetWindow_lt std).1, (resetWindow_lt std).2, ?_⟩
    intro a b hm
    have h2 := (List.mem_filter.1 hm).2
    simp [Staged.isWindow] at h2

theorem writeStandard_serves (c : Byte) : Serves s (s.writeStandard c).1 := by
  unfold State.writeStandard
  split
  · exact .refl s
  · rename_i std _
    split
    · dsimp only
      rename_i h
      split
      · exact .refl s
      · exact changeStandard_serves s std h.1
    · exact .refl s

/-- A change of the pull-down or the sample rate, and the new nominal speed. -/
theorem newGrid_serves {f : Settings → Settings} (b : Bool) (hs : (f s.settings).standard = s.settings.standard)
    (hp : s.placesSound → (s.mapSettings f).placesSound) : Serves s ((s.mapSettings f).newNominal b) :=
  ServesBut.serves ((but_mapSettings s f).trans (newNominal_evolves _ _).serves.but)
    (fun hw hc => (newNominal_evolves _ _).contents hw fun n v hv => by
      simp only [State.mapSettings, hs]; exact hc n v hv) fun h => newNominal_motion _ _ (hp (places_of_motion h))

theorem writePullDown_serves (w : Int) : Serves s (s.writePullDown w).1 := by
  unfold State.writePullDown
  split
  · exact .refl s
  · dsimp only
    split
    · exact .refl s
    · exact newGrid_serves s (f := fun g => { g with pullDown := _ }) _ rfl fun h => h

theorem writeSampleRate_serves (w : Int) : Serves s (s.writeSampleRate w).1 := by
  unfold State.writeSampleRate
  split
  · exact .refl s
  · split
    · exact .refl s
    · dsimp only
      generalize (if w = 48000 then SampleRate.hz48000 else SampleRate.hz96000) = rate
      split
      · exact .refl s
      · unfold State.changeRate
        dsimp only
        refine Serves.trans ?_ (recomputeTones_evolves _).serves
        refine Serves.trans (newGrid_serves s (f := fun g => { g with sampleRate := rate }) s.inPlay rfl fun h => h)
          (evolves_track _ ?_).serves
        exact ⟨rfl, rfl, rfl⟩

theorem changeSource_evolves (src : Source) : Evolves s (s.changeSource src) := by
  have h : Evolves s ((s.mapFeeds fun f => { f with coutWaiting := none, holdTimer := none }).forgetMotion) :=
    (evolves_mapFeeds s _).trans (forgetMotion_evolves _)
  unfold State.changeSource
  split
  · exact Evolves.trans (evolves_mapSettings s (f := fun g => { g with source := .localGen, localRatio := 0 })
      rfl rfl rfl id) (enterStopped_evolves _ _ _)
  · dsimp only
    refine Evolves.trans ?_ (enter_evolves _ _ _)
    have h1 := h.trans (evolves_mapSettings _ (f := fun g => { g with source := .tach }) rfl rfl rfl id)
    refine Evolves.trans (h1.trans (rederivePhase_evolves _)) (evolves_track _ ?_)
    exact ⟨rfl, rfl, rfl⟩
  · dsimp only
    refine Evolves.trans ?_ (enter_evolves _ _ _)
    exact h.trans (evolves_mapSettings _ rfl rfl rfl id)

theorem writeSource_serves (c : Byte) : Serves s (s.writeSource c).1 := by
  unfold State.writeSource
  split
  · exact .refl s
  · split
    · dsimp only
      split
      · exact .refl s
      · exact (changeSource_evolves s _).serves
    · exact .refl s

theorem writeRounding_serves (w : Int) : Serves s (s.writeRounding w).1 := by
  unfold State.writeRounding
  split
  · exact .refl s
  · rename_i mode _
    exact Serves.trans (evolves_mapSettings s (f := fun g => { g with rounding := mode }) rfl rfl rfl id).serves
      (recomputeLocal_evolves _).serves

theorem writeHold_serves (w : Int) : Serves s (s.writeHold w).1 := by
  unfold State.writeHold
  split
  · exact (evolves_mapSettings s (f := fun g => { g with stagingHold := true }) rfl rfl rfl id).serves
  · split
    · dsimp only
      exact (Evolves.trans (evolves_mapSettings s (f := fun g => { g with stagingHold := false }) rfl rfl rfl id)
        (evolves_ite (fun _ => applyUnheld_evolves _) fun _ => .refl _)).serves
    · exact .refl s

theorem writeRatio_serves (w : Int) : Serves s (s.writeRatio w).1 := by
  unfold State.writeRatio
  exact ((evolves_ratio s _).trans (recomputeLocal_evolves _)).serves

theorem writeEdges_serves (w : Int) : Serves s (s.writeEdges w).1 := by
  unfold State.writeEdges
  split
  · dsimp only
    refine (Evolves.trans (Evolves.trans
      (evolves_mapSettings s (f := fun g => { g with edges := (legalEdges w).toNat }) rfl rfl rfl id)
      (rederivePhase_evolves _)) (evolves_place _ (fun h => ?_) (fun h => ?_) ?_)).serves
    · exact h.1
    · exact h.1
    · rfl
  · exact .refl s

theorem writeFilter_serves (w : Int) : Serves s (s.writeFilter w).1 := by
  unfold State.writeFilter
  dsimp only
  refine (Evolves.trans (evolves_mapSettings s (f := fun g => { g with tachFilter := (clampTo 0 15 w).toNat }) rfl rfl rfl id)
    (evolves_track _ ?_)).serves
  exact ⟨rfl, rfl, rfl⟩

theorem writeIndexState_serves (w : Int) : Serves s (s.writeIndexState w).1 := by
  unfold State.writeIndexState
  split
  · dsimp only
    exact (evolves_mapSettings s (f := fun g => { g with indexState := (clampTo 0 3 w).toNat }) rfl rfl rfl id).serves
  · exact .refl s

/-- A rounded value is one of the two whole numbers around the exact one (R10). -/
theorem roundQ_bounds (mode : Rounding) (num : Int) (den : Nat) :
    num / (den : Int) ≤ (roundQ mode num den).value ∧ (roundQ mode num den).value ≤ num / (den : Int) + 1 := by
  unfold roundQ
  dsimp only
  split
  · dsimp only; omega
  · cases mode <;> dsimp only <;> (repeat' split) <;> omega

/-- The fraction of a subframe is below one frame (R17). -/
theorem subframe_lt (mode : Rounding) (sf : Nat) (h : sf < 1000) :
    (roundQ mode ((sf * frameUnits : Nat) : Int) 1000).value.toNat < frameUnits := by
  have hb := roundQ_bounds mode ((sf * frameUnits : Nat) : Int) 1000
  have h1 : ((sf * frameUnits : Nat) : Int) / ((1000 : Nat) : Int) ≤ 4290672328 := by
    have : sf * frameUnits ≤ 999 * 4294967296 := Nat.mul_le_mul (by omega) (Nat.le_refl _)
    omega
  have : frameUnits = 4294967296 := rfl
  omega

/-- A position from a frame of the day and a fraction lies in the day (R3). -/
theorem framePos_lt {std : Standard} {frame fraction : Nat} (hf : frame < std.dayFrames)
    (hr : fraction < frameUnits) : frame * frameUnits + fraction < std.dayLength := by
  unfold Standard.dayLength
  calc frame * frameUnits + fraction < frame * frameUnits + frameUnits := by omega
    _ = (frame + 1) * frameUnits := by ring
    _ ≤ std.dayFrames * frameUnits := Nat.mul_le_mul_right _ hf

/-- A stamp taken in gives a position of the day (R17). -/
theorem takeStamp_lt {std : Standard} {mode : Rounding} {st : Stamp} {x : TakenStamp}
    (h : takeStamp std mode st = some x) : x.pos < std.dayLength := by
  unfold takeStamp at h
  dsimp only at h
  split at h
  · rename_i hc
    simp only [Bool.and_eq_true, decide_eq_true_eq] at hc
    injection h with h
    subst h
    dsimp only
    split
    · rename_i ho
      refine framePos_lt (labelToFrame_lt ?_) (subframe_lt _ _ hc.2)
      have hl := hc.1
      simp only [labelInRange, decide_eq_true_eq] at hl ⊢
      refine ⟨hl.1, hl.2.1, hl.2.2.1, ?_⟩
      cases std <;> decide
    · exact framePos_lt (labelToFrame_lt hc.1) (subframe_lt _ _ hc.2)
  · simp at h

theorem writeWindow_serves (mode : Rounding) (a b : Stamp) : Serves s (s.writeWindow mode a b).1 := by
  unfold State.writeWindow
  dsimp only
  split
  · rename_i x y hx hy
    split
    · refine stage_serves s _ _ _ fun p q h => ?_
      injection h with h1 h2
      subst h1 h2
      exact ⟨takeStamp_lt hx, takeStamp_lt hy⟩
    · exact .refl s
  · exact .refl s

theorem writeNoticeMask_serves (b : Byte) : Serves s (s.writeNoticeMask b).1 := by
  unfold State.writeNoticeMask
  exact (evolves_mapSettings s (f := fun g => { g with noticeMask := b &&& 0x1F }) rfl rfl rfl id).serves

theorem writeToneMute_serves (b : Byte) : Serves s (s.writeToneMute b).1 := by
  unfold State.writeToneMute
  exact (evolves_mapSettings s (f := fun g => { g with toneMute := b }) rfl rfl rfl id).serves

theorem writeCycleAction_serves (b : Byte) : Serves s (s.writeCycleAction b).1 := by
  unfold State.writeCycleAction
  split
  · exact .refl s
  · exact stage_serves s _ _ _ fun _ _ h => by simp at h

theorem writeByte_serves (id b : Byte) : Serves s (s.writeByte id b).1 := by
  unfold State.writeByte
  split
  · exact writeEngineMode_serves s b
  · exact writeStandard_serves s b
  · exact writeSource_serves s b
  · exact writeNoticeMask_serves s b
  · exact writeCycleAction_serves s b
  · exact writeToneMute_serves s b
  · exact .refl s

theorem writeAutoRearm_serves (w : Int) : Serves s (s.writeAutoRearm w).1 := by
  unfold State.writeAutoRearm
  split
  · exact stage_serves s _ _ _ fun _ _ h => by simp at h
  · exact .refl s

theorem writeToneFrequency_serves (i : LaneId) (w : Int) : Serves s (s.writeToneFrequency i w).1 := by
  unfold State.writeToneFrequency
  exact stage_serves s _ _ _ fun _ _ h => by simp at h

theorem writeToneLevel_serves (i : LaneId) (w : Int) : Serves s (s.writeToneLevel i w).1 := by
  unfold State.writeToneLevel
  dsimp only
  exact (evolves_mapSettings s (f := fun g => { g with toneLevel := g.toneLevel.set i (clampTo 0 63 w).toNat })
    rfl rfl rfl id).serves

theorem writeIndexCheck_serves (w : Int) : Serves s (s.writeIndexCheck w).1 := by
  unfold State.writeIndexCheck
  split
  · exact (evolves_mapSettings s (f := fun g => { g with indexCheck := decide (w = 1) }) rfl rfl rfl id).serves
  · exact .refl s

theorem writeRecorderLatency_serves (w : Int) : Serves s (s.writeRecorderLatency w).1 := by
  unfold State.writeRecorderLatency
  dsimp only
  exact (evolves_mapSettings s (f := fun g => { g with recorderLatency := (clampTo 0 4095 w).toNat })
    rfl rfl rfl id).serves

theorem writeNumber_serves (id : Byte) (w : Int) : Serves s (s.writeNumber id w).1 := by
  unfold State.writeNumber
  split
  · exact writePullDown_serves s w
  · exact writeSampleRate_serves s w
  · exact writeRounding_serves s w
  · exact writeHold_serves s w
  · exact stageNumber_serves s _ _ _ _ fun _ _ _ h => by simp at h
  · exact stageNumber_serves s _ _ _ _ fun _ _ _ h => by simp at h
  · exact writeRatio_serves s w
  · exact writeAutoRearm_serves s w
  · exact writeToneFrequency_serves s _ w
  · exact writeToneFrequency_serves s _ w
  · exact writeToneFrequency_serves s _ w
  · exact writeToneFrequency_serves s _ w
  · exact writeToneFrequency_serves s _ w
  · exact writeToneFrequency_serves s _ w
  · exact writeToneFrequency_serves s _ w
  · exact writeToneFrequency_serves s _ w
  · exact writeToneLevel_serves s _ w
  · exact writeToneLevel_serves s _ w
  · exact writeToneLevel_serves s _ w
  · exact writeToneLevel_serves s _ w
  · exact writeToneLevel_serves s _ w
  · exact writeToneLevel_serves s _ w
  · exact writeToneLevel_serves s _ w
  · exact writeToneLevel_serves s _ w
  · exact writeEdges_serves s w
  · exact writeFilter_serves s w
  · exact writeIndexState_serves s w
  · exact writeIndexCheck_serves s w
  · exact stageNumber_serves s _ _ _ _ fun _ _ _ h => by simp at h
  · exact stageNumber_serves s _ _ _ _ fun _ _ _ h => by simp at h
  · exact stageNumber_serves s _ _ _ _ fun _ _ _ h => by simp at h
  · exact writeRecorderLatency_serves s w
  · exact stageNumber_serves s _ _ _ _ fun _ _ _ h => by simp at h
  · exact .refl s

theorem settingWrite_serves (id r : Byte) (v : SettingValue) : Serves s (s.settingWrite id r v).1 := by
  unfold State.settingWrite
  split
  · exact .refl s
  · split
    · exact .refl s
    · split
      · exact .refl s
      · split
        · exact .refl s
        · split
          · exact .refl s
          · unfold State.writeValue
            split
            · exact writeByte_serves s _ _
            · exact writeNumber_serves s _ _
            · exact .refl s
            · exact writeWindow_serves s _ _ _

theorem storeMask_evolves (id v : Byte) : Evolves s (s.storeMask id v) := by
  unfold State.storeMask
  split
  · exact evolves_mapSettings s (f := fun g => { g with noticeMask := v &&& 0x1F }) rfl rfl rfl fun h => h
  · exact evolves_mapSettings s (f := fun g => { g with toneMute := v }) rfl rfl rfl fun h => h

theorem setBits_serves (id m : Byte) : Serves s (s.setBits id m).1 := by
  unfold State.setBits
  split
  · exact .refl s
  · exact (storeMask_evolves s _ _).serves

theorem clearBits_serves (id m : Byte) : Serves s (s.clearBits id m).1 := by
  unfold State.clearBits
  split
  · exact .refl s
  · exact (storeMask_evolves s _ _).serves

/-! ## Cues (chapter 3) -/

theorem cueSeek_serves (b c : Byte) : Serves s (s.cueSeek b c).1 := by
  unfold State.cueSeek
  split
  · rename_i h
    exact serves_mapLink s (f := fun l => { l with bank := b.toNat, cursor := c.toNat }) rfl rfl rfl rfl rfl
      (fun _ => by dsimp only; omega) (fun _ => by dsimp only; omega)
  · exact .refl s

theorem advanceCursor_serves (form : Byte) (n : Nat) : Serves s (s.advanceCursor form n) := by
  unfold State.advanceCursor State.setCursor
  refine serves_mapLink s (f := fun l => { l with cursor := cursorAfter form s.link.cursor n }) rfl rfl rfl rfl rfl
    (fun h => h) fun h => ?_
  dsimp only
  unfold cursorAfter
  split
  · exact Nat.mod_lt _ (by decide)
  · exact h

theorem cueRead_serves (form : Byte) (o : BitVec 16) (n m v r : Byte) : Serves s (s.cueRead form o n m v r).1 := by
  unfold State.cueRead
  split
  · split
    · exact .refl s
    · split
      · exact .refl s
      · exact advanceCursor_serves s _ _
  · exact .refl s

/-- A slot that a form and operand address is one of the table's (R51, R63). -/
theorem addressed_lt {form : Byte} {o : BitVec 16} {n : Nat} (hf : formOk form o = true)
    (hb : s.link.bank < 8) (hc : s.link.cursor < 64) (hw : tableWf s.table = true)
    (h : s.addressed form o = some n) : n < 512 := by
  unfold State.addressed addressSlot at h
  unfold formOk at hf
  split at h
  · rename_i hk
    simp only [hk, decide_eq_true_eq] at hf
    injection h with h; omega
  · rename_i hk
    simp only [hk, decide_eq_true_eq] at hf
    injection h with h; omega
  · injection h with h; omega
  · injection h with h
    have := Int.emod_lt_of_pos ((s.link.cursor : Int) + o.toInt) (b := 64) (by decide)
    have := Int.emod_nonneg ((s.link.cursor : Int) + o.toInt) (b := 64) (by decide)
    omega
  · clear hf
    generalize s.table = t at hw h
    induction t with
    | nil => simp [findLabel] at h
    | cons e t ih =>
      obtain ⟨j, w⟩ := e
      have hx := (tableWf_cons (j, w) t).1 hw
      simp only [findLabel] at h
      split at h
      · injection h with h; subst h; exact hx.1
      · exact ih hx.2.2 h

/-- A write of a slot that keeps its reference count, 0 when the slot was EMPTY. -/
theorem putSlot_refs {n : Nat} {v : Slot} (hw : tableWf s.table = true)
    (hr : v.refs = s.refsOf n) (h : s.refsSound) : (s.mapTable fun t => putSlot t n v).refsSound := by
  refine ⟨fun m => ?_, h.2⟩
  have h1 := h.1 m
  rw [refsOf_eq] at h1 ⊢
  rw [State.mapTable_table, slotAt_putSlot hw]
  have hn : (s.mapTable fun t => putSlot t n v).namedBy m = s.namedBy m := rfl
  rw [hn, ← h1]
  split
  · rename_i hm; subst hm
    rw [refsOf_eq] at hr
    simp [hr]
  · rfl

theorem writtenSlot_refs (n : Nat) (view : View) (c : Contents) :
    (writtenSlot (slotAt s.table n) view c).refs = s.refsOf n := by
  unfold writtenSlot State.refsOf
  cases slotAt s.table n with
  | none => rfl
  | some v => cases view <;> rfl

/-! ### Legal contents (R52, R55) -/

theorem created_legal (std : Standard) : Contents.created.legal std := by
  refine ⟨(resetWindow_lt std).1, fun _ h => by simp [Contents.created] at h, ?_⟩
  simp [Contents.created, Contents.spanOk]

theorem writeBase_legal {std : Standard} {old : Option Slot} (h : ∀ v, old = some v → v.legal std) :
    (writeBase old).1.legal std := by
  unfold writeBase
  split
  · exact created_legal std
  · rename_i v
    have hv := h v rfl
    split
    · exact hv.1
    · cases hp : v.pending with
      | none => exact hv.1
      | some c => exact hv.2.1 c hp

theorem legalSpacing_bounds (n : Nat) : 2 ≤ legalSpacing n ∧ legalSpacing n ≤ 48 := by
  unfold legalSpacing
  split
  · omega
  · split <;> omega

theorem legalLength_bounds {sp : Nat} (hs : 2 ≤ sp) (n : Nat) :
    1 ≤ legalLength sp n ∧ legalLength sp n ≤ 8 ∧ legalLength sp n < sp := by
  unfold legalLength
  dsimp only
  repeat' split
  all_goals omega

theorem takeInGroup_pos {std : Standard} {mode : Rounding} {g : Option Stamp} {x : Option TakenStamp} {t : TakenStamp}
    (h : takeInGroup std mode g = some x) (ht : x = some t) : t.pos < std.dayLength := by
  subst ht
  cases g with
  | none => simp [takeInGroup] at h
  | some st =>
    simp only [takeInGroup] at h
    obtain ⟨y, hy, hh⟩ := Option.map_eq_some_iff.1 h
    injection hh with hh
    subst hh
    exact takeStamp_lt hy

theorem takeOutGroup_pos {std : Standard} {mode : Rounding} {g : Option (Option Stamp)}
    {x : Option (Option TakenStamp)} {t : TakenStamp} (h : takeOutGroup std mode g = some x)
    (ht : x = some (some t)) : t.pos < std.dayLength := by
  subst ht
  match g with
  | none => simp [takeOutGroup] at h
  | some none => simp [takeOutGroup] at h
  | some (some st) =>
    simp only [takeOutGroup] at h
    obtain ⟨y, hy, hh⟩ := Option.map_eq_some_iff.1 h
    injection hh with hh
    injection hh with hh
    subst hh
    exact takeStamp_lt hy

/-- The contents that result from legal contents and legalised groups are legal when they pass the span test. -/
theorem write_legal {std : Standard} {mode : Rounding} {groups : CueGroups} {g : LegalGroups} {c : Contents}
    (hg : legaliseGroups groups std mode = some g) (hc : c.legal std) (hs : (c.write g).spanOk std = true) :
    (c.write g).legal std := by
  unfold legaliseGroups at hg
  split at hg
  · rename_i x y hx hy
    injection hg with hg
    subst hg
    obtain ⟨a, b, d, e, f1, f2, g1, g2, g3, k, _⟩ := hc
    refine ⟨?_, ?_, ?_, ?_, ?_, ?_, ?_, ?_, ?_, ?_, hs⟩
    · simp only [Contents.write]
      cases x with
      | none => exact a
      | some t => exact takeInGroup_pos hx rfl
    · simp only [Contents.write]
      intro o ho
      match y, hy, ho with
      | none, _, ho => exact b o ho
      | some none, _, ho => simp at ho
      | some (some t), hy, ho =>
        simp only [Option.map_some, Option.getD_some, Option.some.injEq] at ho
        subst ho
        exact takeOutGroup_pos hy rfl
    all_goals simp only [Contents.write]
    · cases groups.streamer <;> simp [capped, d]
    all_goals
      first
      | (cases groups.beeps with
          | none => simp only [Option.map_none, Option.getD_none]; assumption
          | some q =>
            have h1 := legalSpacing_bounds q.2.1.toNat
            have h2 := legalLength_bounds h1.1 q.2.2.toNat
            simp only [Option.map_some, Option.getD_some, legalBeeps, capped]
            omega)
      | (cases groups.tail <;> simp [capped, k])
  · simp at hg

theorem writtenSlot_legal {std : Standard} {old : Option Slot} {view : View} {c : Contents}
    (h : ∀ v, old = some v → v.legal std) (hc : c.legal std) : (writtenSlot old view c).legal std := by
  unfold writtenSlot
  split
  · exact ⟨hc, fun _ h => by simp at h, Nat.zero_le _⟩
  · rename_i v
    have hv := h v rfl
    split
    · exact ⟨hc, hv.2⟩
    · exact ⟨hv.1, fun _ h => by injection h with h; exact h ▸ hc, hv.2.2⟩

/-- A label that is not taken by another slot stands in no other slot (R56). -/
theorem not_taken {t : CueTable} {n m : Nat} {l : BitVec 16} {w : Slot} (h : labelTaken t n l = false)
    (hw : slotAt t m = some w) (hl : w.holds l) : m = n := by
  by_contra hne
  have hm : (m, w) ∈ t := by
    clear h hl hne
    induction t with
    | nil => simp [slotAt] at hw
    | cons e t ih =>
      obtain ⟨k, v⟩ := e
      simp only [slotAt] at hw
      split at hw
      · rename_i hk; subst hk; injection hw with hw; subst hw; exact List.mem_cons_self
      · exact List.mem_cons_of_mem _ (ih hw)
  have := List.any_eq_false.1 h _ hm
  rcases hl with hl | ⟨c, hc, hl⟩
  · simp [hne, hl] at this
  · simp [hne, hc, hl] at this

/-- The contents a write starts from carry a label of the slot. -/
theorem writeBase_holds {v : Slot} : v.holds (writeBase (some v)).1.label := by
  unfold writeBase
  dsimp only
  split
  · exact .inl rfl
  · cases hp : v.pending with
    | none => exact .inl rfl
    | some c => exact .inr ⟨c, hp, rfl⟩

/-- A write keeps labels unique (R56, R67). -/
theorem writtenSlot_labels {n : Nat} {mode : Rounding} {groups : CueGroups} {g : LegalGroups}
    (hw : tableWf s.table = true) (h : s.labelsSound) (hr : groupsRefusal groups (slotAt s.table n) = none)
    (hg : legaliseGroups groups s.settings.standard mode = some g)
    (hc : s.contentsRefusal n g ((writeBase (slotAt s.table n)).1.write g) = none) :
    (s.mapTable fun t => putSlot t n (writtenSlot (slotAt s.table n) (writeBase (slotAt s.table n)).2
      ((writeBase (slotAt s.table n)).1.write g))).labelsSound := by
  have hlab : g.label = groups.label := by
    unfold legaliseGroups at hg
    split at hg
    · injection hg with hg; subst hg; rfl
    · simp at hg
  have free : ∀ m w, slotAt s.table m = some w → w.holds ((writeBase (slotAt s.table n)).1.write g).label → m = n := by
    intro m w hm hl
    unfold State.contentsRefusal at hc
    split at hc
    · simp at hc
    · cases hgl : g.label with
      | some l =>
        rw [hgl] at hc
        simp only [Contents.write, hgl, Option.getD_some] at hl
        cases ht : labelTaken s.table n l with
        | true => simp [ht] at hc
        | false => exact not_taken ht hm hl
      | none =>
        cases hs : slotAt s.table n with
        | none =>
          unfold groupsRefusal at hr
          rw [hs, ← hlab, hgl] at hr
          repeat' split at hr
          all_goals simp_all
        | some v =>
          simp only [Contents.write, hgl, Option.getD_none, hs] at hl
          exact (labelsSound_iff s).1 h m n w v _ hm hs hl writeBase_holds
  have only : ∀ l, (writtenSlot (slotAt s.table n) (writeBase (slotAt s.table n)).2
      ((writeBase (slotAt s.table n)).1.write g)).holds l →
      l = ((writeBase (slotAt s.table n)).1.write g).label ∨ ∃ v, slotAt s.table n = some v ∧ v.holds l := by
    generalize (writeBase (slotAt s.table n)).1.write g = c
    generalize (writeBase (slotAt s.table n)).2 = view
    intro l hl
    unfold writtenSlot at hl
    split at hl
    · rcases hl with hl | ⟨_, hl, _⟩
      · exact .inl hl.symm
      · simp at hl
    · rename_i v hv
      split at hl
      · rcases hl with hl | hl
        · exact .inl hl.symm
        · exact .inr ⟨v, hv, .inr hl⟩
      · rcases hl with hl | ⟨d, hd, hl⟩
        · exact .inr ⟨v, hv, .inl hl⟩
        · injection hd with hd; subst hd; exact .inl hl.symm
  have other : ∀ l m w, (writtenSlot (slotAt s.table n) (writeBase (slotAt s.table n)).2
      ((writeBase (slotAt s.table n)).1.write g)).holds l → slotAt s.table m = some w → w.holds l → m = n := by
    intro l m w hl hm hwl
    rcases only l hl with rfl | ⟨v, hv, hvl⟩
    · exact free m w hm hwl
    · exact (labelsSound_iff s).1 h m n w v l hm hv hwl hvl
  rw [labelsSound_iff]
  intro a b v w l ha hb h1 h2
  simp only [State.mapTable_table, slotAt_putSlot hw] at ha hb
  split at ha <;> split at hb
  · omega
  · rename_i e _; injection ha with ha; subst ha; rw [e]; exact (other l b w h1 hb h2).symm
  · rename_i e; injection hb with hb; subst hb; rw [e]; exact other l a v h2 ha h1
  · exact (labelsSound_iff s).1 h a b v w l ha hb h1 h2

theorem cueWrite_serves (form : Byte) (o : BitVec 16) (r : Byte) (g : CueGroups)
    (hb : s.link.bank < 8) (hc : s.link.cursor < 64) (hw : tableWf s.table = true) :
    Serves s (s.cueWrite form o r g).1 := by
  unfold State.cueWrite
  split
  · rename_i hf
    split
    · exact .refl s
    · split
      · exact .refl s
      · rename_i slot hs
        have hlt := addressed_lt s hf hb hc hw hs
        unfold State.writeSlot
        dsimp only
        split
        · exact .refl s
        · split
          · exact .refl s
          · rename_i g' hg
            split
            · exact .refl s
            · rename_i hcr
              refine Serves.trans (serves_mapTable s (f := fun t => putSlot t slot _) ?_ ?_ ?_ ?_)
                (advanceCursor_serves _ _ _)
              · exact fun h => tableWf_putSlot h hlt _
              · intro h hl n v hv
                simp only [State.mapTable_table] at hv
                rw [slotAt_putSlot h] at hv
                split at hv
                · injection hv with hv
                  subst hv
                  refine writtenSlot_legal (hl slot) (write_legal hg (writeBase_legal (hl slot)) ?_)
                  unfold State.contentsRefusal at hcr
                  split at hcr
                  · simp at hcr
                  · rename_i hsp; simpa using hsp
                · exact hl n v hv
              · exact fun h hr => putSlot_refs s h (writtenSlot_refs s _ _ _) hr
              · exact fun h hl => writtenSlot_labels s h hl (by assumption) hg (by simpa using hcr)
  · exact .refl s

theorem cueErase_serves (form : Byte) (o : BitVec 16) : Serves s (s.cueErase form o).1 := by
  unfold State.cueErase
  split
  · split
    · exact .refl s
    · rename_i slot _
      split
      · rename_i h0
        refine Serves.trans (serves_mapTable s (f := fun t => dropSlot t slot) ?_ ?_ ?_ ?_) (advanceCursor_serves _ _ _)
        · exact fun h => tableWf_dropSlot h _
        · intro h hl n v hv
          simp only [State.mapTable_table] at hv
          rw [slotAt_dropSlot h] at hv
          split at hv
          · simp at hv
          · exact hl n v hv
        · intro hw hr
          refine ⟨fun m => ?_, hr.2⟩
          have h1 := hr.1 m
          rw [refsOf_eq] at h1 ⊢
          rw [State.mapTable_table, slotAt_dropSlot hw]
          have hn : (s.mapTable fun t => dropSlot t slot).namedBy m = s.namedBy m := rfl
          rw [hn, ← h1]
          split
          · rename_i hm; subst hm
            simp only [Option.map_none, Option.getD_none]
            exact h0.symm
          · rfl
        · refine fun hw hl => labelsSound_within (s := s) (fun n v hv => ?_) hl
          rw [State.mapTable_table, slotAt_dropSlot hw] at hv
          split at hv
          · simp at hv
          · exact ⟨v, hv, fun _ => id⟩
      · exact .refl s
  · exact .refl s

end Sys2Proof.Machine
end

