-- ==== Sys2Proof/Laws/Requests.lean ====
section
/-! SUPPORT. Laws/Requests.lean: the lane requests, and what performing any request can do to the state. -/

namespace Sys2Proof.Machine

variable (s : State)

/-! ## Reference counts and run lists (R58, R78) -/

/-- A change of every slot of a list without repeats. -/
theorem slotAt_changeAll {t : CueTable} (hw : tableWf t = true) (f : Slot → Slot) {l : List Nat} (hl : l.Nodup)
    (m : Nat) :
    slotAt (l.foldl (fun t n => changeSlot t n f) t) m = if m ∈ l then (slotAt t m).map f else slotAt t m := by
  induction l generalizing t with
  | nil => simp
  | cons n l ih =>
    rw [List.foldl_cons, ih (tableWf_changeSlot hw n f) hl.of_cons, slotAt_changeSlot hw]
    have hn : n ∉ l := (List.nodup_cons.1 hl).1
    by_cases hm : m = n
    · subst hm; simp [hn]
    · simp [hm]

theorem tableWf_changeAll {t : CueTable} (hw : tableWf t = true) (f : Slot → Slot) (l : List Nat) :
    tableWf (l.foldl (fun t n => changeSlot t n f) t) = true := by
  induction l generalizing t with
  | nil => exact hw
  | cons n l ih => exact ih (tableWf_changeSlot hw n f)

theorem length_filter_sum {α : Type} (p : α → Bool) (l : List α) :
    (l.filter p).length = (l.map fun x => if p x = true then 1 else 0).sum := by
  induction l with
  | nil => rfl
  | cons x l ih => by_cases h : p x = true <;> simp [h, ih]; omega

theorem namedBy_eq_sum (n : Nat) : s.namedBy n = ∑ j : Fin 8, if n ∈ (s.lane j).runList then 1 else 0 := by
  rw [State.namedBy, length_filter_sum, Fin.sum_univ_eight]
  simp only [laneIds, List.map_cons, List.map_nil, List.sum_cons, List.sum_nil, List.contains_iff_mem]
  omega

/-- Replacing one lane's run list moves the count of the slots that leave it and join it. -/
theorem namedBy_mapLane (i : LaneId) (f : Lane → Lane) (n : Nat) :
    (s.mapLane i f).namedBy n + (if n ∈ (s.lane i).runList then 1 else 0)
      = s.namedBy n + (if n ∈ (f (s.lane i)).runList then 1 else 0) := by
  rw [namedBy_eq_sum, namedBy_eq_sum, ← Finset.add_sum_erase _ _ (Finset.mem_univ i),
    ← Finset.add_sum_erase (Finset.univ) (fun j => if n ∈ (s.lane j).runList then 1 else 0) (Finset.mem_univ i)]
  have h : ∑ j ∈ Finset.univ.erase i, (if n ∈ ((s.mapLane i f).lane j).runList then 1 else 0)
      = ∑ j ∈ Finset.univ.erase i, (if n ∈ (s.lane j).runList then 1 else 0) := by
    refine Finset.sum_congr rfl fun j hj => ?_
    rw [State.lane_mapLane, if_neg (Finset.ne_of_mem_erase hj)]
  rw [h, State.lane_mapLane, if_pos rfl]
  omega

theorem firstIndex_none {bad : Nat → Nat → Bool} {l : List Nat} {k : Nat} (h : firstIndex bad k l = none) :
    ∀ j (hj : j < l.length), bad (k + j) l[j] = false := by
  induction l generalizing k with
  | nil => intro j hj; simp at hj
  | cons n l ih =>
    simp only [firstIndex] at h
    split at h
    · simp at h
    · rename_i hb
      intro j hj
      cases j with
      | zero => simpa using hb
      | succ j =>
        have := ih h j (by simpa using hj)
        rw [show k + (j + 1) = k + 1 + j by omega]
        simpa using this

theorem nodup_of_duplicateIndex {l : List Nat} (h : duplicateIndex l = none) : l.Nodup := by
  have hx := firstIndex_none h
  rw [List.nodup_iff_getElem?_ne_getElem?]
  intro i j hij hj he
  have h1 := hx j hj
  simp only [Nat.zero_add, List.contains_eq_mem, decide_eq_false_iff_not] at h1
  apply h1
  rw [List.getElem?_eq_getElem (by omega), List.getElem?_eq_getElem hj] at he
  injection he with he
  rw [← he]
  exact List.mem_take_iff_getElem.2 ⟨i, by omega, rfl⟩

theorem defined_of_emptyIndex {t : CueTable} {l : List Nat} (h : emptyIndex t l = none) :
    ∀ n ∈ l, (slotAt t n).isSome = true := by
  intro n hn
  obtain ⟨j, hj, rfl⟩ := List.getElem_of_mem hn
  have := firstIndex_none h j hj
  cases hs : slotAt t l[j] with
  | none => simp [hs] at this
  | some v => rfl

theorem moveRefs_wf {t : CueTable} (hw : tableWf t = true) (a b : List Nat) : tableWf (moveRefs t a b) = true :=
  tableWf_changeAll (tableWf_changeAll hw _ _) _ _

theorem changeAll_contents {s : State} (f : Slot → Slot)
    (hf : ∀ v, v.legal s.settings.standard → (f v).legal s.settings.standard) (l : List Nat)
    (hw : tableWf s.table = true) (h : s.contentsSound) :
    (s.mapTable fun t => l.foldl (fun t n => changeSlot t n f) t).contentsSound := by
  induction l generalizing s with
  | nil => exact h
  | cons n l ih =>
    refine ih (s := s.mapTable fun t => changeSlot t n f) hf (tableWf_changeSlot hw n f) fun m v hv => ?_
    simp only [State.mapTable_table] at hv
    rw [slotAt_changeSlot hw] at hv
    split at hv
    · obtain ⟨w, hw', rfl⟩ := Option.map_eq_some_iff.1 hv
      exact hf w (h m w hw')
    · exact h m v hv

theorem moveRefs_contents (before after : List Nat) (hw : tableWf s.table = true) (h : s.contentsSound) :
    (s.mapTable fun t => moveRefs t before after).contentsSound :=
  changeAll_contents (s := s.mapTable fun t => after.foldl (fun t n => changeSlot t n _) t)
    (fun v => { v with refs := v.refs - 1 }) (fun _ h => h) before (tableWf_changeAll hw _ _)
    (changeAll_contents (fun v => { v with refs := v.refs + 1 }) (fun _ h => h) after hw h)

theorem changeAll_labels (f : Slot → Slot) (hf : ∀ v l, (f v).holds l → v.holds l) (l : List Nat) {t : CueTable}
    (hw : tableWf t = true) : labelsWithin (l.foldl (fun t n => changeSlot t n f) t) t := by
  induction l generalizing t with
  | nil => exact .refl t
  | cons n l ih => exact (labelsWithin_changeSlot hw n hf).trans (ih (tableWf_changeSlot hw n f))

theorem moveRefs_labels {t : CueTable} (hw : tableWf t = true) (before after : List Nat) :
    labelsWithin (moveRefs t before after) t :=
  (changeAll_labels (fun v => { v with refs := v.refs + 1 }) (fun _ _ h => h) after hw).trans
    (changeAll_labels (fun v => { v with refs := v.refs - 1 }) (fun _ _ h => h) before (tableWf_changeAll hw _ _))

theorem replaceRunList_refs (i : LaneId) (slots : List Nat) (hn : slots.Nodup)
    (hd : ∀ n ∈ slots, (slotAt s.table n).isSome = true) (hw : tableWf s.table = true) (h : s.refsSound) :
    (s.replaceRunList i slots).refsSound := by
  refine ⟨fun m => ?_, fun j => ?_⟩
  · have h1 := h.1 m
    have h2 := namedBy_mapLane (s.mapTable fun t => moveRefs t (s.lane i).runList slots) i
      (fun l => { l with state := .idle, runList := slots, index := 0 }) m
    have h3 : (s.mapTable fun t => moveRefs t (s.lane i).runList slots).namedBy m = s.namedBy m := rfl
    simp only [State.lane_mapTable] at h2
    rw [h3] at h2
    have hs : (s.replaceRunList i slots).table = moveRefs s.table (s.lane i).runList slots := rfl
    have hnm : (s.replaceRunList i slots).namedBy m = ((s.mapTable fun t =>
      moveRefs t (s.lane i).runList slots).mapLane i fun l => { l with state := .idle, runList := slots, index := 0
      }).namedBy m := rfl
    rw [refsOf_eq] at h1 ⊢
    rw [hnm, hs]
    generalize State.namedBy (State.mapLane _ _ _) m = after at h2 ⊢
    unfold moveRefs
    dsimp only
    rw [slotAt_changeAll (tableWf_changeAll hw _ _) _ (h.2 i), slotAt_changeAll hw _ hn]
    have hd' := hd m
    have hle : m ∈ (s.lane i).runList → 1 ≤ s.namedBy m := by
      intro hm
      rw [namedBy_eq_sum]
      calc 1 = (if m ∈ (s.lane i).runList then 1 else 0) := by rw [if_pos hm]
        _ ≤ _ := Finset.single_le_sum (f := fun j => if m ∈ (s.lane j).runList then 1 else 0)
            (fun _ _ => Nat.zero_le _) (Finset.mem_univ i)
    by_cases ha : m ∈ (s.lane i).runList <;> by_cases hb : m ∈ slots <;>
      cases hv : slotAt s.table m <;> simp [ha, hb, hv] at h1 h2 hd' hle ⊢ <;> omega
  · unfold State.replaceRunList
    dsimp only
    rw [State.lane_mapLane]
    split
    · exact hn
    · exact h.2 j

theorem replaceRunList_serves (i : LaneId) (slots : List Nat) (hn : slots.Nodup) (hlen : slots.length ≤ 16)
    (hd : ∀ n ∈ slots, (slotAt s.table n).isSome = true) (hs : (s.lane i).state ≠ .armed) :
    Serves s (s.replaceRunList i slots) := by
  refine ⟨rfl, rfl, rfl, List.suffix_refl _, id, id, id, rfl, rfl, Nat.le_refl _, fun hw => moveRefs_wf hw _ _, ?_,
    id, fun hw hc => moveRefs_contents s _ _ hw hc, id, replaceRunList_refs s i slots hn hd,
    fun hw hl => labelsSound_within (s := s) (moveRefs_labels hw _ _) hl⟩
  intro j hj
  unfold State.replaceRunList
  dsimp only
  rw [State.lane_mapLane]
  split
  · rename_i h
    subst h
    obtain ⟨a, _, c, _⟩ := hj
    exact ⟨fun _ => ⟨(a hs).1, (a hs).2.1, rfl⟩, fun h => by simp at h, c, hlen⟩
  · exact hj

theorem runlistWrite_serves (b : Byte) (l : List (BitVec 16)) : Serves s (s.runlistWrite b l).1 := by
  unfold State.runlistWrite
  dsimp only
  split
  · exact .refl s
  · rename_i i _
    split
    · rename_i hc
      split
      · exact .refl s
      · rename_i ha
        split
        · exact .refl s
        · rename_i hr
          unfold State.runListRefusal at hr
          split at hr
          · simp at hr
          · rename_i h1
            split at hr
            · simp at hr
            · rename_i h2
              exact replaceRunList_serves s i _ (nodup_of_duplicateIndex h1) hc.1 (defined_of_emptyIndex h2) ha
    · exact .refl s

theorem laneArm_serves (b : Byte) : Serves s (s.laneArm b).1 := by
  unfold State.laneArm
  split
  · exact .refl s
  · rename_i i _
    split
    · exact .refl s
    · rename_i n l hl
      split
      · unfold State.armLane
        exact ((expandInto_evolves s i 0 n (by rw [hl]; simp)).trans (evaluateAt_evolves _ _ _ _)).serves
      · exact .refl s

theorem idleLane_evolves (i : LaneId) (h : (s.lane i).queue = [] ∧ (s.lane i).stack = []) :
    Evolves s (s.idleLane i) :=
  evolves_mapLane s i rfl fun ⟨_, _, c, d⟩ => ⟨fun _ => ⟨h.1, h.2, rfl⟩, fun h => by simp at h, c, d⟩

theorem mapLane_queue_after_release (i : LaneId) :
    ((s.releaseCue i).lane i).queue = [] ∧ ((s.releaseCue i).lane i).stack = [] := by
  unfold State.releaseCue
  dsimp only
  split
  · simp
  · simp [State.dropExpansion]

theorem disarmLane_serves (i : LaneId) : Serves s (s.disarmLane i) := by
  unfold State.disarmLane
  split
  · exact .refl s
  · rename_i hst
    refine ⟨rfl, rfl, rfl, List.suffix_refl _, id, id, id, rfl, rfl, Nat.le_refl _, id, ?_, id,
      fun _ x => x, id, fun _ => refsSound_congr (fun _ => rfl) fun j => ?_, fun _ => id⟩
    · intro j hj
      unfold State.idleLane
      rw [State.lane_mapLane]
      split
      · rename_i h
        subst h
        obtain ⟨a, _, c, d⟩ := hj
        have ha := a (by rw [hst]; simp)
        exact ⟨fun _ => ⟨ha.1, ha.2.1, rfl⟩, fun h => by simp at h, c, d⟩
      · exact hj
    · unfold State.idleLane
      rw [State.lane_mapLane]
      split
      · rename_i h; subst h; rfl
      · rfl
  · refine Evolves.serves (Evolves.trans ?_ (handFeeds_evolves _ _ _))
    refine Evolves.trans ?_ (idleLane_evolves _ i (mapLane_queue_after_release _ i))
    exact (closeOutside_evolves _ _ _ _).trans (releaseCue_evolves _ _)

theorem laneDisarm_serves (b : Byte) : Serves s (s.laneDisarm b).1 := by
  unfold State.laneDisarm
  split
  · exact .refl s
  · exact disarmLane_serves s _

/-! ## The other requests -/

theorem statusRead_serves (m : BitVec 16) : Serves s (s.statusRead m).1 :=
  serves_mapLink s (f := fun l => { l with flags := l.flags &&& ~~~(m.setWidth 11) }) rfl rfl rfl rfl rfl (fun h => h)
    fun h => h

theorem askReset_serves (sc : Byte) : Serves s (s.askReset sc).1 := by
  unfold State.askReset
  split
  · exact .refl s
  · rename_i x _
    exact serves_mapLink s (f := fun l => { l with resetPending := some x }) rfl rfl rfl rfl rfl (fun h => h)
      fun h => h

theorem jamTo_evolves (x : Nat) (h : x < s.settings.standard.dayLength) : Evolves s (s.jamTo x) := by
  unfold State.jamTo
  dsimp only
  refine Evolves.trans (Evolves.trans ?_ (emitUpdate_evolves _ _ _))
    (evolves_ite (fun _ => enterBySpeed_evolves _ _) fun _ => .refl _)
  refine Evolves.trans ((placePos_evolves s x h).trans (rederiveInTach_evolves _)) (evolves_track _ ?_)
  exact ⟨rfl, rfl, rfl⟩

theorem positionJam_serves (r : Byte) (st : Stamp) : Serves s (s.positionJam r st).1 := by
  unfold State.positionJam
  split
  · exact .refl s
  · split
    · exact .refl s
    · rename_i x hx; exact (jamTo_evolves s _ (takeStamp_lt hx)).serves

theorem releaseTakes_length (n : Nat) (l : List Take) : (releaseTakes n l).length ≤ l.length := by
  induction l generalizing n with
  | nil => cases n <;> simp [releaseTakes]
  | cons t l ih =>
    cases n with
    | zero => simp [releaseTakes]
    | succ n =>
      simp only [releaseTakes]
      split
      · exact Nat.le_refl _
      · exact Nat.le_succ_of_le (ih n)

theorem releaseTakes_run {next : BitVec 16} {n : Nat} {l : List Take} (h : serialsRun next l) :
    serialsRun next (releaseTakes n l) := by
  induction l generalizing n with
  | nil => cases n <;> simp [releaseTakes, serialsRun]
  | cons t l ih =>
    cases n with
    | zero => exact h
    | succ n =>
      simp only [releaseTakes]
      split
      · exact h
      · exact ih (serialsRun_tail h)

theorem takeRelease_serves (n : Byte) : Serves s (s.takeRelease n).1 := by
  unfold State.takeRelease
  split
  · exact serves_mapLog s (f := fun g => { g with records := releaseTakes n.toNat s.log.records })
      fun h => ⟨Nat.le_trans (releaseTakes_length _ _) h.1, releaseTakes_run h.2⟩
  · exact .refl s

/-- What performing a request can do. A sound link and table are asked for by CUE_WRITE, whose slot is addressed
through the bank and cursor. -/
theorem perform_serves (r : Request) (hb : s.link.bank < 8) (hc : s.link.cursor < 64)
    (hw : tableWf s.table = true) : Serves s (s.perform r).1 := by
  unfold State.perform
  split
  · exact .refl s
  · exact statusRead_serves s _
  · exact askReset_serves s _
  · exact .refl s
  · exact settingWrite_serves s _ _ _
  · exact setBits_serves s _ _
  · exact clearBits_serves s _ _
  · exact cueSeek_serves s _ _
  · exact cueRead_serves s _ _ _ _ _ _
  · exact cueWrite_serves s _ _ _ _ hb hc hw
  · exact cueErase_serves s _ _
  · exact runlistWrite_serves s _ _
  · exact .refl s
  · exact laneArm_serves s _
  · exact laneDisarm_serves s _
  · exact .refl s
  · exact positionJam_serves s _ _
  · exact .refl s
  · exact .refl s
  · exact takeRelease_serves s _

end Sys2Proof.Machine
end

