-- ==== Sys2Proof/Laws/Link.lean ====
section
/-! SUPPORT. Laws/Link.lean: what the control link does with frames and bytes, what the resets leave, and the one
equation for a request on a ready link. -/

namespace Sys2Proof.Machine

/-! ## A request on a ready link (R168) -/

@[simp] theorem Link.drain_of_empty {l : Link} (h : l.requests = []) : l.drain = l := by
  unfold Link.drain
  split
  · rfl
  · rw [h]; cases l; subst h; simp

@[simp] theorem framingOf_ne_undecided (w : Wire) : framingOf w ≠ .undecided := by cases w <;> simp [framingOf]

/-- What performing a request never changes, in any state. -/
structure Spares (s t : State) : Prop where
  requests : t.link.requests = s.link.requests
  framing : t.link.framing = s.link.framing
  receiver : t.link.receiver = s.link.receiver
  pending : t.pending = s.pending

theorem Serves.spares {s t : State} (h : Serves s t) : Spares s t := ⟨h.requests, h.framing, h.receiver, h.pending⟩

theorem Spares.refl (s : State) : Spares s s := ⟨rfl, rfl, rfl, rfl⟩

theorem cueWrite_spares (s : State) (form : Byte) (o : BitVec 16) (r : Byte) (g : CueGroups) :
    Spares s (s.cueWrite form o r g).1 := by
  unfold State.cueWrite State.writeSlot
  dsimp only
  repeat' split
  all_goals exact ⟨rfl, rfl, rfl, rfl⟩

/-- Performing a request leaves the request queue, the framing, the receiver and the waiting commands as they are. -/
theorem perform_spares (s : State) (r : Request) : Spares s (s.perform r).1 := by
  unfold State.perform
  split
  · exact .refl s
  · exact (statusRead_serves s _).spares
  · exact (askReset_serves s _).spares
  · exact .refl s
  · exact (settingWrite_serves s _ _ _).spares
  · exact (setBits_serves s _ _).spares
  · exact (clearBits_serves s _ _).spares
  · exact (cueSeek_serves s _ _).spares
  · exact (cueRead_serves s _ _ _ _ _ _).spares
  · exact cueWrite_spares s _ _ _ _
  · exact (cueErase_serves s _ _).spares
  · exact (runlistWrite_serves s _ _).spares
  · exact .refl s
  · exact (laneArm_serves s _).spares
  · exact (laneDisarm_serves s _).spares
  · exact .refl s
  · exact (positionJam_serves s _ _).spares
  · exact .refl s
  · exact .refl s
  · exact (takeRelease_serves s _).spares

/-- A request that arrives on a ready link is performed at once, and its reply joins the waiting replies. -/
theorem submit_ready {s : State} {h : FrameHead} (hr : s.ready h)
    (r : Request) :
    s.submit h r = ((s.withService h.service).perform r).1.replied h r.kind ((s.withService h.service).perform r).2 := by
  obtain ⟨hf, hw, hq0, hp, hz⟩ := hr
  have hne : s.link.framing ≠ .undecided := by rw [hf]; exact framingOf_ne_undecided _
  have hset : (s.withService h.service).setReceiver .waiting = s.withService h.service := by
    simp only [State.setReceiver, State.withService, State.mapLink]
    cases s with
    | mk a b c d e f g i j k => cases g; simp_all
  have hpop : ((s.withService h.service).mapLink fun l => { l with requests := l.requests ++ [requestFrame h r] }).mapLink
      (fun l => { l with requests := [] }) = s.withService h.service := by
    simp only [State.withService, State.mapLink]
    cases s with
    | mk a b c d e f g i j k => cases g; simp_all
  have hs : s.submit h r = (s.withService h.service).acceptFrame (requestFrame h r) := by
    unfold State.submit
    simp only [State.withService_link, hf, if_false, if_true, framingOf_ne_undecided, hset]
  rw [hs]
  unfold State.acceptFrame
  rw [if_neg (by simp [hz]), if_pos (by simp [hq0, Config.requestQueueSize])]
  unfold State.runQueue
  simp only [State.mapLink_link, State.withService_link, hq0, List.nil_append, List.length_singleton]
  rw [State.pump, if_neg (by simp [Link.replyWaits, hp])]
  simp only [State.mapLink_link, State.withService_link, hq0, List.nil_append]
  rw [hpop, State.pump]
  unfold State.executeFrame State.replied
  simp only [State.performFrame, requestFrame, State.mapLink]
  rw [Link.drain_of_empty]
  · rfl
  · simpa [Link.join, hq0] using (perform_spares (s.withService h.service) r).requests

/-! ## What the link's own steps keep -/

/-- What every step of the link keeps: a sound state stays sound, and with it its motion and its reference counts; a
framing once set stays (R164); the waiting commands stay. -/
structure Keeps (s t : State) : Prop where
  sound : s.sound → t.sound
  motion : s.sound → s.motionSound → t.motionSound
  refs : s.sound → s.refsSound → t.refsSound
  contents : s.sound → s.contentsSound → t.contentsSound
  labels : s.sound → s.labelsSound → t.labelsSound
  framing : s.link.framing ≠ .undecided → t.link.framing = s.link.framing
  pending : t.pending = s.pending

theorem Keeps.refl (s : State) : Keeps s s := ⟨id, fun _ => id, fun _ => id, fun _ => id, fun _ => id, fun _ => rfl, rfl⟩

theorem Keeps.trans {a b c : State} (h : Keeps a b) (g : Keeps b c) : Keeps a c :=
  ⟨fun x => g.sound (h.sound x), fun x y => g.motion (h.sound x) (h.motion x y),
    fun x y => g.refs (h.sound x) (h.refs x y), fun x y => g.contents (h.sound x) (h.contents x y),
    fun x y => g.labels (h.sound x) (h.labels x y),
    fun y => (g.framing (by rw [h.framing y]; exact y)).trans (h.framing y), g.pending.trans h.pending⟩

theorem Serves.keeps {s t : State} (h : s.sound → Serves s t) (g : Spares s t) : Keeps s t := by
  refine ⟨fun x => ?_, fun x => (h x).motion, fun x => (h x).refs x.1, fun x => (h x).contents x.1,
    fun x => (h x).labels x.1, fun _ => g.framing, g.pending⟩
  obtain ⟨a, b, ⟨c, d, e, f⟩, g⟩ := x
  have hh := h ⟨a, b, ⟨c, d, e, f⟩, g⟩
  exact ⟨hh.table a, fun i => hh.lanes i (b i), ⟨by rw [hh.requests]; exact c, hh.notices d, hh.bank e, hh.cursor f⟩,
    hh.log g⟩

theorem Evolves.keeps {s t : State} (h : Evolves s t) : Keeps s t := Serves.keeps (fun _ => h.serves) h.serves.spares

/-- A change of the link alone that keeps its sizes. -/
theorem keeps_mapLink (s : State) {f : Link → Link} (h : s.link.sound → (f s.link).sound)
    (hf : s.link.framing ≠ .undecided → (f s.link).framing = s.link.framing) : Keeps s (s.mapLink f) :=
  ⟨fun ⟨a, b, c, d⟩ => ⟨a, b, h c, d⟩, fun _ x => x, fun _ x => x, fun _ x => x, fun _ x => x, hf, rfl⟩

theorem Link.Evolves.sound {l m : Link} (h : l.Evolves m) (x : l.sound) : m.sound :=
  ⟨by rw [h.requests]; exact x.1, h.notices x.2.1, by rw [h.bank]; exact x.2.2.1, by rw [h.cursor]; exact x.2.2.2⟩

theorem Link.drain_sound {l : Link} (h : l.sound) : l.drain.sound := by
  unfold Link.drain
  split
  · exact h
  · exact ⟨by simp, h.2.1, h.2.2.1, h.2.2.2⟩

theorem Link.drain_framing (l : Link) : l.drain.framing = l.framing := by
  unfold Link.drain
  split <;> rfl

theorem withService_keeps (s : State) (b : Bool) : Keeps s (s.withService b) :=
  ⟨id, fun _ => id, fun _ => id, fun _ => id, fun _ => id, fun _ => rfl, rfl⟩

theorem performFrame_keeps (s : State) (f : QueuedFrame) : Keeps s (s.performFrame f).1 := by
  unfold State.performFrame
  split
  · exact .refl s
  · exact Serves.keeps (fun x => perform_serves s _ x.2.2.1.2.2.1 x.2.2.1.2.2.2 x.1) (perform_spares s _)

theorem executeFrame_keeps (s : State) (f : QueuedFrame) : Keeps s (s.executeFrame f) := by
  unfold State.executeFrame
  refine (performFrame_keeps s f).trans (keeps_mapLink _ (fun h => ?_) fun _ => ?_)
  · exact (Link.start_evolves _).sound (Link.drain_sound h)
  · exact (Link.start_evolves _).framing.trans (Link.drain_framing _)

theorem pump_keeps (s : State) (n : Nat) : Keeps s (s.pump n) := by
  induction n generalizing s with
  | zero => exact .refl s
  | succ n ih =>
    unfold State.pump
    split
    · exact .refl s
    · split
      · exact .refl s
      · rename_i f rest hq
        refine Keeps.trans ?_ ((executeFrame_keeps _ _).trans (ih _))
        refine keeps_mapLink s (fun h => ⟨?_, h.2⟩) fun _ => rfl
        have := h.1
        rw [hq] at this
        simp only [List.length_cons] at this
        exact Nat.le_of_succ_le this

theorem runQueue_keeps (s : State) : Keeps s s.runQueue := pump_keeps s _

theorem acceptFrame_keeps (s : State) (f : QueuedFrame) : Keeps s (s.acceptFrame f) := by
  unfold State.acceptFrame
  split
  · exact (raiseFault_evolves s _).keeps
  · split
    · rename_i hq
      refine Keeps.trans (keeps_mapLink s (fun h => ⟨?_, h.2⟩) fun _ => rfl) (runQueue_keeps _)
      simp only [List.length_append, List.length_singleton]
      omega
    · split
      · exact keeps_mapLink s (fun h => (Link.start_evolves _).sound h) fun _ => (Link.start_evolves _).framing
      · exact (raiseFault_evolves s _).keeps

theorem setReceiver_keeps (s : State) (r : Receiver) : Keeps s (s.setReceiver r) :=
  keeps_mapLink s (fun h => h) fun _ => rfl

theorem lockFraming_keeps (s : State) (f : Framing) (h : s.link.framing = .undecided) : Keeps s (s.lockFraming f) :=
  keeps_mapLink s (fun h => (Link.start_evolves _).sound h) fun hf => absurd h hf

theorem fault_keeps (s : State) (r : Receiver) : Keeps s (s.setReceiver r).receptionFault :=
  (setReceiver_keeps s r).trans (raiseFault_evolves _ _).keeps

theorem submit_keeps (s : State) (h : FrameHead) (r : Request) : Keeps s (s.submit h r) := by
  unfold State.submit
  dsimp only
  have h1 : Keeps s (if (s.withService h.service).link.framing = .undecided then
      (s.withService h.service).lockFraming (framingOf h.wire) else s.withService h.service) := by
    split
    · rename_i hu
      exact (withService_keeps s _).trans (lockFraming_keeps _ _ hu)
    · exact withService_keeps s _
  generalize (if (s.withService h.service).link.framing = .undecided then
    (s.withService h.service).lockFraming (framingOf h.wire) else s.withService h.service) = t at h1 ⊢
  split
  · exact h1.trans ((setReceiver_keeps _ _).trans (acceptFrame_keeps _ _))
  · exact h1

theorem endFrame_keeps (s : State) (bytes : List Byte) : Keeps s (s.endFrame bytes) := by
  unfold State.endFrame
  dsimp only
  repeat' split
  · exact fault_keeps s _
  · exact (setReceiver_keeps s _).trans (acceptFrame_keeps _ _)
  · exact fault_keeps s _

theorem receiveByte_keeps (s : State) (b : Byte) : Keeps s (s.receiveByte b) := by
  unfold State.receiveByte
  split
  · rename_i hu
    repeat' split
    · exact (setReceiver_keeps s _).trans (lockFraming_keeps _ _ hu)
    · exact (setReceiver_keeps s _).trans (lockFraming_keeps _ _ hu)
    · exact .refl s
  · split
    · unfold State.binaryByte
      repeat' split
      all_goals first | exact setReceiver_keeps s _ | exact fault_keeps s _ | exact endFrame_keeps s _
    all_goals
      split
      · exact setReceiver_keeps s _
      · exact .refl s
  · split
    · unfold State.textByte
      repeat' split
      all_goals
        first | exact .refl s | exact setReceiver_keeps s _ | exact fault_keeps s _ | exact endFrame_keeps s _
    all_goals
      split
      · exact setReceiver_keeps s _
      · exact .refl s

theorem receiveBytes_keeps (s : State) (bytes : List Byte) : Keeps s (s.receiveBytes bytes) := by
  unfold State.receiveBytes
  induction bytes generalizing s with
  | nil => exact .refl s
  | cons b l ih => exact (receiveByte_keeps s b).trans (ih _)

theorem frameGap_keeps (s : State) : Keeps s s.frameGap := by
  unfold State.frameGap
  split
  · exact .refl s
  · exact fault_keeps s _
  · exact fault_keeps s _

theorem transmitDone_keeps (s : State) : Keeps s s.transmitDone := by
  unfold State.transmitDone
  split
  · exact .refl s
  · refine (keeps_mapLink s (f := fun l => ({ l with sending := none } : Link).start) (fun h => ?_) fun _ => ?_).trans
      (runQueue_keeps _)
    · exact (Link.start_evolves { s.link with sending := none }).sound h
    · exact (Link.start_evolves { s.link with sending := none }).framing

/-! ## The resets -/

theorem resetState_sound : State.reset.sound := by
  refine ⟨rfl, fun i => ?_, ⟨by decide, by decide, by decide, by decide⟩, ⟨by decide, trivial⟩⟩
  fin_cases i <;> simp [State.reset, State.lane, Eight.all, Eight.get, Lane.sound, Lane.reset]

theorem resetState_motion : State.reset.motionSound := by
  refine ⟨by decide +kernel, by decide +kernel, by decide +kernel, by decide +kernel, by decide +kernel,
    by decide +kernel, ?_⟩
  intro a b h
  simp [State.reset, Settings.reset] at h

theorem resetState_refs : State.reset.refsSound := by
  refine ⟨fun n => ?_, fun i => ?_⟩
  · simp [State.refsOf, State.namedBy, State.reset, slotAt, laneIds, State.lane, Eight.all, Eight.get, Lane.reset]
  · fin_cases i <;> simp [State.reset, State.lane, Eight.all, Eight.get, Lane.reset]

theorem resetState_contents : State.reset.contentsSound := fun _ _ h => by simp [State.reset, slotAt] at h

theorem resetState_labels : State.reset.labelsSound := fun _ _ _ _ h => by simp [State.reset, slotAt] at h

theorem powerOn_labels (s : State) : s.powerOn.labelsSound := resetState_labels
theorem powerOn_contents (s : State) : s.powerOn.contentsSound := resetState_contents
theorem powerOn_sound (s : State) : s.powerOn.sound := resetState_sound
theorem powerOn_motion (s : State) : s.powerOn.motionSound := resetState_motion
theorem powerOn_refs (s : State) : s.powerOn.refsSound := resetState_refs

theorem fullReset_keeps (s : State) : Keeps s s.fullReset :=
  ⟨fun _ => ⟨rfl, resetState_sound.2.1, resetState_sound.2.2.1, resetState_sound.2.2.2⟩, fun _ _ => resetState_motion, fun _ _ => resetState_refs,
    fun _ _ => resetState_contents, fun _ _ => resetState_labels, fun _ => rfl, rfl⟩

theorem resetLane_evolves (s : State) (i : LaneId) : Evolves s (s.resetLane i) := by
  refine (closeTake_evolves s _ _ _ _).trans (evolves_mapLane _ i rfl fun h => ?_)
  exact ⟨fun _ => ⟨rfl, rfl, rfl⟩, fun x => by simp [Lane.reset] at x, rfl, h.2.2.2⟩

theorem engineResetTable_evolves (s : State) : Evolves s (s.mapTable engineResetTable) := by
  refine evolves_mapTable s (fun hw => ⟨tableWf_map hw _, fun n => ?_⟩) (fun _ hc n v hv => ?_) fun _ n v hv => ?_
  · unfold engineResetTable
    rw [slotAt_map]
    cases slotAt s.table n
    · rfl
    · simp [Slot.engineReset, Slot.promote_refs]
  · simp only [State.mapTable_table, engineResetTable] at hv
    rw [slotAt_map] at hv
    obtain ⟨w, hw, rfl⟩ := Option.map_eq_some_iff.1 hv
    exact Slot.promote_legal (hc n w hw)
  · unfold engineResetTable at hv
    rw [slotAt_map] at hv
    obtain ⟨w, hw, rfl⟩ := Option.map_eq_some_iff.1 hv
    exact ⟨w, hw, fun l hl => Slot.promote_holds (v := { w with expansions := 0 }) hl⟩

theorem resetLocal_evolves (s : State) : Evolves s s.resetLocal := by
  unfold State.resetLocal
  dsimp only
  refine evolves_ite (fun _ => ?_) fun _ => .refl s
  refine (evolves_track s (f := fun t => { t with state := .stopped }) ⟨rfl, rfl, rfl⟩).trans ?_
  generalize (s.mapTracker fun t => { t with state := .stopped }) = a
  refine evolves_ite (fun _ => .refl a) fun _ => (setSpeed_evolves a a.localSpeed).trans ?_
  exact evolves_ite (fun _ => .refl _) fun _ => evolves_track _ (f := fun t => { t with state := .moving }) ⟨rfl, rfl, rfl⟩

theorem resetCode_evolves (s : State) : Evolves s s.resetCode := by
  unfold State.resetCode
  exact evolves_ite (fun _ => evolves_ite (fun _ => formHold_evolves s) fun _ => evolves_mapFeeds s _) fun _ => .refl s

theorem engineReset_keeps (s : State) : Keeps s s.engineReset := by
  have h0 : Evolves s (s.eachLaneFreely fun i s => s.resetLane i) :=
    eachLaneFreely_evolves s _ fun i s => resetLane_evolves s i
  have h1 := h0.trans (engineResetTable_evolves _)
  have h2 := h1.trans (evolves_mapSettings _ (f := fun g => { g with staging := [], standbyPending := false }) rfl rfl
    rfl fun h => ⟨h.1, h.2.1, fun _ _ x => by simp at x⟩)
  have h3 : Evolves s (((((s.eachLaneFreely fun i s => s.resetLane i).mapTable engineResetTable).mapSettings
      fun g => { g with staging := [], standbyPending := false })).mapTracker Tracker.engineReset) := by
    refine h2.trans (evolves_mapTracker _ fun h => ⟨dayLength_pos _, dayLength_pos _, ?_, ?_, h.2.2.2.2⟩)
    · exact (zero_speed _).1
    · exact (zero_speed _).2
  have h4 := ((h3.trans (resetLocal_evolves _)).trans (evolves_mapFeeds _ Feeds.engineReset)).trans
    (recomputeTones_evolves _)
  have h5 := (h4.trans (formOverlay_evolves _)).trans (resetCode_evolves _)
  refine h5.keeps.trans (keeps_mapLink _ (f := fun l => l.engineReset.start) (fun h => ?_) fun _ => ?_)
  · exact (Link.start_evolves _).sound ⟨by simp [Link.engineReset], h.2⟩
  · exact (Link.start_evolves _).framing

end Sys2Proof.Machine
end

