-- ==== Sys2Proof/Tests/Slice0.lean ====
section
/-! SUPPORT. Tests/Slice0.lean: the refusals of WellFormed, the manual's worked figures against the model, one or two
short checks of each command, and for each obligation with hypotheses a state and operands that meet them. Expected
values stand in the manual's examples and tables, or are reckoned by hand from its rules. -/

namespace Sys2Proof.Machine

/- Each kernel evaluation waits for all declarations before it: one at a time keeps the waiting threads few. -/
set_option Elab.async false

/-! ## Helpers -/

/-- A part on which a BINARY link is in use and nothing waits. -/
def fresh : State := { State.reset with link := { Link.reset with framing := .binary } }

/-- A BINARY frame with tag 7, with SERVICE high. -/
def hd : FrameHead := { wire := .binary, tag := 7, service := true }

/-- The state a command leaves; every command leaves one. -/
def after (c : Instr) (s : State) : State :=
  match exec c s with
  | .next t => t
  | .fault f => nomatch f
  | .refused _ => s

/-- The reply that an idle transmitter starts for a request. -/
def replyOf (c : Instr) (s : State) : Option (Status × OutFlags × ReplyBody) :=
  match (after c s).link.sending with
  | some (.reply r) => some (r.status, r.flags, r.body)
  | some (.notice _) => none
  | none => none

/-- The status of that reply. -/
def statusOf (c : Instr) (s : State) : Option Status := (replyOf c s).map (·.1)

/-- The reference cue (R52, chapter 1). -/
def refCue : Contents :=
  { label := 1040, inPoint := 86652 * frameUnits + 2147483648, outPoint := some (86736 * frameUnits), streamer := 3, beepCount := 3,
    beepSpacing := 24, beepLength := 1, tail := 2, record := true }

/-- A slot that holds a cue on which nothing rests. -/
def slotOf (c : Contents) (refs expansions : Nat) : Slot :=
  { live := c, pending := none, takes := 0, refs := refs, expansions := expansions }

/-- The part with the reference cue in slot 5. -/
def cued : State := { fresh with table := [(5, slotOf refCue 0 0)] }

/-- No group selected. -/
def noGroups : CueGroups :=
  { label := none, inPoint := none, outPoint := none, streamer := none, beeps := none, tail := none, flags := none,
    info := false }

/-- The part in LOCAL, MOVING at Spd_nom from the start of frame 86,568. -/
def rolling : State :=
  { fresh with
    tracker := { Tracker.reset with pos := 86568 * frameUnits, lastAnchor := 86568 * frameUnits, spd := 2147484, state := .moving }
    settings := { Settings.reset with source := .localGen, recorderLatency := 256 } }

/-! ## Ill-formed commands -/

theorem test_wf_setting_row_of_its_own : Instr.wellFormed (.settingWrite hd 0x05 0 (.byte 1)) = false := by decide
theorem test_wf_run_list_beyond_a_frame :
    Instr.wellFormed (.runlistWrite hd 0 (List.replicate 124 0)) = false := by decide +kernel
theorem test_wf_run_list_in_a_frame :
    Instr.wellFormed (.runlistWrite hd 0 (List.replicate 123 0)) = true := by decide +kernel
theorem test_wf_no_frame_bytes : Instr.wellFormed (.frameReceived true []) = false := by decide
theorem test_wf_no_error_bytes : Instr.wellFormed (.receptionError []) = false := by decide
theorem test_wf_short_code_record : Instr.wellFormed (.codeRecord [0x5A, 1, 0, 10, 11, 0]) = false := by decide
theorem test_wf_code_record_start : Instr.wellFormed (.codeRecord [0x7E, 1, 0, 10, 11, 0, 0]) = false := by decide
theorem test_wf_start_byte : Instr.wellFormed (.framingStartByte 0x00) = false := by decide

/-! ## Worked figures -/

/-- R8 and chapter 1: Spd_nom under STD_24 at 48,000. -/
theorem test_nominal_speed : nominalSpeed .std24 false .hz48000 = 2147484 := by decide +kernel

/-- Chapter 1: from 23:59:59:20 to 00:00:00:05 is 9 frames. -/
theorem test_distance_across_midnight :
    Standard.dist .std24 (5 * frameUnits) (2073596 * frameUnits) = 9 * frameUnits := by decide +kernel

/-- Chapter 1: the punch lead of 256 samples. -/
theorem test_reference_lead : punchLead 256 2147484 = 549755904 := by decide +kernel

/-- Chapter 1: In 01:00:10:12 + 500 is frame 86,652 and 2^31, exactly. -/
theorem test_reference_in :
    (takeStamp .std24 .nearestEven ⟨1, 0, 10, 12, 500⟩).map (fun x => (x.pos, x.flags)) =
      some (86652 * frameUnits + 2147483648, OutFlags.clear) := by decide +kernel

/-- R15: an omitted label under STD_30DF is taken as the first label after it. -/
theorem test_omitted_label :
    (takeStamp .std30df .nearestEven ⟨0, 1, 0, 0, 0⟩).map (fun x => (x.pos, x.stamp, x.flags.invalid)) =
      some (1800 * frameUnits, ⟨0, 1, 0, 2, 0⟩, true) := by decide +kernel

/-- Chapters 1 and 4: the eleven events of the reference cue, in their order. -/
theorem test_reference_events :
    (expandCue .std24 refCue 549755904).map (fun e => (e.kind, e.beep, exactPos e.target)) =
      [(.beepOn, 3, ⟨86580, 2147483648⟩), (.beepOff, 3, ⟨86581, 2147483648⟩), (.beepOn, 2, ⟨86604, 2147483648⟩),
       (.beepOff, 2, ⟨86605, 2147483648⟩), (.beepOn, 1, ⟨86628, 2147483648⟩), (.beepOff, 1, ⟨86629, 2147483648⟩),
       (.streamerStart, 0, ⟨86649, 2147483648⟩), (.punchIn, 0, ⟨86652, 1597727744⟩),
       (.streamerEnd, 0, ⟨86652, 2147483648⟩), (.punchOut, 0, ⟨86737, 3745211392⟩), (.cueEnd, 0, ⟨86738, 0⟩)] := by
  decide +kernel

/-- Chapter 2: the estimates of the tach example, at 250 and at 260 samples. -/
theorem test_tach_estimates : estimate true 1 8 250 = 2147483 ∧ estimate true 1 8 260 = 2064888 := by decide +kernel

/-- Chapters 7 and 8: the increments of 1,000 Hz and of 1,200 Hz. -/
theorem test_tone_increments :
    toneIncrement .hz48000 1000 = 349525 ∧ toneIncrement .hz48000 1200 = 419430 := by decide +kernel

/-- Chapter 7: the streamer x at sample 5,166,000, 58,432 pu into frame 86,651. -/
theorem test_streamer_x :
    streamerX .std24 (86651 * frameUnits + 58432) (86649 * frameUnits + 2147483648) (86652 * frameUnits + 2147483648) = 511 := by
  decide +kernel

/-- Chapter 10: the overlay record of sample 5,166,000. -/
theorem test_overlay_record :
    OverlayRecord.bytes
      { label := ⟨1, 0, 10, 11⟩,
        items := (Eight.all { shown := false, x := 0, punch := false }).set 2 { shown := true, x := 511, punch := false } }
      = [0x7E, 0x01, 0x00, 0x0A, 0x0B, 0, 0, 0, 0, 0x81, 0xFF, 0, 0, 0, 0, 0, 0, 0, 0, 0, 0, 0x6A] := by decide +kernel

/-- Chapter 4: the overlap test of slots 5 and 6 fails with three beeps, and passes with one. -/
theorem test_overlap :
    overlapOk .std24 (86712 * frameUnits) (86738 * frameUnits) = false
      ∧ overlapOk .std24 (86760 * frameUnits) (86738 * frameUnits) = true := by decide +kernel

/-! ## The link -/

/-- R165, R176: the five bytes of a PING with tag 7 in BINARY, the check making the sum 256. -/
theorem test_binary_frame_bytes :
    replyOf (.frameReceived false [0xC3, 0x02, 0x01, 0x07, 0xF6]) State.reset = replyOf (.ping hd) fresh
      ∧ (after (.frameReceived false [0xC3, 0x02, 0x01, 0x07, 0xF6]) State.reset).link.framing = .binary :=
  ⟨rfl, rfl⟩

/-- R166: the same frame in TEXT, ":020107F6" and CR. -/
theorem test_text_frame_characters :
    statusOf (.frameReceived false [0x3A, 0x30, 0x32, 0x30, 0x31, 0x30, 0x37, 0x46, 0x36, 0x0D]) State.reset = some .ok
      ∧ (after (.frameReceived false [0x3A, 0x30, 0x32, 0x30, 0x31, 0x30, 0x37, 0x46, 0x36, 0x0D])
          State.reset).link.framing = .text := ⟨rfl, rfl⟩

/-- R168: an unknown kind, and a body of the wrong length. -/
theorem test_common_checks :
    statusOf (.frameReceived false [0xC3, 0x02, 0x7F, 0x07, 0x78]) State.reset = some .badKind
      ∧ statusOf (.frameReceived false [0xC3, 0x03, 0x01, 0x07, 0x00, 0xF5]) State.reset = some .badLength :=
  ⟨rfl, rfl⟩

/-- Chapter 9: the burst on a busy transmitter, up to tag 7. -/
theorem test_burst_on_a_busy_transmitter :
    let busy := { fresh with link := { fresh.link with sending := some (.notice (.fault .linkFault 0)) } }
    let s := [1, 2, 3, 4, 5, 6, 7].foldl (fun s n => after (.ping ⟨.binary, BitVec.ofNat 8 n, false⟩) s) busy
    s.link.requests.map (fun f => f.tag.toNat) = [2, 3, 4, 5]
      ∧ s.link.replies.map (fun w => (w.reply.tag.toNat, w.origin)) = [(1, .executed), (6, .busy), (7, .busy)] := by
  decide +kernel

/-- Chapter 9: the burst once the notice is sent. -/
theorem test_burst_moves_on :
    let busy := { fresh with link := { fresh.link with sending := some (.notice (.fault .linkFault 0)) } }
    let s := [1, 2, 3, 4, 5, 6, 7].foldl (fun s n => after (.ping ⟨.binary, BitVec.ofNat 8 n, false⟩) s) busy
    let t := after (.transmitComplete false) s
    t.link.requests.map (fun f => f.tag.toNat) = [3, 4, 5]
      ∧ t.link.replies.map (fun w => (w.reply.tag.toNat, w.origin)) = [(6, .busy), (7, .busy), (2, .executed)] := by
  decide +kernel

/-- R167: a binary length of 1 is a reception error, and LINK_FAULT stands at position 0. -/
theorem test_bad_length_byte : (after (.receptionError [0xC3, 0x01]) fresh).link.flags = 1 := by decide +kernel

/-- R167: a gap inside a frame. -/
theorem test_gap_inside_a_frame :
    (after .frameGapTimeout (after (.framingStartByte 0xC3) State.reset)).hasFlag .linkFault = true := by
  decide +kernel

/-- R172: a read with a mask reports the flags first and clears those it marks. -/
theorem test_status_read :
    let s := fresh.raise .skip
    replyOf (.statusRead hd 0xFFFF) s = some (.ok, OutFlags.clear, .status 8 0)
      ∧ (after (.statusRead hd 0xFFFF) s).link.flags = 0 := ⟨rfl, rfl⟩

/-- R174: an unknown scope. -/
theorem test_reset_scope : statusOf (.reset hd 2) fresh = some .badField := rfl

/-- R174: the reset takes effect once its reply is sent, and not before. -/
theorem test_reset_full_waits_for_its_reply :
    let s := after (.reset hd 0) cued
    after .resetFull s = s ∧ (after .resetFull (after (.transmitComplete true) s)).table = [] := by decide +kernel

/-- R62: a pending copy is promoted. -/
theorem test_reset_engine_promotes :
    let v : Slot := { slotOf refCue 0 1 with pending := some { refCue with label := 213 } }
    let s := after (.transmitComplete true) (after (.reset hd 1) { fresh with table := [(5, v)] })
    (after .resetEngine s).table = [(5, slotOf { refCue with label := 213 } 0 0)] := by decide +kernel

/-- R164: power-on reset makes the framing UNDECIDED. -/
theorem test_power_on : (after .powerOnReset cued).link.framing = .undecided ∧ (after .powerOnReset cued).table = [] :=
  ⟨rfl, rfl⟩

/-! ## Settings -/

/-- Chapter 8: 1,204 Hz is stored as 1,200, and waits under the hold. -/
theorem test_staged_frequency :
    let s := after (.stagingHoldWrite hd 7 1) rolling
    let t := after (.settingWrite ⟨.binary, 8, false⟩ 0x22 7 (.number 1204))
      { s with link := { s.link with sending := none } }
    t.settings.staging = [.toneFrequency 2 1200] ∧ t.settings.toneFrequency.get 2 = 1000
      ∧ t.link.sending.map (fun f => match f with
          | .reply r => r.flags
          | .notice _ => OutFlags.clear) = some { OutFlags.clear with clamped := true, staged := true } := by
  decide +kernel

/-- Chapter 8: at rest the band high is applied at once. -/
theorem test_band_high_at_rest :
    (after (.settingWrite hd 0x0A 7 (.number 120)) fresh).settings.bandHigh = 120
      ∧ (replyOf (.settingWrite hd 0x0A 7 (.number 120)) fresh).map (·.2.1) = some OutFlags.clear := by decide +kernel

/-- Chapter 8: the applied value 90 and the staged value 92. -/
theorem test_read_of_a_staged_setting :
    replyOf (.settingRead hd 0x09 7) { rolling with settings := { rolling.settings with staging := [.bandLow 92] } } =
      some (.ok, OutFlags.clear, .settingRead 0x09 (.number 90) (some (.number 92))) := by decide +kernel

/-- R155: a release at rest applies the list. -/
theorem test_release_applies_the_list :
    (after (.stagingHoldWrite hd 7 0)
      { fresh with settings := { fresh.settings with stagingHold := true, staging := [.bandLow 92] } }).settings.bandLow
      = 92 := by decide +kernel

/-- R111: STANDBY in motion waits. -/
theorem test_standby_in_motion_waits :
    (after (.engineModeWrite hd 7 0) rolling).settings.standbyPending = true
      ∧ (after (.engineModeWrite hd 7 2) rolling).settings.engineMode = .record := by decide +kernel

/-- R6: frame 86,652 of STD_30 keeps its number under STD_24; a defined cue refuses the change. -/
theorem test_standard_change :
    (after (.pictureStandardWrite hd 7 0)
        { fresh with
          settings := { fresh.settings with standard := .std30 },
          tracker := { fresh.tracker with pos := 86652 * frameUnits + 5 } }).tracker.pos = 86652 * frameUnits + 5
      ∧ statusOf (.pictureStandardWrite hd 7 1) cued = some .state := by decide +kernel

/-- R2: STD_25 allows no pull-down. -/
theorem test_pull_down_forced :
    (replyOf (.pullDownWrite hd 7 1) { fresh with settings := { fresh.settings with standard := .std25 } }).map
        (fun r => (r.1, r.2.1.clamped)) = some (.ok, true)
      ∧ (after (.pullDownWrite hd 7 1) fresh).settings.pullDown = true := by decide +kernel

/-- R7: the two rates, and no other. -/
theorem test_sample_rate :
    (after (.sampleRateWrite hd 7 96000) fresh).settings.sampleRate = .hz96000
      ∧ statusOf (.sampleRateWrite hd 7 44100) fresh = some .range := by decide +kernel

/-- R149, R23: SERVICE low refuses the source; LOCAL sets the ratio 0. -/
theorem test_source :
    statusOf (.sourceWrite ⟨.binary, 7, false⟩ 7 2) fresh = some .access
      ∧ (after (.sourceWrite hd 7 2) fresh).settings.localRatio = 0
      ∧ (after (.sourceWrite hd 7 2) fresh).tracker.state = .stopped := by decide +kernel

/-- Chapter 5: the ratio −2,000 makes Spd −4,294,968. -/
theorem test_local_ratio :
    (after (.localRatioWrite hd 7 (-2000)) rolling).tracker.spd = -4294968
      ∧ (after (.localRatioWrite hd 7 (-2000)) rolling).tracker.state = .moving := by decide +kernel

/-- R41: 1,023 edges are stored as 1,020. -/
theorem test_edges_per_frame : (after (.edgesPerFrameWrite hd 7 1023) fresh).settings.edges = 1020 := by
  decide +kernel

/-- R26: an index state of 4 is stored as 3. -/
theorem test_index_state : (after (.indexStateWrite hd 7 4) fresh).settings.indexState = 3 := by decide +kernel

/-- R24: a filter of 16 is stored as 15. -/
theorem test_tach_filter : (after (.tachFilterWrite hd 7 16) fresh).settings.tachFilter = 15 := by decide +kernel

/-- R11: the default rounding 1 is TOWARD_ZERO, and 5 names no mode. -/
theorem test_default_rounding :
    (after (.defaultRoundingWrite hd 7 1) fresh).settings.rounding = .towardZero
      ∧ statusOf (.defaultRoundingWrite hd 7 5) fresh = some .range := by decide +kernel

/-- R161: bits of the notice mask, which is 0x1E after reset. -/
theorem test_bit_requests :
    (after (.settingSetBits hd 0x08 0x81) fresh).settings.noticeMask = 0x1F
      ∧ (after (.settingClearBits hd 0x08 0x06) fresh).settings.noticeMask = 0x18 := by decide +kernel

/-! ## Cues -/

/-- The part with bank 2 and cursor 62. -/
def atBankTwo : State := { fresh with link := { fresh.link with bank := 2, cursor := 62 } }

/-- Chapter 3: the read of four slots wraps in bank 2. -/
theorem test_cursor_read_wraps :
    replyOf (.cueRead hd 2 0 4 0 0 7) atBankTwo =
        some (.ok, OutFlags.clear, .cueRead [⟨190, none⟩, ⟨191, none⟩, ⟨128, none⟩, ⟨129, none⟩])
      ∧ (after (.cueRead hd 2 0 4 0 0 7) atBankTwo).link.cursor = 2 := by decide +kernel

/-- Chapter 3: RELATIVE −3 from cursor 2 is slot 191, and the cursor stays. -/
theorem test_relative_read :
    let s := { fresh with link := { fresh.link with bank := 2, cursor := 2 } }
    replyOf (.cueRead hd 3 0xFFFD 1 0 0 7) s = some (.ok, OutFlags.clear, .cueRead [⟨191, none⟩])
      ∧ (after (.cueRead hd 3 0xFFFD 1 0 0 7) s).link.cursor = 2 := by decide +kernel

/-- Chapter 3: the reference cue as it is written into slot 5. -/
theorem test_reference_cue_written :
    let groups : CueGroups :=
      { noGroups with
        label := some 1040, inPoint := some ⟨1, 0, 10, 12, 500⟩, outPoint := some (some ⟨1, 0, 14, 0, 0⟩),
        tail := some 2 }
    (after (.cueWrite hd 0 5 0 groups) fresh).table = [(5, slotOf refCue 0 0)] := by
  decide +kernel

/-- Chapter 3: length 30 is stored as 8 with CLAMPED, and an In at the Out is RANGE. -/
theorem test_cue_write_limits :
    replyOf (.cueWrite hd 4 1040 0 { noGroups with beeps := some (3, 24, 30) }) cued =
        some (.ok, { OutFlags.clear with clamped := true }, .cueWrite 5 .live
          { label := none, inPoint := none, outPoint := none, streamer := none, beeps := some (3, 24, 8), tail := none,
            record := none, info := none })
      ∧ statusOf (.cueWrite hd 0 5 0 { noGroups with inPoint := some ⟨1, 0, 14, 0, 0⟩ }) cued = some .range := by
  decide +kernel

/-- R73: a slot in a run list is IN_USE. -/
theorem test_cue_erase :
    (after (.cueErase hd 0 5) cued).table = []
      ∧ statusOf (.cueErase hd 0 5) { cued with table := [(5, slotOf refCue 1 0)] } = some .inUse := by decide +kernel

/-- Chapter 3: bank 8 is refused. -/
theorem test_cue_seek :
    statusOf (.cueSeek hd 8 0) fresh = some .badField ∧ (after (.cueSeek hd 7 63) fresh).link.cursor = 63 := by
  decide +kernel

/-! ## Run lists, lanes and takes -/

/-- Chapter 4: cues 5, 6 and 7 of the run-list example, with `beeps` beeps in cue 6. -/
def threeCues (beeps : Nat) : State :=
  let second : Contents :=
    { refCue with
      label := 1041, inPoint := 86784 * frameUnits, outPoint := some (86856 * frameUnits), beepCount := beeps, tail := 0 }
  let third : Contents :=
    { refCue with label := 1042, inPoint := 87120 * frameUnits, outPoint := some (87192 * frameUnits), tail := 0 }
  { fresh with
    settings := { Settings.reset with recorderLatency := 256 }
    table := [(5, slotOf refCue 0 0), (6, slotOf second 0 0), (7, slotOf third 0 0)] }

/-- Chapter 4: the list 5, 6, 7 overlaps at index 1 with three beeps, and passes with one. -/
theorem test_run_list_example :
    replyOf (.runlistWrite hd 2 [5, 6, 7]) (threeCues 3) = some (.overlap, OutFlags.clear, .failedIndex 1)
      ∧ replyOf (.runlistWrite hd 2 [5, 6, 7]) (threeCues 1) = some (.ok, OutFlags.clear, .runlistWrite 3) := by
  decide +kernel

/-- The reference cue in lane 2's run list, on the machine in LOCAL, STOPPED at frame 86,568. -/
def listed : State :=
  { rolling with
    tracker := { rolling.tracker with spd := 0, state := .stopped }
    table := [(5, slotOf refCue 1 0)]
    lanes := (Eight.all Lane.reset).set 2 { Lane.reset with runList := [5] } }

theorem test_run_list_read :
    replyOf (.runlistRead hd 2) listed = some (.ok, OutFlags.clear, .runlistRead .idle [(5, 1040)]) := by decide +kernel

/-- Chapter 5: armed ahead of the cue, lane 2 holds its eleven events. -/
theorem test_arm :
    replyOf (.laneArm hd 2) listed = some (.ok, OutFlags.clear, .laneArm .armed 0)
      ∧ ((after (.laneArm hd 2) listed).lane 2).queue.length = 11 := by decide +kernel

/-- R59, R84: a disarm gives the expansion back. -/
theorem test_disarm :
    let s := after (.transmitComplete true) (after (.laneArm hd 2) listed)
    replyOf (.laneDisarm hd 2) s = some (.ok, OutFlags.clear, .laneDisarm .armed none)
      ∧ (after (.laneDisarm hd 2) s).table = listed.table := by decide +kernel

theorem test_lane_read : statusOf (.laneRead hd 8) fresh = some .badField ∧ statusOf (.laneRead hd 7) fresh = some .ok :=
  ⟨rfl, rfl⟩

/-- R40: the jam references the tracker. -/
theorem test_jam :
    (after (.positionJam hd 0 ⟨1, 0, 7, 0, 0⟩) fresh).tracker.pos = 86568 * frameUnits
      ∧ (after (.positionJam hd 0 ⟨1, 0, 7, 0, 0⟩) fresh).tracker.state = .stopped := by decide +kernel

/-- R19: nominal speed reads as 1,000. -/
theorem test_position_read :
    (replyOf (.positionRead hd 0) rolling).map (fun r => match r.2.2 with
      | .position p ratio _ play _ => (p.exact, ratio, play)
      | _ => (⟨0, 0⟩, 0, false)) = some (⟨86568, 0⟩, 1000, true) := by decide +kernel

/-- A closed and an open take record. -/
def takeOf (serial : BitVec 16) (closing : Option Closing) : Take :=
  { serial := serial, lane := 2, slot := 5, label := 1040, number := 1, inPos := 0, inSample := 0, overshoot := 0,
    closing := closing, numberHeld := false, coasted := false }

/-- The part with one closed and one open take. -/
def twoTakes : State :=
  { fresh with log := { records := [takeOf 40 (some ⟨0, 0, .broken⟩), takeOf 41 none], nextSerial := 42 } }

/-- R128: a release stops at the open record. -/
theorem test_release :
    replyOf (.takeRelease hd 8) twoTakes = some (.ok, OutFlags.clear, .takeRelease 1 (some 40) 1)
      ∧ statusOf (.takeRelease hd 65) twoTakes = some .badField := by decide +kernel

/-- R127: counts of 1 to 4 and skips of 0 to 63. -/
theorem test_peek :
    statusOf (.takePeek hd 63 4 7) twoTakes = some .ok ∧ statusOf (.takePeek hd 64 4 7) twoTakes = some .badField
      ∧ statusOf (.takePeek hd 0 5 7) twoTakes = some .badField := by decide +kernel

/-! ## Motion -/

/-- One step at Spd_nom. -/
theorem test_sample_steps :
    (after (.wordClockSample 0 0 0) rolling).tracker.pos = 86568 * frameUnits + 2147484
      ∧ (after (.wordClockSample 0 0 0) rolling).tracker.count = 1 := by decide +kernel

/-- Lane 2 in RECORD, Pos 1 pu before the PUNCH_IN at 86,652 + 1,597,727,744. -/
def beforePunch : State :=
  { rolling with
    settings := { rolling.settings with engineMode := .record }
    tracker := { rolling.tracker with pos := 372169103860735, lastAnchor := 0 }
    table := [(5, slotOf refCue 1 1)]
    lanes := (Eight.all Lane.reset).set 2
      { Lane.reset with state := .armed, runList := [5], queue := (expandCue .std24 refCue 549755904).drop 7 } }

/-- Chapter 5: the step over PUNCH_IN opens take number 1 and raises the line. -/
theorem test_punch_in :
    let t := after (.wordClockSample 0 0 0) beforePunch
    (t.lane 2).punchLine = true ∧ (t.lane 2).openTake = some 0
      ∧ t.log.records.map (fun r => (r.number, r.overshoot)) = [(1, 2147483)] := by decide +kernel

/-- R123, R124: the lane asks the log on that step, and asks a full log all the same. -/
theorem test_punch_in_asks :
    let u : MotionUpdate :=
      { p0 := 372169103860735, p1 := 372169106008218, kind := .step, sample := 1, inPlay := true, coasting := false }
    let full (s : State) : State := s.mapLog fun g => { g with records := List.replicate 64 (newTake s ⟨0, 5, 0, 0, 0, false⟩) }
    askersIn (laneTakes u false none) laneIds beforePunch = [2]
      ∧ askersIn (laneTakes u false none) laneIds (full beforePunch) = [2] := by decide +kernel

/-- R180: the record of 01:00:10:11 going forward; its base is the start of the next frame, 86,652 (R28). -/
theorem test_code_record :
    let s := { fresh with settings := { Settings.reset with source := .codeIn } }
    (after (.codeRecord [0x5A, 0x01, 0x00, 0x0A, 0x0B, 0x00, 0xEA]) s).tracker.pos = 86652 * frameUnits
      ∧ (after (.codeRecord [0x5A, 0x01, 0x00, 0x0A, 0x0B, 0x00, 0xEB]) s).hasFlag .codeError = true := by
  decide +kernel

/-- R34: the HOLD record of 01:00:10:11 references a tracker in TACH, STOPPED with Spd 0; R32: a stop leaves no origin. -/
theorem test_tach_hold_reference :
    let s := { fresh with tracker := { Tracker.reset with spd := 5, origin := some ⟨0, 3⟩ } }
    let t := (after (.codeRecord [0x5A, 0x01, 0x00, 0x0A, 0x0B, 0x02, 0xE8]) s).tracker
    t.pos = 86651 * frameUnits ∧ t.state = .stopped ∧ t.spd = 0 ∧ t.origin = none := by decide +kernel

/-- R180: a gap inside a record. -/
theorem test_code_gap :
    let s := { fresh with
               settings := { Settings.reset with source := .codeIn },
               tracker := { Tracker.reset with cin := some [1] } }
    (after .codeRecordGap s).hasFlag .codeError = true ∧ (after .codeRecordGap s).tracker.cin = none := by
  decide +kernel

/-- R35: a stall timer that stands one short reaches its timeout with the sample, and the tracker stops. -/
theorem test_stall :
    let s := { rolling with
               settings := { Settings.reset with source := .tach },
               tracker := { rolling.tracker with stallTimer := some 9599 } }
    (after .stall s).tracker.state = .stopped ∧ (after .stall s).tracker.spd = 0 := by decide +kernel

/-- Chapter 2: after records 2,000 samples apart the dropout comes at 4,000. -/
theorem test_dropout :
    let s (k : Nat) := { rolling with
                         settings := { Settings.reset with source := .codeIn },
                         tracker := { rolling.tracker with recordInterval := some 2000, dropoutTimer := some k } }
    (after .dropout (s 3999)).tracker.state = .coasting ∧ (after .dropout (s 3998)).tracker.state = .moving := by
  decide +kernel

/-- R47, R48: the clock's loss stops the tracker; its return in LOCAL takes the ratio's speed. -/
theorem test_clock :
    (after .clockLost rolling).tracker.state = .stopped
      ∧ (after .clockBack (after .clockLost rolling)).tracker.spd = 2147484 := by decide +kernel

/-- R145: a HOLD record every 2,000 samples while stopped under STD_24. -/
theorem test_hold_timer :
    let s := { listed with feeds := { Feeds.reset with holdTimer := some 1999 } }
    (after .holdTimer s).feeds.coutSending = some ⟨⟨1, 0, 7, 0⟩, false, true, false⟩ := by decide +kernel

/-- R142, R146: the senders end what they send. -/
theorem test_senders :
    (after .ovlSendComplete State.reset).feeds.ovlSending = none
      ∧ (after .coutSendComplete { fresh with
            feeds := { Feeds.reset with coutSending := some ⟨⟨0, 0, 0, 0⟩, false, true, false⟩ } }).feeds.coutSending = none :=
  ⟨rfl, rfl⟩

/-! ## Hypotheses that are met

One theorem for each obligation that has hypotheses, named after it: a state and operands that meet them, clause by
clause. -/

/-- The link of a state is that of `fresh`, so requests are executed at once. -/
theorem ready_of {s : State} (h : s.link = fresh.link) (b : Bool) : s.ready ⟨.binary, 7, b⟩ := by
  simp [State.ready, h, fresh, Link.reset, framingOf]

/-- One step before PUNCH_IN, with the sample that takes it waiting. -/
def punching : State := { beforePunch with pending := [.wordClockSample 0 0 0] }

theorem punching_sound : punching.sound := by
  refine ⟨rfl, fun i => ?_, ⟨by decide, by decide, by decide, by decide⟩, ⟨by decide, trivial⟩⟩
  fin_cases i <;> refine ⟨?_, ?_, ?_, ?_⟩ <;> decide +kernel

theorem punching_motion : punching.motionSound := by
  refine ⟨by decide +kernel, by decide +kernel, by decide +kernel, by decide +kernel, by decide +kernel,
    by decide +kernel, fun a b h => ?_⟩
  simp [punching, beforePunch, rolling, Settings.reset] at h

theorem slotAt_punching {n : Nat} {v : Slot} (h : slotAt punching.table n = some v) : n = 5 ∧ v = slotOf refCue 1 1 := by
  simp only [punching, beforePunch, slotAt] at h
  split at h
  · exact ⟨by omega, by simpa using h.symm⟩
  · cases h

theorem refCue_legal : refCue.legal .std24 := by
  refine ⟨by decide +kernel, fun o h => ?_, by decide, by decide, by decide, by decide, by decide, by decide, by decide,
    by decide, by decide +kernel⟩
  simp only [refCue, Option.some.injEq] at h
  subst h
  decide +kernel

theorem slotOf_legal (refs expansions : Nat) : (slotOf refCue refs expansions).legal .std24 :=
  ⟨refCue_legal, fun _ h => by simp [slotOf] at h, by simp [slotOf]⟩

/-- The part in RECORD, STOPPED, with lane 2 holding take 0 open. -/
def recording : State :=
  { fresh with
    settings := { Settings.reset with engineMode := .record }
    tracker := { Tracker.reset with state := .stopped }
    table := [(5, slotOf refCue 1 1)]
    log := { records := [takeOf 0 none], nextSerial := 1 }
    lanes := (Eight.all Lane.reset).set 2
      { Lane.reset with
        state := .armed, runList := [5], openTake := some 0, punchLine := true,
        stack := [⟨{ kind := .punchIn, beep := 0, target := 0 }, true⟩] } }

theorem recording_sound : recording.sound := by
  refine ⟨rfl, fun i => ?_, ⟨by decide, by decide, by decide, by decide⟩, ⟨by decide, rfl⟩⟩
  fin_cases i <;> refine ⟨?_, ?_, ?_, ?_⟩ <;> decide +kernel

theorem punching_contents : punching.contentsSound := fun n v h => by
  rw [(slotAt_punching h).2]
  exact slotOf_legal 1 1

theorem punching_cues : punching.cuesSound :=
  ⟨fun i => by fin_cases i <;> refine ⟨?_, ⟨?_, ?_⟩, ?_⟩ <;> decide +kernel, by decide⟩

theorem recording_takes : recording.takesSound := by
  refine ⟨fun i n h => ⟨takeOf 0 none, by simp [recording], ?_⟩, fun t h _ => ?_, by simp [recording]⟩
  · fin_cases i <;> simp_all [recording, State.lane, Eight.get, Eight.set, Eight.all, Lane.reset, takeOf]
  · obtain rfl : t = takeOf 0 none := by simpa [recording] using h
    rfl

theorem recording_cues : recording.cuesSound :=
  ⟨fun i => by fin_cases i <;> refine ⟨?_, ⟨?_, ?_⟩, ?_⟩ <;> decide +kernel, by decide⟩

theorem recording_contents : recording.contentsSound := punching_contents

theorem witness_StepKeepsTheStateSound :
    punching.sound ∧ step punching = .next (after (.wordClockSample 0 0 0) beforePunch)
      ∧ punching.contentsSound ∧ punching.cuesSound
      ∧ recording.sound ∧ (∃ t, step recording = .next t) ∧ recording.takesSound ∧ recording.contentsSound
      ∧ recording.cuesSound :=
  ⟨punching_sound, rfl, punching_contents, punching_cues, recording_sound, ⟨_, rfl⟩, recording_takes, recording_contents,
    recording_cues⟩

theorem witness_StepKeepsMotionWithinTheDay : punching.sound ∧ punching.motionSound := ⟨punching_sound, punching_motion⟩

theorem witness_StepKeepsReferenceCountsRight : punching.sound ∧ punching.refsSound ∧ punching.expansionsSound := by
  refine ⟨punching_sound, ⟨fun n => ?_, fun i => by fin_cases i <;> decide +kernel⟩, fun n => ?_⟩ <;>
    by_cases h : n = 5
  · subst h
    decide +kernel
  · have e : slotAt punching.table n = none := by simp [punching, beforePunch, slotAt, Ne.symm h]
    have r : punching.refsOf n = 0 := by
      unfold State.refsOf
      rw [e]
    rw [r]
    simp [State.namedBy, laneIds, punching, beforePunch, State.lane, Eight.get, Eight.set, Eight.all,
      Lane.reset, h]
  · subst h
    decide +kernel
  · have e : slotAt punching.table n = none := by simp [punching, beforePunch, slotAt, Ne.symm h]
    have r : punching.expansionsOf n = 0 := by
      unfold State.expansionsOf
      rw [e]
    rw [r]
    simp [State.workedBy, laneIds, punching, beforePunch, State.lane, Eight.get, Eight.set, Eight.all,
      Lane.reset, Lane.currentSlot, Ne.symm h]

theorem witness_StepKeepsTheCueTableLegal : punching.sound ∧ punching.contentsSound ∧ punching.labelsSound := by
  refine ⟨punching_sound, fun n v h => ?_, fun m n v w hm hn x => ?_⟩
  · rw [(slotAt_punching h).2]
    exact slotOf_legal 1 1
  · exact absurd ((slotAt_punching hm).1.trans (slotAt_punching hn).1.symm) x

theorem witness_FramingStaysUntilPowerOnReset :
    (Instr.ping hd) ≠ .powerOnReset ∧ fresh.link.framing ≠ .undecided
      ∧ exec (.ping hd) fresh = .next (after (.ping hd) fresh)
      ∧ exec .powerOnReset fresh = .next (after .powerOnReset fresh) :=
  ⟨by decide, by decide, rfl, rfl⟩

/-- The part with a reset of a scope due, under settings and with the clock lost or not. -/
def resetting (scope : ResetScope) (g : Settings) (lost : Bool) : State :=
  { fresh with
    link := { fresh.link with resetPending := some scope }
    settings := g
    tracker := { Tracker.reset with clockLost := lost } }

/-- The part with a take open and an engine reset due. -/
def takingReset : State := { recording with link := { fresh.link with resetPending := some .engine } }

theorem witness_FullResetsReturnEveryBlockToItsResetValue :
    (resetting .full Settings.reset false).resetDue .full = true
      ∧ (resetting .full Settings.reset false).feeds.ovlSending = some OverlayRecord.reset
      ∧ (after .ovlSendComplete (resetting .full Settings.reset false)).resetDue .full = true
      ∧ (after .ovlSendComplete (resetting .full Settings.reset false)).feeds.ovlSending = none := ⟨rfl, rfl, rfl, rfl⟩

theorem witness_EngineResetKeepsWhatItsRulesKeep :
    (resetting .engine Settings.reset false).resetDue .engine = true
      ∧ (∀ b, (resetting .engine rolling.settings b).resetDue .engine = true
          ∧ (resetting .engine rolling.settings b).settings.source = .localGen)
      ∧ (resetting .engine rolling.settings false).localSpeed = 2147484
      ∧ (resetting .engine { rolling.settings with localRatio := 0 } false).localSpeed = 0
      ∧ takingReset.resetDue .engine = true ∧ takingReset.takesSound ∧ (takingReset.lane 2).openTake = some 0 :=
  ⟨by decide +kernel, by decide +kernel, by decide +kernel, by decide +kernel, rfl, recording_takes, rfl⟩

theorem witness_PingAnswersWithThePart : fresh.ready hd := ready_of rfl true
theorem witness_StatusReadReportsThenClears : fresh.ready hd := ready_of rfl true
theorem witness_ResetRequestIsAnsweredAndWaits : fresh.ready hd := ready_of rfl true

/-- A PING with a tag, as the queue holds it. -/
def pingFrame (tag : Byte) : QueuedFrame := { kind := 0x01, tag := tag, request := .ok .ping }

/-- A reply that waits. -/
def waitingReply (tag : Byte) (origin : ReplyOrigin) : WaitingReply :=
  { reply := { kind := 0x81, tag := tag, status := .ok, flags := OutFlags.clear, body := .none }, origin := origin }

/-- A notice. -/
def someNotice : Notice := .fault .linkFault 0

/-- The part sending a notice, with requests, replies and notices that wait. -/
def linked (requests : List QueuedFrame) (replies : List WaitingReply) (notices : List Notice) : State :=
  { fresh with
    link :=
      { fresh.link with
        requests := requests, replies := replies, notices := notices, sending := some (.notice someNotice) } }

theorem witness_ResetDrainsTheRequestQueue :
    let r := (waitingReply 1 .executed).reply
    let s := linked [⟨0x03, 2, .ok (.reset 0)⟩, pingFrame 3] [⟨r, .executed⟩] []
    s.link.sending = some (.notice someNotice) ∧ s.link.framing ≠ .undecided ∧ s.link.replies = [⟨r, .executed⟩]
      ∧ s.link.requests = ⟨0x03, 2, .ok (.reset 0)⟩ :: [pingFrame 3] ∧ s.link.resetPending = none := by decide

theorem witness_GoodFramesQueueOrAreTurnedAway :
    let full (n : Nat) := linked (List.replicate 4 (pingFrame 2))
      (waitingReply 1 .executed :: List.replicate n (waitingReply 6 .busy)) []
    let some3 := linked (List.replicate 3 (pingFrame 2)) [waitingReply 1 .executed] []
    (Instr.ping hd).request? = some (hd, .ping) ∧ fresh.link.framing = framingOf hd.wire
      ∧ fresh.link.receiver = .waiting
      ∧ (resetting .full Settings.reset false).link.resetPending.isSome = true
      ∧ some3.link.requests.length < 4 ∧ (∃ w ∈ some3.link.replies, w.origin = .executed)
      ∧ (∀ n : Fin 5, (full n).link.requests.length = 4 ∧ (full n).link.resetPending = none) := by decide +kernel

theorem witness_FirstStartByteLocksTheFraming :
    State.reset.link.framing = .undecided ∧ (0x00 : Byte) ≠ 0xC3 ∧ (0x00 : Byte) ≠ 0x3A
      ∧ (Instr.ping hd).request? = some (hd, .ping)
      ∧ fresh.link.framing ≠ .undecided ∧ fresh.link.framing ≠ framingOf (FrameHead.wire ⟨.text, 7, true⟩) := by decide

theorem witness_TransmitterTakesRepliesBeforeNotices :
    fresh.link.sending = none ∧ (linked [] [waitingReply 1 .busy] [someNotice]).link.requests = []
      ∧ (linked [] [] [someNotice]).link.sending = some (.notice someNotice)
      ∧ (linked [] [] [someNotice]).link.framing ≠ .undecided ∧ (linked [] [] [someNotice]).link.replies = []
      ∧ (linked [] [] [someNotice]).link.resetPending = none ∧ (linked [] [] []).link.notices = [] := by decide

theorem witness_NextRequestRunsWhenTheReplyStarts :
    let r := (waitingReply 1 .executed).reply
    let s := linked [⟨0x01, 2, .ok .ping⟩, pingFrame 3] [⟨r, .executed⟩, waitingReply 6 .busy] []
    s.link.sending = some (.notice someNotice) ∧ s.link.framing ≠ .undecided ∧ s.link.resetPending = none
      ∧ s.link.replies = ⟨r, .executed⟩ :: [waitingReply 6 .busy]
      ∧ (∀ w ∈ [waitingReply 6 .busy], w.origin = .busy)
      ∧ s.link.requests = ⟨0x01, 2, .ok .ping⟩ :: [pingFrame 3] := by decide

/-- Requests of every kind of body, at the bounds of their operands. -/
def someRequests : List Request :=
  [.ping, .statusRead 0xFFFF, .reset 255, .settingRead 255 255, .settingWrite 0x01 7 (.byte 255),
   .settingWrite 0x0B 7 (.number (-16000)), .settingWrite 0x0C 7 (.window ⟨255, 0, 0, 0, 0xFFFF⟩ ⟨0, 0, 0, 0, 0⟩),
   .settingWrite 0x50 7 (.count (-1)), .settingSetBits 8 255, .settingClearBits 15 0, .cueSeek 255 255,
   .cueRead 2 0xFFFF 4 255 1 7, .cueErase 4 0, .runlistWrite 255 (List.replicate 123 0xFFFF), .runlistRead 0,
   .cueWrite 0 511 7 { noGroups with outPoint := some (some ⟨1, 2, 3, 4, 5⟩), info := true },
   .laneArm 0, .laneDisarm 7, .laneRead 255, .positionJam 7 ⟨255, 255, 255, 255, 0xFFFF⟩, .positionRead 7,
   .takePeek 63 4 7, .takeRelease 64]

theorem witness_BodiesReadBackAsTheirRequests : ∀ r ∈ someRequests, requestFits r = true := by decide +kernel

theorem witness_FrameBytesActAsTheirRequest :
    (Instr.laneArm hd 2).request? = some (hd, .laneArm 2) ∧ requestFits (.laneArm 2) = true
      ∧ State.reset.link.receiver = .waiting ∧ State.reset.link.framing = .undecided
      ∧ fresh.link.receiver = .waiting ∧ fresh.link.framing = framingOf hd.wire := by decide +kernel

theorem witness_BinaryReceptionErrorsRaiseLinkFault :
    fresh.link.framing = .binary ∧ fresh.link.receiver = .waiting ∧ (1 : Byte).toNat < 2 ∧ 250 < (251 : Byte).toNat
      ∧ (∀ n ∈ [(2 : Byte), 250], 2 ≤ n.toNat ∧ n.toNat ≤ 250
          ∧ (List.replicate (n.toNat + 1) (0 : Byte)).length = n.toNat + 1
          ∧ (n :: List.replicate (n.toNat + 1) (0 : Byte)).foldl (· + ·) 0 ≠ 0) := by decide +kernel

theorem witness_ReceptionErrorsInsideAFrame :
    let s := { fresh with link := { fresh.link with framing := .text, receiver := .text [2] (some 3) } }
    let u := { linked [] [] (List.replicate 31 someNotice) with
      link := { (linked [] [] (List.replicate 31 someNotice)).link with receiver := .binary [2] } }
    s.link.framing = .text ∧ s.link.receiver = .text [2] (some 3) ∧ (some 3 : Option (BitVec 4)).isSome = true
      ∧ hexValue 0x47 = none ∧ (0x47 : Byte) ≠ 0x0A ∧ (0x47 : Byte) ≠ 0x0D ∧ (0x47 : Byte) ≠ 0x3A
      ∧ fresh.link.receiver = .waiting ∧ u.link.receiver ≠ .waiting ∧ (u.raise .linkFault).hasFlag .linkFault = true
      ∧ u.hasFlag .linkFault = false ∧ u.settings.noticeMask.getLsbD 4 = true ∧ u.link.notices.length < 32
      ∧ u.link.sending.isSome = true := by decide +kernel

/-! ### Settings -/

theorem witness_SettingReadReportsAppliedAndStaged :
    fresh.ready hd ∧ catalogue 0x00 = none ∧ catalogue 0x55 = none
      ∧ selectRounding fresh.settings.rounding 5 = none ∧ (catalogue 0x54).isSome = true ∧ (catalogue 0x01).isSome = true
      ∧ selectRounding fresh.settings.rounding 7 = some .nearestEven
      ∧ selectRounding fresh.settings.rounding 4 = some .nearestAway := by
  refine ⟨ready_of rfl true, ?_⟩
  decide +kernel

theorem witness_SettingWriteRefusalsComeInOrder :
    fresh.ready ⟨.binary, 7, false⟩ ∧ catalogue 0x10 = none ∧ catalogue 0x38 = some (.number, .eng)
      ∧ formOf (.byte 1) ≠ .number ∧ formOf (.number 1) = .number
      ∧ selectRounding fresh.settings.rounding 6 = none ∧ (selectRounding fresh.settings.rounding 0).isSome = true
      ∧ catalogue 0x51 = some (.byte, .ro) := by
  refine ⟨ready_of rfl false, ?_⟩
  decide +kernel

theorem witness_ImmediateSettingsTakeHoldAtOnce :
    fresh.ready hd ∧ hd.service = true ∧ (selectRounding fresh.settings.rounding 7).isSome = true
      ∧ (2 : BitVec 32) ≠ 0 ∧ (2 : BitVec 32) ≠ 1 := ⟨ready_of rfl true, rfl, rfl, by decide, by decide⟩

theorem witness_FrameClassWriteAtRestIsAppliedAtOnce :
    fresh.ready hd ∧ hd.service = true ∧ (selectRounding fresh.settings.rounding 7).isSome = true
      ∧ fresh.atRest = true ∧ fresh.settings.stagingHold = false ∧ fresh.settings.staging = [] :=
  ⟨ready_of rfl true, rfl, rfl, rfl, rfl, rfl⟩

/-- The values of both frame-class statements, at the bounds of their ranges: tone frequencies, actions, and windows of
0 frames, 1 frame, one reach (an hour) and 1 frame more. -/
theorem witness_FrameClassValues :
    (∀ w ∈ [((-1 : Int), 30), (299, 30), (300, 30), (304, 30), (305, 30), (306, 31), (315, 32), (2995, 300), (3000, 300),
        (3001, 300)], roundsToTens w.1 w.2)
      ∧ 3 < (4 : Byte).toNat ∧ (2 : BitVec 32) ≠ 0 ∧ (2 : BitVec 32) ≠ 1
      ∧ labelOutOfRange .std24 ⟨0, 0, 0, 24, 0⟩ ∧ labelOutOfRange .std24 ⟨0, 0, 0, 0, 1000⟩
      ∧ (let pos (st : Stamp) := ((takeStamp .std24 .nearestEven st).map (·.pos)).getD 0
        let span (st : Stamp) := Standard.dist .std24 (pos st) (pos ⟨23, 0, 0, 0, 0⟩)
        (∀ st ∈ [(⟨23, 0, 0, 0, 0⟩ : Stamp), ⟨23, 0, 0, 1, 0⟩, ⟨0, 0, 0, 0, 0⟩, ⟨0, 0, 0, 1, 0⟩],
          (takeStamp .std24 .nearestEven st).isSome = true)
          ∧ span ⟨23, 0, 0, 0, 0⟩ = 0 ∧ span ⟨23, 0, 0, 1, 0⟩ = 2 ^ 32 ∧ span ⟨0, 0, 0, 0, 0⟩ = Standard.reach .std24
          ∧ span ⟨0, 0, 0, 1, 0⟩ = Standard.reach .std24 + 2 ^ 32) := by
  unfold roundsToTens labelOutOfRange
  decide +kernel

/-- The part with the staging hold 1. -/
def held : State := { fresh with settings := { Settings.reset with stagingHold := true, staging := [.bandLow 95] } }

theorem witness_FrameClassWriteWaitsInMotionOrHold :
    rolling.ready hd ∧ held.ready hd ∧ hd.service = true ∧ (selectRounding rolling.settings.rounding 7).isSome = true
      ∧ rolling.atRest = false ∧ held.settings.stagingHold = true
      ∧ selectRounding rolling.settings.rounding 7 = some .nearestEven
      ∧ (∀ f ∈ [Staged.bandLow 95], f.id ≠ (Staged.bandHigh 120).id)
      ∧ (Staged.bandLow 95).id = (Staged.bandLow 92).id
      ∧ (∀ x ∈ [Staged.cycleAction .wrap] ++ [Staged.toneFrequency 2 1200], x.id ≠ (Staged.bandLow 92).id) := by
  refine ⟨ready_of rfl true, ready_of rfl true, ?_⟩
  decide +kernel

theorem witness_StagingHoldWriteReleasesTheList :
    held.ready hd ∧ (selectRounding held.settings.rounding 7).isSome = true ∧ held.atRest = true
      ∧ held.settings.staging ≠ [] ∧ rolling.ready hd ∧ rolling.atRest = false ∧ fresh.settings.staging = [] := by
  refine ⟨ready_of rfl true, rfl, rfl, by decide, ready_of rfl true, rfl, rfl⟩

/-- The part in STANDBY. -/
def resting : State := { fresh with settings := { Settings.reset with engineMode := .standby } }

theorem noTake_fresh : fresh.noTakeOpen := by intro i; fin_cases i <;> rfl

theorem quiet_fresh : fresh.quiet := ⟨noTake_fresh, rfl, rfl⟩

theorem witness_EngineModeWritesTakeEffect :
    fresh.ready hd ∧ (selectRounding fresh.settings.rounding 7).isSome = true ∧ 2 < (3 : Byte).toNat
      ∧ resting.ready hd ∧ resting.settings.engineMode = .standby
      ∧ rolling.ready hd ∧ rolling.settings.engineMode ≠ .standby ∧ rolling.atRest = false
      ∧ fresh.noTakeOpen ∧ fresh.feeds.anyStreamer = false ∧ fresh.settings.engineMode ≠ .standby
      ∧ fresh.atRest = true :=
  ⟨ready_of rfl true, rfl, by decide, ready_of rfl true, rfl, ready_of rfl true, by decide, rfl, noTake_fresh, rfl,
    by decide, rfl⟩

theorem witness_LeavingRecordClosesEveryTake :
    recording.ready hd ∧ recording.sound ∧ (selectRounding recording.settings.rounding 7).isSome = true
      ∧ recording.settings.engineMode = .record ∧ recording.atRest = true ∧ (recording.lane 2).openTake = some 0 :=
  ⟨ready_of rfl true, recording_sound, rfl, rfl, rfl, rfl⟩

theorem witness_PictureStandardWriteStartsANewDay :
    fresh.ready hd ∧ (selectRounding fresh.settings.rounding 7).isSome = true ∧ 3 < (4 : Byte).toNat
      ∧ cued.ready hd ∧ ¬(cued.table = [] ∧ cued.atRest = true ∧ ∀ i, (cued.lane i).state = .idle)
      ∧ (fresh.table = [] ∧ fresh.atRest = true ∧ ∀ i, (fresh.lane i).state = .idle)
      ∧ Standard.std24 = fresh.settings.standard ∧ Standard.std30df ≠ fresh.settings.standard
      ∧ fresh.noTakeOpen ∧ fresh.settings.source ≠ .localGen :=
  ⟨ready_of rfl true, rfl, by decide, ready_of rfl true, fun h => by simpa [cued] using h.1,
    ⟨rfl, rfl, fun i => by fin_cases i <;> rfl⟩, rfl, by decide, noTake_fresh, by decide⟩

theorem witness_PullDownAndSampleRateWrites :
    fresh.ready hd ∧ (selectRounding fresh.settings.rounding 7).isSome = true
      ∧ twoTakes.ready hd ∧ twoTakes.log.openCount ≠ 0 ∧ (44100 : BitVec 32) ≠ 48000 ∧ (44100 : BitVec 32) ≠ 96000
      ∧ fresh.log.openCount = 0 ∧ fresh.settings.standard.forcedPullDown.getD (decide ((0 : BitVec 32) ≠ 0)) = false
      ∧ fresh.settings.standard.forcedPullDown.getD (decide ((1 : BitVec 32) ≠ 0)) = true
      ∧ fresh.settings.pullDown = false ∧ fresh.noTakeOpen ∧ fresh.settings.source ≠ .localGen
      ∧ (fresh.tracker.spd.natAbs : Int) ≤ 32 * nominalSpeed fresh.settings.standard true fresh.settings.sampleRate
      ∧ SampleRate.hz96000 ≠ fresh.settings.sampleRate
      ∧ (fresh.tracker.spd.natAbs : Int) ≤ 32 * nominalSpeed fresh.settings.standard fresh.settings.pullDown .hz96000 :=
  ⟨ready_of rfl true, rfl, ready_of rfl true, by decide, by decide, by decide, rfl, rfl, rfl, rfl, noTake_fresh,
    by decide, by decide +kernel, by decide, by decide +kernel⟩

/-- The part in LOCAL, STOPPED. -/
def atLocal : State :=
  { fresh with
    settings := { Settings.reset with source := .localGen, localRatio := 0 }
    tracker := { Tracker.reset with state := .stopped } }

theorem noneArmed_fresh : fresh.noneArmed := by intro i; fin_cases i <;> decide

theorem witness_SourceWriteChangesTheSource :
    fresh.ready ⟨.binary, 7, false⟩ ∧ fresh.ready hd ∧ (selectRounding fresh.settings.rounding 7).isSome = true
      ∧ 2 < (3 : Byte).toNat ∧ rolling.ready hd ∧ ¬(rolling.atRest = true ∧ rolling.noneArmed)
      ∧ fresh.atRest = true ∧ fresh.noneArmed ∧ fresh.settings.source ≠ .codeIn ∧ fresh.settings.source ≠ .localGen
      ∧ fresh.quiet ∧ atLocal.ready hd ∧ atLocal.settings.source ≠ .tach ∧ atLocal.atRest = true ∧ atLocal.noneArmed :=
  ⟨ready_of rfl false, ready_of rfl true, rfl, by decide, ready_of rfl true, fun h => absurd h.1 (by decide), rfl,
    noneArmed_fresh, by decide, by decide, quiet_fresh, ready_of rfl true, by decide, rfl, noneArmed_fresh⟩

theorem witness_LocalRatioWriteSetsTheSpeed :
    let spd (s : State) (w : Int) := (roundQ s.settings.rounding (s.nominal * w) 1000).value
    fresh.ready hd ∧ fresh.settings.source ≠ .localGen ∧ (selectRounding fresh.settings.rounding 7).isSome = true
      ∧ rolling.ready hd ∧ rolling.settings.source = .localGen ∧ rolling.tracker.clockLost = false ∧ rolling.quiet
      ∧ rolling.tracker.state = .moving ∧ spd rolling (-16000) ≠ 0 ∧ spd rolling 0 = 0
      ∧ atLocal.ready hd ∧ atLocal.settings.source = .localGen ∧ atLocal.tracker.clockLost = false ∧ atLocal.quiet
      ∧ atLocal.tracker.state = .stopped ∧ spd atLocal 16000 ≠ 0 ∧ spd atLocal 0 = 0 :=
  ⟨ready_of rfl true, by decide, rfl, ready_of rfl true, rfl, rfl, quiet_fresh, rfl, by decide +kernel, by decide +kernel,
    ready_of rfl true, rfl, rfl, quiet_fresh, rfl, by decide +kernel, by decide +kernel⟩

theorem witness_TachAndRoundingWrites :
    fresh.ready hd ∧ fresh.ready ⟨.binary, 7, false⟩ ∧ (selectRounding fresh.settings.rounding 7).isSome = true
      ∧ rolling.ready hd ∧ rolling.atRest = false ∧ fresh.atRest = true ∧ fresh.settings.source ≠ .localGen
      ∧ (-1 : BitVec 32).toInt < 0 ∧ 4 < (5 : BitVec 32).toInt :=
  ⟨ready_of rfl true, ready_of rfl false, rfl, ready_of rfl true, rfl, rfl, by decide, by decide, by decide⟩

theorem witness_BitRequestsChangeTheMarkedPositions : fresh.ready hd ∧ (0x0A : Byte) ≠ 0x08 ∧ (0x0A : Byte) ≠ 0x0F :=
  ⟨ready_of rfl true, by decide, by decide⟩

/-! ### Cues -/

theorem witness_CueSeekSetsBankAndCursor : fresh.ready hd := ready_of rfl true

theorem slotAt_cued {n : Nat} {v : Slot} (h : slotAt cued.table n = some v) : n = 5 ∧ v = slotOf refCue 0 0 := by
  simp only [cued, slotAt] at h
  split at h
  · exact ⟨by omega, by simpa using h.symm⟩
  · cases h

theorem cued_sound : cued.sound := by
  refine ⟨rfl, fun i => ?_, ⟨by decide, by decide, by decide, by decide⟩, ⟨by decide, trivial⟩⟩
  fin_cases i <;> refine ⟨?_, ?_, ?_, ?_⟩ <;> decide +kernel

theorem witness_AddressingFormsNameTheirSlots :
    cued.sound ∧ cued.labelsSound ∧ slotAt cued.table 5 = some (slotOf refCue 0 0)
      ∧ (slotOf refCue 0 0).live.label = 1040 ∧ (∀ k v, slotAt cued.table k = some v → v.live.label ≠ 1041)
      ∧ (4 : Byte) ≠ 2 := by
  refine ⟨cued_sound, fun m n v w hm hn x => ?_, rfl, rfl, fun k v h => ?_, by decide⟩
  · exact absurd ((slotAt_cued hm).1.trans (slotAt_cued hn).1.symm) x
  · rw [(slotAt_cued h).2]
    decide

/-- The reference cue with a pending copy. -/
def editing : State := { fresh with table := [(5, { slotOf refCue 1 1 with pending := some { refCue with label := 213 } })] }

theorem witness_CueReadReportsSlots :
    cued.ready hd ∧ 4 < (5 : Byte).toNat ∧ 511 < (512 : BitVec 16).toNat ∧ (2 : Byte) ≠ 1 ∧ 1 < (2 : Byte).toNat
      ∧ selectRounding cued.settings.rounding 5 = none ∧ selectRounding cued.settings.rounding 7 = some .nearestEven
      ∧ (511 : BitVec 16).toNat ≤ 511 ∧ slotAt cued.table (511 : BitVec 16).toNat = none
      ∧ slotAt cued.table (5 : BitVec 16).toNat = some (slotOf refCue 0 0) ∧ (slotOf refCue 0 0).pending = none
      ∧ editing.ready hd ∧ (slotAt editing.table 5).bind (·.pending) = some { refCue with label := 213 }
      ∧ 1 ≤ (1 : Byte).toNat ∧ (4 : Byte).toNat ≤ 4 :=
  ⟨ready_of rfl true, by decide, by decide, by decide, by decide, rfl, rfl, by decide, rfl, rfl, rfl, ready_of rfl true,
    rfl, by decide, by decide⟩

theorem witness_CueWriteCreatesACue :
    cued.ready hd ∧ (511 : BitVec 16).toNat ≤ 511 ∧ slotAt cued.table (511 : BitVec 16).toNat = none
      ∧ selectRounding cued.settings.rounding 0 = some .nearestEven
      ∧ noGroups.info = false ∧ noGroups.label = none
      ∧ takeStamp .std24 .nearestEven ⟨24, 0, 0, 0, 0⟩ = none
      ∧ (takeStamp .std24 .nearestEven ⟨23, 59, 59, 23, 999⟩).isSome = true
      ∧ (∃ e ∈ cued.table, e.1 ≠ (511 : BitVec 16).toNat
          ∧ (e.2.live.label = 1040 ∨ e.2.pending.map (·.label) = some 1040))
      ∧ (∀ e ∈ cued.table, e.2.live.label ≠ 1041 ∧ e.2.pending.map (·.label) ≠ some 1041) := by
  refine ⟨ready_of rfl true, ?_⟩
  decide +kernel

theorem witness_CueWriteKeepsUnselectedGroups :
    cued.ready hd ∧ (5 : BitVec 16).toNat ≤ 511 ∧ slotAt cued.table (5 : BitVec 16).toNat = some (slotOf refCue 0 0)
      ∧ (slotOf refCue 0 0).legal cued.settings.standard ∧ (selectRounding cued.settings.rounding 7).isSome = true
      ∧ 1 < (2 : Byte).toNat ∧ (slotOf refCue 0 0).expansions = 0
      ∧ recording.ready hd ∧ slotAt recording.table (5 : BitVec 16).toNat = some (slotOf refCue 1 1)
      ∧ (slotOf refCue 1 1).legal recording.settings.standard ∧ (slotOf refCue 1 1).expansions ≠ 0 :=
  ⟨ready_of rfl true, by decide, rfl, slotOf_legal 0 0, rfl, by decide, rfl, ready_of rfl true, rfl, slotOf_legal 1 1,
    by decide⟩

theorem witness_CueEraseEmptiesAnUnusedSlot :
    cued.ready hd ∧ cued.sound ∧ cued.refsOf (5 : BitVec 16).toNat = 0
      ∧ recording.ready hd ∧ recording.sound ∧ recording.refsOf (5 : BitVec 16).toNat ≠ 0 :=
  ⟨ready_of rfl true, cued_sound, rfl, ready_of rfl true, recording_sound, by decide⟩

/-! ### Run lists, lanes, positions and takes -/

theorem threeCues_sound : (threeCues 1).sound := by
  refine ⟨rfl, fun i => ?_, ⟨by decide, by decide, by decide, by decide⟩, ⟨by decide, trivial⟩⟩
  fin_cases i <;> refine ⟨?_, ?_, ?_, ?_⟩ <;> decide +kernel

theorem witness_RunlistWriteReplacesTheList :
    (threeCues 1).ready hd ∧ (threeCues 1).sound ∧ ((threeCues 1).lane 2).runList.Nodup
      ∧ ((threeCues 1).lane 2).state ≠ .armed ∧ ([5, 6] : List (BitVec 16)).length ≤ 16
      ∧ (([5, 6] : List (BitVec 16)).map BitVec.toNat).Nodup
      ∧ (∀ n ∈ ([5, 6] : List (BitVec 16)), (slotAt (threeCues 1).table n.toNat).isSome = true)
      ∧ ∀ a b, [a, b] <:+: ([5, 6] : List (BitVec 16)).map BitVec.toNat → (threeCues 1).pairOk a b = true := by
  refine ⟨ready_of rfl true, threeCues_sound, by decide, by decide, by decide, by decide, fun n hn => ?_, fun a b h => ?_⟩
  · simp only [List.mem_cons, List.not_mem_nil, or_false] at hn
    rcases hn with rfl | rfl <;> rfl
  · have e : [a, b] = [5, 6] := h.eq_of_length rfl
    simp only [List.cons.injEq, and_true] at e
    rw [e.1, e.2]
    decide +kernel

/-- The three cues with the first an open one. -/
def openFirst : State :=
  { threeCues 3 with
    table := [(5, slotOf { refCue with outPoint := none } 0 0), (6, slotOf { refCue with label := 1041 } 0 0)] }

theorem witness_RunlistWriteRefusals :
    fresh.ready hd ∧ 8 ≤ (8 : Byte).toNat ∧ 16 < (List.replicate 17 (0 : BitVec 16)).length
      ∧ 511 < (512 : BitVec 16).toNat ∧ (2 : LaneId).val = (2 : Byte).toNat
      ∧ recording.ready hd ∧ (recording.lane 2).state = .armed
      ∧ (threeCues 3).ready hd ∧ ((threeCues 3).lane 2).state ≠ .armed
      ∧ slotAt (threeCues 3).table (8 : BitVec 16).toNat = none
      ∧ (slotAt (threeCues 3).table (5 : BitVec 16).toNat).isSome = true
      ∧ (slotOf refCue 0 0).live.outPoint ≠ none ∧ (threeCues 3).pairOk 5 6 = false
      ∧ openFirst.ready hd ∧ (slotOf { refCue with outPoint := none } 0 0).live.outPoint = none
      ∧ slotAt openFirst.table (6 : BitVec 16).toNat = some (slotOf { refCue with label := 1041 } 0 0) :=
  ⟨ready_of rfl true, by decide, by decide, by decide, rfl, ready_of rfl true, rfl, ready_of rfl true, by decide, rfl, rfl,
    by decide, by decide +kernel, ready_of rfl true, rfl, rfl⟩

theorem witness_RunlistReadReportsTheList :
    recording.ready hd ∧ 8 ≤ (8 : Byte).toNat ∧ (7 : LaneId).val = (7 : Byte).toNat :=
  ⟨ready_of rfl true, by decide, rfl⟩

theorem witness_LaneReadReportsTheRecord :
    recording.ready hd ∧ 8 ≤ (8 : Byte).toNat ∧ (2 : LaneId).val = (2 : Byte).toNat ∧ (recording.lane 2).state = .armed
      ∧ (recording.lane 2).runList[(recording.lane 2).index]? = some 5
      ∧ slotAt recording.table 5 = some (slotOf refCue 1 1) ∧ (recording.lane 7).state ≠ .armed :=
  ⟨ready_of rfl true, by decide, rfl, rfl, rfl, rfl, by decide⟩

theorem witness_LaneArmExpandsTheFirstEntry :
    fresh.ready hd ∧ 8 ≤ (8 : Byte).toNat ∧ (2 : LaneId).val = (2 : Byte).toNat
      ∧ recording.ready hd ∧ (recording.lane 2).state = .armed ∧ (fresh.lane 2).runList = []
      ∧ fresh.tracker.state = .unreferenced
      ∧ listed.ready hd ∧ (listed.lane 2).state ≠ .armed ∧ listed.tracker.state ≠ .unreferenced
      ∧ (listed.lane 2).runList = 5 :: [] ∧ slotAt listed.table 5 = some (slotOf refCue 1 0)
      ∧ (listed.lane 2).openTake = none ∧ (listed.lane 2).punchLine = false ∧ listed.feeds.copies.get 2 = LaneCopy.off
      ∧ (∀ e, (expandCue listed.settings.standard (slotOf refCue 1 0).live listed.lead).head? = some e →
          listed.settings.standard.dist listed.tracker.pos e.target < 0
            ∨ listed.settings.standard.reach ≤ listed.settings.standard.dist listed.tracker.pos e.target) := by
  refine ⟨ready_of rfl true, by decide, rfl, ready_of rfl true, rfl, rfl, rfl, ready_of rfl true, by decide, by decide, rfl,
    rfl, rfl, rfl, rfl, fun e h => ?_⟩
  have x : (expandCue listed.settings.standard (slotOf refCue 1 0).live listed.lead).head? =
      some { kind := .beepOn, beep := 3, target := 86580 * frameUnits + 2147483648 } := by decide +kernel
  rw [x, Option.some.injEq] at h
  subst h
  decide +kernel

/-- The three cues in LOCAL at Spd_nom, 1 pu before the CUE_END of slot 5, with lane 2 on it as the first of a list. -/
def beforeEnd (beeps : Nat) (list : List Nat) : State :=
  { threeCues beeps with
    settings := rolling.settings
    tracker := { rolling.tracker with pos := 86738 * frameUnits }
    lanes := (Eight.all Lane.reset).set 2
      { Lane.reset with state := .armed, runList := list, queue := [⟨.cueEnd, 0, 86738 * frameUnits + 1⟩] } }

/-- A CUE_END that ends a list, or is followed by an entry that passes the overlap test, or by one that fails it. -/
theorem witness_LaneArmExpandsTheFirstEntry_advance :
    let s := beforeEnd 1 [5]
    (s.stepping ∧ s.settings.cycleAction = .off ∧ frameOf s.steppedPos = frameOf s.tracker.pos ∧ s.onlyLane 2
      ∧ (s.lane 2).state = .armed ∧ (s.lane 2).runList[(s.lane 2).index]? = some 5 ∧ (s.lane 2).openTake = none
      ∧ (s.lane 2).punchLine = false ∧ (s.lane 2).queue = [⟨.cueEnd, 0, 86738 * frameUnits + 1⟩]
      ∧ retires .std24 s.steppedPos (86738 * frameUnits + 1) ∧ (s.lane 2).stack.head? = none
      ∧ (s.lane 2).runList[(s.lane 2).index + 1]? = none)
    ∧ ∀ b ∈ [(1 : Nat), 3],
      let u := beforeEnd b [5, 6]
      let next := slotAt (changeSlot u.table 5 Slot.drop) 6
      (u.lane 2).runList[(u.lane 2).index + 1]? = some 6 ∧ (u.lane 2).runList[(u.lane 2).index + 2]? = none
        ∧ next.isSome = true
        ∧ (∀ w ∈ next.toList,
          overlapOk .std24 (w.live.originPos .std24 u.lead) (86738 * frameUnits + 1) = decide (b = 1)
            ∧ (b = 1 →
              ∀ f ∈ (expandCue .std24 w.live u.lead).head?.toList, ¬retires .std24 u.steppedPos f.target)) := by
  unfold State.stepping State.onlyLane retires
  decide +kernel

/-- The part in LOCAL at Spd_nom, 1 pu before the end of its cycle window, under a cycle action. -/
def cycling (a : CycleAction) : State :=
  { rolling with
    settings := { rolling.settings with
      cycleAction := a, autoRearm := true, cycleStart := 86568 * frameUnits, cycleEnd := 86740 * frameUnits }
    tracker := { rolling.tracker with pos := 86740 * frameUnits - 1 }
    table := [(5, slotOf refCue 1 1)] }

/-- The wrap with lane 2 ARMED and in a take, or DONE. -/
def wrapping (l : Lane) : State := { cycling .wrap with lanes := (Eight.all Lane.reset).set 2 l }

theorem witness_LaneArmExpandsTheFirstEntry_rearm :
    ∀ l ∈ [(recording.lane 2), { Lane.reset with state := .done, runList := [5] }],
      let s := wrapping l
      let dropped := match (s.lane 2).currentSlot with
        | some m => changeSlot s.table m Slot.drop
        | none => s.table
      s.stepping ∧ s.settings.cycleAction = .wrap ∧ s.settings.autoRearm = true
        ∧ s.crossing s.tracker.pos s.steppedPos ∧ s.settings.standbyPending = false ∧ s.settings.staging = []
        ∧ s.onlyLane 2 ∧ (s.lane 2).state ≠ .idle ∧ (s.lane 2).runList = 5 :: []
        ∧ (s.lane 2).punchLine = (s.lane 2).openTake.isSome ∧ (slotAt dropped 5).isSome = true
        ∧ ∀ w ∈ (slotAt dropped 5).toList, ∀ f ∈ (expandCue .std24 w.live s.lead).head?.toList,
          ¬retires .std24 (Standard.into .std24 (86568 * frameUnits + Standard.dist .std24 s.steppedPos (86740 * frameUnits)))
            f.target := by
  unfold State.stepping State.crossing State.onlyLane retires
  decide +kernel

/-- The part with lane 2 ARMED on the reference cue and nothing shown. -/
def armedLane : State :=
  { recording with
    log := { records := [], nextSerial := 0 }
    lanes := (Eight.all Lane.reset).set 2 { Lane.reset with state := .armed, runList := [5] } }

/-- The part with lane 2 DONE. -/
def doneLane : State :=
  { recording with lanes := (Eight.all Lane.reset).set 2 { Lane.reset with state := .done, runList := [5] } }

theorem witness_LaneDisarmReturnsTheLaneToIdle :
    fresh.ready hd ∧ 8 ≤ (8 : Byte).toNat ∧ (2 : LaneId).val = (2 : Byte).toNat ∧ (fresh.lane 2).state = .idle
      ∧ doneLane.ready hd ∧ (doneLane.lane 2).state = .done
      ∧ armedLane.ready hd ∧ (armedLane.lane 2).state = .armed
      ∧ (armedLane.lane 2).runList[(armedLane.lane 2).index]? = some 5 ∧ (armedLane.lane 2).openTake = none
      ∧ (armedLane.lane 2).punchLine = false ∧ armedLane.feeds.copies.get 2 = LaneCopy.off
      ∧ recording.ready hd ∧ (recording.lane 2).state = .armed ∧ (recording.lane 2).openTake = some 0 :=
  ⟨ready_of rfl true, by decide, rfl, rfl, ready_of rfl true, rfl, ready_of rfl true, rfl, rfl, rfl, rfl, rfl,
    ready_of rfl true, rfl, rfl⟩

theorem witness_PositionRequests :
    fresh.ready hd ∧ selectRounding fresh.settings.rounding 6 = none
      ∧ selectRounding fresh.settings.rounding 7 = some .nearestEven
      ∧ takeStamp fresh.settings.standard .nearestEven ⟨0, 0, 0, 24, 0⟩ = none
      ∧ (takeStamp fresh.settings.standard .nearestEven ⟨23, 59, 59, 23, 999⟩).isSome = true
      ∧ fresh.settings.source = .tach ∧ fresh.tracker.state = .unreferenced
      ∧ (∀ i, (fresh.lane i).state = .idle) ∧ fresh.noTakeOpen
      ∧ rolling.ready hd ∧ rolling.tracker.state ≠ .unreferenced :=
  ⟨ready_of rfl true, rfl, rfl, by decide +kernel, by decide +kernel, rfl, rfl, fun i => by fin_cases i <;> rfl,
    noTake_fresh, ready_of rfl true, by decide⟩

theorem witness_LabelsAndStampsRoundTrip :
    2589407 < Standard.std30df.dayFrames ∧ labelInRange .std30df 0 1 0 2 = true ∧ isOmitted .std30df 1 0 2 = false
      ∧ (takeStamp .std30df .down ⟨0, 1, 0, 1, 875⟩).isSome = true ∧ (875 : BitVec 16).toNat % 125 = 0 := by
  decide +kernel

theorem witness_TakeRequestsReadAndRelease :
    twoTakes.ready hd ∧ 63 < (64 : Byte).toNat ∧ (0 : Byte) = 0 ∧ 4 < (5 : Byte).toNat
      ∧ selectRounding twoTakes.settings.rounding 5 = none ∧ (63 : Byte).toNat ≤ 63 ∧ 1 ≤ (1 : Byte).toNat
      ∧ (4 : Byte).toNat ≤ 4 ∧ selectRounding twoTakes.settings.rounding 0 = some .nearestEven
      ∧ 64 < (65 : Byte).toNat ∧ (64 : Byte).toNat ≤ 64 := by
  refine ⟨ready_of rfl true, ?_⟩
  decide +kernel

/-! ### Motion -/

theorem witness_WordClockSampleMoves :
    (rolling.tracker.clockLost = false ∧ rolling.tracker.sampleBegun = false ∧ rolling.settings.source = .localGen
      ∧ rolling.tracker.state = .moving ∧ rolling.tracker.spd ≠ 0 ∧ (∀ i, (rolling.lane i).state = .idle)
      ∧ rolling.quiet ∧ rolling.settings.cycleAction = .off
      ∧ frameOf (Standard.std24.into ((rolling.tracker.pos : Int) + rolling.tracker.spd)) = frameOf rolling.tracker.pos)
    ∧ (let s := { rolling with tracker := { rolling.tracker with pos := 86569 * frameUnits - 1 } }
      s.tracker.spd ≠ 0 ∧ s.feeds.coutSending = none
        ∧ frameOf (Standard.std24.into ((s.tracker.pos : Int) + s.tracker.spd)) ≠ frameOf s.tracker.pos)
    ∧ (let s := { fresh with settings := { Settings.reset with source := .codeIn } }
      s.settings.source = .codeIn ∧ s.tracker.state = .unreferenced ∧ s.tracker.dropoutTimer = none
        ∧ s.tracker.anchorTaken = false)
    ∧ let s := { fresh with
                 settings := { Settings.reset with tachFilter := 1 },
                 tracker := { Tracker.reset with decoder := { Decoder.reset with settle := false } } }
      s.settings.source = .tach ∧ s.tracker.state = .unreferenced ∧ s.settings.tachFilter ≤ 1
        ∧ s.tracker.decoder = ⟨⟨false, 0⟩, ⟨false, 0⟩, ⟨false, 0⟩, false⟩ ∧ s.tracker.origin = none :=
  ⟨⟨rfl, rfl, rfl, rfl, by decide, fun i => by fin_cases i <;> rfl, quiet_fresh, rfl, by decide +kernel⟩,
    ⟨by decide, rfl, by decide +kernel⟩, ⟨rfl, rfl, rfl, rfl⟩, ⟨rfl, rfl, by decide, rfl, rfl⟩⟩

theorem witness_WordClockSampleMoves_crossing :
    ∀ a ∈ [CycleAction.off, .notify, .wrap, .halt],
      (cycling a).stepping ∧ (cycling a).crossing (cycling a).tracker.pos (cycling a).steppedPos
        ∧ (cycling a).settings.cycleAction = a := by
  unfold State.stepping State.crossing
  decide +kernel

/-- The part at Spd_nom under a source, with lines low and the estimate origin 250 samples back, L `back` frames behind. -/
def chasing (src : Source) (state : TrackerState) (back : Nat) : State :=
  { rolling with
    settings := { Settings.reset with source := src }
    tracker := { rolling.tracker with
      state := state, lastAnchor := (86568 - back) * frameUnits, count := 249, origin := some ⟨0, 0⟩,
      decoder := ⟨⟨false, 0⟩, ⟨false, 0⟩, ⟨false, 0⟩, false⟩ } }

theorem witness_WordClockSampleMoves_external :
    (∀ s ∈ [chasing .codeIn .moving 0, chasing .tach .moving 0, chasing .codeIn .coasting 0, chasing .codeIn .coasting 10],
      s.tracker.clockLost = false ∧ s.tracker.sampleBegun = false ∧ s.settings.cycleAction = .off
        ∧ (∀ i, (s.lane i).state = .idle) ∧ (∀ i, (s.lane i).openTake = none) ∧ s.settings.standbyPending = false
        ∧ s.settings.staging = [] ∧ s.tracker.anchorTaken = false ∧ s.tracker.spd ≠ 0 ∧ s.tracker.dropoutTimer = none
        ∧ s.tracker.stallTimer = none ∧ s.settings.tachFilter ≤ 2
        ∧ s.tracker.decoder = ⟨⟨false, 0⟩, ⟨false, 0⟩, ⟨false, 0⟩, false⟩ ∧ s.tracker.origin = some ⟨0, 0⟩)
      ∧ (let s := chasing .codeIn .coasting 0
        (Standard.dist .std24 s.steppedPos s.tracker.lastAnchor).natAbs < s.settings.coastLimit * 2 ^ 32)
      ∧ let s := chasing .codeIn .coasting 10
        s.settings.coastLimit * 2 ^ 32 ≤ (Standard.dist .std24 s.steppedPos s.tracker.lastAnchor).natAbs := by
  decide +kernel

theorem witness_EverySampleFormsItsToneFrame :
    exec (.wordClockSample 0 0 0) fresh = .next (after (.wordClockSample 0 0 0) fresh) := rfl

theorem witness_PunchInOpensATake :
    let s := beforePunch
    let std := s.settings.standard
    let p1 := std.into ((s.tracker.pos : Int) + s.tracker.spd)
    let e : Event := { kind := .punchIn, beep := 0, target := 86652 * frameUnits + 1597727744 }
    let rest := (expandCue .std24 refCue 549755904).drop 8
    let l := s.lane 2
    s.tracker.clockLost = false ∧ s.tracker.sampleBegun = false ∧ s.settings.source = .localGen
      ∧ s.tracker.state = .moving ∧ s.inPlay = true ∧ s.settings.engineMode = .record ∧ s.settings.cycleAction = .off
      ∧ frameOf p1 = frameOf s.tracker.pos ∧ 0 ≤ std.dist p1 s.tracker.pos ∧ std.dist p1 s.tracker.pos < std.reach
      ∧ tableWf s.table = true ∧ (∀ j, j ≠ 2 → (s.lane j).state = .idle) ∧ l.state = .armed
      ∧ l.runList[l.index]? = some 5 ∧ slotAt s.table 5 = some (slotOf refCue 1 1) ∧ (slotOf refCue 1 1).takes < 999
      ∧ l.stack = [] ∧ l.openTake = none ∧ l.queue = e :: rest ∧ e.kind = .punchIn
      ∧ std.dist s.tracker.pos e.target < 0 ∧ 0 ≤ std.dist p1 e.target ∧ std.dist p1 e.target < std.reach
      ∧ (∀ f ∈ rest.head?, std.dist p1 f.target < 0) ∧ s.log.records.length < 64
      ∧ 64 ≤ (List.replicate 64 (takeOf 0 none)).length := by decide +kernel

/-- Lane 2 in the take that PUNCH_IN opened, at a speed, with the events from `k` on to come. -/
def inTake (spd : Int) (pos k : Nat) : State :=
  { beforePunch with
    tracker := { rolling.tracker with pos := pos, lastAnchor := 0, spd := spd }
    log := { records := [takeOf 0 none], nextSerial := 1 }
    lanes := (Eight.all Lane.reset).set 2
      { Lane.reset with
        state := .armed, runList := [5], openTake := some 0, punchLine := true
        queue := (expandCue .std24 refCue 549755904).drop k
        stack := [⟨⟨.punchIn, 0, 86652 * frameUnits + 1597727744⟩, true⟩] } }

/-- A step over PUNCH_OUT in the play state, and a step back over the PUNCH_IN. -/
theorem witness_PunchInOpensATake_ends :
    let s := inTake 2147484 (86737 * frameUnits + 3745211391) 9
    let u := inTake (-2147484) (86652 * frameUnits + 1597727745) 8
    (∀ v ∈ [s, u], v.stepping ∧ v.settings.cycleAction = .off ∧ frameOf v.steppedPos = frameOf v.tracker.pos
        ∧ v.onlyLane 2 ∧ (v.lane 2).state = .armed ∧ (v.lane 2).runList[(v.lane 2).index]? = some 5
        ∧ (v.lane 2).punchLine = (v.lane 2).openTake.isSome ∧ (v.lane 2).openTake = some 0)
      ∧ (s.inPlay = true ∧ s.settings.engineMode ≠ .standby ∧ 0 ≤ Standard.dist .std24 s.steppedPos s.tracker.pos
        ∧ Standard.dist .std24 s.steppedPos s.tracker.pos < Standard.reach .std24)
      ∧ (s.lane 2).queue = [⟨.punchOut, 0, 86737 * frameUnits + 3745211392⟩, ⟨.cueEnd, 0, 86738 * frameUnits⟩]
      ∧ retires .std24 s.steppedPos (86737 * frameUnits + 3745211392) ∧ ¬retires .std24 s.steppedPos (86738 * frameUnits)
      ∧ ¬returns .std24 s.steppedPos (86652 * frameUnits + 1597727744)
      ∧ Standard.dist .std24 u.steppedPos u.tracker.pos < 0
      ∧ returns .std24 u.steppedPos (86652 * frameUnits + 1597727744) := by
  unfold State.stepping State.onlyLane retires returns
  decide +kernel

theorem witness_TimersActAtTheirLimit :
    let tach := { rolling with
                  settings := { Settings.reset with source := .tach },
                  tracker := { rolling.tracker with stallTimer := some 9599 } }
    let code := { rolling with
                  settings := { Settings.reset with source := .codeIn },
                  tracker := { rolling.tracker with dropoutTimer := some 3999 } }
    let still := { listed with feeds := { Feeds.reset with holdTimer := some 1999 } }
    tach.tracker.clockLost = false ∧ tach.settings.source = .tach ∧ tach.beginSample.tracker.stallTimer = some 9600
      ∧ tach.settings.stallTimeout ≤ 9600 ∧ tach.tracker.state = .moving ∧ tach.quiet
      ∧ code.settings.source = .codeIn ∧ code.beginSample.tracker.dropoutTimer = some 4000
      ∧ code.tracker.recordInterval = none
      ∧ 2 * (code.settings.sampleRate.hz / code.settings.standard.fps) ≤ 4000 ∧ code.tracker.state = .moving
      ∧ still.settings.source = .localGen ∧ still.beginSample.feeds.holdTimer = some 2000
      ∧ still.settings.sampleRate.hz / still.settings.standard.fps ≤ 2000 ∧ still.tracker.state = .stopped :=
  ⟨rfl, rfl, rfl, by decide, rfl, quiet_fresh, rfl, rfl, rfl, by decide, rfl, rfl, rfl, by decide, rfl⟩

theorem witness_ClockLossAndReturn :
    let lost := { rolling with tracker := { rolling.tracker with clockLost := true, spd := 0, state := .stopped } }
    lost.tracker.clockLost = true ∧ fresh.tracker.clockLost = false ∧ fresh.tracker.state = .unreferenced
      ∧ rolling.tracker.state ≠ .unreferenced ∧ rolling.quiet
      ∧ recording.tracker.clockLost = false ∧ recording.tracker.state ≠ .unreferenced ∧ recording.sound
      ∧ recording.settings.standbyPending = false ∧ (recording.lane 2).openTake = some 0
      ∧ lost.settings.source = .localGen
      ∧ ((roundQ lost.settings.rounding (lost.nominal * lost.settings.localRatio) 1000).value.natAbs : Int)
          ≤ 32 * lost.nominal :=
  ⟨rfl, rfl, rfl, by decide, quiet_fresh, rfl, by decide, recording_sound, rfl, rfl, rfl, by decide +kernel⟩

theorem witness_CodeRecordsReferenceTheTracker :
    let s := { fresh with settings := { Settings.reset with source := .codeIn } }
    2073599 < Standard.std24.dayFrames ∧ s.tracker.cin = none ∧ (∀ b ∈ [(0x00 : Byte), 0xFF], b ≠ 0x5A)
      ∧ s.tracker.clockLost = false ∧ s.settings.source = .codeIn
      ∧ (0x01 : Byte) + 0x00 + 0x0A + 0x0B + 0x00 + 0xEB ≠ 0
      ∧ readCodeRecord .std24 0x01 0x00 0x0A 0x0B 0x00 0xEA =
          some { frame := 86651, hold := false, reverse := false, base := 86652 * frameUnits }
      ∧ s.tracker.state = .unreferenced
      ∧ ({ s with tracker := { s.tracker with cin := some [1] } } : State).tracker.cin.isSome = true
      ∧ s.settings.source ≠ .localGen := by decide +kernel

/-- The part in CODE, MOVING, 2,000 samples after a record based at a frame. -/
def chased (frame : Nat) : State :=
  { chasing .codeIn .moving 0 with
    tracker := { (chasing .codeIn .moving 0).tracker with
      count := 1999, dropoutTimer := some 1999, previous := some ⟨frame * frameUnits, false, 0⟩ } }

/-- A record 1 and 8 frames on is contiguous; one of the same frame, 9 frames on, or 4,001 samples after, is not. -/
theorem witness_CodeRecordsReferenceTheTracker_moving :
    let r : CodeRecord := ⟨86651, false, false, 86652 * frameUnits⟩
    let k (n : Nat) := Standard.dist .std24 r.base (n * frameUnits) / 2 ^ 32
    (∀ n ∈ [86652, 86651, 86644, 86643], (chased n).tracker.cin = none ∧ (chased n).tracker.clockLost = false
        ∧ (chased n).settings.source = .codeIn ∧ (chased n).tracker.state = .moving
        ∧ (chased n).tracker.previous = some ⟨n * frameUnits, false, 0⟩ ∧ (chased n).tracker.origin = some ⟨0, 0⟩
        ∧ (chased n).tracker.dropoutTimer.isSome = true
        ∧ samplesFrom 0 (chased n).beginSample.tracker.count ≤ (chased n).dropoutTimeout)
      ∧ readCodeRecord .std24 0x01 0x00 0x0A 0x0B 0x00 0xEA = some r ∧ r.hold = false
      ∧ k 86652 = 0 ∧ k 86651 = 1 ∧ k 86644 = 8 ∧ k 86643 = 9 ∧ (chased 86651).dropoutTimeout < samplesFrom 0 4001 := by
  decide +kernel

theorem witness_SendersStartTheWaitingRecord :
    State.reset.feeds.ovlSending.isSome = true ∧ State.reset.feeds.coutSending = none
      ∧ (after .ovlSendComplete State.reset).feeds.ovlSending = none
      ∧ (after (.sourceWrite hd 7 2) fresh).feeds.coutSending.isSome = true := by decide +kernel

end Sys2Proof.Machine
end

/-! The positions, stamps and time arithmetic of chapter 1, and the statements about commands that rest on them. First
what a command does as a whole: a request row is its request submitted to the link, and every command but power-on
reset keeps a sound state sound. -/

namespace Sys2Proof.Machine

/-! ## Commands as a whole -/

/-- A row that is a request is that request arriving on the link (R168). -/
theorem exec_of_request {c : Instr} {h : FrameHead} {r : Request} (hc : c.request? = some (h, r)) (s : State) :
    exec c s = .next (s.submit h r) := by
  cases c <;> cases hc <;> rfl

/-- A request row on a ready link is performed at once, and its reply joins the waiting replies. -/
theorem exec_ready {c : Instr} {h : FrameHead} {r : Request} {s : State} (hc : c.request? = some (h, r))
    (hr : s.ready h) :
    exec c s = .next (((s.withService h.service).perform r).1.replied h r.kind
      ((s.withService h.service).perform r).2) := by
  rw [exec_of_request hc, submit_ready hr]

/-- Every command but power-on reset keeps what the link's own steps keep. -/
theorem exec_keeps {c : Instr} {s t : State} (hp : c ≠ .powerOnReset) (hx : exec c s = .next t) : Keeps s t := by
  cases hr : c.request? with
  | some q =>
    rw [exec_of_request (h := q.1) (r := q.2) hr] at hx
    cases hx
    exact submit_keeps s _ _
  | none =>
    have begun := beginSample_evolves s
    cases c <;> simp only [Instr.request?, reduceCtorEq] at hr <;> (injection hx with hx; subst hx)
    case powerOnReset => exact absurd rfl hp
    case resetFull =>
      split
      · exact fullReset_keeps s
      · exact .refl s
    case resetEngine =>
      split
      · exact engineReset_keeps s
      · exact .refl s
    case frameReceived service bytes => exact (withService_keeps s service).trans (receiveBytes_keeps _ bytes)
    case receptionError bytes => exact receiveBytes_keeps s bytes
    case frameGapTimeout => exact frameGap_keeps s
    case transmitComplete service => exact (withService_keeps s service).trans (transmitDone_keeps _)
    case framingStartByte byte => exact receiveByte_keeps s byte
    case wordClockSample ta tb tz => exact (sample_evolves s ta tb tz).keeps
    case codeRecord bytes => exact (cinBytes_evolves s bytes).keeps
    case codeRecordGap => exact (cinGap_evolves s).keeps
    case stall => exact (evolves_ite (fun _ => begun.trans (fireStall_evolves _)) fun _ => .refl s).keeps
    case dropout => exact (evolves_ite (fun _ => begun.trans (fireDropout_evolves _)) fun _ => .refl s).keeps
    case holdTimer => exact (evolves_ite (fun _ => begun.trans (fireHold_evolves _)) fun _ => .refl s).keeps
    case clockLost => exact (evolves_ite (fun _ => .refl s) fun _ => loseClock_evolves s).keeps
    case clockBack => exact (evolves_ite (fun _ => regainClock_evolves s) fun _ => .refl s).keeps
    case ovlSendComplete => exact (evolves_mapFeeds s _).keeps
    case coutSendComplete => exact (evolves_mapFeeds s _).keeps

/-- A step that answers leaves the state it found, or is the front command on the state with the queue's rest. -/
theorem step_eq_next {s t : State} (h : step s = .next t) :
    t = s ∨ ∃ c rest, exec c { s with pending := rest } = .next t := by
  unfold step at h
  split at h
  · cases h; exact .inl rfl
  · exact .inr ⟨_, _, h⟩

/-- Settles O5: power-on reset leaves the reset motion, and every other command keeps the motion of a sound state. -/
theorem stepKeepsMotionWithinTheDay : Obligations.StepKeepsMotionWithinTheDay := by
  intro s t hs hm h
  rcases step_eq_next h with rfl | ⟨c, rest, hx⟩
  · exact hm
  · by_cases hp : c = .powerOnReset
    · subst hp
      cases hx
      exact powerOn_motion _
    · exact (exec_keeps hp hx).motion hs hm

end Sys2Proof.Machine

/-! SETTING_READ (R159, R160). -/

namespace Sys2Proof.Machine

/-! ## Selectors and readings (R11, R159) -/

/-- Outside the cycle window an applied value is reported without a conversion (R159). -/
theorem appliedValue_flags (s : State) {id : Byte} (mode : Rounding) (h : id ≠ 0x0C) :
    (s.appliedValue id mode).2 = OutFlags.clear := by
  unfold State.appliedValue
  dsimp only
  split
  case h_12 heq => exact absurd (BitVec.eq_of_toNat_eq heq) h
  case h_30 => split <;> rfl
  all_goals rfl

/-- A waiting value that is not a window is reported without a conversion (R159). -/
theorem Staged.reported_flags (std : Standard) (mode : Rounding) {e : Staged} (h : e.isWindow = false) :
    (e.reported std mode).2 = OutFlags.clear := by
  cases e with
  | cycleWindow => cases h
  | _ => rfl

/-- An entry of another setting than the cycle window is no window (R154). -/
theorem Staged.isWindow_of_id {e : Staged} (h : e.id ≠ 0x0C) : e.isWindow = false := by
  cases e with
  | cycleWindow => exact absurd rfl h
  | _ => rfl

/-- Outside the cycle window a staged value is reported without a conversion (R159). -/
theorem stagedValue_flags {s : State} {id : Byte} {mode : Rounding} (h : id ≠ 0x0C) {v : ReportedValue × OutFlags}
    (hv : s.stagedValue id mode = some v) : v.2 = OutFlags.clear := by
  unfold State.stagedValue at hv
  split at hv
  · split at hv
    · cases hv; rfl
    · cases hv
  · obtain ⟨e, he, rfl⟩ := Option.map_eq_some_iff.1 hv
    have hid : e.id = id := by simpa using List.find?_some he
    exact Staged.reported_flags _ _ (Staged.isWindow_of_id (hid ▸ h))

/-- SETTING_READ of an unknown identifier, or with a selector outside R11, is refused (R159). -/
theorem settingRead_refuses {s : State} {id rounding : Byte}
    (h : catalogue id = none ∨ selectRounding s.settings.rounding rounding = none) :
    s.settingRead id rounding = .refuse .badField := by
  unfold State.settingRead
  split
  · rename_i h1 h2
    simp [h1, h2] at h
  · rfl

/-- SETTING_READ of a setting of the catalogue answers with the applied and the staged value (R159). -/
theorem settingRead_answers {s : State} {id rounding : Byte} {mode : Rounding} (hc : (catalogue id).isSome = true)
    (hm : selectRounding s.settings.rounding rounding = some mode) :
    ∃ flags, (id ≠ 0x0C → flags = OutFlags.clear) ∧ s.settingRead id rounding =
      .ok flags (.settingRead id (s.appliedValue id mode).1 ((s.stagedValue id mode).map (·.1))) := by
  obtain ⟨entry, he⟩ := Option.isSome_iff_exists.1 hc
  unfold State.settingRead
  simp only [he, hm]
  refine ⟨_, fun hid => ?_, rfl⟩
  cases hv : s.stagedValue id mode with
  | none => exact appliedValue_flags s mode hid
  | some v =>
    dsimp only
    rw [appliedValue_flags s mode hid, stagedValue_flags hid hv]
    rfl

/-- Settles O25: the request is performed on the ready link, and its answer is the reading or the refusal. -/
theorem settingReadReportsAppliedAndStaged : Obligations.SettingReadReportsAppliedAndStaged := by
  intro s h id rounding hr
  have hx := exec_ready (c := .settingRead h id rounding) rfl hr
  refine ⟨fun hbad => ?_, fun mode hc hm => ⟨?_, rfl, rfl, rfl, rfl, rfl⟩⟩
  · rw [hx]
    simp only [State.perform, settingRead_refuses (s := s.withService h.service) hbad]
    rfl
  · obtain ⟨flags, hf, ha⟩ := settingRead_answers (s := s.withService h.service) hc hm
    refine ⟨flags, hf, ?_⟩
    rw [hx]
    simp only [State.perform, ha]
    rfl

end Sys2Proof.Machine

/-! Writes of settings: what SETTING_WRITE does once its checks are passed (R151), and the settings of the tach front end
and the default rounding (R11, R24, R26, R41). -/

namespace Sys2Proof.Machine

/-! ## The checks of a write (R149, R151) -/

/-- A write that passes checks 1 to 4 of R151 reaches the setting. -/
theorem settingWrite_passes {s : State} {id rounding : Byte} {value : SettingValue} {access : Access}
    {mode : Rounding} (hc : catalogue id = some (formOf value, access))
    (hm : selectRounding s.settings.rounding rounding = some mode) (hro : access ≠ .ro)
    (heng : access = .eng → s.service = true) :
    s.settingWrite id rounding value = s.writeValue id mode value := by
  unfold State.settingWrite
  simp only [hc, hm, ne_eq, not_true_eq_false, if_false, hro]
  exact if_neg fun h => by simp [heng h.1] at h

/-- An engineering setting is refused with ACCESS while SERVICE is low (R149). -/
theorem settingWrite_access {s : State} {id rounding : Byte} {value : SettingValue}
    (hc : catalogue id = some (formOf value, .eng))
    (hm : (selectRounding s.settings.rounding rounding).isSome = true) (hs : s.service = false) :
    s.settingWrite id rounding value = (s, .refuse .access) := by
  obtain ⟨mode, hm⟩ := Option.isSome_iff_exists.1 hm
  unfold State.settingWrite
  simp [hc, hm, hs]

/-- A command that writes a number to a setting it may write: the link performs the write and replies. -/
theorem exec_writeNumber {c : Instr} {s : State} {h : FrameHead} {id rounding : Byte} {v : BitVec 32}
    {access : Access} (hcmd : c.request? = some (h, .settingWrite id rounding (.number v))) (hr : s.ready h)
    (hm : (selectRounding s.settings.rounding rounding).isSome = true) (hc : catalogue id = some (.number, access))
    (hro : access ≠ .ro) (heng : access = .eng → h.service = true) :
    exec c s = .next (((s.withService h.service).writeNumber id v.toInt).1.replied h 0x05
      ((s.withService h.service).writeNumber id v.toInt).2) := by
  obtain ⟨mode, hm⟩ := Option.isSome_iff_exists.1 hm
  rw [exec_ready hcmd hr]
  simp only [State.perform, settingWrite_passes (s := s.withService h.service) (value := .number v) hc hm hro heng]
  rfl

/-- A command that writes a byte to a setting it may write: the link performs the write and replies. -/
theorem exec_writeByte {c : Instr} {s : State} {h : FrameHead} {id rounding b : Byte} {access : Access}
    (hcmd : c.request? = some (h, .settingWrite id rounding (.byte b))) (hr : s.ready h)
    (hm : (selectRounding s.settings.rounding rounding).isSome = true) (hc : catalogue id = some (.byte, access))
    (hro : access ≠ .ro) (heng : access = .eng → h.service = true) :
    exec c s = .next (((s.withService h.service).writeByte id b).1.replied h 0x05
      ((s.withService h.service).writeByte id b).2) := by
  obtain ⟨mode, hm⟩ := Option.isSome_iff_exists.1 hm
  rw [exec_ready hcmd hr]
  simp only [State.perform, settingWrite_passes (s := s.withService h.service) (value := .byte b) hc hm hro heng]
  rfl

/-- A command that writes an engineering setting while SERVICE is low is refused (R149). -/
theorem exec_write_access {c : Instr} {s : State} {h : FrameHead} {id rounding : Byte} {value : SettingValue}
    (hcmd : c.request? = some (h, .settingWrite id rounding value)) (hr : s.ready h)
    (hm : (selectRounding s.settings.rounding rounding).isSome = true) (hc : catalogue id = some (formOf value, .eng))
    (hs : h.service = false) :
    exec c s = .next ((s.withService h.service).refusedWith h 0x05 .access) := by
  rw [exec_ready hcmd hr]
  simp only [State.perform, settingWrite_access (s := s.withService h.service) hc hm hs]
  rfl

/-! ## Clamping (R150) -/

theorem clampTo_eq {low high : Int} (h : low ≤ high) (v : Int) : clampTo low high v = max low (min high v) := by
  unfold clampTo
  split
  · omega
  · split <;> omega

/-- A clamp changes a value exactly when the value is out of range. -/
theorem clampTo_ne_iff {low high : Int} (h : low ≤ high) (v : Int) :
    clampTo low high v ≠ v ↔ v < low ∨ high < v := by
  rw [clampTo_eq h]
  omega

/-- The answer of a write that is stored as it was sent has no flag. -/
theorem storedNumber_exact (id : Byte) (w : Int) :
    storedNumber id w w = .ok OutFlags.clear (.settingWrite id (.number w)) := by
  simp [storedNumber, stored, clampFlags, OutFlags.clear]

/-! ## The default rounding (R11, R42) -/

theorem roundingOf_selector (mode : Rounding) : roundingOf mode.selector = some mode := by cases mode <;> rfl

theorem roundingOf_none {w : Int} (h : w < 0 ∨ 4 < w) : roundingOf w = none := by
  unfold roundingOf
  simp only [show w ≠ 0 by omega, show w ≠ 1 by omega, show w ≠ 2 by omega, show w ≠ 3 by omega,
    show w ≠ 4 by omega, if_false]

theorem selector_toInt (mode : Rounding) : (BitVec.ofNat 32 mode.selector).toInt = mode.selector := by
  cases mode <;> rfl

/-- Outside LOCAL, and while the word clock is lost, there is no LOCAL speed to compute anew (R42, R48). -/
theorem recomputeLocal_of_not_local {s : State} (h : s.settings.source ≠ .localGen ∨ s.tracker.clockLost = true) :
    s.recomputeLocal = s := by
  unfold State.recomputeLocal
  exact if_neg fun hl => by rcases h with h | h <;> simp_all

/-! ## The tach front end -/

/-- Settles O37: each row is a numeric write to its setting, refused with ACCESS while SERVICE is low. -/
theorem tachAndRoundingWrites : Obligations.TachAndRoundingWrites := by
  intro s h rounding v hr hm
  have hedges := exec_writeNumber (c := .edgesPerFrameWrite h rounding v) rfl hr hm rfl (by decide)
  have hindex := exec_writeNumber (c := .indexStateWrite h rounding v) rfl hr hm rfl (by decide)
  have hfilter := exec_writeNumber (c := .tachFilterWrite h rounding v) rfl hr hm rfl (by decide)
  have hround (w : BitVec 32) := exec_writeNumber (c := .defaultRoundingWrite h rounding w) rfl hr hm rfl (by decide)
    nofun
  refine ⟨fun hs => ?_, fun hs => ⟨fun hrest => ?_, fun hrest => ?_, ?_⟩, fun mode hsrc => ?_, fun hbad => ?_⟩
  · exact ⟨exec_write_access rfl hr hm rfl hs, exec_write_access rfl hr hm rfl hs, exec_write_access rfl hr hm rfl hs⟩
  · have hu : (s.withService h.service).atRest = false := hrest
    rw [hedges fun _ => hs, hindex fun _ => hs]
    simp only [State.writeNumber, State.writeEdges, State.writeIndexState, hu]
    exact ⟨rfl, rfl⟩
  · have hu : (s.withService h.service).atRest = true := hrest
    rw [hedges fun _ => hs, hindex fun _ => hs]
    simp only [State.writeNumber, State.writeEdges, State.writeIndexState, hu, legalEdges,
      clampTo_eq (low := 4) (high := 1024) (by decide), clampTo_eq (low := 0) (high := 3) (by decide)]
    exact ⟨rfl, rfl⟩
  · rw [hfilter fun _ => hs]
    simp only [State.writeNumber, State.writeFilter, clampTo_eq (low := 0) (high := 15) (by decide)]
    rfl
  · have hlocal : ((s.withService h.service).mapSettings fun g => { g with rounding := mode }).recomputeLocal =
        (s.withService h.service).mapSettings fun g => { g with rounding := mode } :=
      recomputeLocal_of_not_local (.inl hsrc)
    rw [hround, selector_toInt]
    simp only [State.writeNumber, State.writeRounding, roundingOf_selector, hlocal, storedNumber_exact]
    rfl
  · rw [hround]
    simp only [State.writeNumber, State.writeRounding, roundingOf_none hbad]
    rfl

end Sys2Proof.Machine

/-! Speed and the stop: what a stop of the tracker does in a quiet part, the LOCAL speed (R42), and the writes of the
local ratio, the pull-down and the sample rate (R2, R7, R42, R153). -/

namespace Sys2Proof.Machine

/-! ## No take is open (R107, R109) -/

/-- With no take open, no lane holds one. -/
theorem holdsTake_of_noTakeOpen {s : State} (h : s.noTakeOpen) (i : LaneId) : s.holdsTake i = false := by
  simp [State.holdsTake, h i]

/-- A lane without an open take closes none (R107). -/
theorem closeOutside_of_none {s : State} {i : LaneId} (h : (s.lane i).openTake = none) (pos : Nat) (cause : EndCause) :
    s.closeOutside i pos cause = s := by
  unfold State.closeOutside
  rw [h]

/-- One thing done in every lane leaves the state when it does so in each lane. -/
theorem eachLane_of_fixed {s : State} {f : LaneId → State → State} (h : ∀ i, f i s = s) : s.eachLane f = s := by
  simp [State.eachLane, laneIds, h]

/-- With no take open the order of the lanes is not asked for. -/
theorem eachLaneFreely_of_noTakeOpen {s : State} (h : s.noTakeOpen) (f : LaneId → State → State) :
    s.eachLaneFreely f = s.eachLane f := by
  have hnone : laneIds.filter s.holdsTake = [] :=
    List.filter_eq_nil_iff.2 fun i _ => by simp [holdsTake_of_noTakeOpen h]
  simp [State.eachLaneFreely, severalLanes, hnone]

theorem closeAll_of_noTakeOpen {s : State} (h : s.noTakeOpen) (cause : EndCause) : s.closeAll cause = s := by
  unfold State.closeAll
  rw [eachLaneFreely_of_noTakeOpen h]
  exact eachLane_of_fixed fun i => closeOutside_of_none (h i) _ _

theorem fallOfPlay_of_noTakeOpen {s : State} (h : s.noTakeOpen) (before : Bool) : s.fallOfPlay before = s := by
  unfold State.fallOfPlay State.lossOfPlay
  rw [closeAll_of_noTakeOpen h, ite_self]

/-! ## The stop of a quiet part (R35, R109, R113, R155) -/

theorem applyUnheld_of_empty {s : State} (h : s.settings.staging = []) : s.applyUnheld = s := by
  simp [State.applyUnheld, h]

/-- A notice changes nothing but the link (R171). -/
theorem post_eq_mapLink (s : State) (n : Notice) : ∃ f, s.post n = s.mapLink f := by
  unfold State.post
  split
  · split
    · exact ⟨_, rfl⟩
    · exact ⟨_, rfl⟩
  · exact ⟨id, rfl⟩

/-- In a quiet part the entry into STOPPED is the report and the HOLD record (R35, R145). -/
theorem enterStopped_quiet {s : State} (h : s.quiet) (cause : TrackerCause) (loss : EndCause) :
    s.enterStopped cause loss =
      ((s.mapTracker fun t => { t with spd := 0, state := .stopped }).noteTracker cause).formHold := by
  obtain ⟨hopen, hstandby, hstaging⟩ := h
  have hnone : laneIds.any (s.mapTracker fun t => { t with spd := 0, state := .stopped }).holdsTake = false :=
    List.any_eq_false.2 fun i _ => by simp [State.holdsTake, hopen i]
  obtain ⟨f, hf⟩ : ∃ f, (s.mapTracker fun t => { t with spd := 0, state := .stopped }).noteTracker cause =
      (s.mapTracker fun t => { t with spd := 0, state := .stopped }).mapLink f := post_eq_mapLink _ _
  unfold State.enterStopped
  simp only [hnone, Bool.false_eq_true, if_false, hf]
  unfold State.stoppedEffects State.lossOfPlay
  rw [closeAll_of_noTakeOpen (by exact hopen), if_neg (by simp [hstandby]), applyUnheld_of_empty]
  unfold State.formHold State.formCode
  split <;> exact hstaging

/-! ## The speed limit (R9, R42) -/

theorem clampSpeed_of_within {nominal spd : Int} (hl : -(32 * nominal) ≤ spd) (hh : spd ≤ 32 * nominal) :
    clampSpeed nominal spd = spd := by
  unfold clampSpeed
  rw [if_neg (by omega), if_neg (by omega)]

/-- A speed within the limit is taken as it is, without OVERSPEED (R9). -/
theorem setSpeed_of_within {s : State} {spd : Int} (hl : -(32 * s.nominal) ≤ spd) (hh : spd ≤ 32 * s.nominal) :
    s.setSpeed spd = s.mapTracker fun t => { t with spd := spd } := by
  unfold State.setSpeed
  simp only [clampSpeed_of_within hl hh, if_true]

/-- A ratio of at most 16 keeps the LOCAL speed within the limit of 32 times nominal (R9, R42). -/
theorem ratioSpeed_within (mode : Rounding) {nominal w : Int} (hn : 0 < nominal) (hl : -16000 ≤ w) (hh : w ≤ 16000) :
    -(32 * nominal) ≤ (roundQ mode (nominal * w) 1000).value
      ∧ (roundQ mode (nominal * w) 1000).value ≤ 32 * nominal := by
  obtain ⟨h1, h2⟩ := roundQ_bounds mode (nominal * w) 1000
  have h3 : nominal * w ≤ nominal * 16000 := Int.mul_le_mul_of_nonneg_left hh hn.le
  have h4 : nominal * -16000 ≤ nominal * w := Int.mul_le_mul_of_nonneg_left hl hn.le
  omega

/-- In LOCAL, with the clock present and a LOCAL speed within the limit, the speed is taken and the tracker's state
follows it (R42). -/
theorem recomputeLocal_of_local {s : State} (hsrc : s.settings.source = .localGen) (hclk : s.tracker.clockLost = false)
    (hopen : s.noTakeOpen) (hl : -(32 * s.nominal) ≤ s.localSpeed) (hh : s.localSpeed ≤ 32 * s.nominal) :
    s.recomputeLocal =
      let s' := s.mapTracker fun t => { t with spd := s.localSpeed }
      if s.localSpeed = 0 then if s.tracker.state = .stopped then s' else s'.enterStopped .localStop .broken
      else if s.tracker.state = .moving then s' else s'.enter .moving .moving := by
  unfold State.recomputeLocal
  simp only [hsrc, hclk, and_self, if_true, setSpeed_of_within hl hh, State.mapTracker_tracker]
  rw [fallOfPlay_of_noTakeOpen (by exact hopen)]

/-- Settles O36: the ratio is stored, and in LOCAL the speed it gives lies within the limit and is taken. -/
theorem localRatioWriteSetsTheSpeed : Obligations.LocalRatioWriteSetsTheSpeed := by
  intro s h rounding v hr hm w spd u replied
  have hx := exec_writeNumber (c := .localRatioWrite h rounding v) rfl hr hm rfl (by decide) nofun
  have hw : clampTo (-16000) 16000 v.toInt = w := clampTo_eq (by decide) _
  have hflag : decide (w ≠ v.toInt) = decide (v.toInt < -16000 ∨ 16000 < v.toInt) :=
    decide_eq_decide.2 (hw ▸ clampTo_ne_iff (by decide) _)
  have hwrite : exec (.localRatioWrite h rounding v) s = .next (replied u.recomputeLocal) := by
    rw [hx]
    simp only [State.writeNumber, State.writeRatio, hw, storedNumber, stored, hflag]
    rfl
  have hs : u.localSpeed = spd := rfl
  rw [hwrite]
  refine ⟨fun hsrc => by rw [recomputeLocal_of_not_local (s := u) hsrc], fun hsrc hclk hq => ?_⟩
  have hratio : -16000 ≤ w ∧ w ≤ 16000 := by
    simp only [w]
    omega
  obtain ⟨hl, hh⟩ : -(32 * u.nominal) ≤ u.localSpeed ∧ u.localSpeed ≤ 32 * u.nominal :=
    ratioSpeed_within _ u.nominal_pos hratio.1 hratio.2
  rw [recomputeLocal_of_local (s := u) hsrc hclk hq.1 hl hh, hs]
  refine ⟨fun h0 hst => ?_, fun h0 hst => ?_, fun h0 hst => ?_, fun h0 hst => ?_⟩
  · have hst : u.tracker.state = .moving := hst
    simp only [h0, hst, if_false, if_true]
  · have hst : u.tracker.state = .stopped := hst
    simp only [h0, hst, if_false, reduceCtorEq]
    rfl
  · have hst : u.tracker.state = .stopped := hst
    simp only [h0, hst, if_true]
  · have hst : u.tracker.state = .moving := hst
    simp only [h0, hst, if_true, if_false, reduceCtorEq]
    rw [enterStopped_quiet (by exact hq)]
    rfl

/-! ## The pull-down and the sample rate (R2, R7, R23) -/

/-- Outside LOCAL, with no take open and Spd within the new limit, a new nominal speed clears the estimate origin and
does nothing else (R9, R23). -/
theorem newNominal_of_within {s : State} (hopen : s.noTakeOpen) (hsrc : s.settings.source ≠ .localGen)
    (hspd : (s.tracker.spd.natAbs : Int) ≤ 32 * s.nominal) (before : Bool) :
    s.newNominal before = s.mapTracker fun t => { t with origin := none } := by
  unfold State.newNominal
  simp only [setSpeed_of_within (s := s) (spd := s.tracker.spd) (by omega) (by omega)]
  rw [recomputeLocal_of_not_local (by exact .inl hsrc), fallOfPlay_of_noTakeOpen (by exact hopen)]
  rfl

/-- While a take record is OPEN the pull-down is refused (R153). -/
theorem writePullDown_of_open {s : State} (h : s.log.openCount ≠ 0) (w : Int) :
    s.writePullDown w = (s, .refuse .state) := if_pos h

/-- The pull-down stored for a written value is the one the standard forces, or whether the value is not 0 (R2). -/
theorem writePullDown_of_closed {s : State} (h : s.log.openCount = 0) (v : BitVec 32) :
    let down := s.settings.standard.forcedPullDown.getD (decide (v ≠ 0))
    s.writePullDown v.toInt =
      (if down = s.settings.pullDown then s
        else (s.mapSettings fun g => { g with pullDown := down }).newNominal s.inPlay,
        storedNumber 0x03 (if down then 1 else 0) v.toInt) := by
  have hzero : decide (v.toInt ≠ 0) = decide (v ≠ 0) :=
    decide_eq_decide.2 (not_congr (BitVec.toInt_inj (x := v) (y := 0)))
  unfold State.writePullDown
  simp only [h, ne_eq, not_true_eq_false, if_false, ← hzero]

theorem hz_toInt (r : SampleRate) : (BitVec.ofNat 32 r.hz).toInt = r.hz := by cases r <;> rfl

/-- A number that is no rate of R7 is refused, whatever the log holds (R153). -/
theorem writeSampleRate_of_unknown {s : State} {w : Int} (h : w ≠ 48000 ∧ w ≠ 96000) :
    s.writeSampleRate w = (s, .refuse .range) := if_pos h

/-- While a take record is OPEN a rate is refused (R153). -/
theorem writeSampleRate_of_open {s : State} (h : s.log.openCount ≠ 0) (r : SampleRate) :
    s.writeSampleRate r.hz = (s, .refuse .state) := by
  unfold State.writeSampleRate
  rw [if_neg (by cases r <;> decide), if_pos h]

/-- A rate of R7 is stored, and takes effect when it is new (R153). -/
theorem writeSampleRate_of_closed {s : State} (h : s.log.openCount = 0) (r : SampleRate) :
    s.writeSampleRate r.hz =
      (if r = s.settings.sampleRate then s else s.changeRate r,
        .ok OutFlags.clear (.settingWrite 0x04 (.number r.hz))) := by
  unfold State.writeSampleRate
  cases r <;> simp [SampleRate.hz, h, storedNumber_exact]

/-- Settles O34: each row is a numeric write, and outside LOCAL the new nominal speed only clears the origin. -/
theorem pullDownAndSampleRateWrites : Obligations.PullDownAndSampleRateWrites := by
  intro s h rounding v hr hm u down downReply rateReply
  have hdown : exec (.pullDownWrite h rounding v) s =
      .next ((u.writePullDown v.toInt).1.replied h 0x05 (u.writePullDown v.toInt).2) :=
    exec_writeNumber (c := .pullDownWrite h rounding v) rfl hr hm rfl (by decide) nofun
  have hrate (w : BitVec 32) : exec (.sampleRateWrite h rounding w) s =
      .next ((u.writeSampleRate w.toInt).1.replied h 0x05 (u.writeSampleRate w.toInt).2) :=
    exec_writeNumber (c := .sampleRateWrite h rounding w) rfl hr hm rfl (by decide) nofun
  refine ⟨fun h0 => ?_, fun h0 r => ?_, fun h1 h2 => ?_, fun h0 heq => ?_, fun h0 => ?_, fun h0 hopen hsrc =>
    ⟨fun hne hspd => ?_, fun r hne hspd => ?_⟩⟩
  · rw [hdown, writePullDown_of_open (s := u) h0]
    rfl
  · rw [hrate, hz_toInt, writeSampleRate_of_open (s := u) h0]
    rfl
  · have h1 : v.toInt ≠ 48000 := fun e => h1 (BitVec.toInt_inj.1 (e.trans (hz_toInt .hz48000).symm))
    have h2 : v.toInt ≠ 96000 := fun e => h2 (BitVec.toInt_inj.1 (e.trans (hz_toInt .hz96000).symm))
    rw [hrate, writeSampleRate_of_unknown (s := u) ⟨h1, h2⟩]
    rfl
  · rw [hdown, writePullDown_of_closed (s := u) h0, if_pos (by exact heq)]
    rfl
  · rw [hrate, hz_toInt, writeSampleRate_of_closed (s := u) h0, if_pos (by rfl)]
  · have hnew := newNominal_of_within (s := u.mapSettings fun g => { g with pullDown := down }) hopen hsrc hspd u.inPlay
    rw [hdown, writePullDown_of_closed (s := u) h0, if_neg (by exact hne), ← hnew]
    rfl
  · have hnew := newNominal_of_within (s := u.mapSettings fun g => { g with sampleRate := r }) hopen hsrc hspd u.inPlay
    rw [hrate, hz_toInt, writeSampleRate_of_closed (s := u) h0, if_neg (by exact hne)]
    unfold State.changeRate
    dsimp only
    rw [hnew]
    rfl

end Sys2Proof.Machine

/-! Writes of class-F settings at rest (R45, R134, R150, R154, R155), and the stamps that a cycle window takes (R13, R15). -/

namespace Sys2Proof.Machine

/-! ## Stamps taken in (R13, R15, R17) -/

/-- A stamp is refused with BAD_LABEL exactly when its label or its subframe is out of range (R13). -/
theorem takeStamp_eq_none_iff {std : Standard} {mode : Rounding} {st : Stamp} :
    takeStamp std mode st = none ↔ labelOutOfRange std st := by
  unfold takeStamp labelOutOfRange
  dsimp only
  split
  · rename_i h
    simp only [labelInRange, Bool.and_eq_true, decide_eq_true_eq] at h
    simp only [reduceCtorEq, false_iff]
    omega
  · rename_i h
    simp only [labelInRange, Bool.and_eq_true, decide_eq_true_eq] at h
    simp only [true_iff]
    omega

/-- The stamp as legalised: an omitted label is taken as the first label after it (R15). -/
def legalisedStamp (std : Standard) (st : Stamp) : Stamp :=
  if isOmitted std st.mm.toNat st.ss.toNat st.ff.toNat then { st with ff := 2 } else st

/-- The label of a stamp. -/
def stampLabel (st : Stamp) : Label := ⟨st.hh.toNat, st.mm.toNat, st.ss.toNat, st.ff.toNat⟩

/-- The subframe of a stamp as a rounded fraction of a frame in pu (R17). -/
def stampFraction (mode : Rounding) (st : Stamp) : Rounded :=
  roundQ mode ((st.sf.toNat * frameUnits : Nat) : Int) 1000

/-- What is taken in for a good stamp: the legalised stamp, its frame with its rounded fraction, and the flags (R17). -/
theorem takeStamp_fields {std : Standard} {mode : Rounding} {st : Stamp} {x : TakenStamp}
    (h : takeStamp std mode st = some x) :
    x.stamp = legalisedStamp std st
      ∧ x.pos = labelToFrame std (stampLabel (legalisedStamp std st)) * frameUnits
          + (stampFraction mode (legalisedStamp std st)).value.toNat
      ∧ x.flags =
          { inexact := (stampFraction mode (legalisedStamp std st)).inexact
            invalid := isOmitted std st.mm.toNat st.ss.toNat st.ff.toNat
            clamped := false
            staged := false } := by
  unfold takeStamp at h
  dsimp only at h
  split at h
  · obtain rfl := Option.some.inj h
    exact ⟨rfl, rfl, rfl⟩
  · cases h

/-! ## The staging list at rest (R154, R155) -/

/-- An entry that joins an empty list and is applied at once leaves the settings with its value and the list empty. -/
theorem applyEntry_of_empty {g : Settings} (h : g.staging = []) (e : Staged) :
    { Settings.applyEntry { g with staging := [e] } e with staging := [] } = g.applyEntry e := by
  obtain ⟨⟩ := g
  cases h
  cases e <;> rfl

/-- A tracker at rest does not play (R43). -/
theorem inPlay_of_atRest {s : State} (h : s.atRest = true) : s.inPlay = false := by
  simp only [State.atRest, decide_eq_true_eq] at h
  simp only [State.inPlay, decide_eq_false_iff_not]
  rintro ⟨hmove, -⟩
  rcases h with h | h <;> simp [h] at hmove

/-- A class-F write at rest, with the hold 0 and nothing waiting, is applied at once and answered without STAGED. -/
theorem stage_at_rest {s : State} (hrest : s.atRest = true) (hhold : s.settings.stagingHold = false)
    (hempty : s.settings.staging = []) (e : Staged) (flags : OutFlags) (v : ReportedValue) :
    s.stage e flags v =
      ((s.mapSettings fun g => g.applyEntry e).recomputeTones, stored e.id { flags with staged := false } v) := by
  have hput : putStaged s.settings.staging e = [e] := by simp [putStaged, hempty]
  have hjoined : (s.mapSettings fun g => { g with staging := putStaged g.staging e }) =
      s.mapSettings fun _ => { s.settings with staging := [e] } := by
    simp only [State.mapSettings, hput]
  have happlied : (s.mapSettings fun _ => { s.settings with staging := [e] }).applyUnheld =
      (s.mapSettings fun g => g.applyEntry e).recomputeTones := by
    have hplay : (s.mapSettings fun _ => { s.settings with staging := [e] }).inPlay = false := inPlay_of_atRest hrest
    unfold State.applyUnheld State.applyStaging
    rw [if_neg (by simp [hhold])]
    simp only [hplay, State.fallOfPlay, Bool.false_and, Bool.false_eq_true, if_false, State.mapSettings_mapSettings,
      List.foldl_cons, List.foldl_nil, applyEntry_of_empty hempty]
    rfl
  have hleft : (s.settings.applyEntry e).staging = [] := by cases e <;> exact hempty
  unfold State.stage
  simp only [hjoined]
  rw [if_pos (by exact hrest), happlied]
  have hwaits : (s.mapSettings fun g => g.applyEntry e).recomputeTones.settings.staging = [] := hleft
  simp only [hwaits, List.any_nil]

/-- A class-F number at rest is clamped and applied at once, with CLAMPED when the clamp changed it (R150). -/
theorem stageNumber_at_rest {s : State} (hrest : s.atRest = true) (hhold : s.settings.stagingHold = false)
    (hempty : s.settings.staging = []) (make : Nat → Staged) {low high : Int} (hle : low ≤ high) (w : Int) :
    s.stageNumber make low high w =
      ((s.mapSettings fun g => g.applyEntry (make (max low (min high w)).toNat)).recomputeTones,
        .ok { OutFlags.clear with clamped := decide (w < low ∨ high < w) }
          (.settingWrite (make (max low (min high w)).toNat).id (.number (max low (min high w))))) := by
  unfold State.stageNumber
  simp only [stage_at_rest hrest hhold hempty, ← clampTo_eq hle, ← clampTo_ne_iff hle]
  rfl

/-! ## Tone frequencies, cycle actions, auto re-arm (R45, R46, R134) -/

/-- The stored tone frequency is the legal multiple of 10, halfway the even count of tens (R134). -/
theorem legalFrequency_eq {w : Int} {k : Nat} (h : roundsToTens w k) : legalFrequency w = 10 * k := by
  unfold roundsToTens at h
  unfold legalFrequency roundQ
  rw [clampTo_eq (by decide)]
  dsimp only
  split
  · dsimp only; omega
  · dsimp only
    split
    · omega
    · split
      · omega
      · split <;> omega

theorem catalogue_toneFrequency (i : LaneId) : catalogue (0x20 + BitVec.ofNat 8 i.val) = some (.number, .op) := by
  fin_cases i <;> rfl

theorem toneFrequency_id (i : LaneId) (hz : Nat) : (Staged.toneFrequency i hz).id = 0x20 + BitVec.ofNat 8 i.val := by
  fin_cases i <;> rfl

theorem writeNumber_toneFrequency (s : State) (i : LaneId) (w : Int) :
    s.writeNumber (0x20 + BitVec.ofNat 8 i.val) w = s.writeToneFrequency i w := by
  fin_cases i <;> rfl

theorem cycleAction_ofCode_code (a : CycleAction) : CycleAction.ofCode a.code = some a := by cases a <;> rfl

theorem cycleAction_ofCode_none {c : Byte} (h : 3 < c.toNat) : CycleAction.ofCode c = none := by
  unfold CycleAction.ofCode
  rw [if_neg, if_neg, if_neg, if_neg] <;> rintro rfl <;> simp at h

/-! ## The cycle window (R45) -/

/-- A command that writes a window to the cycle window: the link performs the write and replies. -/
theorem exec_writeWindow {s : State} {h : FrameHead} {rounding : Byte} {mode : Rounding} {a b : Stamp}
    (hr : s.ready h) (hm : selectRounding s.settings.rounding rounding = some mode) :
    exec (.settingWrite h 0x0C rounding (.window a b)) s =
      .next (((s.withService h.service).writeWindow mode a b).1.replied h 0x05
        ((s.withService h.service).writeWindow mode a b).2) := by
  rw [exec_ready rfl hr]
  simp only [State.perform, settingWrite_passes (s := s.withService h.service) (id := 0x0C) (value := .window a b)
    (access := .op) rfl hm (by decide) nofun]
  rfl

/-- A window is refused with BAD_LABEL when one of its stamps is (R13, R150). -/
theorem writeWindow_badLabel {s : State} {mode : Rounding} {a b : Stamp}
    (h : labelOutOfRange s.settings.standard a ∨ labelOutOfRange s.settings.standard b) :
    s.writeWindow mode a b = (s, .refuse .badLabel) := by
  unfold State.writeWindow
  dsimp only
  split
  · rename_i x y hx hy
    rcases h with h | h <;> simp [takeStamp_eq_none_iff.2 h] at hx hy
  · rfl

/-- A window whose stamps are good is refused with RANGE unless its end follows its start by 1 frame up to one reach. -/
theorem writeWindow_of_good {s : State} {mode : Rounding} {a b : Stamp} {x y : TakenStamp}
    (hx : takeStamp s.settings.standard mode a = some x) (hy : takeStamp s.settings.standard mode b = some y) :
    s.writeWindow mode a b =
      if 2 ^ 32 ≤ s.settings.standard.dist y.pos x.pos
          ∧ s.settings.standard.dist y.pos x.pos ≤ s.settings.standard.reach then
        s.stage (.cycleWindow x.pos y.pos) (x.flags.union y.flags)
          (.window ⟨x.stamp, exactPos x.pos⟩ ⟨y.stamp, exactPos y.pos⟩)
      else (s, .refuse .range) := by
  have hframe : (frameUnits : Int) = 2 ^ 32 := by norm_num [frameUnits]
  unfold State.writeWindow
  simp only [hx, hy, hframe]

/-- No conversion of stamps raises STAGED. -/
theorem takenFlags_unstaged {std : Standard} {mode : Rounding} {a b : Stamp} {x y : TakenStamp}
    (hx : takeStamp std mode a = some x) (hy : takeStamp std mode b = some y) :
    { x.flags.union y.flags with staged := false } = x.flags.union y.flags := by
  obtain ⟨-, -, hxf⟩ := takeStamp_fields hx
  obtain ⟨-, -, hyf⟩ := takeStamp_fields hy
  rw [hxf, hyf]
  rfl

/-- Settles O28: each write joins the empty list and is applied at once. -/
theorem frameClassWriteAtRestIsAppliedAtOnce : Obligations.FrameClassWriteAtRestIsAppliedAtOnce := by
  intro s h rounding v hr hs hm hrest hhold hempty std refused after ranged
  let u := s.withService h.service
  have hstage (e : Staged) := stage_at_rest (s := u) hrest hhold hempty e
  have number (id : Byte) (access : Access) (w : BitVec 32) (hc : catalogue id = some (.number, access))
      (hro : access ≠ .ro) : exec (.settingWrite h id rounding (.number w)) s =
        .next ((u.writeNumber id w.toInt).1.replied h 0x05 (u.writeNumber id w.toInt).2) :=
    exec_writeNumber rfl hr hm hc hro fun _ => hs
  have byte (b : Byte) : exec (.settingWrite h 0x0D rounding (.byte b)) s =
      .next ((u.writeCycleAction b).1.replied h 0x05 (u.writeCycleAction b).2) :=
    exec_writeByte (c := .settingWrite h 0x0D rounding (.byte b)) rfl hr hm rfl (by decide) nofun
  have clamps (id : Byte) (access : Access) (hc : catalogue id = some (.number, access)) (hro : access ≠ .ro)
      (make : Nat → Staged) (hid : ∀ n, (make n).id = id) (low high : Int) (hle : low ≤ high)
      (hw : u.writeNumber id v.toInt = u.stageNumber make low high v.toInt) :
      ranged id low high fun n g => g.applyEntry (make n) := by
    simp only [ranged, after]
    rw [number id access v hc hro, hw, stageNumber_at_rest (s := u) hrest hhold hempty make hle, hid]
  refine ⟨clamps 0x09 _ rfl (by decide) .bandLow (fun _ => rfl) _ _ (by decide) rfl,
    clamps 0x0A _ rfl (by decide) .bandHigh (fun _ => rfl) _ _ (by decide) rfl,
    clamps 0x34 _ rfl (by decide) .stallTimeout (fun _ => rfl) _ _ (by decide) rfl,
    clamps 0x35 _ rfl (by decide) .codeLatency (fun _ => rfl) _ _ (by decide) rfl,
    clamps 0x36 _ rfl (by decide) .coastLimit (fun _ => rfl) _ _ (by decide) rfl,
    clamps 0x38 _ rfl (by decide) .driftTolerance (fun _ => rfl) _ _ (by decide) rfl,
    fun i k hk => ?_, fun a => ?_, ?_, ?_, fun code hcode => ?_, fun h0 h1 => ?_, fun mode a b hmode => ⟨fun hbad => ?_,
      fun x y hx hy => ⟨fun hfar => ?_, fun hlow hhigh => ?_, ?_, ?_⟩⟩⟩
  · simp only [after]
    rw [number _ .op v (catalogue_toneFrequency i) (by decide), writeNumber_toneFrequency]
    simp only [State.writeToneFrequency, legalFrequency_eq hk, hstage, toneFrequency_id, ne_comm (b := v.toInt)]
    rfl
  · simp only [after]
    rw [byte]
    simp only [State.writeCycleAction, cycleAction_ofCode_code, hstage]
    rfl
  · simp only [after]
    rw [number 0x0E .op 0 rfl (by decide)]
    simp only [State.writeNumber, State.writeAutoRearm, hstage]
    rfl
  · simp only [after]
    rw [number 0x0E .op 1 rfl (by decide)]
    simp only [State.writeNumber, State.writeAutoRearm, hstage]
    rfl
  · simp only [refused]
    rw [byte]
    simp only [State.writeCycleAction, cycleAction_ofCode_none hcode]
    rfl
  · have hbad : ¬(v.toInt = 0 ∨ v.toInt = 1) := by
      rintro (e | e)
      · exact h0 (BitVec.toInt_inj.1 (e.trans (by decide)))
      · exact h1 (BitVec.toInt_inj.1 (e.trans (by decide)))
    simp only [refused]
    rw [number 0x0E .op v rfl (by decide)]
    simp only [State.writeNumber, State.writeAutoRearm, if_neg hbad]
    rfl
  · simp only [refused]
    rw [exec_writeWindow hr hmode, writeWindow_badLabel (s := u) hbad]
    rfl
  · simp only [refused]
    rw [exec_writeWindow hr hmode, writeWindow_of_good (s := u) hx hy, if_neg (by exact hfar)]
    rfl
  · rw [exec_writeWindow hr hmode, writeWindow_of_good (s := u) hx hy, if_pos (by exact ⟨hlow, hhigh⟩), hstage,
      takenFlags_unstaged hx hy]
    rfl
  · rw [(takeStamp_fields hx).2.2]
  · exact (takeStamp_fields hx).1

end Sys2Proof.Machine

/-! Labels and stamps: the conversion between labels and frame numbers (R13 to R16), and between stamps and positions
(R17, R18), in both directions. -/

namespace Sys2Proof.Machine

/-! ## Labels without dropped frames (R14, R16) -/

/-- The frames that a label counts when none is dropped (R14). -/
def nondropCount (fps : Nat) (l : Label) : Nat := (3600 * l.hh + 60 * l.mm + l.ss) * fps + l.ff

theorem nondropCount_divideLabel (fps n : Nat) : nondropCount fps (divideLabel fps n) = n := by
  have hs : 3600 * (n / fps / 3600) + 60 * (n / fps / 60 % 60) + n / fps % 60 = n / fps := by omega
  simp only [nondropCount, divideLabel, hs]
  exact Nat.div_add_mod' n fps

theorem divideLabel_nondropCount {fps : Nat} {l : Label} (hm : l.mm < 60) (hs : l.ss < 60) (hf : l.ff < fps) :
    divideLabel fps (nondropCount fps l) = l := by
  have hdiv : nondropCount fps l / fps = 3600 * l.hh + 60 * l.mm + l.ss := by
    rw [nondropCount, Nat.add_comm, Nat.add_mul_div_right _ _ (by omega), Nat.div_eq_of_lt hf, Nat.zero_add]
  have hmod : nondropCount fps l % fps = l.ff := by
    rw [nondropCount, Nat.add_comm, Nat.add_mul_mod_self_right, Nat.mod_eq_of_lt hf]
  unfold divideLabel
  simp only [hdiv, hmod]
  obtain ⟨hh, mm, ss, ff⟩ := l
  simp only [Label.mk.injEq, and_true] at *
  omega

/-! ## Labels with dropped frames (R14 to R16) -/

/-- A label of a minute counts no frame that R15 omits: in a minute outside the tens the first two labels are missing. -/
theorem isOmitted_drop_iff (mm ss ff : Nat) :
    isOmitted .std30df mm ss ff = true ↔ ss = 0 ∧ ff < 2 ∧ mm % 10 ≠ 0 := by
  simp [isOmitted, Standard.isDrop]

theorem labelToFrame_drop (l : Label) :
    labelToFrame .std30df l = nondropCount 30 l - 2 * (60 * l.hh + l.mm - (60 * l.hh + l.mm) / 10) := rfl

/-- The count to which R16 raises a frame number before it divides. -/
def dropRaised (n : Nat) : Nat :=
  if n % 17982 ≥ 2 then n + 18 * (n / 17982) + 2 * ((n % 17982 - 2) / 1798) else n + 18 * (n / 17982)

theorem frameToLabel_drop (n : Nat) : frameToLabel .std30df n = divideLabel 30 (dropRaised n) := rfl

/-- Ten minutes hold 17,982 frames; what is left of a frame number after `q` of them is raised by the two labels that
each of its further minutes omits. -/
theorem dropRaised_add (q : Nat) {m : Nat} (h : m < 17982) :
    dropRaised (17982 * q + m) = 18000 * q + if m ≥ 2 then m + 2 * ((m - 2) / 1798) else m := by
  have hdiv : (17982 * q + m) / 17982 = q := by omega
  have hmod : (17982 * q + m) % 17982 = m := by omega
  unfold dropRaised
  rw [hdiv, hmod]
  split <;> omega

/-- In a raised count the minutes outside the tens are those whose omitted labels were added, and the count never stands
on an omitted label (R15, R16). -/
theorem dropRaised_minutes (n : Nat) :
    dropRaised n = n + 2 * (dropRaised n / 1800 - dropRaised n / 1800 / 10)
      ∧ (dropRaised n / 1800 % 10 ≠ 0 → 2 ≤ dropRaised n % 1800) := by
  obtain ⟨q, m, hm, rfl⟩ : ∃ q m, m < 17982 ∧ n = 17982 * q + m := ⟨n / 17982, n % 17982, by omega, by omega⟩
  rw [dropRaised_add q hm]
  split
  · obtain ⟨r, k, hk, hr⟩ : ∃ r k, k < 1798 ∧ m - 2 = 1798 * r + k :=
      ⟨(m - 2) / 1798, (m - 2) % 1798, by omega, by omega⟩
    have hdiv : (1798 * r + k) / 1798 = r := by omega
    rw [hr, hdiv]
    have hminutes : (18000 * q + (m + 2 * r)) / 1800 = 10 * q + r := by omega
    rw [hminutes]
    omega
  · have hminutes : (18000 * q + m) / 1800 = 10 * q := by omega
    rw [hminutes]
    omega

/-- A label that is not omitted is raised back to its own count (R14, R16). -/
theorem dropRaised_labelToFrame {l : Label} (hs : l.ss < 60) (hf : l.ff < 30)
    (ho : ¬(l.ss = 0 ∧ l.ff < 2 ∧ l.mm % 10 ≠ 0)) : dropRaised (labelToFrame .std30df l) = nondropCount 30 l := by
  obtain ⟨q, r, hr, hminutes⟩ : ∃ q r, r < 10 ∧ 60 * l.hh + l.mm = 10 * q + r :=
    ⟨(60 * l.hh + l.mm) / 10, (60 * l.hh + l.mm) % 10, by omega, by omega⟩
  have htens : (10 * q + r) / 10 = q := by omega
  have hcount : nondropCount 30 l = 1800 * (10 * q + r) + (30 * l.ss + l.ff) := by
    rw [← hminutes, nondropCount]
    ring
  have hframe : labelToFrame .std30df l = 17982 * q + (1798 * r + (30 * l.ss + l.ff)) := by
    rw [labelToFrame_drop, hminutes, htens, hcount]
    omega
  have hkept : r = 0 ∨ 2 ≤ 30 * l.ss + l.ff := by omega
  rw [hframe, hcount, dropRaised_add q (by omega)]
  clear hframe hcount hminutes htens ho
  split
  · have hadded : (1798 * r + (30 * l.ss + l.ff) - 2) / 1798 = r := by omega
    rw [hadded]
    omega
  · omega

/-! ## Labels and frames (R13 to R16) -/

theorem labelInRange_iff (std : Standard) (hh mm ss ff : Nat) :
    labelInRange std hh mm ss ff = true ↔ hh < 24 ∧ mm < 60 ∧ ss < 60 ∧ ff < std.fps := by
  simp [labelInRange]

theorem isOmitted_of_not_drop {std : Standard} (h : std.isDrop = false) (mm ss ff : Nat) :
    isOmitted std mm ss ff = false := by
  simp [isOmitted, h]

theorem fps_pos (std : Standard) : 0 < std.fps := by cases std <;> decide

/-- A division by a frame rate gives a minute, a second and a frame in range, and an hour below 24 within 24 hours. -/
theorem divideLabel_inRange {std : Standard} {n : Nat} (h : n < 86400 * std.fps) :
    labelInRange std (divideLabel std.fps n).hh (divideLabel std.fps n).mm (divideLabel std.fps n).ss
      (divideLabel std.fps n).ff = true := by
  have hs : n / std.fps < 86400 := Nat.div_lt_of_lt_mul (by rwa [Nat.mul_comm])
  have hf := Nat.mod_lt n (fps_pos std)
  rw [labelInRange_iff]
  simp only [divideLabel]
  omega

/-- The label of a frame of the day is in range, is not omitted, and converts back to the frame. -/
theorem frameToLabel_roundTrip (std : Standard) {n : Nat} (h : n < std.dayFrames) :
    labelInRange std (frameToLabel std n).hh (frameToLabel std n).mm (frameToLabel std n).ss (frameToLabel std n).ff = true
      ∧ isOmitted std (frameToLabel std n).mm (frameToLabel std n).ss (frameToLabel std n).ff = false
      ∧ labelToFrame std (frameToLabel std n) = n := by
  have plain (hd : std.isDrop = false) (hday : std.dayFrames = 86400 * std.fps) :
      labelInRange std (frameToLabel std n).hh (frameToLabel std n).mm (frameToLabel std n).ss
          (frameToLabel std n).ff = true
        ∧ isOmitted std (frameToLabel std n).mm (frameToLabel std n).ss (frameToLabel std n).ff = false
        ∧ labelToFrame std (frameToLabel std n) = n := by
    have hl : frameToLabel std n = divideLabel std.fps n := by simp [frameToLabel, hd]
    rw [hl]
    refine ⟨divideLabel_inRange (hday ▸ h), isOmitted_of_not_drop hd _ _ _, ?_⟩
    simpa [labelToFrame, hd, nondropCount] using nondropCount_divideLabel std.fps n
  cases std with
  | std24 => exact plain rfl rfl
  | std25 => exact plain rfl rfl
  | std30 => exact plain rfl rfl
  | std30df =>
    obtain ⟨hraise, homit⟩ := dropRaised_minutes n
    have hday : dropRaised n < 86400 * 30 := by
      have : n < 2589408 := h
      omega
    rw [frameToLabel_drop]
    refine ⟨divideLabel_inRange (std := .std30df) hday, ?_, ?_⟩
    · rw [Bool.eq_false_iff, ne_eq, isOmitted_drop_iff]
      simp only [divideLabel]
      omega
    · rw [labelToFrame_drop, nondropCount_divideLabel]
      simp only [divideLabel]
      omega

/-- A label that is in range and not omitted is the label of its frame. -/
theorem labelToFrame_roundTrip {std : Standard} {l : Label} (hr : labelInRange std l.hh l.mm l.ss l.ff = true)
    (ho : isOmitted std l.mm l.ss l.ff = false) : frameToLabel std (labelToFrame std l) = l := by
  obtain ⟨-, hm, hs, hf⟩ := (labelInRange_iff ..).1 hr
  have plain (hd : std.isDrop = false) : frameToLabel std (labelToFrame std l) = l := by
    simpa [frameToLabel, labelToFrame, hd, nondropCount] using divideLabel_nondropCount hm hs hf
  cases std with
  | std24 => exact plain rfl
  | std25 => exact plain rfl
  | std30 => exact plain rfl
  | std30df =>
    rw [Bool.eq_false_iff, ne_eq, isOmitted_drop_iff] at ho
    rw [frameToLabel_drop, dropRaised_labelToFrame hs hf ho]
    exact divideLabel_nondropCount hm hs hf

/-! ## Stamps in eighths of a frame (R17, R18) -/

/-- A multiple of the divisor is rounded exactly in every mode (R10). -/
theorem roundQ_of_multiple (mode : Rounding) (q : Nat) {den : Nat} (h : 0 < den) :
    roundQ mode ((q * den : Nat) : Int) den = ⟨q, false⟩ := by
  have hden : (den : Int) ≠ 0 := by omega
  unfold roundQ
  simp [Int.mul_ediv_cancel _ hden]

/-- A stamp's label is in range (R13). -/
def stampInRange (std : Standard) (st : Stamp) : Prop :=
  labelInRange std (stampLabel st).hh (stampLabel st).mm (stampLabel st).ss (stampLabel st).ff = true

/-- A legalised stamp is in range and not omitted (R13, R15). -/
theorem legalisedStamp_good {std : Standard} {st : Stamp} (h : ¬labelOutOfRange std st) :
    stampInRange std (legalisedStamp std st)
      ∧ isOmitted std (stampLabel (legalisedStamp std st)).mm (stampLabel (legalisedStamp std st)).ss
          (stampLabel (legalisedStamp std st)).ff = false
      ∧ (legalisedStamp std st).sf = st.sf := by
  have hrange : stampInRange std st := by
    unfold stampInRange
    rw [labelInRange_iff]
    unfold labelOutOfRange at h
    simp only [stampLabel]
    omega
  obtain ⟨hh, hm, hs, -⟩ := (labelInRange_iff ..).1 hrange
  unfold legalisedStamp
  split
  · have h2 : 2 < std.fps := by cases std <;> decide
    exact ⟨(labelInRange_iff ..).2 ⟨hh, hm, hs, h2⟩, by simp [isOmitted, stampLabel], rfl⟩
  · rename_i ho
    exact ⟨hrange, by simpa [stampLabel] using ho, rfl⟩

theorem frameOf_add {frame fraction : Nat} (h : fraction < frameUnits) :
    frameOf (frame * frameUnits + fraction) = frame := by
  unfold frameOf
  rw [Nat.add_comm, Nat.add_mul_div_right _ _ (by decide), Nat.div_eq_of_lt h, Nat.zero_add]

theorem fractionOf_add {frame fraction : Nat} (h : fraction < frameUnits) :
    fractionOf (frame * frameUnits + fraction) = fraction := by
  unfold fractionOf
  rw [Nat.add_comm, Nat.add_mul_mod_self_right, Nat.mod_eq_of_lt h]

/-- An eighth of a frame in pu. -/
def eighthUnits : Nat := 536870912

theorem eighthUnits_mul_eight : 8 * eighthUnits = frameUnits := rfl

/-- The position of an eighth of a frame is reported with that eighth, exactly (R18). -/
theorem reportStamp_of_eighths (std : Standard) (mode : Rounding) (frame : Nat) {k : Nat} (hk : k < 8) :
    reportStamp std mode (frame * frameUnits + k * eighthUnits) =
      (⟨BitVec.ofNat 8 (frameToLabel std frame).hh, BitVec.ofNat 8 (frameToLabel std frame).mm,
          BitVec.ofNat 8 (frameToLabel std frame).ss, BitVec.ofNat 8 (frameToLabel std frame).ff,
          BitVec.ofNat 16 (k * 125)⟩, false) := by
  have hfrac : k * eighthUnits < frameUnits := by
    rw [← eighthUnits_mul_eight]
    exact Nat.mul_lt_mul_of_pos_right hk (by decide)
  have hround : roundQ mode ((k * eighthUnits * 1000 : Nat) : Int) frameUnits = ⟨(k * 125 : Nat), false⟩ := by
    rw [show k * eighthUnits * 1000 = k * 125 * frameUnits by rw [← eighthUnits_mul_eight]; ring]
    exact roundQ_of_multiple mode _ (by decide)
  have hcarry : ¬((k * 125 : Nat) : Int) = 1000 := by omega
  unfold reportStamp
  simp only [frameOf_add hfrac, fractionOf_add hfrac, hround, hcarry, if_false, Int.toNat_natCast]

/-- A subframe of whole eighths is an exact fraction of the frame (R17). -/
theorem stampFraction_of_eighths (mode : Rounding) {st : Stamp} {k : Nat} (h : st.sf.toNat = k * 125) :
    stampFraction mode st = ⟨(k * eighthUnits : Nat), false⟩ := by
  unfold stampFraction
  rw [show st.sf.toNat * frameUnits = k * eighthUnits * 1000 by rw [h, ← eighthUnits_mul_eight]; ring]
  exact roundQ_of_multiple mode _ (by decide)

/-- The frame of a good stamp with its eighths is reported as that stamp. -/
theorem reportStamp_of_stamp {std : Standard} (mode : Rounding) {t : Stamp} {k : Nat} (hk : k < 8)
    (hsf : t.sf.toNat = k * 125) (hrange : stampInRange std t)
    (homit : isOmitted std (stampLabel t).mm (stampLabel t).ss (stampLabel t).ff = false) :
    reportStamp std mode (labelToFrame std (stampLabel t) * frameUnits + k * eighthUnits) = (t, false) := by
  rw [reportStamp_of_eighths std mode _ hk, labelToFrame_roundTrip hrange homit, ← hsf]
  simp [stampLabel]

/-- A stamp in eighths of a frame is taken in exactly and reported back, in every rounding mode. -/
theorem takeStamp_eighths {std : Standard} {mode : Rounding} {st : Stamp} {x : TakenStamp}
    (h : takeStamp std mode st = some x) (h8 : st.sf.toNat % 125 = 0) :
    x.flags.inexact = false ∧ reportStamp std mode x.pos = (x.stamp, false) := by
  have hgood : ¬labelOutOfRange std st := fun hbad => by simp [takeStamp_eq_none_iff.2 hbad] at h
  obtain ⟨hrange, homit, hsf⟩ := legalisedStamp_good hgood
  have hlt : st.sf.toNat < 1000 := by
    unfold labelOutOfRange at hgood
    omega
  obtain ⟨k, hk⟩ : ∃ k, (legalisedStamp std st).sf.toNat = k * 125 := ⟨st.sf.toNat / 125, by rw [hsf]; omega⟩
  obtain ⟨hstamp, hpos, hflags⟩ := takeStamp_fields h
  rw [stampFraction_of_eighths mode hk] at hpos hflags
  rw [hflags, hpos, hstamp]
  exact ⟨rfl, reportStamp_of_stamp mode (by rw [hsf] at hk; omega) hk hrange homit⟩

/-- Settles O52: both directions of the label conversion, and stamps in eighths of a frame. -/
theorem labelsAndStampsRoundTrip : Obligations.LabelsAndStampsRoundTrip :=
  ⟨fun std _ h => frameToLabel_roundTrip std h,
    fun _ _ hr ho => ⟨labelToFrame_lt hr, labelToFrame_roundTrip hr ho⟩,
    fun _ _ _ _ h h8 => takeStamp_eighths h h8⟩

end Sys2Proof.Machine

/-! The requests on the take log (R127, R128). -/

namespace Sys2Proof.Machine

/-! ## TAKE_PEEK (R127) -/

/-- A peek with an operand out of range, or with a selector outside R11, is refused. -/
theorem takePeek_refuses {s : State} {skip count rounding : Byte}
    (h : 63 < skip.toNat ∨ count = 0 ∨ 4 < count.toNat ∨ selectRounding s.settings.rounding rounding = none) :
    s.takePeek skip count rounding = .refuse .badField := by
  unfold State.takePeek
  split
  · rfl
  · rename_i mode hm
    refine if_neg ?_
    rintro ⟨hskip, hlow, hhigh⟩
    rcases h with h | h | h | h
    · omega
    · simp [h] at hlow
    · omega
    · rw [hm] at h
      cases h

/-- A peek with good operands reports the log and the records from the skip on. -/
theorem takePeek_reports {s : State} {skip count rounding : Byte} {mode : Rounding} (hskip : skip.toNat ≤ 63)
    (hlow : 1 ≤ count.toNat) (hhigh : count.toNat ≤ 4) (hm : selectRounding s.settings.rounding rounding = some mode) :
    ∃ flags, s.takePeek skip count rounding = .ok flags
      (.takePeek s.log.records.length s.log.openCount s.log.nextSerial
        (((s.log.records.drop skip.toNat).take count.toNat).map fun r =>
          (reportTake s.settings.standard mode r).1)) := by
  unfold State.takePeek
  simp only [hm, if_pos (And.intro hskip (And.intro hlow hhigh)), List.map_map]
  exact ⟨_, rfl⟩

/-! ## TAKE_RELEASE (R128) -/

/-- A release takes closed records from the oldest end, until the count is reached, the oldest is OPEN, or none is
left. -/
theorem releaseTakes_split (n : Nat) (l : List Take) : ∃ gone, l = gone ++ releaseTakes n l
    ∧ (∀ r ∈ gone, r.closing.isSome = true) ∧ gone.length ≤ n
    ∧ (gone.length = n ∨ releaseTakes n l = [] ∨ ∃ r rest, releaseTakes n l = r :: rest ∧ r.closing = none) := by
  induction l generalizing n with
  | nil => exact ⟨[], by cases n <;> rfl, by simp, by simp, .inr (.inl (by cases n <;> rfl))⟩
  | cons t rest ih =>
    cases n with
    | zero => exact ⟨[], rfl, by simp, by simp, .inl rfl⟩
    | succ n =>
      cases hc : t.closing with
      | none =>
        have hstop : releaseTakes (n + 1) (t :: rest) = t :: rest := if_pos (by simp [Take.isOpen, hc])
        exact ⟨[], hstop.symm, by simp, by simp, .inr (.inr ⟨t, rest, hstop, hc⟩)⟩
      | some c =>
        have hgo : releaseTakes (n + 1) (t :: rest) = releaseTakes n rest := if_neg (by simp [Take.isOpen, hc])
        obtain ⟨gone, hsplit, hclosed, hlen, hend⟩ := ih n
        refine ⟨t :: gone, ?_, ?_, ?_, ?_⟩
        · rw [hgo, List.cons_append, ← hsplit]
        · simpa [hc] using hclosed
        · simpa using hlen
        · rw [hgo]
          simpa using hend

/-- The answer to a release names how many records left, the serial of the first, and how many are left. -/
theorem takeRelease_answers {s : State} {count : Byte} {gone : List Take} (h : count.toNat ≤ 64)
    (hsplit : s.log.records = gone ++ releaseTakes count.toNat s.log.records) :
    s.takeRelease count =
      (s.mapLog fun g => { g with records := releaseTakes count.toNat s.log.records },
        .ok OutFlags.clear (.takeRelease gone.length (gone.head?.map (·.serial))
          (releaseTakes count.toNat s.log.records).length)) := by
  have hremoved : s.log.records.length - (releaseTakes count.toNat s.log.records).length = gone.length := by
    have := congrArg List.length hsplit
    rw [List.length_append] at this
    omega
  have hfirst : (if gone.length = 0 then none else s.log.records.head?.map (·.serial)) = gone.head?.map (·.serial) := by
    cases gone with
    | nil => rfl
    | cons t rest => rw [hsplit]; rfl
  unfold State.takeRelease
  simp only [if_pos h, hremoved, hfirst]

/-- Settles O53: each request is answered by the log as it stands, and a release leaves the rest of the records. -/
theorem takeRequestsReadAndRelease : Obligations.TakeRequestsReadAndRelease := by
  intro s h skip count rounding hr u
  have hpeek : exec (.takePeek h skip count rounding) s = .next (u.replied h 0x13 (u.takePeek skip count rounding)) :=
    exec_ready (c := .takePeek h skip count rounding) rfl hr
  have hrelease : exec (.takeRelease h count) s =
      .next ((u.takeRelease count).1.replied h 0x14 (u.takeRelease count).2) :=
    exec_ready (c := .takeRelease h count) rfl hr
  refine ⟨fun hbad => ?_, fun mode hskip hlow hhigh hm => ?_, fun hbad => ?_, fun hok => ?_⟩
  · rw [hpeek, takePeek_refuses (s := u) hbad]
    rfl
  · obtain ⟨flags, ha⟩ := takePeek_reports (s := u) hskip hlow hhigh hm
    exact ⟨flags, by rw [hpeek, ha]; rfl⟩
  · have hbad : u.takeRelease count = (u, .refuse .badField) := if_neg (by omega)
    rw [hrelease, hbad]
    rfl
  · obtain ⟨gone, hsplit, hclosed, hlen, hend⟩ := releaseTakes_split count.toNat s.log.records
    refine ⟨gone, _, hsplit, hclosed, hlen, hend, ?_⟩
    rw [hrelease, takeRelease_answers (s := u) hok hsplit]
    rfl

end Sys2Proof.Machine

/-! The timers of the tracker and of the generator at their limit (R35, R36, R125, R145). -/

namespace Sys2Proof.Machine

/-! ## A sample begins (R7) -/

/-- The beginning of a sample changes the count and the timers, and nothing else. -/
structure Begun (s b : State) : Prop where
  settings : b.settings = s.settings
  lanes : b.lanes = s.lanes
  state : b.tracker.state = s.tracker.state
  pos : b.tracker.pos = s.tracker.pos
  recordInterval : b.tracker.recordInterval = s.tracker.recordInterval

theorem beginSample_begun (s : State) : Begun s s.beginSample := by
  unfold State.beginSample
  split
  · exact ⟨rfl, rfl, rfl, rfl, rfl⟩
  · exact ⟨rfl, rfl, rfl, rfl, rfl⟩

theorem Begun.quiet {s b : State} (h : Begun s b) (hq : s.quiet) : b.quiet := by
  obtain ⟨hopen, hstandby, hstaging⟩ := hq
  refine ⟨fun i => ?_, by rw [h.settings]; exact hstandby, by rw [h.settings]; exact hstaging⟩
  rw [State.lane, h.lanes]
  exact hopen i

/-! ## The limits -/

/-- The stall timer is due only in TACH and while it runs. -/
theorem stallDue_iff (s : State) : s.stallDue = true ↔
    s.settings.source = .tach ∧ ∃ k, s.tracker.stallTimer = some k ∧ s.settings.stallTimeout ≤ k := by
  unfold State.stallDue
  cases s.tracker.stallTimer <;> simp

/-- The dropout timer is due only in CODE and while it runs. -/
theorem dropoutDue_iff (s : State) : s.dropoutDue = true ↔
    s.settings.source = .codeIn ∧ ∃ k, s.tracker.dropoutTimer = some k ∧ s.dropoutTimeout ≤ k := by
  unfold State.dropoutDue
  cases s.tracker.dropoutTimer <;> simp

/-- The hold timer is due only in a stopped LOCAL and while it runs. -/
theorem holdDue_iff (s : State) : s.holdDue = true ↔
    (s.settings.source = .localGen ∧ s.tracker.state = .stopped)
      ∧ ∃ k, s.feeds.holdTimer = some k ∧ nominalPeriod s.settings.standard s.settings.sampleRate ≤ k := by
  unfold State.holdDue
  cases s.feeds.holdTimer <;> simp

/-! ## What the timers do -/

/-- Outside LOCAL the generator forms nothing (R143). -/
theorem formHold_of_not_local {s : State} (h : s.settings.source ≠ .localGen) : s.formHold = s := if_neg h

theorem noteTracker_settings (s : State) (cause : TrackerCause) : (s.noteTracker cause).settings = s.settings := by
  obtain ⟨f, hf⟩ : ∃ f, s.noteTracker cause = s.mapLink f := post_eq_mapLink _ _
  rw [hf]
  rfl

/-- The stall of a MOVING tracker in a quiet part in TACH (R35, R49). -/
theorem fireStall_of_moving {s : State} (hsrc : s.settings.source = .tach) (hstate : s.tracker.state = .moving)
    (hq : s.quiet) :
    s.fireStall = (s.mapTracker fun t =>
      { t with stallTimer := none, origin := none, spd := 0, state := .stopped }).noteTracker .stall := by
  unfold State.fireStall
  simp only [State.mapTracker_tracker, hstate]
  rw [enterStopped_quiet (by exact hq), formHold_of_not_local]
  · rfl
  · rw [noteTracker_settings]
    simp [hsrc]

/-- The dropout of a MOVING tracker (R36, R49, R125). -/
theorem fireDropout_of_moving {s : State} (hstate : s.tracker.state = .moving) :
    s.fireDropout = ((s.mapTracker fun t =>
      { t with dropoutTimer := none, recordInterval := none, origin := none, state := .coasting }).noteTracker
        .dropout).mapLog fun g => { g with
          records := g.records.map fun r => if r.closing = none then { r with coasted := true } else r } := by
  have hmark : TakeLog.markCoasted = fun g => { g with
      records := g.records.map fun r => if r.closing = none then { r with coasted := true } else r } := by
    funext g
    simp only [TakeLog.markCoasted, Take.isOpen, Option.isNone_iff_eq_none]
  unfold State.fireDropout
  simp only [State.mapTracker_tracker, hstate, hmark]
  rfl

/-- Settles O57: a timer at its limit fires on the sample that begins; one that does not run, or whose source is not in
force, is not due. -/
theorem timersActAtTheirLimit : Obligations.TimersActAtTheirLimit := by
  intro s hclk b
  have hb : Begun s b := beginSample_begun s
  have stall : exec .stall s = .next (if b.stallDue = true then b.fireStall else s) := by
    simp only [exec, execStall, hclk, true_and, b]
  have dropout : exec .dropout s = .next (if b.dropoutDue = true then b.fireDropout else s) := by
    simp only [exec, execDropout, hclk, true_and, b]
  have hold : exec .holdTimer s = .next (if b.holdDue = true then b.fireHold else s) := by
    simp only [exec, execHoldTimer, hclk, true_and, b]
  refine ⟨fun k hsrc htimer hlim hstate hq => ?_, fun k hsrc htimer hlim hstate => ?_,
    fun k hsrc htimer hlim hstate => ?_, fun hoff => ?_, fun hoff => ?_, fun hoff => ?_⟩
  · rw [← hb.settings] at hsrc hlim
    rw [stall, if_pos ((stallDue_iff b).2 ⟨hsrc, k, htimer, hlim⟩),
      fireStall_of_moving hsrc (hb.state.trans hstate) (hb.quiet hq)]
  · have hlim : b.dropoutTimeout ≤ k := by
      unfold State.dropoutTimeout nominalPeriod
      rw [hb.recordInterval, hb.settings]
      cases hint : s.tracker.recordInterval <;> simpa [hint] using hlim
    rw [dropout, if_pos ((dropoutDue_iff b).2 ⟨hb.settings ▸ hsrc, k, htimer, hlim⟩),
      fireDropout_of_moving (hb.state.trans hstate)]
  · rw [← hb.settings] at hsrc hlim
    rw [hold, if_pos ((holdDue_iff b).2 ⟨⟨hsrc, hb.state.trans hstate⟩, k, htimer, hlim⟩)]
    unfold State.fireHold State.formHold State.formCode
    rw [if_pos hsrc, hb.pos, hb.settings]
    rfl
  · rw [stall, if_neg fun hdue => ?_]
    obtain ⟨hsrc, k, hk, -⟩ := (stallDue_iff b).1 hdue
    rw [hb.settings] at hsrc
    simp [hsrc, hk] at hoff
  · rw [dropout, if_neg fun hdue => ?_]
    obtain ⟨hsrc, k, hk, -⟩ := (dropoutDue_iff b).1 hdue
    rw [hb.settings] at hsrc
    simp [hsrc, hk] at hoff
  · rw [hold, if_neg fun hdue => ?_]
    obtain ⟨⟨hsrc, -⟩, k, hk, -⟩ := (holdDue_iff b).1 hdue
    rw [hb.settings] at hsrc
    simp [hsrc, hk] at hoff

end Sys2Proof.Machine

/-! What the other blocks leave alone when the tracker reports: the lanes' work spares the tracker and the settings, a
report spares the tracker, and a part whose lanes are all IDLE with no take open keeps its lanes, its cue table and its
log. -/

namespace Sys2Proof.Machine

/-! ## The lanes' work spares the tracker and the settings -/

/-- What the work of lanes, feeds, log and link leaves as it was. -/
structure SparesTracker (s t : State) : Prop where
  tracker : t.tracker = s.tracker
  settings : t.settings = s.settings

theorem SparesTracker.refl (s : State) : SparesTracker s s := ⟨rfl, rfl⟩

theorem SparesTracker.trans {a b c : State} (h : SparesTracker a b) (g : SparesTracker b c) : SparesTracker a c :=
  ⟨g.tracker.trans h.tracker, g.settings.trans h.settings⟩

/-- Sparing the tracker after a change that left it and the settings alone. -/
theorem SparesTracker.after {a b c : State} (h : SparesTracker b c) (ht : b.tracker = a.tracker)
    (hs : b.settings = a.settings) : SparesTracker a c := .trans ⟨ht, hs⟩ h

theorem sparesTracker_ite {c : Prop} [Decidable c] {s a b : State} (ha : SparesTracker s a) (hb : SparesTracker s b) :
    SparesTracker s (if c then a else b) := by
  split
  · exact ha
  · exact hb

theorem sparesTracker_foldl {α : Type} {f : State → α → State} (hf : ∀ s a, SparesTracker s (f s a)) (l : List α)
    (s : State) : SparesTracker s (l.foldl f s) := by
  induction l generalizing s with
  | nil => exact .refl s
  | cons a l ih => exact (hf s a).trans (ih _)

variable (s : State)

theorem post_sparesTracker (n : Notice) : SparesTracker s (s.post n) := by
  obtain ⟨f, hf⟩ := post_eq_mapLink s n
  rw [hf]
  exact ⟨rfl, rfl⟩

theorem noteTracker_sparesTracker (c : TrackerCause) : SparesTracker s (s.noteTracker c) := post_sparesTracker _ _

theorem raiseFault_sparesTracker (f : Flag) : SparesTracker s (s.raiseFault f) :=
  sparesTracker_ite (.refl s) ((post_sparesTracker _ _).after rfl rfl)

theorem formCode_sparesTracker (frame : Nat) (spd : Int) : SparesTracker s (s.formCode frame spd) :=
  sparesTracker_ite ⟨rfl, rfl⟩ (.refl s)

theorem handFeeds_sparesTracker (i : LaneId) (b : Bool) : SparesTracker s (s.handFeeds i b) :=
  sparesTracker_ite ⟨rfl, rfl⟩ ⟨rfl, rfl⟩

theorem releaseCue_sparesTracker (i : LaneId) : SparesTracker s (s.releaseCue i) := by
  unfold State.releaseCue
  dsimp only
  split <;> exact ⟨rfl, rfl⟩

theorem expandInto_sparesTracker (i : LaneId) (index n : Nat) : SparesTracker s (s.expandInto i index n) := ⟨rfl, rfl⟩

theorem grantTake_sparesTracker (q : TakeRequest) : SparesTracker s (s.grantTake q) :=
  (post_sparesTracker _ _).after rfl rfl

theorem closeTake_sparesTracker (i : LaneId) (pos : Nat) (sample : SampleCount) (cause : EndCause) :
    SparesTracker s (s.closeTake i pos sample cause) := by
  unfold State.closeTake
  split
  · exact .refl s
  · dsimp only
    split
    · exact ⟨rfl, rfl⟩
    · exact (post_sparesTracker _ _).after rfl rfl

theorem restoreStep_sparesTracker (i : LaneId) (slot : Nat) (u : MotionUpdate) :
    SparesTracker s (s.restoreStep i slot u) :=
  (sparesTracker_foldl (fun _ _ => post_sparesTracker _ _) _ _).after rfl rfl

theorem retireStep_sparesTracker (i : LaneId) (slot : Nat) (u : MotionUpdate) (live : Bool) :
    SparesTracker s (s.retireStep i slot u live).2 :=
  (sparesTracker_foldl (fun _ _ => post_sparesTracker _ _) _ _).after rfl rfl

theorem actOn_sparesTracker (i : LaneId) (slot : Nat) (u : MotionUpdate) (mode : EngineMode) (r : Retirement) :
    SparesTracker s (s.actOn i slot u mode r) := by
  unfold State.actOn
  split
  · refine sparesTracker_ite ?_ (.refl s)
    exact sparesTracker_ite (grantTake_sparesTracker s _) ((post_sparesTracker _ _).after rfl rfl)
  · exact closeTake_sparesTracker s _ _ _ _
  all_goals exact .refl s

theorem tryEntries_sparesTracker (i : LaneId) (prevEnd index last : Nat) (l : List Nat) :
    SparesTracker s (s.tryEntries i prevEnd index last l) := by
  induction l generalizing s index last with
  | nil => exact (post_sparesTracker _ _).after rfl rfl
  | cons n rest ih =>
    have expanded := expandInto_sparesTracker s i index n
    refine sparesTracker_ite (expanded.trans (post_sparesTracker _ _)) ?_
    exact ((expanded.trans (releaseCue_sparesTracker _ i)).trans (post_sparesTracker _ _)).trans (ih _ _ _)

theorem advance_sparesTracker (i : LaneId) (slot prevEnd : Nat) : SparesTracker s (s.advance i slot prevEnd) :=
  ((releaseCue_sparesTracker s i).trans (tryEntries_sparesTracker _ _ _ _ _ _)).trans (handFeeds_sparesTracker _ _ _)

theorem retireAndAct_sparesTracker (i : LaneId) (u : MotionUpdate) (live : Bool) (mode : EngineMode) (fuel : Nat) :
    SparesTracker s (s.retireAndAct i u live mode fuel).2 := by
  induction fuel generalizing s with
  | zero => exact .refl s
  | succ fuel ih =>
    unfold State.retireAndAct
    split
    · exact .refl s
    · rename_i slot _
      dsimp only
      have worked := (retireStep_sparesTracker s i slot u live).trans
        (sparesTracker_foldl (f := fun s r => s.actOn i slot u mode r) (fun _ _ => actOn_sparesTracker _ _ _ _ _ _)
          (s.retireStep i slot u live).1 _)
      split
      · exact worked
      · exact (worked.trans (advance_sparesTracker _ _ _ _)).trans (ih _)

theorem evaluateAt_sparesTracker (i : LaneId) (pos : Nat) (sample : SampleCount) :
    SparesTracker s (s.evaluateAt i pos sample) :=
  (retireAndAct_sparesTracker _ _ _ _ _ _).trans (handFeeds_sparesTracker _ _ _)

theorem laneTurn_sparesTracker (i : LaneId) (u : MotionUpdate) (trigger : Bool) (mode : EngineMode) :
    SparesTracker s (s.laneTurn i u trigger mode) := by
  refine sparesTracker_ite ?_ ?_
  · have freed := (closeTake_sparesTracker s i u.p0 u.sample .cycle).trans (releaseCue_sparesTracker _ i)
    unfold State.rearmLane
    dsimp only
    split
    · exact freed
    · refine freed.trans (SparesTracker.trans ?_ (evaluateAt_sparesTracker _ _ _ _))
      exact (post_sparesTracker _ _).after rfl rfl
  · unfold State.reactLane
    split
    · exact .refl s
    · refine SparesTracker.trans ?_ (handFeeds_sparesTracker _ _ _)
      refine SparesTracker.trans ?_ (retireAndAct_sparesTracker _ _ _ _ _ _)
      refine SparesTracker.trans ?_ (restoreStep_sparesTracker _ _ _ _)
      exact sparesTracker_ite (.refl s) (closeTake_sparesTracker _ _ _ _ _)

theorem closeOutside_sparesTracker (i : LaneId) (pos : Nat) (cause : EndCause) :
    SparesTracker s (s.closeOutside i pos cause) := by
  unfold State.closeOutside
  split
  · exact .refl s
  · exact (closeTake_sparesTracker _ _ _ _ _).trans (handFeeds_sparesTracker _ _ _)

theorem eachLane_sparesTracker {f : LaneId → State → State} (hf : ∀ i s, SparesTracker s (f i s)) :
    SparesTracker s (s.eachLane f) :=
  sparesTracker_foldl (fun s i => hf i s) _ _

theorem eachLaneFreely_sparesTracker {f : LaneId → State → State} (hf : ∀ i s, SparesTracker s (f i s)) :
    SparesTracker s (s.eachLaneFreely f) :=
  sparesTracker_ite ((sparesTracker_foldl (fun s i => hf i s) _ s.settleLanes.2).after rfl rfl) (eachLane_sparesTracker s hf)

theorem closeAll_sparesTracker (cause : EndCause) : SparesTracker s (s.closeAll cause) :=
  eachLaneFreely_sparesTracker s fun _ _ => closeOutside_sparesTracker _ _ _ _

theorem laneTakes_sparesTracker (u : MotionUpdate) (trigger : Bool) (due : Option EngineMode) (i : LaneId) :
    SparesTracker s (laneTakes u trigger due i s) := by
  cases due with
  | none => exact laneTurn_sparesTracker _ _ _ _ _
  | some mode =>
    have settled : SparesTracker s s.settleOrder.2 := ⟨rfl, rfl⟩
    refine sparesTracker_ite (settled.trans ?_) (settled.trans ?_)
    · exact (closeOutside_sparesTracker _ _ _ _).trans (laneTurn_sparesTracker _ _ _ _ _)
    · exact (laneTurn_sparesTracker _ _ _ _ _).trans (closeOutside_sparesTracker _ _ _ _)

theorem lanesTake_sparesTracker (u : MotionUpdate) (due : Option EngineMode) : SparesTracker s (s.lanesTake u due) := by
  obtain ⟨order, n, -, -, heq⟩ := lanesTake_order s u due
  rw [heq]
  exact (sparesTracker_foldl (fun s i => laneTakes_sparesTracker s u _ due i) _ _).after rfl rfl

theorem lanesAndOverlay_sparesTracker (u : MotionUpdate) (due : Option EngineMode) :
    SparesTracker s (s.lanesAndOverlay u due) := by
  have settled : SparesTracker s s.settleOrder.2 := ⟨rfl, rfl⟩
  refine sparesTracker_ite ((lanesTake_sparesTracker s u due).trans ⟨rfl, rfl⟩) (sparesTracker_ite ?_ ?_)
  · exact (lanesTake_sparesTracker _ u due).after rfl rfl
  · exact (settled.trans (lanesTake_sparesTracker _ u due)).trans ⟨rfl, rfl⟩

/-! ## IDLE lanes keep still -/

/-- Every lane is IDLE and no take is open. -/
def State.lanesIdle (s : State) : Prop := (∀ i, (s.lane i).state = .idle) ∧ s.noTakeOpen

/-- The lanes, the cue table and the log are as they were. -/
structure KeepsStill (s t : State) : Prop where
  lanes : t.lanes = s.lanes
  table : t.table = s.table
  log : t.log = s.log

theorem KeepsStill.refl (s : State) : KeepsStill s s := ⟨rfl, rfl, rfl⟩

theorem KeepsStill.trans {a b c : State} (h : KeepsStill a b) (g : KeepsStill b c) : KeepsStill a c :=
  ⟨g.lanes.trans h.lanes, g.table.trans h.table, g.log.trans h.log⟩

theorem KeepsStill.after {a b c : State} (h : KeepsStill b c) (hl : b.lanes = a.lanes) (ht : b.table = a.table)
    (hg : b.log = a.log) : KeepsStill a c := .trans ⟨hl, ht, hg⟩ h

theorem KeepsStill.lane {s t : State} (h : KeepsStill s t) (i : LaneId) : t.lane i = s.lane i := by
  rw [State.lane, h.lanes]
  rfl

theorem KeepsStill.idle {s t : State} (h : KeepsStill s t) (hi : s.lanesIdle) : t.lanesIdle :=
  ⟨fun i => by rw [h.lane]; exact hi.1 i, fun i => by rw [h.lane]; exact hi.2 i⟩

theorem keepsStill_ite {c : Prop} [Decidable c] {s a b : State} (ha : KeepsStill s a) (hb : KeepsStill s b) :
    KeepsStill s (if c then a else b) := by
  split
  · exact ha
  · exact hb

theorem post_keepsStill (n : Notice) : KeepsStill s (s.post n) := by
  obtain ⟨f, hf⟩ := post_eq_mapLink s n
  rw [hf]
  exact ⟨rfl, rfl, rfl⟩

theorem raiseFault_keepsStill (f : Flag) : KeepsStill s (s.raiseFault f) :=
  keepsStill_ite (.refl s) ((post_keepsStill _ _).after rfl rfl rfl)

theorem formCode_keepsStill (frame : Nat) (spd : Int) : KeepsStill s (s.formCode frame spd) :=
  keepsStill_ite ⟨rfl, rfl, rfl⟩ (.refl s)

variable {s}

/-- One thing done in every lane keeps still what each of them does in turn. -/
theorem eachLane_keepsStill {f : LaneId → State → State} (hf : ∀ i s, s.lanesIdle → KeepsStill s (f i s))
    (hi : s.lanesIdle) : KeepsStill s (s.eachLane f) := by
  have fold (l : List LaneId) (s : State) (hi : s.lanesIdle) : KeepsStill s (l.foldl (fun s i => f i s) s) := by
    induction l generalizing s with
    | nil => exact .refl s
    | cons i l ih => exact (hf i s hi).trans (ih _ ((hf i s hi).idle hi))
  exact fold laneIds s hi

/-- An IDLE lane leaves an update alone (R94). -/
theorem laneTurn_of_idle {i : LaneId} (h : (s.lane i).state = .idle) (u : MotionUpdate) (trigger : Bool)
    (mode : EngineMode) : s.laneTurn i u trigger mode = s := by
  unfold State.laneTurn State.reactLane Lane.currentSlot
  simp only [h, ne_eq, not_true_eq_false, and_false, if_false]

theorem laneTakes_keepsStill (u : MotionUpdate) (trigger : Bool) (due : Option EngineMode) (i : LaneId)
    (hi : s.lanesIdle) : KeepsStill s (laneTakes u trigger due i s) := by
  cases due with
  | none =>
    rw [laneTakes, laneTurn_of_idle (hi.1 i)]
    exact .refl s
  | some mode =>
    have hnone : (s.settleOrder.2.lane i).openTake = none := hi.2 i
    have hidle : (s.settleOrder.2.lane i).state = .idle := hi.1 i
    simp only [laneTakes, State.laneTurnAtStandby, closeOutside_of_none hnone, laneTurn_of_idle hidle, ite_self]
    exact ⟨rfl, rfl, rfl⟩

theorem lanesTake_keepsStill (u : MotionUpdate) (due : Option EngineMode) (hi : s.lanesIdle) :
    KeepsStill s (s.lanesTake u due) := by
  have hnone : ¬severalLanes (fun i => decide ((s.lane i).state ≠ .idle)) = true := by simp [severalLanes, hi.1]
  unfold State.lanesTake
  simp only [hnone, Bool.false_eq_true, if_false]
  exact eachLane_keepsStill (fun i _ hi => laneTakes_keepsStill u _ due i hi) hi

theorem lanesAndOverlay_keepsStill (u : MotionUpdate) (due : Option EngineMode) (hi : s.lanesIdle) :
    KeepsStill s (s.lanesAndOverlay u due) := by
  have settled : KeepsStill s s.settleOrder.2 := ⟨rfl, rfl, rfl⟩
  refine keepsStill_ite ((lanesTake_keepsStill u due hi).trans ⟨rfl, rfl, rfl⟩) (keepsStill_ite ?_ ?_)
  · exact (lanesTake_keepsStill (s := s.settleOrder.2.formOverlay) u due hi).after rfl rfl rfl
  · exact (settled.trans (lanesTake_keepsStill u due (settled.idle hi))).trans ⟨rfl, rfl, rfl⟩

/-! ## Reports spare the tracker -/

/-- No window waits in the staging list. -/
def Settings.noWindowWaits (g : Settings) : Prop := ∀ e ∈ g.staging, e.isWindow = false

/-- What a report of the tracker does elsewhere: it leaves the tracker and the source alone, leaves the cycle window alone
when none waits, and leaves IDLE lanes alone. -/
structure Reports (s t : State) : Prop where
  tracker : t.tracker = s.tracker
  source : t.settings.source = s.settings.source
  window : s.settings.noWindowWaits → t.settings.cycleStart = s.settings.cycleStart
    ∧ t.settings.cycleEnd = s.settings.cycleEnd ∧ t.settings.noWindowWaits
  still : s.lanesIdle → KeepsStill s t

theorem Reports.refl (s : State) : Reports s s := ⟨rfl, rfl, fun h => ⟨rfl, rfl, h⟩, fun _ => .refl s⟩

theorem Reports.trans {a b c : State} (h : Reports a b) (g : Reports b c) : Reports a c where
  tracker := g.tracker.trans h.tracker
  source := g.source.trans h.source
  window hw := by
    obtain ⟨h1, h2, h3⟩ := h.window hw
    obtain ⟨g1, g2, g3⟩ := g.window h3
    exact ⟨g1.trans h1, g2.trans h2, g3⟩
  still hi := (h.still hi).trans (g.still ((h.still hi).idle hi))

theorem SparesTracker.reports {s t : State} (h : SparesTracker s t) (hs : s.lanesIdle → KeepsStill s t) :
    Reports s t :=
  ⟨h.tracker, by rw [h.settings], fun hw => by rw [h.settings]; exact ⟨rfl, rfl, hw⟩, hs⟩

theorem reports_ite {c : Prop} [Decidable c] {s a b : State} (ha : Reports s a) (hb : Reports s b) :
    Reports s (if c then a else b) := by
  split
  · exact ha
  · exact hb

variable (s)

theorem reports_settleOrder : Reports s s.settleOrder.2 :=
  SparesTracker.reports ⟨rfl, rfl⟩ fun _ => ⟨rfl, rfl, rfl⟩

theorem noteTracker_reports (c : TrackerCause) : Reports s (s.noteTracker c) :=
  (noteTracker_sparesTracker s c).reports fun _ => post_keepsStill _ _

theorem formCode_reports (frame : Nat) (spd : Int) : Reports s (s.formCode frame spd) :=
  (formCode_sparesTracker s frame spd).reports fun _ => formCode_keepsStill s frame spd

theorem lanesAndOverlay_reports (u : MotionUpdate) (due : Option EngineMode) : Reports s (s.lanesAndOverlay u due) :=
  (lanesAndOverlay_sparesTracker s u due).reports (lanesAndOverlay_keepsStill u due)

theorem closeAll_reports (cause : EndCause) : Reports s (s.closeAll cause) :=
  (closeAll_sparesTracker s cause).reports fun hi => by
    rw [closeAll_of_noTakeOpen hi.2]
    exact .refl s

theorem fallOfPlay_reports (before : Bool) : Reports s (s.fallOfPlay before) :=
  reports_ite (closeAll_reports s _) (.refl s)

theorem setMode_reports (mode : EngineMode) : Reports s (s.setMode mode) :=
  reports_ite ⟨rfl, rfl, fun hw => ⟨rfl, rfl, hw⟩, fun _ => ⟨rfl, rfl, rfl⟩⟩
    ⟨rfl, rfl, fun hw => ⟨rfl, rfl, hw⟩, fun _ => ⟨rfl, rfl, rfl⟩⟩

/-- Entries that are no windows leave the source and the cycle window. -/
theorem applyEntries_spare (l : List Staged) (g : Settings) :
    (l.foldl Settings.applyEntry g).source = g.source
      ∧ ((∀ e ∈ l, e.isWindow = false) → (l.foldl Settings.applyEntry g).cycleStart = g.cycleStart
        ∧ (l.foldl Settings.applyEntry g).cycleEnd = g.cycleEnd) := by
  induction l generalizing g with
  | nil => exact ⟨rfl, fun _ => ⟨rfl, rfl⟩⟩
  | cons e l ih =>
    obtain ⟨hsource, hwindow⟩ := ih (g.applyEntry e)
    have first : (g.applyEntry e).source = g.source
        ∧ (e.isWindow = false → (g.applyEntry e).cycleStart = g.cycleStart ∧ (g.applyEntry e).cycleEnd = g.cycleEnd) := by
      cases e with
      | cycleWindow => exact ⟨rfl, nofun⟩
      | _ => exact ⟨rfl, fun _ => ⟨rfl, rfl⟩⟩
    refine ⟨hsource.trans first.1, fun hl => ?_⟩
    obtain ⟨h1, h2⟩ := hwindow fun x hx => hl x (List.mem_cons_of_mem _ hx)
    obtain ⟨g1, g2⟩ := first.2 (hl e List.mem_cons_self)
    exact ⟨h1.trans g1, h2.trans g2⟩

/-- The staged entries reach the settings and the list becomes empty. -/
theorem applyEntries_reports :
    Reports s (s.mapSettings fun g => { g.staging.foldl Settings.applyEntry g with staging := [] }) := by
  obtain ⟨hsource, hwindow⟩ := applyEntries_spare s.settings.staging s.settings
  refine ⟨rfl, hsource, fun hw => ?_, fun _ => ⟨rfl, rfl, rfl⟩⟩
  obtain ⟨hstart, hend⟩ := hwindow hw
  exact ⟨hstart, hend, fun _ he => by cases he⟩

theorem mapFeeds_reports (f : Feeds → Feeds) : Reports s (s.mapFeeds f) :=
  ⟨rfl, rfl, fun hw => ⟨rfl, rfl, hw⟩, fun _ => ⟨rfl, rfl, rfl⟩⟩

/-- New tone increments are the feeds' alone. -/
theorem recomputeTones_reports : Reports s s.recomputeTones := mapFeeds_reports s _

theorem applyStaging_reports : Reports s s.applyStaging := by
  unfold State.applyStaging
  dsimp only
  exact ((applyEntries_reports s).trans (recomputeTones_reports _)).trans (fallOfPlay_reports _ _)

theorem applyUnheld_reports : Reports s s.applyUnheld := reports_ite (.refl s) (applyStaging_reports s)

theorem boundaryTaken_reports (u : MotionUpdate) : Reports s (s.boundaryTaken u) := by
  refine reports_ite ((reports_settleOrder s).trans (reports_ite ?_ ?_)) (lanesAndOverlay_reports s u none)
  · exact (setMode_reports _ _).trans (lanesAndOverlay_reports _ _ _)
  · exact (lanesAndOverlay_reports _ _ _).trans (setMode_reports _ _)

theorem emitUpdateWith_reports (p0 : Nat) (kind : UpdateKind) (spd : Int) :
    Reports s (s.emitUpdateWith p0 kind spd) := by
  refine reports_ite ?_ ?_
  · exact (lanesTake_sparesTracker s _ none).reports (lanesTake_keepsStill _ none)
  · exact ((boundaryTaken_reports s _).trans (formCode_reports _ _ _)).trans (applyUnheld_reports _)

theorem emitUpdate_reports (p0 : Nat) (kind : UpdateKind) : Reports s (s.emitUpdate p0 kind) :=
  emitUpdateWith_reports s p0 kind _

theorem emitIfMoved_reports (p0 : Nat) (kind : UpdateKind) : Reports s (s.emitIfMoved p0 kind) :=
  reports_ite (.refl s) (emitUpdate_reports s p0 kind)

/-- At a stop with a STANDBY entry each lane takes its order and closes what it has. -/
theorem closeAtStop_reports (cause : EndCause) :
    Reports s (s.eachLaneFreely fun i s => s.closeAtStop i cause) := by
  refine (eachLaneFreely_sparesTracker s fun i s => ?_).reports fun hi => ?_
  · exact .trans (b := s.settleOrder.2) ⟨rfl, rfl⟩ (closeOutside_sparesTracker _ _ _ _)
  · rw [eachLaneFreely_of_noTakeOpen hi.2]
    refine eachLane_keepsStill (fun i s hi => ?_) hi
    rw [State.closeAtStop, closeOutside_of_none (by exact hi.2 i)]
    exact ⟨rfl, rfl, rfl⟩

theorem stoppedEffects_reports (cause : EndCause) : Reports s (s.stoppedEffects cause) := by
  refine Reports.trans (Reports.trans ?_ (formCode_reports _ _ _)) (applyUnheld_reports _)
  refine reports_ite ((reports_settleOrder s).trans (reports_ite ?_ ?_)) (closeAll_reports s cause)
  · exact (setMode_reports _ _).trans (closeAtStop_reports _ _)
  · exact (closeAtStop_reports _ _).trans (setMode_reports _ _)

/-- The entry into STOPPED stops the tracker; the rest of it is a report (R35). -/
theorem enterStopped_reports (cause : TrackerCause) (loss : EndCause) :
    Reports (s.mapTracker fun t => { t with spd := 0, state := .stopped }) (s.enterStopped cause loss) := by
  refine reports_ite ((reports_settleOrder _).trans (reports_ite ?_ ?_)) ?_
  · exact (noteTracker_reports _ _).trans (stoppedEffects_reports _ _)
  · exact (stoppedEffects_reports _ _).trans (noteTracker_reports _ _)
  · exact (noteTracker_reports _ _).trans (stoppedEffects_reports _ _)

/-- The entry into another state changes that state; the rest of it is a report (R49). -/
theorem enter_reports (state : TrackerState) (cause : TrackerCause) :
    Reports (s.mapTracker fun t => { t with state := state }) (s.enter state cause) := noteTracker_reports _ _

end Sys2Proof.Machine

/-! The position requests: POSITION_JAM and POSITION_READ (R40, R173). -/

namespace Sys2Proof.Machine

/-! ## POSITION_JAM (R40) -/

/-- A change of the tracker before a report is still there after it. -/
theorem Reports.mapTracker {s t : State} (h : Reports s t) (f : Tracker → Tracker) :
    Reports (s.mapTracker f) (t.mapTracker f) where
  tracker := by rw [State.mapTracker_tracker, State.mapTracker_tracker, h.tracker]
  source := h.source
  window := h.window
  still hi := ⟨(h.still hi).lanes, (h.still hi).table, (h.still hi).log⟩

/-- The tracker at a jam: Pos and L at the position, no mismatch counted, and in TACH the phase count of the position. -/
def Tracker.placed (g : Settings) (x : Nat) (t : Tracker) : Tracker :=
  { t with
    pos := x, lastAnchor := x, driftCount := 0
    phase := if g.source = .tach then phaseOf g.edges x else t.phase }

/-- The tracker after a jam: placed, and referenced by its speed when it was UNREFERENCED. -/
def Tracker.jammed (g : Settings) (x : Nat) (t : Tracker) : Tracker :=
  { t.placed g x with
    state := if t.state = .unreferenced then if t.spd = 0 then .stopped else .moving else t.state }

theorem placePos_rederived (s : State) (x : Nat) :
    ((s.placePos x).rederiveInTach.mapTracker fun t => { t with driftCount := 0 }) =
      s.mapTracker (Tracker.placed s.settings x) := by
  have hsource : (s.placePos x).settings.source = s.settings.source := rfl
  unfold State.rederiveInTach Tracker.placed
  rw [hsource]
  by_cases h : s.settings.source = .tach
  · simp only [h, if_true]
    rfl
  · simp only [h, if_false]
    rfl

/-- The tracker takes the state its speed gives; the rest is a report (R33). -/
theorem enterBySpeed_reports (s : State) (cause : TrackerCause) :
    Reports (s.mapTracker fun t => { t with state := if t.spd = 0 then .stopped else .moving })
      (s.enterBySpeed cause) := by
  unfold State.enterBySpeed
  by_cases h : s.tracker.spd = 0
  · have hstop : (s.mapTracker fun t => { t with state := if t.spd = 0 then .stopped else .moving }) =
        s.mapTracker fun t => { t with spd := 0, state := .stopped } := by
      simp only [State.mapTracker, h, if_true]
    rw [if_pos h, hstop]
    exact enterStopped_reports s _ _
  · have hmove : (s.mapTracker fun t => { t with state := if t.spd = 0 then .stopped else .moving }) =
        s.mapTracker fun t => { t with state := .moving } := by
      simp only [State.mapTracker, h, if_false]
    rw [if_neg h, hmove]
    exact enter_reports s _ _

/-- A jam places and references the tracker; the rest of it is a report (R40). -/
theorem jamTo_reports (s : State) (x : Nat) :
    Reports (s.mapTracker (Tracker.jammed s.settings x)) (s.jamTo x) := by
  have moved := emitUpdate_reports (s.mapTracker (Tracker.placed s.settings x)) s.tracker.pos .jump
  unfold State.jamTo
  simp only [placePos_rederived, decide_eq_true_eq]
  by_cases h : s.tracker.state = .unreferenced
  · have hjam : s.mapTracker (Tracker.jammed s.settings x) = (s.mapTracker (Tracker.placed s.settings x)).mapTracker
        fun t => { t with state := if t.spd = 0 then .stopped else .moving } := by
      simp only [State.mapTracker, Tracker.jammed, Tracker.placed, h, if_true]
    rw [if_pos h, hjam]
    exact (moved.mapTracker _).trans (enterBySpeed_reports _ _)
  · have hjam : s.mapTracker (Tracker.jammed s.settings x) = s.mapTracker (Tracker.placed s.settings x) := by
      simp only [State.mapTracker, Tracker.jammed, Tracker.placed, h, if_false]
    rw [if_neg h, hjam]
    exact moved

theorem positionJam_badField {s : State} {rounding : Byte} (st : Stamp)
    (hm : selectRounding s.settings.rounding rounding = none) :
    s.positionJam rounding st = (s, .refuse .badField) := by
  unfold State.positionJam
  rw [hm]

theorem positionJam_badLabel {s : State} {rounding : Byte} {mode : Rounding} {st : Stamp}
    (hm : selectRounding s.settings.rounding rounding = some mode) (hx : takeStamp s.settings.standard mode st = none) :
    s.positionJam rounding st = (s, .refuse .badLabel) := by
  unfold State.positionJam
  simp only [hm, hx]

theorem positionJam_taken {s : State} {rounding : Byte} {mode : Rounding} {st : Stamp} {x : TakenStamp}
    (hm : selectRounding s.settings.rounding rounding = some mode) (hx : takeStamp s.settings.standard mode st = some x) :
    s.positionJam rounding st = (s.jamTo x.pos, .ok x.flags .none) := by
  unfold State.positionJam
  simp only [hm, hx]

/-! ## POSITION_READ (R173) -/

/-- The reported speed is the rounded ratio within ±32,767, flagged INVALID when the limit changed it. -/
theorem speedRatio_eq (mode : Rounding) (nominal spd : Int) :
    speedRatio mode nominal spd =
      let r := roundQ mode (spd * 1000) nominal.toNat
      (max (-32767) (min 32767 r.value),
        { inexact := r.inexact, invalid := decide (max (-32767) (min 32767 r.value) ≠ r.value), clamped := false,
          staged := false }) := by
  have clip (v : Int) : (if v > 32767 then 32767 else if v < -32767 then -32767 else v) = max (-32767) (min 32767 v) := by
    split
    · omega
    · split <;> omega
  unfold speedRatio
  simp only [clip]

theorem positionRead_badField {s : State} {rounding : Byte}
    (hm : selectRounding s.settings.rounding rounding = none) : s.positionRead rounding = .refuse .badField := by
  unfold State.positionRead
  rw [hm]

/-- A read reports the position and the speed, with the flags of both. -/
theorem positionRead_reports {s : State} {rounding : Byte} {mode : Rounding}
    (hm : selectRounding s.settings.rounding rounding = some mode) :
    s.positionRead rounding =
      let p := reportPos s.settings.standard mode s.tracker.pos
      let r := speedRatio mode s.nominal s.tracker.spd
      .ok (p.2.union r.2) (.position p.1 r.1 s.tracker.state s.inPlay s.tracker.count) := by
  unfold State.positionRead
  rw [hm]

/-! ## The requests on a ready link -/

theorem exec_positionJam {s : State} {h : FrameHead} (hr : s.ready h) (rounding : Byte) (stamp : Stamp) :
    exec (.positionJam h rounding stamp) s =
      .next (((s.withService h.service).positionJam rounding stamp).1.replied h 0x11
        ((s.withService h.service).positionJam rounding stamp).2) :=
  exec_ready (r := .positionJam rounding stamp) rfl hr

theorem exec_positionRead {s : State} {h : FrameHead} (hr : s.ready h) (rounding : Byte) :
    exec (.positionRead h rounding) s =
      .next ((s.withService h.service).replied h 0x12 ((s.withService h.service).positionRead rounding)) :=
  exec_ready (r := .positionRead rounding) rfl hr

/-- Settles O51: a jam places and references the tracker and is a report otherwise; a read is an answer. -/
theorem positionRequests : Obligations.PositionRequests := by
  intro s h rounding stamp hr u std
  rw [exec_positionJam hr, exec_positionRead hr]
  refine ⟨fun hm => ?_, fun mode hm => ⟨fun hx => ?_, fun x hx => ?_, ?_⟩⟩
  · rw [positionJam_badField (s := u) stamp hm, positionRead_badField (s := u) hm]
    exact ⟨rfl, rfl⟩
  · rw [positionJam_badLabel (s := u) hm hx]
    rfl
  · have jam := jamTo_reports u x.pos
    have htracker : (u.jamTo x.pos).tracker = s.tracker.jammed s.settings x.pos := jam.tracker
    refine ⟨u.jamTo x.pos, by rw [positionJam_taken (s := u) hm hx], ?_⟩
    rw [htracker]
    refine ⟨rfl, rfl, rfl, rfl, rfl, fun htach => if_pos htach, fun href => if_neg href, fun href => if_pos href,
      fun hidle hopen => ?_⟩
    have still := jam.still ⟨hidle, hopen⟩
    exact ⟨still.lane, still.table, still.log⟩
  · rw [positionRead_reports (s := u) hm]
    simp only [speedRatio_eq]
    exact ⟨_, _, _, rfl, rfl, rfl, rfl, rfl, rfl, decide_eq_true_iff⟩

end Sys2Proof.Machine

/-! The write of the picture standard (R2, R6, R23, R153). -/

namespace Sys2Proof.Machine

/-! ## What a new speed leaves in place -/

/-- Pos, L, the source, the cycle window when none waits, and IDLE lanes are as they were. -/
structure Stays (s t : State) : Prop where
  pos : t.tracker.pos = s.tracker.pos
  anchor : t.tracker.lastAnchor = s.tracker.lastAnchor
  source : t.settings.source = s.settings.source
  window : s.settings.noWindowWaits → t.settings.cycleStart = s.settings.cycleStart
    ∧ t.settings.cycleEnd = s.settings.cycleEnd ∧ t.settings.noWindowWaits
  still : s.lanesIdle → KeepsStill s t

theorem Stays.refl (s : State) : Stays s s := ⟨rfl, rfl, rfl, fun h => ⟨rfl, rfl, h⟩, fun _ => .refl s⟩

theorem Stays.trans {a b c : State} (h : Stays a b) (g : Stays b c) : Stays a c where
  pos := g.pos.trans h.pos
  anchor := g.anchor.trans h.anchor
  source := g.source.trans h.source
  window hw := by
    obtain ⟨h1, h2, h3⟩ := h.window hw
    obtain ⟨g1, g2, g3⟩ := g.window h3
    exact ⟨g1.trans h1, g2.trans h2, g3⟩
  still hi := (h.still hi).trans (g.still ((h.still hi).idle hi))

theorem Reports.stays {s t : State} (h : Reports s t) : Stays s t :=
  ⟨by rw [h.tracker], by rw [h.tracker], h.source, h.window, h.still⟩

theorem stays_ite {c : Prop} [Decidable c] {s a b : State} (ha : Stays s a) (hb : Stays s b) :
    Stays s (if c then a else b) := by
  split
  · exact ha
  · exact hb

variable (s : State)

theorem mapTracker_stays {f : Tracker → Tracker} (hp : ∀ t, (f t).pos = t.pos)
    (hl : ∀ t, (f t).lastAnchor = t.lastAnchor) : Stays s (s.mapTracker f) :=
  ⟨hp _, hl _, rfl, fun h => ⟨rfl, rfl, h⟩, fun _ => ⟨rfl, rfl, rfl⟩⟩

theorem raiseFault_reports (f : Flag) : Reports s (s.raiseFault f) :=
  (raiseFault_sparesTracker s f).reports fun _ => raiseFault_keepsStill s f

theorem setSpeed_stays (spd : Int) : Stays s (s.setSpeed spd) := by
  have set := mapTracker_stays s (f := fun t => { t with spd := clampSpeed s.nominal spd }) (fun _ => rfl) fun _ => rfl
  exact stays_ite set (set.trans (raiseFault_reports _ _).stays)

/-- A report after a change of the tracker that leaves Pos and L. -/
theorem Reports.stays_after {s t : State} {f : Tracker → Tracker} (h : Reports (s.mapTracker f) t)
    (hp : ∀ t, (f t).pos = t.pos) (hl : ∀ t, (f t).lastAnchor = t.lastAnchor) : Stays s t :=
  (mapTracker_stays s hp hl).trans h.stays

theorem enter_stays (state : TrackerState) (cause : TrackerCause) : Stays s (s.enter state cause) :=
  (enter_reports s state cause).stays_after (fun _ => rfl) fun _ => rfl

theorem enterStopped_stays (cause : TrackerCause) (loss : EndCause) : Stays s (s.enterStopped cause loss) :=
  (enterStopped_reports s cause loss).stays_after (fun _ => rfl) fun _ => rfl

theorem forgetMotion_stays : Stays s s.forgetMotion := mapTracker_stays s (fun _ => rfl) fun _ => rfl

theorem recomputeLocal_stays : Stays s s.recomputeLocal := by
  have set := setSpeed_stays s s.localSpeed
  refine stays_ite (stays_ite (stays_ite set ?_) (stays_ite ?_ ?_)) (.refl s)
  · exact set.trans (enterStopped_stays _ _ _)
  · exact set.trans (fallOfPlay_reports _ _).stays
  · exact set.trans (enter_stays _ _ _)

theorem newNominal_stays (before : Bool) : Stays s (s.newNominal before) := by
  refine Stays.trans (Stays.trans ?_ (recomputeLocal_stays _)) (fallOfPlay_reports _ _).stays
  exact (setSpeed_stays s _).trans (mapTracker_stays _ (fun _ => rfl) fun _ => rfl)

/-! ## The change of the standard (R6, R23, R153) -/

/-- The part with the new standard in its settings and its positions reduced into the new day. -/
def State.restandard (s : State) (std : Standard) : State :=
  (((s.mapSettings fun g => g.underStandard std).mapTracker fun t =>
    { t with pos := reducePos std t.pos, lastAnchor := reducePos std t.pos }).mapLog fun g =>
    { g with records := g.records.map (Take.reduce std) }).rederivePhase

/-- The tracker loses its reference outside LOCAL (R23). -/
def State.unreferenceOutsideLocal (s : State) : State :=
  if s.settings.source = .localGen then s else s.forgetMotion.enter .unreferenced .standard

theorem unreferenceOutsideLocal_stays : Stays s s.unreferenceOutsideLocal :=
  stays_ite (.refl s) ((forgetMotion_stays s).trans (enter_stays _ _ _))

theorem unreferenceOutsideLocal_evolves : Evolves s s.unreferenceOutsideLocal :=
  evolves_ite (fun _ => .refl s) fun _ => (forgetMotion_evolves s).trans (enter_evolves _ _ _)

/-- After the reduction into the new day come the new nominal speed, the loss of the reference and the update. -/
theorem changeStandard_eq (std : Standard) : s.changeStandard std =
    ((s.restandard std).newNominal s.inPlay).unreferenceOutsideLocal.emitIfMoved s.tracker.pos .jump := rfl

theorem changeStandard_stays (std : Standard) : Stays (s.restandard std) (s.changeStandard std) := by
  rw [changeStandard_eq]
  exact ((newNominal_stays _ _).trans (unreferenceOutsideLocal_stays _)).trans (emitIfMoved_reports _ _ _).stays

theorem changeStandard_evolves (std : Standard) : Evolves (s.restandard std) (s.changeStandard std) := by
  rw [changeStandard_eq]
  exact ((newNominal_evolves _ _).trans (unreferenceOutsideLocal_evolves _)).trans (emitIfMoved_evolves _ _ _)

variable {s}

/-- Outside LOCAL the tracker ends UNREFERENCED, with nothing measured (R23). -/
theorem changeStandard_tracker_of_not_local (std : Standard) (h : s.settings.source ≠ .localGen) :
    (s.changeStandard std).tracker =
      { ((s.restandard std).newNominal s.inPlay).forgetMotion.tracker with state := .unreferenced } := by
  have hsource : ((s.restandard std).newNominal s.inPlay).settings.source = s.settings.source :=
    (newNominal_stays _ _).source
  rw [changeStandard_eq, (emitIfMoved_reports _ _ _).tracker, State.unreferenceOutsideLocal, if_neg (hsource ▸ h)]
  exact (enter_reports _ _ _).tracker

/-- An empty table stays empty whatever evolves. -/
theorem Evolves.table_of_empty {s t : State} (h : Evolves s t) (h0 : s.table = []) : t.table = [] := by
  have none_of (n : Nat) : slotAt t.table n = none := by
    have hrefs := (h.table (by rw [h0]; rfl)).2 n
    rw [h0] at hrefs
    exact Option.map_eq_none_iff.1 hrefs
  cases ht : t.table with
  | nil => rfl
  | cons e rest =>
    have hn := none_of e.1
    rw [ht, slotAt, if_pos rfl] at hn
    cases hn

theorem frameOf_reducePos (std : Standard) (x : Nat) : frameOf (reducePos std x) = frameOf x % std.dayFrames :=
  frameOf_add (Nat.mod_lt _ (by decide))

theorem fractionOf_reducePos (std : Standard) (x : Nat) : fractionOf (reducePos std x) = fractionOf x :=
  fractionOf_add (Nat.mod_lt _ (by decide))

/-- Ten seconds into the day are 10 times the frame rate in frames: nothing has been omitted yet. -/
theorem labelToFrame_tenSeconds (std : Standard) : labelToFrame std ⟨0, 0, 10, 0⟩ = 10 * std.fps := by
  cases std <;> rfl

/-- A new standard takes away a waiting window. -/
theorem underStandard_noWindowWaits (g : Settings) (std : Standard) : (g.underStandard std).noWindowWaits :=
  fun e he => by simpa using (List.mem_filter.1 he).2

/-! ## The write (R153) -/

theorem Standard.ofCode_code (std : Standard) : Standard.ofCode std.code = some std := by cases std <;> rfl

theorem Standard.ofCode_none {c : Byte} (h : 3 < c.toNat) : Standard.ofCode c = none := by
  unfold Standard.ofCode
  have differs (k : Byte) (hk : k.toNat ≤ 3) : c ≠ k := by
    rintro rfl
    omega
  rw [if_neg (differs _ (by decide)), if_neg (differs _ (by decide)), if_neg (differs _ (by decide)),
    if_neg (differs _ (by decide))]

/-- The standard may be written while the table is empty, the tracker is at rest and every lane is IDLE. -/
def State.standardFree (s : State) : Prop := s.table = [] ∧ s.atRest = true ∧ ∀ i, (s.lane i).state = .idle

theorem standardFree_iff : s.standardFree ↔
    s.table = [] ∧ s.atRest ∧ s.lanes.toList.all (fun l => decide (l.state = .idle)) = true := by
  have idle : (s.lanes.toList.all (fun l => decide (l.state = .idle)) = true) ↔ ∀ i, (s.lane i).state = .idle := by
    simp only [List.all_eq_true, decide_eq_true_eq, Eight.mem_toList]
    exact ⟨fun h i => h _ ⟨i, rfl⟩, fun h l ⟨i, hi⟩ => hi ▸ h i⟩
  rw [idle]
  exact Iff.rfl

theorem writeStandard_range {c : Byte} (h : 3 < c.toNat) : s.writeStandard c = (s, .refuse .range) := by
  unfold State.writeStandard
  rw [Standard.ofCode_none h]

theorem writeStandard_state (std : Standard) (h : ¬s.standardFree) :
    s.writeStandard std.code = (s, .refuse .state) := by
  unfold State.writeStandard
  rw [Standard.ofCode_code]
  exact if_neg fun hc => h (standardFree_iff.2 hc)

theorem writeStandard_free (std : Standard) (h : s.standardFree) :
    s.writeStandard std.code = (if std = s.settings.standard then s else s.changeStandard std,
      .ok OutFlags.clear (.settingWrite 0x02 (.byte std.code))) := by
  unfold State.writeStandard
  rw [Standard.ofCode_code]
  exact if_pos (standardFree_iff.1 h)

theorem writeStandard_same (std : Standard) (h : s.standardFree) (hs : std = s.settings.standard) :
    s.writeStandard std.code = (s, .ok OutFlags.clear (.settingWrite 0x02 (.byte std.code))) := by
  rw [writeStandard_free std h, if_pos hs]

theorem writeStandard_new (std : Standard) (h : s.standardFree) (hs : std ≠ s.settings.standard) :
    s.writeStandard std.code = (s.changeStandard std, .ok OutFlags.clear (.settingWrite 0x02 (.byte std.code))) := by
  rw [writeStandard_free std h, if_neg hs]

/-- A picture standard write on a ready link writes the standard and replies. -/
theorem exec_pictureStandardWrite {h : FrameHead} {rounding : Byte} (hr : s.ready h)
    (hm : (selectRounding s.settings.rounding rounding).isSome = true) (code : Byte) :
    exec (.pictureStandardWrite h rounding code) s =
      .next (((s.withService h.service).writeStandard code).1.replied h 0x05
        ((s.withService h.service).writeStandard code).2) :=
  exec_writeByte (c := .pictureStandardWrite h rounding code) rfl hr hm rfl (by decide) nofun

/-- A reply leaves the tracker. -/
theorem replied_tracker (h : FrameHead) (kind : Byte) (a : Answer) : (s.replied h kind a).tracker = s.tracker := rfl

/-- Settles O33: after the reduction into the new day, what follows stays and evolves. -/
theorem pictureStandardWriteStartsANewDay : Obligations.PictureStandardWriteStartsANewDay := by
  intro s h rounding hr hm u free
  have hx := exec_pictureStandardWrite hr hm
  refine ⟨fun code hcode => ?_, fun std => ⟨fun hfree => ?_, fun hfree hsame => ?_, fun hfree hnew => ?_⟩⟩
  · rw [hx, writeStandard_range (s := u) hcode]
    rfl
  · rw [hx, writeStandard_state (s := u) std hfree]
    rfl
  · rw [hx, writeStandard_same (s := u) std hfree hsame]
  · have stays := changeStandard_stays u std
    have evolves := changeStandard_evolves u std
    obtain ⟨hstart, hend, hwaits⟩ := stays.window (underStandard_noWindowWaits _ _)
    have hpos : (u.changeStandard std).tracker.pos = reducePos std s.tracker.pos := stays.pos
    have hanchor : (u.changeStandard std).tracker.lastAnchor = reducePos std s.tracker.pos := stays.anchor
    have hpull : (u.changeStandard std).settings.pullDown = std.forcedPullDown.getD s.settings.pullDown :=
      evolves.pullDown
    refine ⟨(u.changeStandard std).replied h 0x05 (.ok OutFlags.clear (.settingWrite 0x02 (.byte std.code))), ?_, ?_⟩
    · rw [hx, writeStandard_new (s := u) std hfree hnew]
    refine ⟨evolves.standard, ?_, ?_, ?_, hstart, ?_, hwaits, ?_, ?_, ?_, evolves.table_of_empty hfree.1, ?_, ?_⟩
    · exact (congrArg frameOf hpos).trans (frameOf_reducePos _ _)
    · exact (congrArg fractionOf hpos).trans (fractionOf_reducePos _ _)
    · exact hanchor.trans hpos.symm
    · rw [← labelToFrame_tenSeconds]
      exact hend
    · rintro rfl
      exact hpull
    · rintro rfl
      exact hpull
    · intro h25 h30
      refine hpull.trans ?_
      cases std with
      | std24 => rfl
      | std25 => exact absurd rfl h25
      | std30 => rfl
      | std30df => exact absurd rfl h30
    · exact fun hopen => (stays.still ⟨hfree.2.2, hopen⟩).lane
    · intro hsource
      have htracker := changeStandard_tracker_of_not_local (s := u) std hsource
      rw [replied_tracker, htracker]
      exact ⟨rfl, rfl, rfl, rfl, rfl, rfl⟩

end Sys2Proof.Machine

/-! The full resets (R21, R142, R146, R164, R174). -/

namespace Sys2Proof.Machine

/-- Settles O9: the reset state is written out field by field; the lanes and the feeds hold one value in all places. -/
theorem powerOnLeavesTheStatedValues : Obligations.PowerOnLeavesTheStatedValues := by
  have lanes (i : LaneId) : State.reset.lane i = Lane.reset := Eight.get_all _ i
  have feeds (i : LaneId) : State.reset.feeds.copies.get i = LaneCopy.off ∧ State.reset.feeds.phases.get i = 0
      ∧ State.reset.feeds.tone.get i = 0 ∧ State.reset.feeds.increments.get i = 349525 :=
    ⟨Eight.get_all _ i, Eight.get_all _ i, Eight.get_all _ i, Eight.get_all _ i⟩
  refine ⟨?_, rfl, lanes, rfl, rfl, feeds, ?_⟩
  · repeat' constructor
  · repeat' constructor

/-- With an idle OVL sender a full reset starts the reset record there; a record on COUT completes (R142, R146). -/
theorem fullReset_of_idle {f : Feeds} (h : f.ovlSending = none) :
    f.fullReset = { Feeds.reset with coutSending := f.coutSending } := by
  simp only [Feeds.fullReset, Feeds.sendOverlay, h]
  rfl

/-- A record on OVL completes, and the reset record of a full reset waits behind it (R142). -/
theorem fullReset_of_sending {f : Feeds} {r : OverlayRecord} (h : f.ovlSending = some r) :
    f.fullReset = { Feeds.reset with
      ovlSending := some r, ovlHolding := some OverlayRecord.reset, coutSending := f.coutSending } := by
  simp only [Feeds.fullReset, Feeds.sendOverlay, h]

/-- The reset of the feeds but for their senders, whatever OVL is sending (R142, R146, R147). -/
theorem fullReset_feeds (f : Feeds) :
    f.fullReset.copies = Eight.all LaneCopy.off ∧ f.fullReset.phases = Eight.all 0 ∧ f.fullReset.tone = Eight.all 0
      ∧ f.fullReset.increments = Eight.all 349525 ∧ f.fullReset.coutSending = f.coutSending
      ∧ f.fullReset.coutWaiting = none ∧ f.fullReset.holdTimer = none := by
  cases h : f.ovlSending with
  | none =>
    rw [fullReset_of_idle h]
    exact ⟨rfl, rfl, rfl, rfl, rfl, rfl, rfl⟩
  | some r =>
    rw [fullReset_of_sending h]
    exact ⟨rfl, rfl, rfl, rfl, rfl, rfl, rfl⟩

/-- Settles O11: power-on reset is the reset state itself, and a full reset that is due differs from it in the feeds, the
framing and the word clock. -/
theorem fullResetsReturnEveryBlockToItsResetValue : Obligations.FullResetsReturnEveryBlockToItsResetValue := by
  intro s
  obtain ⟨hcopies, hphases, htone, hincrements, hcout, hwaiting, htimer⟩ := fullReset_feeds s.feeds
  refine ⟨rfl, fun hdue => ⟨s.feeds.fullReset, ?_, hcopies, hphases, htone, hincrements, hcout, hwaiting, htimer,
    fun h => ?_, fun r h => ?_⟩⟩
  · simp only [exec, execResetFull, hdue, if_true]
    rfl
  · rw [fullReset_of_idle h]
    exact ⟨rfl, rfl⟩
  · rw [fullReset_of_sending h]
    exact ⟨rfl, rfl⟩

end Sys2Proof.Machine

/-! Reception errors (R50, R166, R167, R171). -/

namespace Sys2Proof.Machine

/-! ## Characters inside a text frame (R166) -/

/-- One byte inside a text frame is a character of that frame. -/
theorem receiveByte_text {s : State} {bytes : List Byte} {half : Option (BitVec 4)} (hf : s.link.framing = .text)
    (hr : s.link.receiver = .text bytes half) (c : Byte) : s.receiveByte c = s.textByte bytes half c := by
  unfold State.receiveByte
  simp only [hf, hr]

/-- A character that is neither hexadecimal nor CR, LF or ':' is a reception error. -/
theorem textByte_bad {c : Byte} (hv : hexValue c = none) (hlf : c ≠ 0x0A) (hcr : c ≠ 0x0D) (hcolon : c ≠ 0x3A)
    (s : State) (bytes : List Byte) (half : Option (BitVec 4)) :
    s.textByte bytes half c = (s.setReceiver .waiting).receptionFault := by
  unfold State.textByte
  rw [if_neg hlf, if_neg hcolon, if_neg hcr, hv]

/-- A CR after half a byte is a reception error. -/
theorem textByte_cr_of_half {half : Option (BitVec 4)} (h : half.isSome = true) (s : State) (bytes : List Byte) :
    s.textByte bytes half 0x0D = (s.setReceiver .waiting).receptionFault := by
  obtain ⟨high, rfl⟩ := Option.isSome_iff_exists.1 h
  rfl

/-! ## Gaps and faults (R50, R167) -/

/-- A gap inside a frame ends it as a reception error (R167). -/
theorem frameGap_inside {s : State} (h : s.link.receiver ≠ .waiting) :
    s.frameGap = (s.setReceiver .waiting).receptionFault := by
  unfold State.frameGap
  cases hr : s.link.receiver with
  | waiting => exact absurd hr h
  | binary bytes => rfl
  | text bytes half => rfl

/-- A busy transmitter starts nothing (R170). -/
theorem Link.start_of_sending {l : Link} (h : l.sending.isSome = true) : l.start = l := by
  unfold Link.start
  rw [if_pos (by simp [h])]

/-- A notice that the mask enables joins a queue with room behind a busy transmitter (R170, R171). -/
theorem post_joins {s : State} {n : Notice} (hm : s.settings.noticeMask.getLsbD n.maskPosition = true)
    (hq : s.link.notices.length < Config.noticeQueueSize) (hs : s.link.sending.isSome = true) :
    s.post n = s.mapLink fun l => { l with notices := l.notices ++ [n] } := by
  have hbusy : Link.start { s.link with notices := s.link.notices ++ [n] } =
      { s.link with notices := s.link.notices ++ [n] } := Link.start_of_sending hs
  unfold State.post
  rw [if_pos hm, if_pos hq]
  simp only [State.mapLink, hbusy]

/-- Settles O24: each character is one of the frame's, and a gap inside a frame is a reception error. -/
theorem receptionErrorsInsideAFrame : Obligations.ReceptionErrorsInsideAFrame := by
  refine ⟨fun s bytes half c hf hr => ?_, fun s => ⟨fun hw => ?_, fun hw hflag => ?_, fun hw hflag hmask hroom hbusy => ?_⟩⟩
  · have one (b : Byte) : exec (.receptionError [b]) s = .next (s.textByte bytes half b) :=
      congrArg Host.Outcome.next (receiveByte_text hf hr b)
    refine ⟨one _, fun hv hlf hcr hcolon => ?_, fun hhalf => ?_, one _⟩
    · rw [one, textByte_bad hv hlf hcr hcolon]
      rfl
    · rw [one, textByte_cr_of_half hhalf]
      rfl
  · change Host.Outcome.next s.frameGap = _
    unfold State.frameGap
    rw [hw]
  · have hset : (s.setReceiver .waiting).hasFlag .linkFault = true := hflag
    change Host.Outcome.next s.frameGap = _
    rw [frameGap_inside hw, State.receptionFault, State.raiseFault, if_pos hset]
  · have hclear : (s.setReceiver .waiting).hasFlag .linkFault = false := hflag
    change Host.Outcome.next s.frameGap = _
    rw [frameGap_inside hw, State.receptionFault, State.raiseFault, if_neg (by simp [hclear]),
      post_joins (by exact hmask) (by exact hroom) (by exact hbusy)]
    rfl

end Sys2Proof.Machine

/-! Writes of class-F settings in motion or under the hold, which wait in the staging list (R150, R154 to R156). -/

namespace Sys2Proof.Machine

/-! ## The staging list (R154) -/

/-- An entry of a setting that is not waiting joins the list at its end. -/
theorem putStaged_of_new {l : List Staged} {e : Staged} (h : ∀ f ∈ l, f.id ≠ e.id) : putStaged l e = l ++ [e] := by
  unfold putStaged
  rw [if_neg]
  simpa using h

/-- Entries of other settings stay where the list takes an entry in place. -/
theorem map_replace_of_others {l : List Staged} {e : Staged} (h : ∀ f ∈ l, f.id ≠ e.id) :
    (l.map fun f => if f.id = e.id then e else f) = l :=
  (List.map_congr_left fun f hf => if_neg (h f hf)).trans (List.map_id l)

/-- An entry of a setting that is waiting takes the place of that entry. -/
theorem putStaged_in_place {a b : List Staged} {f e : Staged} (hf : f.id = e.id) (h : ∀ x ∈ a ++ b, x.id ≠ e.id) :
    putStaged (a ++ f :: b) e = a ++ e :: b := by
  have ha := map_replace_of_others fun x hx => h x (List.mem_append_left b hx)
  have hb := map_replace_of_others fun x hx => h x (List.mem_append_right a hx)
  unfold putStaged
  rw [if_pos (by simp [hf]), List.map_append, List.map_cons, ha, hb, if_pos hf]

/-- After a write the list holds an entry of its setting. -/
theorem any_putStaged (l : List Staged) (e : Staged) :
    ((putStaged l e).any fun f => decide (f.id = e.id)) = true := by
  unfold putStaged
  split
  · rename_i h
    obtain ⟨f, hf, hid⟩ := List.any_eq_true.1 h
    refine List.any_eq_true.2 ⟨e, List.mem_map.2 ⟨f, hf, if_pos (of_decide_eq_true hid)⟩, by simp⟩
  · simp

/-! ## A write that waits (R154 to R156) -/

/-- In motion, or while the hold is 1, a write applies nothing of the list. -/
theorem unapplied {s : State} (h : s.atRest = false ∨ s.settings.stagingHold = true) :
    (if s.atRest then s.applyUnheld else s) = s := by
  rcases h with hmoving | hheld
  · simp [hmoving]
  · have hkept : s.applyUnheld = s := if_pos (by simp [hheld])
    rw [hkept, ite_self]

/-- In motion, or while the hold is 1, a class-F write joins the list and is answered with STAGED. -/
theorem stage_waits {s : State} (h : s.atRest = false ∨ s.settings.stagingHold = true) (e : Staged) (flags : OutFlags)
    (v : ReportedValue) :
    s.stage e flags v = (s.mapSettings fun g => { g with staging := putStaged g.staging e },
      .ok { flags with staged := true } (.settingWrite e.id v)) := by
  have hkept := unapplied (s := s.mapSettings fun g => { g with staging := putStaged g.staging e }) h
  unfold State.stage
  simp only [hkept, State.mapSettings_settings, any_putStaged]
  rfl

/-- A class-F number that waits is clamped, with CLAMPED when the clamp changed it (R150). -/
theorem stageNumber_waits {s : State} (h : s.atRest = false ∨ s.settings.stagingHold = true) (make : Nat → Staged)
    {low high : Int} (hle : low ≤ high) (w : Int) :
    s.stageNumber make low high w =
      (s.mapSettings fun g => { g with staging := putStaged g.staging (make (max low (min high w)).toNat) },
        .ok { OutFlags.clear with clamped := decide (w < low ∨ high < w), staged := true }
          (.settingWrite (make (max low (min high w)).toNat).id (.number (max low (min high w))))) := by
  unfold State.stageNumber
  simp only [stage_waits h, ← clampTo_eq hle, ← clampTo_ne_iff hle]
  rfl

/-- A number other than 0 and 1 is no value of auto re-arm (R150). -/
theorem writeAutoRearm_range {s : State} {v : BitVec 32} (h0 : v ≠ 0) (h1 : v ≠ 1) :
    s.writeAutoRearm v.toInt = (s, .refuse .range) := by
  refine if_neg ?_
  rintro (h | h)
  · exact h0 (BitVec.toInt_inj.1 (h.trans (by decide)))
  · exact h1 (BitVec.toInt_inj.1 (h.trans (by decide)))

/-- Settles O29: each write passes the checks that it passes at rest, and then waits. -/
theorem frameClassWriteWaitsInMotionOrHold : Obligations.FrameClassWriteWaitsInMotionOrHold := by
  refine ⟨?_, fun l e => putStaged_of_new, fun a b f e => putStaged_in_place⟩
  intro s h rounding v hr hs hm hwait waits std refused joins
  let u := s.withService h.service
  have hstage (e : Staged) := stage_waits (s := u) hwait e
  have number (id : Byte) (access : Access) (w : BitVec 32) (hc : catalogue id = some (.number, access))
      (hro : access ≠ .ro) : exec (.settingWrite h id rounding (.number w)) s =
        .next ((u.writeNumber id w.toInt).1.replied h 0x05 (u.writeNumber id w.toInt).2) :=
    exec_writeNumber rfl hr hm hc hro fun _ => hs
  have action (b : Byte) : exec (.settingWrite h 0x0D rounding (.byte b)) s =
      .next ((u.writeCycleAction b).1.replied h 0x05 (u.writeCycleAction b).2) :=
    exec_writeByte (c := .settingWrite h 0x0D rounding (.byte b)) rfl hr hm rfl (by decide) nofun
  have clamps (id : Byte) (access : Access) (hc : catalogue id = some (.number, access)) (hro : access ≠ .ro)
      (make : Nat → Staged) (hid : ∀ n, (make n).id = id) (low high : Int) (hle : low ≤ high)
      (hw : u.writeNumber id v.toInt = u.stageNumber make low high v.toInt) : waits id low high make := by
    simp only [waits]
    rw [number id access v hc hro, hw, stageNumber_waits (s := u) hwait make hle, hid]
  have rearms (w : BitVec 32) (hw : w.toInt = 0 ∨ w.toInt = 1) :
      joins 0x0E (.number w) (.autoRearm (decide (w.toInt = 1))) OutFlags.clear (.number w.toInt) := by
    simp only [joins]
    rw [number 0x0E .op w rfl (by decide)]
    simp only [State.writeNumber, State.writeAutoRearm, if_pos hw, hstage]
    rfl
  refine ⟨⟨clamps 0x09 _ rfl (by decide) .bandLow (fun _ => rfl) _ _ (by decide) rfl,
    clamps 0x0A _ rfl (by decide) .bandHigh (fun _ => rfl) _ _ (by decide) rfl,
    clamps 0x34 _ rfl (by decide) .stallTimeout (fun _ => rfl) _ _ (by decide) rfl,
    clamps 0x35 _ rfl (by decide) .codeLatency (fun _ => rfl) _ _ (by decide) rfl,
    clamps 0x36 _ rfl (by decide) .coastLimit (fun _ => rfl) _ _ (by decide) rfl,
    clamps 0x38 _ rfl (by decide) .driftTolerance (fun _ => rfl) _ _ (by decide) rfl⟩,
    fun i k hk => ?_, fun a => ?_, rearms 0 (.inl rfl), rearms 1 (.inr rfl), fun code hcode => ?_, fun h0 h1 => ?_,
    fun mode a b hmode => ⟨fun hbad => ?_, fun x y hx hy => ⟨fun hfar => ?_, fun hlow hhigh => ?_⟩⟩⟩
  · simp only [joins]
    rw [number _ .op v (catalogue_toneFrequency i) (by decide), writeNumber_toneFrequency]
    simp only [State.writeToneFrequency, legalFrequency_eq hk, hstage, toneFrequency_id, ne_comm (b := v.toInt)]
    rfl
  · simp only [joins]
    rw [action]
    simp only [State.writeCycleAction, cycleAction_ofCode_code, hstage]
    rfl
  · simp only [refused]
    rw [action]
    simp only [State.writeCycleAction, cycleAction_ofCode_none hcode]
    rfl
  · simp only [refused]
    rw [number 0x0E .op v rfl (by decide)]
    simp only [State.writeNumber, writeAutoRearm_range h0 h1]
    rfl
  · simp only [refused]
    rw [exec_writeWindow hr hmode, writeWindow_badLabel (s := u) hbad]
    rfl
  · simp only [refused]
    rw [exec_writeWindow hr hmode, writeWindow_of_good (s := u) hx hy, if_neg (by exact hfar)]
    rfl
  · simp only [joins]
    rw [exec_writeWindow hr hmode, writeWindow_of_good (s := u) hx hy, if_pos (by exact ⟨hlow, hhigh⟩), hstage]
    rfl

end Sys2Proof.Machine

/-! The write of the source (R22, R23, R153). -/

namespace Sys2Proof.Machine

theorem Source.ofCode_code (src : Source) : Source.ofCode src.code = some src := by cases src <;> rfl

theorem Source.ofCode_none {c : Byte} (h : 2 < c.toNat) : Source.ofCode c = none := by
  unfold Source.ofCode
  rw [if_neg, if_neg, if_neg] <;> rintro rfl <;> simp at h

/-- The model's test for an ARMED lane is whether none is. -/
theorem noneArmed_iff (s : State) : s.noneArmed ↔ s.lanes.toList.all (fun l => decide (l.state ≠ .armed)) = true := by
  simp only [List.all_eq_true, Eight.mem_toList, decide_eq_true_eq, State.noneArmed, State.lane]
  exact ⟨fun h _ ⟨i, hi⟩ => hi ▸ h i, fun h i => h _ ⟨i, rfl⟩⟩

/-- A code that names no source is refused (R153). -/
theorem writeSource_range (s : State) {c : Byte} (h : 2 < c.toNat) : s.writeSource c = (s, .refuse .range) := by
  unfold State.writeSource
  rw [Source.ofCode_none h]

/-- In motion, or with a lane ARMED, a source is refused (R153). -/
theorem writeSource_state {s : State} (src : Source) (h : ¬(s.atRest = true ∧ s.noneArmed)) :
    s.writeSource src.code = (s, .refuse .state) := by
  rw [noneArmed_iff] at h
  unfold State.writeSource
  simp only [Source.ofCode_code]
  exact if_neg h

/-- At rest with no lane ARMED a source is stored, and takes effect when it is new (R23, R153). -/
theorem writeSource_free {s : State} (src : Source) (hrest : s.atRest = true) (harmed : s.noneArmed) :
    s.writeSource src.code = (if src = s.settings.source then s else s.changeSource src,
      .ok OutFlags.clear (.settingWrite 0x05 (.byte src.code))) := by
  unfold State.writeSource
  simp only [Source.ofCode_code]
  exact if_pos ⟨hrest, (noneArmed_iff s).1 harmed⟩

/-- Settles O35: the write of a byte to an engineering setting, and the change of the source it brings. -/
theorem sourceWriteChangesTheSource : Obligations.SourceWriteChangesTheSource := by
  intro s h rounding code hr hm u ok lost still
  refine ⟨fun hs => exec_write_access rfl hr hm rfl hs, fun hs => ?_⟩
  have write (c : Byte) : exec (.sourceWrite h rounding c) s =
      .next ((u.writeSource c).1.replied h 0x05 (u.writeSource c).2) :=
    exec_writeByte (c := .sourceWrite h rounding c) rfl hr hm rfl (by decide) fun _ => hs
  refine ⟨fun hc => ?_, fun src hbusy => ?_, fun hrest harmed => ?_⟩
  · rw [write, writeSource_range u hc]
    rfl
  · rw [write, writeSource_state (s := u) src hbusy]
    rfl
  have change (src : Source) (hnew : s.settings.source ≠ src) :
      exec (.sourceWrite h rounding src.code) s = .next ((u.changeSource src).replied h 0x05 (ok src)) := by
    rw [write, writeSource_free (s := u) src hrest harmed, if_neg (by exact hnew.symm)]
  refine ⟨?_, fun hnew => (change .tach hnew).trans rfl, fun hnew => (change .codeIn hnew).trans rfl, fun hnew hq => ?_⟩
  · rw [write, writeSource_free (s := u) _ hrest harmed, if_pos (by rfl)]
  · have hstop := enterStopped_quiet (s := u.mapSettings fun g => { g with source := .localGen, localRatio := 0 })
      (by exact hq) .source .broken
    exact (change .localGen hnew).trans (congrArg (fun t => Host.Outcome.next (t.replied h 0x05 (ok .localGen))) hstop)

end Sys2Proof.Machine

/-! Lanes that close their takes one after another (R107, R126), whatever the order in which they do it. -/

namespace Sys2Proof.Machine

/-! ## One lane closes its take -/

/-- A lane's turn that closes its open take with `c`, and leaves the lane as `g` makes it and all others as they were. -/
structure ClosesLane (c : Closing) (g : Lane → Lane) (i : LaneId) (s t : State) : Prop where
  log : t.log = { s.log with records := closedIn s.log.records (s.lane i).openTake c }
  own : t.lane i = g (s.lane i)
  others : ∀ j, j ≠ i → t.lane j = s.lane j
  table : t.table = s.table
  tracker : t.tracker = s.tracker

/-- What follows in the feeds and the link leaves the closing as it is. -/
theorem ClosesLane.andThen {c : Closing} {g : Lane → Lane} {i : LaneId} {s t u : State} (h : ClosesLane c g i s t)
    (k : KeepsStill t u) (ht : u.tracker = t.tracker) : ClosesLane c g i s u :=
  ⟨k.log.trans h.log, (k.lane i).trans h.own, fun j hj => (k.lane j).trans (h.others j hj), k.table.trans h.table,
    ht.trans h.tracker⟩

/-- A lane with its open take closed for a cause (R107). -/
def Lane.closed (cause : EndCause) (l : Lane) : Lane :=
  match l.openTake with
  | none => l
  | some _ =>
    { l with
      openTake := none
      punchLine := false
      stack := if cause = .out then l.stack else remarkPunchIn l.stack }

theorem Lane.closed_of_none {l : Lane} (h : l.openTake = none) (cause : EndCause) : l.closed cause = l := by
  simp only [Lane.closed, h]

@[simp] theorem Lane.closed_openTake (l : Lane) (cause : EndCause) : (l.closed cause).openTake = none := by
  unfold Lane.closed
  split
  · assumption
  · rfl

@[simp] theorem Lane.closed_runList (l : Lane) (cause : EndCause) : (l.closed cause).runList = l.runList := by
  unfold Lane.closed
  split <;> rfl

/-- A sound lane's punch line is low once its take is closed (R102). -/
theorem Lane.closed_punchLine {l : Lane} (h : l.sound) (cause : EndCause) : (l.closed cause).punchLine = false := by
  obtain ⟨-, -, hline, -⟩ := h
  unfold Lane.closed
  split
  · rename_i hnone
    rw [hline, hnone]
    rfl
  · rfl

theorem closedIn_none (records : List Take) (c : Closing) : closedIn records none c = records := by
  simp [closedIn]

theorem closedIn_some (records : List Take) (serial : BitVec 16) (c : Closing) :
    closedIn records (some serial) c = closeRecord records serial c := by
  simp only [closedIn, closeRecord, Option.some.injEq, eq_comm]

variable (s : State)

/-- The closing of a take is its record and its lane (R107, R126). -/
theorem closeTake_closesLane (i : LaneId) (pos : Nat) (sample : SampleCount) (cause : EndCause) :
    ClosesLane ⟨pos, sample, cause⟩ (Lane.closed cause) i s (s.closeTake i pos sample cause) := by
  unfold State.closeTake
  split
  · rename_i hnone
    exact ⟨by rw [hnone, closedIn_none], (Lane.closed_of_none hnone cause).symm, fun _ _ => rfl, rfl, rfl⟩
  · rename_i serial hserial
    have hown : (s.lane i).closed cause = { s.lane i with
        openTake := none, punchLine := false
        stack := if cause = .out then (s.lane i).stack else remarkPunchIn (s.lane i).stack } := by
      simp only [Lane.closed, hserial]
    have closed : ClosesLane ⟨pos, sample, cause⟩ (Lane.closed cause) i s
        ((s.mapLog fun g => { g with records := closeRecord g.records serial ⟨pos, sample, cause⟩ }).mapLane i fun l =>
          { l with
            openTake := none, punchLine := false
            stack := if cause = .out then l.stack else remarkPunchIn l.stack }) := by
      refine ⟨by rw [hserial, closedIn_some]; rfl, ?_, fun j hj => ?_, rfl, rfl⟩
      · rw [hown, State.lane_mapLane, if_pos rfl]
        rfl
      · rw [State.lane_mapLane, if_neg hj]
        rfl
    dsimp only
    split
    · exact closed
    · exact closed.andThen (post_keepsStill _ _) (post_sparesTracker _ _).tracker

/-- What a lane hands is the feeds' alone (R101). -/
theorem handFeeds_keepsStill (i : LaneId) (b : Bool) : KeepsStill s (s.handFeeds i b) :=
  keepsStill_ite ⟨rfl, rfl, rfl⟩ ⟨rfl, rfl, rfl⟩

theorem closeOutside_closesLane (i : LaneId) (pos : Nat) (cause : EndCause) :
    ClosesLane ⟨pos, s.tracker.count, cause⟩ (Lane.closed cause) i s (s.closeOutside i pos cause) := by
  cases h : (s.lane i).openTake with
  | none =>
    have hsame : s.closeTake i pos s.tracker.count cause = s := by
      unfold State.closeTake
      rw [h]
    have closed := closeTake_closesLane s i pos s.tracker.count cause
    rw [closeOutside_of_none h]
    rwa [hsame] at closed
  | some serial =>
    have hclose : s.closeOutside i pos cause = (s.closeTake i pos s.tracker.count cause).handFeeds i false := by
      unfold State.closeOutside
      rw [h]
    rw [hclose]
    exact (closeTake_closesLane s i pos _ cause).andThen (handFeeds_keepsStill _ _ _)
      (handFeeds_sparesTracker _ _ _).tracker

/-! ## All lanes close their takes -/

/-- Every record that one of the lanes holds is closed with `c`. -/
def State.closedBy (s : State) (lanes : List LaneId) (c : Closing) : List Take :=
  s.log.records.map fun r => if ∃ i ∈ lanes, (s.lane i).openTake = some r.serial then { r with closing := some c } else r

/-- All lanes close their takes with `c`, and each is left as `g` makes it. -/
structure ClosesAll (c : Closing) (g : Lane → Lane) (s t : State) : Prop where
  log : t.log = { s.log with records := s.closedBy laneIds c }
  lane : ∀ i, t.lane i = g (s.lane i)
  table : t.table = s.table

theorem closedBy_congr {s t : State} (hg : t.log = s.log) (hl : ∀ i, t.lane i = s.lane i) (lanes : List LaneId)
    (c : Closing) : t.closedBy lanes c = s.closedBy lanes c := by
  simp only [State.closedBy, hg, hl]

theorem ClosesAll.after {c : Closing} {g : Lane → Lane} {s t u : State} (k : KeepsStill s t) (h : ClosesAll c g t u) :
    ClosesAll c g s u :=
  ⟨by rw [h.log, closedBy_congr k.log k.lane, k.log], fun i => by rw [h.lane, k.lane], h.table.trans k.table⟩

theorem ClosesAll.andThen {c : Closing} {g : Lane → Lane} {s t u : State} (h : ClosesAll c g s t)
    (k : KeepsStill t u) : ClosesAll c g s u :=
  ⟨k.log.trans h.log, fun i => (k.lane i).trans (h.lane i), k.table.trans h.table⟩

/-- After the first lane the others close what they still hold. -/
theorem closedBy_cons {c : Closing} {g : Lane → Lane} {i : LaneId} {rest : List LaneId} {s t : State}
    (h : ClosesLane c g i s t) (hi : i ∉ rest) : t.closedBy rest c = s.closedBy (i :: rest) c := by
  have hrest (serial : BitVec 16) : (∃ j ∈ rest, (t.lane j).openTake = some serial) ↔
      ∃ j ∈ rest, (s.lane j).openTake = some serial :=
    exists_congr fun j => and_congr_right fun hj => by rw [h.others j fun e => hi (e ▸ hj)]
  unfold State.closedBy
  rw [h.log, closedIn, List.map_map]
  refine List.map_congr_left fun r _ => ?_
  simp only [Function.comp, hrest, List.mem_cons, exists_eq_or_imp]
  by_cases hown : (s.lane i).openTake = some r.serial
  · simp [hown]
  · simp [hown]

/-- Lanes that take their turns one after another, each once, close all they hold with `c`. -/
theorem closes_foldl {c : Closing} {g : Lane → Lane} {f : LaneId → State → State} {tracker : Tracker}
    (hf : ∀ i s, s.tracker = tracker → ClosesLane c g i s (f i s)) {order : List LaneId} (hn : order.Nodup)
    {s : State} (hs : s.tracker = tracker) :
    (order.foldl (fun s i => f i s) s).log = { s.log with records := s.closedBy order c }
      ∧ (∀ i, (order.foldl (fun s i => f i s) s).lane i = if i ∈ order then g (s.lane i) else s.lane i)
      ∧ (order.foldl (fun s i => f i s) s).table = s.table := by
  induction order generalizing s with
  | nil => simp [State.closedBy]
  | cons i rest ih =>
    obtain ⟨hi, hrest⟩ := List.nodup_cons.1 hn
    have first := hf i s hs
    obtain ⟨hlog, hlane, htable⟩ := ih hrest (first.tracker.trans hs)
    rw [List.foldl_cons]
    refine ⟨?_, fun j => ?_, htable.trans first.table⟩
    · rw [hlog, closedBy_cons first hi, first.log]
    · rw [hlane]
      by_cases hj : j = i
      · subst hj
        simp [hi, first.own]
      · simp [hj, first.others j hj]

/-- One thing done in every lane, in a free order, is done in some order that names every lane once. -/
theorem eachLaneFreely_order (f : LaneId → State → State) : ∃ (order : List LaneId) (n : Nat),
    order.Perm laneIds ∧ s.eachLaneFreely f = order.foldl (fun s i => f i s) { s with occasion := n } := by
  unfold State.eachLaneFreely
  split
  · exact ⟨_, _, settleLanes_perm s, rfl⟩
  · exact ⟨laneIds, s.occasion, .refl _, rfl⟩

theorem closes_eachLaneFreely {c : Closing} {g : Lane → Lane} {f : LaneId → State → State}
    (hf : ∀ i t, t.tracker = s.tracker → ClosesLane c g i t (f i t)) : ClosesAll c g s (s.eachLaneFreely f) := by
  obtain ⟨order, n, hperm, heq⟩ := eachLaneFreely_order s f
  have hall (i : LaneId) : i ∈ order ↔ i ∈ laneIds := hperm.mem_iff
  have every : ∀ i : LaneId, i ∈ laneIds := by decide
  obtain ⟨hlog, hlane, htable⟩ := closes_foldl (s := { s with occasion := n }) hf
    (hperm.nodup_iff.2 (by decide)) rfl
  rw [heq]
  refine ⟨hlog.trans ?_, fun i => (hlane i).trans (if_pos ((hall i).2 (every i))), htable⟩
  simp only [State.closedBy, hall]
  rfl

/-- A loss of play closes every take at the last position and the count that stand (R107, R109). -/
theorem closeAll_closesAll (cause : EndCause) :
    ClosesAll ⟨s.tracker.pos, s.tracker.count, cause⟩ (Lane.closed cause) s (s.closeAll cause) :=
  closes_eachLaneFreely s fun i t ht => by
    rw [← ht]
    exact closeOutside_closesLane t i _ cause

/-- A record that a lane held is closed with `c`. -/
theorem ClosesAll.closing {c : Closing} {g : Lane → Lane} {s t : State} (h : ClosesAll c g s t) {i : LaneId}
    {serial : BitVec 16} (hi : (s.lane i).openTake = some serial) {r : Take} (hr : r ∈ t.log.records)
    (hs : r.serial = serial) : r.closing = some c := by
  have every : ∀ i : LaneId, i ∈ laneIds := by decide
  rw [h.log] at hr
  obtain ⟨r0, -, rfl⟩ := List.mem_map.1 hr
  by_cases hheld : ∃ i ∈ laneIds, (s.lane i).openTake = some r0.serial
  · rw [if_pos hheld]
  · rw [if_neg hheld] at hs
    exact absurd ⟨i, every i, hs ▸ hi⟩ hheld

end Sys2Proof.Machine

/-! The loss and the return of the word clock (R42, R47, R48). -/

namespace Sys2Proof.Machine

/-! ## The stop that a clock loss brings (R109, R155) -/

variable {s : State}

theorem mapFeeds_keepsStill (s : State) (f : Feeds → Feeds) : KeepsStill s (s.mapFeeds f) := ⟨rfl, rfl, rfl⟩

theorem mapSettings_keepsStill (s : State) (f : Settings → Settings) : KeepsStill s (s.mapSettings f) := ⟨rfl, rfl, rfl⟩

/-- The staging list, applied at rest, brings no loss of play: lanes, table and log stay (R155). -/
theorem applyUnheld_keepsStill_of_atRest (h : s.atRest = true) : KeepsStill s s.applyUnheld := by
  have happly : s.applyStaging = (s.mapSettings fun g =>
      { g.staging.foldl Settings.applyEntry g with staging := [] }).recomputeTones := by
    simp only [State.applyStaging, State.fallOfPlay, inPlay_of_atRest h, Bool.false_and, Bool.false_eq_true, if_false]
  unfold State.applyUnheld
  rw [happly]
  exact keepsStill_ite (.refl s) ((mapSettings_keepsStill s _).trans (mapFeeds_keepsStill _ _))

/-- With no STANDBY entry pending, the entry into STOPPED closes every take at the last position, now (R107, R109). -/
theorem stoppedEffects_closesAll (hrest : s.atRest = true) (hstandby : s.settings.standbyPending = false)
    (cause : EndCause) :
    ClosesAll ⟨s.tracker.pos, s.tracker.count, cause⟩ (Lane.closed cause) s (s.stoppedEffects cause) := by
  have hrest' : ((s.closeAll cause).formHold).atRest = true := by
    have htracker := ((closeAll_reports s cause).trans (formCode_reports _ (frameOf (s.closeAll cause).tracker.pos) 0)).tracker
    exact (congrArg (fun t : Tracker => decide (t.state = .unreferenced ∨ t.state = .stopped)) htracker).trans hrest
  unfold State.stoppedEffects
  rw [if_neg (by simp [hstandby])]
  exact ((closeAll_closesAll s cause).andThen (formCode_keepsStill _ _ _)).andThen
    (applyUnheld_keepsStill_of_atRest hrest')

theorem enterStopped_closesAll (hstandby : s.settings.standbyPending = false) (cause : TrackerCause) (loss : EndCause) :
    ClosesAll ⟨s.tracker.pos, s.tracker.count, loss⟩ (Lane.closed loss) s (s.enterStopped cause loss) := by
  have stops (t : State) (k : KeepsStill s t) (hpos : t.tracker = { s.tracker with spd := 0, state := .stopped })
      (hset : t.settings = s.settings) :
      ClosesAll ⟨s.tracker.pos, s.tracker.count, loss⟩ (Lane.closed loss) s (t.stoppedEffects loss) := by
    have closes := stoppedEffects_closesAll (s := t) (by simp [State.atRest, hpos]) (hset ▸ hstandby) loss
    simp only [hpos] at closes
    exact closes.after k
  have noted (t : State) (k : KeepsStill s t) (hpos : t.tracker = { s.tracker with spd := 0, state := .stopped })
      (hset : t.settings = s.settings) : ClosesAll ⟨s.tracker.pos, s.tracker.count, loss⟩ (Lane.closed loss) s
        ((t.noteTracker cause).stoppedEffects loss) :=
    stops _ (k.trans (post_keepsStill _ _)) ((noteTracker_sparesTracker _ _).tracker.trans hpos)
      ((noteTracker_settings _ _).trans hset)
  unfold State.enterStopped
  dsimp only
  split
  · split
    · exact noted _ ⟨rfl, rfl, rfl⟩ rfl rfl
    · have turned := stops (s.mapTracker fun t => { t with spd := 0, state := .stopped }).settleOrder.2
        ⟨rfl, rfl, rfl⟩ rfl rfl
      exact turned.andThen (post_keepsStill _ _)
  · exact noted _ ⟨rfl, rfl, rfl⟩ rfl rfl

/-! ## The loss (R47) -/

/-- The part as the clock goes: the flag raised, and neither a speed, nor an origin, nor a sample in hand (R47). -/
def State.clockGone (s : State) : State :=
  (s.raise .clockLost).mapTracker fun t =>
    { t with clockLost := true, spd := 0, origin := none, sampleBegun := false, anchorTaken := false }

/-- A referenced tracker enters STOPPED when the clock is lost (R47). -/
theorem loseClock_of_referenced (h : s.tracker.state ≠ .unreferenced) :
    s.loseClock = s.clockGone.enterStopped .clockLost .clockLost := by
  unfold State.loseClock
  simp only [State.mapTracker_tracker, State.raise, State.mapLink_tracker]
  cases hs : s.tracker.state with
  | unreferenced => exact absurd hs h
  | stopped => rfl
  | moving => rfl
  | coasting => rfl

/-- An UNREFERENCED tracker reports the loss and stays (R47). -/
theorem loseClock_of_unreferenced (h : s.tracker.state = .unreferenced) :
    s.loseClock = s.clockGone.noteTracker .clockLost := by
  unfold State.loseClock
  simp only [State.mapTracker_tracker, State.raise, State.mapLink_tracker, h]
  rfl

theorem hasFlag_raise (s : State) (f : Flag) : (s.raise f).hasFlag f = true := by
  cases f <;> simp [State.raise, State.hasFlag, setFlag, Flag.position]

theorem Evolves.hasFlag {s t : State} (h : Evolves s t) {f : Flag} (hf : s.hasFlag f = true) : t.hasFlag f = true :=
  h.link.flags _ hf

/-! ## The return (R48) -/

/-- The part as the clock comes back: the timers restart and the line levels are taken anew (R24, R48). -/
def State.clockHere (s : State) : State :=
  s.mapTracker fun t =>
    { t with
      clockLost := false, stallTimer := some 0, dropoutTimer := some 0, decoder := { t.decoder with settle := true } }

/-- Outside LOCAL the return leaves the tracker's state and speed. -/
theorem regainClock_of_not_local (h : s.settings.source ≠ .localGen) :
    s.regainClock = s.clockHere.noteTracker .clockBack := if_neg h

/-- In LOCAL the speed follows the ratio, and the tracker is MOVING when it is not 0 (R42, R48). -/
theorem regainClock_of_local (h : s.settings.source = .localGen) (hl : -(32 * s.nominal) ≤ s.localSpeed)
    (hh : s.localSpeed ≤ 32 * s.nominal) :
    s.regainClock = (s.clockHere.mapTracker fun t =>
      { t with spd := s.localSpeed, state := if s.localSpeed = 0 then t.state else .moving }).noteTracker .clockBack := by
  have hspeed : s.clockHere.setSpeed s.localSpeed = s.clockHere.mapTracker fun t => { t with spd := s.localSpeed } :=
    setSpeed_of_within (s := s.clockHere) hl hh
  have hregain : s.regainClock = (if (s.clockHere.setSpeed s.localSpeed).tracker.spd = 0 then
      s.clockHere.setSpeed s.localSpeed
      else (s.clockHere.setSpeed s.localSpeed).mapTracker fun t => { t with state := .moving }).noteTracker .clockBack :=
    if_pos h
  rw [hregain, hspeed]
  by_cases h0 : s.localSpeed = 0
  · simp only [State.mapTracker_tracker, h0, if_true]
  · simp only [State.mapTracker_tracker, h0, if_false]
    rfl

/-- Settles O58: a loss is the flag and the stop of a referenced tracker, and a return is the restart of what was lost. -/
theorem clockLossAndReturn : Obligations.ClockLossAndReturn := by
  intro s
  have loss (hclk : s.tracker.clockLost = false) : exec .clockLost s = .next s.loseClock := by
    simp only [exec, execClockLost, hclk, Bool.false_eq_true, if_false]
  have back (hclk : s.tracker.clockLost = true) : exec .clockBack s = .next s.regainClock := by
    simp only [exec, execClockBack, hclk, if_true]
  refine ⟨fun hclk => ?_, fun hclk => ?_, fun hclk => ⟨fun hun => ?_, fun href hq => ?_, fun href hsound hstandby => ?_⟩,
    fun hclk => ⟨fun hsrc => ?_, fun hsrc hspd => ?_⟩⟩
  · simp only [exec, execClockLost, hclk, if_true]
  · simp only [exec, execClockBack, hclk, Bool.false_eq_true, if_false]
  · rw [loss hclk, loseClock_of_unreferenced hun]
    rfl
  · rw [loss hclk, loseClock_of_referenced href, enterStopped_quiet (by exact hq)]
    rfl
  · have still : KeepsStill s s.clockGone := ⟨rfl, rfl, rfl⟩
    have closes := (enterStopped_closesAll (s := s.clockGone) hstandby .clockLost .clockLost).after still
    refine ⟨s.loseClock, loss hclk, ?_⟩
    rw [loseClock_of_referenced href]
    refine ⟨?_, ?_, fun i => ?_, fun i serial hi r hr hserial => closes.closing hi hr hserial⟩
    · rw [(enterStopped_reports _ _ _).tracker]
      rfl
    · exact (enterStopped_evolves _ _ _).hasFlag (hasFlag_raise s .clockLost)
    · rw [closes.lane]
      exact ⟨Lane.closed_openTake _ _, Lane.closed_punchLine (hsound.2.1 i) _⟩
  · rw [back hclk, regainClock_of_not_local hsrc]
    rfl
  · have hspd : (s.localSpeed.natAbs : Int) ≤ 32 * s.nominal := hspd
    rw [back hclk, regainClock_of_local hsrc (by omega) (by omega)]
    rfl

end Sys2Proof.Machine

/-! RESET_ENGINE (R21, R62, R74, R107, R126, R131, R132, R147, R162, R174). -/

namespace Sys2Proof.Machine

variable (s : State)

/-! ## Lanes, log and cue table (R62, R74, R131) -/

/-- An emptied lane: as after power-on, but with its run list (R74). -/
def Lane.emptied (l : Lane) : Lane := { Lane.reset with runList := l.runList }

theorem resetLane_closesLane (i : LaneId) :
    ClosesLane ⟨s.tracker.pos, s.tracker.count, .reset⟩ Lane.emptied i s (s.resetLane i) := by
  have closed := closeTake_closesLane s i s.tracker.pos s.tracker.count .reset
  refine ⟨closed.log, ?_, fun j hj => ?_, closed.table, closed.tracker⟩
  · unfold State.resetLane
    rw [State.lane_mapLane, if_pos rfl, closed.own, Lane.closed_runList]
    rfl
  · unfold State.resetLane
    rw [State.lane_mapLane, if_neg hj, closed.others j hj]

theorem resetLane_sparesTracker (i : LaneId) : SparesTracker s (s.resetLane i) :=
  (closeTake_sparesTracker s i s.tracker.pos s.tracker.count .reset).trans ⟨rfl, rfl⟩

/-- Every lane emptied, its take closed (R131). -/
def State.lanesReset (s : State) : State := s.eachLaneFreely fun i s => s.resetLane i

theorem lanesReset_closesAll :
    ClosesAll ⟨s.tracker.pos, s.tracker.count, .reset⟩ Lane.emptied s s.lanesReset :=
  closes_eachLaneFreely s fun i t ht => by
    rw [← ht]
    exact resetLane_closesLane t i

theorem lanesReset_sparesTracker : SparesTracker s s.lanesReset :=
  eachLaneFreely_sparesTracker s fun i t => resetLane_sparesTracker t i

theorem lanesReset_evolves : Evolves s s.lanesReset :=
  eachLaneFreely_evolves s _ fun i t => resetLane_evolves t i

/-- A slot after the reset: the pending copy, if there is one, is live, and no lane works the slot (R62). -/
theorem Slot.engineReset_eq (v : Slot) :
    v.engineReset = { v with live := v.pending.getD v.live, pending := none, expansions := 0 } := by
  unfold Slot.engineReset Slot.promote
  cases h : v.pending with
  | none => simp only [Option.getD_none]
  | some c => simp only [Option.getD_some]

theorem slotAt_engineResetTable (t : CueTable) (n : Nat) :
    slotAt (engineResetTable t) n =
      (slotAt t n).map fun v => { v with live := v.pending.getD v.live, pending := none, expansions := 0 } := by
  unfold engineResetTable
  rw [slotAt_map]
  exact congrArg (Option.map · _) (funext Slot.engineReset_eq)

/-! ## The tracker (R21) -/

/-- A fault changes nothing but the link (R50). -/
theorem raiseFault_eq_mapLink (f : Flag) : ∃ g, s.raiseFault f = s.mapLink g := by
  unfold State.raiseFault
  split
  · exact ⟨id, rfl⟩
  · obtain ⟨g, hg⟩ := post_eq_mapLink (s.raise f) (.fault f s.tracker.count)
    exact ⟨fun l => g { l with flags := setFlag l.flags f }, hg⟩

/-- A speed is taken clamped; all else is the link's (R9). -/
theorem setSpeed_eq (spd : Int) :
    ∃ g, s.setSpeed spd = (s.mapTracker fun t => { t with spd := clampSpeed s.nominal spd }).mapLink g := by
  unfold State.setSpeed
  dsimp only
  split
  · exact ⟨id, rfl⟩
  · exact raiseFault_eq_mapLink _ _

/-- The state and speed that the LOCAL generator gives a tracker as it starts anew (R21). -/
def State.startedLocal (s : State) (t : Tracker) : Tracker :=
  if s.settings.source = .localGen then
    if s.tracker.clockLost then { t with state := .stopped }
    else
      { t with
        spd := clampSpeed s.nominal s.localSpeed
        state := if clampSpeed s.nominal s.localSpeed = 0 then .stopped else .moving }
  else t

/-- Only the speed and the state come of it. -/
theorem startedLocal_eq (t : Tracker) : ∃ (spd : Int) (state : TrackerState),
    s.startedLocal t = { t with spd := spd, state := state } := by
  unfold State.startedLocal
  split
  · split
    · exact ⟨t.spd, .stopped, rfl⟩
    · exact ⟨_, _, rfl⟩
  · exact ⟨t.spd, t.state, rfl⟩

theorem resetLocal_eq : ∃ g, s.resetLocal = (s.mapTracker s.startedLocal).mapLink g := by
  unfold State.resetLocal State.startedLocal
  by_cases hsrc : s.settings.source = .localGen
  · simp only [hsrc, if_true]
    by_cases hclk : s.tracker.clockLost = true
    · exact ⟨id, by simp [State.mapTracker, State.mapLink, hclk]⟩
    · obtain ⟨g, hg⟩ := setSpeed_eq (s.mapTracker fun t => { t with state := .stopped }) s.localSpeed
      have hg : (s.mapTracker fun t => { t with state := .stopped }).setSpeed
          (s.mapTracker fun t => { t with state := .stopped }).localSpeed = (s.mapTracker fun t =>
            { t with spd := clampSpeed s.nominal s.localSpeed, state := .stopped }).mapLink g := hg
      refine ⟨g, ?_⟩
      simp only [State.mapTracker_tracker, hclk, if_false, hg, State.mapLink_tracker, Bool.false_eq_true]
      split <;> rfl
  · simp only [hsrc, if_false]
    exact ⟨id, rfl⟩

/-! ## The feeds (R132, R146, R147) -/

/-- No lane copy is on, and no tone sounds (R132). -/
def Feeds.silent (f : Feeds) : Prop :=
  f.copies = Eight.all LaneCopy.off ∧ f.phases = Eight.all 0 ∧ f.tone = Eight.all 0

theorem Feeds.sendOverlay_silent {f : Feeds} (h : f.silent) (r : OverlayRecord) : (f.sendOverlay r).silent := by
  unfold Feeds.sendOverlay
  split <;> exact h

theorem Feeds.sendCode_silent {f : Feeds} (h : f.silent) (r : CodeOut) : (f.sendCode r).silent := by
  unfold Feeds.sendCode
  split <;> exact h

theorem formCode_eq_mapFeeds (frame : Nat) (spd : Int) :
    ∃ g : Feeds → Feeds, s.formCode frame spd = s.mapFeeds g ∧ ∀ f, f.silent → (g f).silent := by
  unfold State.formCode
  split
  · exact ⟨_, rfl, fun f h => Feeds.sendCode_silent h _⟩
  · exact ⟨id, rfl, fun _ h => h⟩

theorem resetCode_eq_mapFeeds : ∃ g : Feeds → Feeds, s.resetCode = s.mapFeeds g ∧ ∀ f, f.silent → (g f).silent := by
  unfold State.resetCode
  split
  · split
    · exact formCode_eq_mapFeeds s _ _
    · exact ⟨fun f => { f with holdTimer := some 0 }, rfl, fun _ h => h⟩
  · exact ⟨id, rfl, fun _ h => h⟩

/-- The feeds emptied, the tones recomputed, and the records of the reset formed. -/
def State.feedsReset (s : State) : State := ((s.mapFeeds Feeds.engineReset).recomputeTones).formOverlay.resetCode

theorem feedsReset_eq : ∃ g : Feeds → Feeds, s.feedsReset = s.mapFeeds g ∧ (g s.feeds).silent := by
  obtain ⟨g, hg, hsilent⟩ := resetCode_eq_mapFeeds ((s.mapFeeds Feeds.engineReset).recomputeTones).formOverlay
  refine ⟨fun _ => g ((s.mapFeeds Feeds.engineReset).recomputeTones).formOverlay.feeds, ?_, hsilent _ ?_⟩
  · unfold State.feedsReset
    rw [hg]
    rfl
  · exact Feeds.sendOverlay_silent ⟨rfl, rfl, rfl⟩ _

/-! ## The whole reset -/

/-- The lanes, the cue table and the settings after the reset (R62, R131, R162). -/
def State.contentsReset (s : State) : State :=
  (s.lanesReset.mapTable engineResetTable).mapSettings fun g => { g with staging := [], standbyPending := false }

theorem contentsReset_settings :
    s.contentsReset.settings = { s.settings with staging := [], standbyPending := false } := by
  rw [State.contentsReset, State.mapSettings_settings, State.mapTable_settings, (lanesReset_sparesTracker s).settings]

theorem contentsReset_tracker : s.contentsReset.tracker = s.tracker := (lanesReset_sparesTracker s).tracker

/-- The LOCAL speed and whether the clock is lost are as they were before the reset. -/
theorem startedLocal_contentsReset :
    (s.contentsReset.mapTracker Tracker.engineReset).startedLocal = s.startedLocal := by
  funext t
  unfold State.startedLocal State.localSpeed State.nominal
  simp only [State.mapTracker_settings, State.mapTracker_tracker, contentsReset_settings, contentsReset_tracker]
  rfl

/-- The whole reset: lanes, table and settings, then the tracker and the feeds, then the link. -/
theorem engineReset_eq : ∃ (g : Link → Link) (f : Feeds → Feeds),
    s.engineReset = ((((s.contentsReset.mapTracker Tracker.engineReset).mapTracker
        (s.contentsReset.mapTracker Tracker.engineReset).startedLocal).mapLink g).mapFeeds f).mapLink
          (fun l => l.engineReset.start)
      ∧ (f s.contentsReset.feeds).silent ∧ s.link.Evolves (g s.contentsReset.link) := by
  obtain ⟨g, hg⟩ := resetLocal_eq (s.contentsReset.mapTracker Tracker.engineReset)
  obtain ⟨f, hf, hsilent⟩ := feedsReset_eq (s.contentsReset.mapTracker Tracker.engineReset).resetLocal
  have hlink : (s.contentsReset.mapTracker Tracker.engineReset).link.Evolves
      (s.contentsReset.mapTracker Tracker.engineReset).resetLocal.link := (resetLocal_evolves _).link
  have hreset : s.engineReset =
      (s.contentsReset.mapTracker Tracker.engineReset).resetLocal.feedsReset.mapLink fun l => l.engineReset.start := rfl
  rw [hg] at hf hsilent hlink
  rw [hreset, hg, hf]
  exact ⟨g, f, rfl, hsilent, (lanesReset_evolves s).link.trans hlink⟩

/-- The tracker after the reset: the count goes on, and LOCAL starts anew (R21). -/
theorem engineReset_tracker : s.engineReset.tracker = s.startedLocal s.tracker.engineReset := by
  obtain ⟨g, f, heq, -, -⟩ := engineReset_eq s
  rw [heq, startedLocal_contentsReset]
  simp only [State.mapLink_tracker, State.mapFeeds_tracker, State.mapTracker_tracker, contentsReset_tracker]

theorem engineReset_settings :
    s.engineReset.settings = { s.settings with staging := [], standbyPending := false } := by
  obtain ⟨g, f, heq, -, -⟩ := engineReset_eq s
  rw [heq, ← contentsReset_settings]
  simp only [State.mapLink_settings, State.mapFeeds_settings, State.mapTracker_settings]

theorem engineReset_table : s.engineReset.table = engineResetTable s.table := by
  obtain ⟨g, f, heq, -, -⟩ := engineReset_eq s
  rw [heq, ← (lanesReset_closesAll s).table]
  rfl

theorem engineReset_lane (i : LaneId) : s.engineReset.lane i = { Lane.reset with runList := (s.lane i).runList } := by
  obtain ⟨g, f, heq, -, -⟩ := engineReset_eq s
  rw [heq]
  exact (lanesReset_closesAll s).lane i

/-- The log keeps its records and its next serial, and closes what the lanes held (R107, R126, R131). -/
theorem engineReset_log : s.engineReset.log =
    { s.log with records := s.closedBy laneIds ⟨s.tracker.pos, s.tracker.count, .reset⟩ } := by
  obtain ⟨g, f, heq, -, -⟩ := engineReset_eq s
  rw [heq, ← (lanesReset_closesAll s).log]
  rfl

theorem engineReset_feeds : s.engineReset.feeds.silent := by
  obtain ⟨g, f, heq, hsilent, -⟩ := engineReset_eq s
  rw [heq]
  exact hsilent

/-- The link after the reset keeps its framing, bank, cursor and flags, and has nothing in hand (R174). -/
theorem Link.Evolves.engineReset {l m : Link} (h : l.Evolves m) :
    (m.engineReset.start.framing = l.framing ∧ m.engineReset.start.bank = l.bank ∧ m.engineReset.start.cursor = l.cursor)
      ∧ (∀ k, l.flags.getLsbD k = true → m.engineReset.start.flags.getLsbD k = true)
      ∧ m.engineReset.start.receiver = .waiting ∧ m.engineReset.start.requests = []
      ∧ m.engineReset.start.replies = [] ∧ m.engineReset.start.resetPending = none := by
  have started := Link.start_evolves m.engineReset
  exact ⟨⟨started.framing.trans h.framing, started.bank.trans h.bank, started.cursor.trans h.cursor⟩,
    fun k hk => started.flags k (h.flags k hk), started.receiver, started.requests,
    List.suffix_nil.1 started.replies, started.resetPending⟩

/-- The link after the reset is that of a part that evolved, emptied. -/
theorem engineReset_link : ∃ m : Link, s.link.Evolves m ∧ s.engineReset.link = m.engineReset.start := by
  obtain ⟨g, f, heq, -, hlink⟩ := engineReset_eq s
  rw [heq]
  exact ⟨_, hlink, rfl⟩

/-- With takes and lanes in agreement no record is left OPEN when all lanes close their takes (R120). -/
theorem closedBy_closed {s : State} (h : s.takesSound) (c : Closing) :
    ∀ r ∈ s.closedBy laneIds c, r.closing.isSome = true := by
  have every : ∀ i : LaneId, i ∈ laneIds := by decide
  intro r hr
  obtain ⟨r0, hr0, rfl⟩ := List.mem_map.1 hr
  split
  · rfl
  · rename_i hfree
    by_contra hopen
    have hnone : r0.closing = none := Option.not_isSome_iff_eq_none.1 hopen
    exact hfree ⟨r0.lane, every _, h.2.1 r0 hr0 hnone⟩

/-- What the reset clears in the tracker whatever its source (R21). -/
theorem engineReset_cleared : s.engineReset.tracker.pos = 0 ∧ s.engineReset.tracker.lastAnchor = 0
    ∧ s.engineReset.tracker.phase = 0 ∧ s.engineReset.tracker.origin = none ∧ s.engineReset.tracker.previous = none
    ∧ s.engineReset.tracker.recordInterval = none ∧ s.engineReset.tracker.count = s.tracker.count := by
  obtain ⟨spd, state, hstarted⟩ := startedLocal_eq s s.tracker.engineReset
  rw [engineReset_tracker, hstarted]
  exact ⟨rfl, rfl, rfl, rfl, rfl, rfl, rfl⟩

/-- Settles O12: each block of the reset part by its own equation. -/
theorem engineResetKeepsWhatItsRulesKeep : Obligations.EngineResetKeepsWhatItsRulesKeep := by
  intro s hdue
  have every : ∀ i : LaneId, i ∈ laneIds := by decide
  obtain ⟨m, hlink, hm⟩ := engineReset_link s
  obtain ⟨⟨hframing, hbank, hcursor⟩, hflags, hreceiver, hrequests, hreplies, hpending⟩ := hlink.engineReset
  obtain ⟨hcopies, hphases, htone⟩ := engineReset_feeds s
  obtain ⟨hpos, hanchor, hphase, horigin, hprevious, hinterval, hcount⟩ := engineReset_cleared s
  have hexec : exec .resetEngine s = .next s.engineReset := by
    simp only [exec, execResetEngine, hdue, if_true]
  refine ⟨s.engineReset, hexec, fun n => ?_, engineReset_lane s, engineReset_settings s, hpos, hanchor,
    hphase, horigin, hprevious, hinterval, hcount, ?_⟩
  · rw [engineReset_table, slotAt_engineResetTable]
  rw [← hm] at hframing hbank hcursor hflags hreceiver hrequests hreplies hpending
  refine ⟨fun hsrc => ?_, fun hsrc hclk => ?_, fun hsrc hclk => ?_, ?_, ?_, fun hsound => ?_,
    hcopies, hphases, htone, hframing, hbank, hcursor, fun f hf => hflags _ hf, hreceiver, hrequests, hreplies, hpending⟩
  · rw [engineReset_tracker, State.startedLocal, if_neg hsrc]
    exact ⟨rfl, rfl⟩
  · rw [engineReset_tracker, State.startedLocal, if_pos hsrc, if_pos hclk]
    exact ⟨rfl, rfl⟩
  · rw [engineReset_tracker, State.startedLocal, if_pos hsrc, if_neg (by simp [hclk])]
    exact ⟨rfl, fun h0 => if_pos h0, fun h0 => if_neg h0⟩
  · rw [engineReset_log]
  · rw [engineReset_log]
    exact List.map_congr_left fun r _ => if_congr ⟨fun ⟨i, _, hi⟩ => ⟨i, hi⟩, fun ⟨i, hi⟩ => ⟨i, every i, hi⟩⟩ rfl rfl
  · rw [engineReset_log]
    exact closedBy_closed hsound _

end Sys2Proof.Machine

/-! Code records on CIN: their bytes, and the records that reference and move the tracker in CODE (R28 to R33, R39,
R180). -/

namespace Sys2Proof.Machine

/-! ## The bytes of a record (R143, R180) -/

/-- The flag byte of a record reads back as its flags. -/
theorem codeFlagByte_reads (drop hold reverse : Bool) :
    (codeFlagByte drop hold reverse).toNat < 8 ∧ (codeFlagByte drop hold reverse).getLsbD 0 = drop
      ∧ (codeFlagByte drop hold reverse).getLsbD 1 = hold ∧ (codeFlagByte drop hold reverse).getLsbD 2 = reverse := by
  cases drop <;> cases hold <;> cases reverse <;> decide

/-- The check byte completes a sum of 0 (R180). -/
theorem add_checkByte (a b c d e : Byte) : a + b + c + d + e + checkByte [a, b, c, d, e] = 0 := by
  simp [checkByte]

/-- The base of a record that is neither HOLD nor reverse is the start of the next frame of the day (R28). -/
theorem into_nextFrame (std : Standard) (n : Nat) :
    std.into ((n + 1) * frameUnits : Nat) = (n + 1) % std.dayFrames * frameUnits := by
  unfold Standard.into Standard.dayLength
  rw [← Int.natCast_emod, Int.toNat_natCast, Nat.mul_mod_mul_right]

/-- The seven bytes of a record of a frame read back as that frame with its flags (R28, R143, R180). -/
theorem codeOut_bytes_read (std : Standard) {n : Nat} (hold reverse : Bool) (h : n < std.dayFrames) :
    ∃ hh mm ss ff flags check : Byte,
      (CodeOut.mk (frameToLabel std n) std.isDrop hold reverse).bytes = [0x5A, hh, mm, ss, ff, flags, check]
      ∧ readCodeRecord std hh mm ss ff flags check = some
          { frame := n, hold := hold, reverse := reverse,
            base := (if hold = true ∨ reverse = true then n else (n + 1) % std.dayFrames) * frameUnits } := by
  obtain ⟨hrange, homit, hback⟩ := frameToLabel_roundTrip std h
  obtain ⟨hbyte, hdrop, hhold, hreverse⟩ := codeFlagByte_reads std.isDrop hold reverse
  generalize hl : frameToLabel std n = l at hrange homit hback
  obtain ⟨hh, mm, ss, ff⟩ := l
  obtain ⟨h1, h2, h3, h4⟩ := (labelInRange_iff std hh mm ss ff).1 hrange
  have hfps : std.fps ≤ 30 := by cases std <;> decide
  have byte (k : Nat) (hk : k < 256) : (BitVec.ofNat 8 k).toNat = k := by
    rw [BitVec.toNat_ofNat, Nat.mod_eq_of_lt hk]
  refine ⟨BitVec.ofNat 8 hh, BitVec.ofNat 8 mm, BitVec.ofNat 8 ss, BitVec.ofNat 8 ff, codeFlagByte std.isDrop hold reverse,
    checkByte [BitVec.ofNat 8 hh, BitVec.ofNat 8 mm, BitVec.ofNat 8 ss, BitVec.ofNat 8 ff,
      codeFlagByte std.isDrop hold reverse], rfl, ?_⟩
  unfold readCodeRecord
  rw [byte hh (by omega), byte mm (by omega), byte ss (by omega), byte ff (by omega),
    if_pos ⟨add_checkByte _ _ _ _ _, hbyte, hrange, homit, hdrop⟩]
  simp only [hback, hhold, hreverse, into_nextFrame, Bool.or_eq_true]
  split <;> rfl

/-! ## Bytes on CIN (R180) -/

/-- A waiting receiver discards bytes other than the start byte. -/
theorem cinBytes_discarded {s : State} (h : s.tracker.cin = none) {bytes : List Byte} (hb : ∀ b ∈ bytes, b ≠ 0x5A) :
    bytes.foldl State.cinByte s = s := by
  induction bytes with
  | nil => rfl
  | cons b rest ih =>
    have hone : s.cinByte b = s := by
      unfold State.cinByte
      rw [h]
      exact if_neg (hb b List.mem_cons_self)
    rw [List.foldl_cons, hone]
    exact ih fun c hc => hb c (List.mem_cons_of_mem _ hc)

/-- The bytes of a record are gathered until five of them stand behind the start byte. -/
theorem cinByte_gathers (s : State) {bytes : List Byte} (h : bytes.length < 5) (b : Byte) :
    (s.mapTracker fun t => { t with cin := some bytes }).cinByte b =
      s.mapTracker fun t => { t with cin := some (bytes ++ [b]) } := by
  unfold State.cinByte
  simp only [State.mapTracker_tracker]
  split
  · contradiction
  · rename_i heq
    cases heq
    exact absurd h (by simp)
  · rename_i heq
    cases heq
    rfl

/-- The sixth byte behind the start byte completes the record. -/
theorem cinByte_completes (s : State) (hh mm ss ff flags check : Byte) :
    (s.mapTracker fun t => { t with cin := some [hh, mm, ss, ff, flags] }).cinByte check =
      (s.mapTracker fun t => { t with cin := none }).takeRecord hh mm ss ff flags check := by
  unfold State.cinByte
  simp only [State.mapTracker_tracker, State.mapTracker_mapTracker]

/-- A waiting receiver takes a start byte and the six bytes after it as one record. -/
theorem cinBytes_record {s : State} (h : s.tracker.cin = none) (hh mm ss ff flags check : Byte) :
    [0x5A, hh, mm, ss, ff, flags, check].foldl State.cinByte s = s.takeRecord hh mm ss ff flags check := by
  have hstart : s.cinByte 0x5A = s.mapTracker fun t => { t with cin := some [] } := by
    unfold State.cinByte
    rw [h]
    exact if_pos rfl
  have hwait : (s.mapTracker fun t => { t with cin := none }) = s := by
    simp only [State.mapTracker, ← h]
  rw [List.foldl_cons, hstart]
  simp [cinByte_gathers, cinByte_completes, hwait]

/-- A record whose check fails is bad (R28). -/
theorem readCodeRecord_badCheck (std : Standard) {hh mm ss ff flags check : Byte}
    (h : hh + mm + ss + ff + flags + check ≠ 0) : readCodeRecord std hh mm ss ff flags check = none :=
  if_neg fun hc => h hc.1

/-- In CODE, with the clock present, a bad record raises CODE_ERROR (R28). -/
theorem takeRecord_bad {s : State} {hh mm ss ff flags check : Byte} (hclk : s.tracker.clockLost = false)
    (hsrc : s.settings.source = .codeIn) (hr : readCodeRecord s.settings.standard hh mm ss ff flags check = none) :
    s.takeRecord hh mm ss ff flags check = s.raiseFault .codeError := by
  unfold State.takeRecord
  simp only [hclk, Bool.false_eq_true, if_false, hsrc, hr]

/-- In CODE, with the clock present, a good record is taken (R28). -/
theorem takeRecord_good {s : State} {hh mm ss ff flags check : Byte} {r : CodeRecord}
    (hclk : s.tracker.clockLost = false) (hsrc : s.settings.source = .codeIn)
    (hr : readCodeRecord s.settings.standard hh mm ss ff flags check = some r) :
    s.takeRecord hh mm ss ff flags check = s.takeInCode r := by
  unfold State.takeRecord
  simp only [hclk, Bool.false_eq_true, if_false, hsrc, hr]

/-! ## The record of a sample that begins (R28, R31) -/

/-- A sample that begins leaves what the tracker measures, and stops no timer. -/
structure KeepsMeasures (t u : Tracker) : Prop where
  spd : u.spd = t.spd
  origin : u.origin = t.origin
  previous : u.previous = t.previous
  cin : u.cin = t.cin
  dropoutTimer : u.dropoutTimer.isSome = t.dropoutTimer.isSome

theorem beginSample_keepsMeasures (s : State) : KeepsMeasures s.tracker s.beginSample.tracker := by
  unfold State.beginSample
  split
  · exact ⟨rfl, rfl, rfl, rfl, rfl⟩
  · refine ⟨rfl, rfl, rfl, rfl, ?_⟩
    cases h : s.tracker.dropoutTimer <;> simp [tickTimer, h]

/-- The part with a record kept in the sample that begins with it (R28, R31). -/
def State.recordTaken (s : State) (r : CodeRecord) : State :=
  (s.beginSample.keepRecord r).mapTracker fun t => { t with anchorTaken := true }

theorem recordTaken_settings (s : State) (r : CodeRecord) : (s.recordTaken r).settings = s.settings :=
  (beginSample_begun s).settings

/-- With a previous record the time since it becomes the record interval (R28). -/
theorem recordTaken_interval {s : State} {p : PreviousRecord} (hp : s.tracker.previous = some p) (r : CodeRecord) :
    (s.recordTaken r).tracker.recordInterval = some (samplesFrom p.arrival s.beginSample.tracker.count) := by
  have hp : s.beginSample.tracker.previous = some p := (beginSample_keepsMeasures s).previous.trans hp
  unfold State.recordTaken State.keepRecord
  simp only [State.mapTracker_tracker, hp]

theorem recordTaken_state (s : State) (r : CodeRecord) : (s.recordTaken r).tracker.state = s.tracker.state :=
  (beginSample_begun s).state

/-- A record that is not HOLD references an UNREFERENCED tracker (R33). -/
theorem takeInCode_of_unreferenced {s : State} {r : CodeRecord} (hhold : r.hold = false)
    (hstate : s.tracker.state = .unreferenced) : s.takeInCode r = (s.recordTaken r).codeReference r := by
  have hun : ((s.beginSample.keepRecord r).mapTracker fun t => { t with anchorTaken := true }).tracker.state =
      .unreferenced := (recordTaken_state s r).trans hstate
  unfold State.takeInCode
  simp only [hhold, Bool.false_eq_true, if_false, hun]
  rfl

/-- In MOVING a record that is not HOLD is an anchor when it is contiguous, and a jump when it is not (R30, R39). -/
theorem takeInCode_of_moving {s : State} {r : CodeRecord} (hhold : r.hold = false)
    (hstate : s.tracker.state = .moving) :
    (∀ k, s.beginSample.contiguousFrames r = some k → s.takeInCode r = (s.recordTaken r).codeAnchor r k)
      ∧ (s.beginSample.contiguousFrames r = none → s.takeInCode r = (s.recordTaken r).codeJump r) := by
  have hmove : ((s.beginSample.keepRecord r).mapTracker fun t => { t with anchorTaken := true }).tracker.state =
      .moving := (recordTaken_state s r).trans hstate
  refine ⟨fun k hk => ?_, fun hk => ?_⟩
  · unfold State.takeInCode
    simp only [hhold, Bool.false_eq_true, if_false, hmove, hk]
    rfl
  · unfold State.takeInCode
    simp only [hhold, Bool.false_eq_true, if_false, hmove, hk]
    rfl

/-! ## Where a record leaves the tracker (R29, R30, R32, R33, R39) -/

/-- The first record references the tracker at its base (R33). -/
theorem codeReference_tracker (s : State) (r : CodeRecord) :
    (s.codeReference r).tracker = { s.tracker with
      pos := r.base, lastAnchor := r.base, origin := some ⟨s.tracker.count, 0⟩, driftCount := 0
      state := if s.tracker.spd = 0 then .stopped else .moving } := by
  unfold State.codeReference
  rw [(enterBySpeed_reports _ _).tracker, State.mapTracker_tracker, (emitIfMoved_reports _ _ _).tracker]
  rfl

/-- A jump places Pos and L at the candidate and keeps the speed (R39). -/
theorem codeJump_tracker (s : State) (r : CodeRecord) :
    (s.codeJump r).tracker = { s.tracker with
      pos := s.codeCandidate r, lastAnchor := s.codeCandidate r, origin := some ⟨s.tracker.count, 0⟩ } := by
  unfold State.codeJump
  dsimp only
  split
  · rfl
  · rw [((emitUpdate_reports _ _ _).trans (noteTracker_reports _ _)).tracker]
    rfl

/-- An update in TACH and CODE with its report is a report (R31, R45). -/
theorem emitExternal_reports (s : State) (p0 : Nat) (kind : UpdateKind) : Reports s (s.emitExternal p0 kind) :=
  reports_ite ((emitIfMoved_reports s p0 kind).trans (noteTracker_reports _ _)) (emitIfMoved_reports s p0 kind)

/-- The anchor rule: Pos goes to a candidate at or ahead of it in its direction and else holds, and L is Pos (R30). -/
def anchored (std : Standard) (pos a : Nat) (forward : Bool) : Nat :=
  if 0 ≤ (if forward then std.dist a pos else std.dist pos a) then a else pos

theorem anchored_reverse (std : Standard) (pos a : Nat) (reverse : Bool) :
    anchored std pos a (!reverse) = if 0 ≤ (if reverse then std.dist pos a else std.dist a pos) then a else pos := by
  cases reverse <;> rfl

theorem applyAnchor_eq (s : State) (a : Nat) (forward : Bool) :
    s.applyAnchor a forward = s.mapTracker fun t =>
      { t with
        pos := anchored s.settings.standard s.tracker.pos a forward
        lastAnchor := anchored s.settings.standard s.tracker.pos a forward } := by
  unfold State.applyAnchor anchored State.mapTracker
  dsimp only
  by_cases h : 0 ≤ (if forward then s.settings.standard.dist a s.tracker.pos
      else s.settings.standard.dist s.tracker.pos a)
  · simp only [h, if_true]
  · simp only [h, if_false]

/-- A tracker that is not STOPPED is not started (R35). -/
theorem startIfEstimated_of_not_stopped {s : State} (h : s.tracker.state ≠ .stopped) (formed : Bool) :
    s.startIfEstimated formed = s := if_neg fun hc => h hc.2.1

/-- An anchor in MOVING: what follows the anchor rule is a report (R30, R31). -/
theorem anchor_tracker {s : State} (hstate : s.tracker.state = .moving) (a : Nat) (forward formed before : Bool) (p0 : Nat) :
    ((((s.applyAnchor a forward).startIfEstimated formed).emitExternal p0 .anchor).fallOfPlay before).tracker =
      { s.tracker with
        pos := anchored s.settings.standard s.tracker.pos a forward
        lastAnchor := anchored s.settings.standard s.tracker.pos a forward } := by
  rw [(fallOfPlay_reports _ _).tracker, (emitExternal_reports _ _ _).tracker, applyAnchor_eq,
    startIfEstimated_of_not_stopped (by simp [hstate])]
  rfl

/-- A measured speed is taken clamped, and the sample becomes the origin (R9, R32). -/
theorem setSpeed_setOrigin_eq (s : State) (v : Int) : ∃ g : Link → Link, (s.setSpeed v).setOrigin =
    (s.mapTracker fun t =>
      { t with spd := clampSpeed s.nominal v, origin := some ⟨t.count, 0⟩ }).mapLink g := by
  obtain ⟨g, hg⟩ := setSpeed_eq s v
  refine ⟨g, ?_⟩
  rw [hg]
  rfl

/-- A contiguous record in MOVING forms the estimate and takes its candidate by the anchor rule (R29, R30, R32). -/
theorem codeAnchor_tracker {s : State} {o : EstimateOrigin} (ho : s.tracker.origin = some o)
    (hstate : s.tracker.state = .moving) (r : CodeRecord) (k : Int) :
    let spd := clampSpeed s.nominal (estimate (!r.reverse) k 1 (max 1 (samplesFrom o.sample s.tracker.count)))
    let p := anchored s.settings.standard s.tracker.pos
      (s.settings.standard.into (r.base + s.settings.codeLatency * spd)) (!r.reverse)
    (s.codeAnchor r k).tracker =
      { s.tracker with spd := spd, origin := some ⟨s.tracker.count, 0⟩, pos := p, lastAnchor := p } := by
  obtain ⟨g, hg⟩ := setSpeed_setOrigin_eq s
    (estimate (!r.reverse) k 1 (max 1 (samplesFrom o.sample s.tracker.count)))
  unfold State.codeAnchor
  simp only [ho, hg]
  rw [anchor_tracker (by exact hstate)]
  rfl

/-! ## The estimate of a speed (R32) -/

/-- Rounding toward zero is division, whatever the sign (R10). -/
theorem roundQ_towardZero_value {num : Int} (hn : 0 ≤ num) (den : Nat) :
    (roundQ .towardZero num den).value = num / den
      ∧ (0 < den → (roundQ .towardZero (-num) den).value = -(num / den)) := by
  constructor
  · unfold roundQ
    dsimp only
    split
    · rfl
    · exact if_neg (by omega)
  · intro hden
    have hsign : (den : Int).sign = 1 := Int.sign_eq_one_of_pos (by omega)
    unfold roundQ
    dsimp only
    split
    · rename_i hrest
      exact Int.neg_ediv_of_dvd ((Int.dvd_neg).1 (Int.dvd_of_emod_eq_zero hrest))
    · rename_i hrest
      have hdvd : ¬(den : Int) ∣ num := fun hd => hrest (Int.emod_eq_zero_of_dvd ((Int.dvd_neg).2 hd))
      have hpos : 0 < num := by
        rcases hn.lt_or_eq with h | h
        · exact h
        · exact absurd ⟨0, by simp [← h]⟩ hdvd
      rw [if_pos (by omega), Int.neg_ediv, if_neg hdvd, hsign]
      exact Int.sub_add_cancel _ _

/-- The estimate of `k` spacings forward over `n` samples (R32). -/
theorem estimate_forward {k : Int} (hk : 0 ≤ k) (den n : Nat) :
    estimate true k den n = 2 ^ 32 * k / (den * n : Nat) :=
  (roundQ_towardZero_value (num := frameUnits * k) (Int.mul_nonneg (by decide) hk) (den * n)).1

/-- The estimate of `k` frames in a direction over `n` samples (R32). -/
theorem estimate_frames {k : Int} (hk : 0 ≤ k) {n : Nat} (hn : 0 < n) (reverse : Bool) :
    estimate (!reverse) k 1 n = (if reverse then -1 else 1) * (2 ^ 32 * k / n) := by
  obtain ⟨hforward, hback⟩ := roundQ_towardZero_value (num := frameUnits * k) (Int.mul_nonneg (by decide) hk) (1 * n)
  have hback := hback (by omega)
  have hunits : (frameUnits : Int) = 2 ^ 32 := by norm_num [frameUnits]
  unfold estimate
  cases reverse with
  | false => simpa [hunits] using hforward
  | true => simpa [hunits] using hback

/-! ## Contiguous records (R32, R39) -/

/-- When a previous record is kept and the dropout timer runs, a record is contiguous exactly when the time since the
previous one is within the timeout and it has moved 1 to 8 frames in its direction. -/
theorem contiguousFrames_eq {s : State} {r : CodeRecord} {p : PreviousRecord} (hp : s.tracker.previous = some p)
    (ht : s.tracker.dropoutTimer.isSome = true) :
    s.contiguousFrames r =
      if samplesFrom p.arrival s.tracker.count ≤ s.dropoutTimeout ∧ 1 ≤ framesBetween s.settings.standard p.base r
          ∧ framesBetween s.settings.standard p.base r ≤ 8 then some (framesBetween s.settings.standard p.base r)
      else none := by
  obtain ⟨k, hk⟩ := Option.isSome_iff_exists.1 ht
  unfold State.contiguousFrames
  simp only [hp, hk]

theorem framesBetween_eq (std : Standard) (base : Nat) (r : CodeRecord) :
    framesBetween std base r = (if r.reverse then std.dist base r.base else std.dist r.base base) / 2 ^ 32 := rfl

theorem beginSample_dropoutTimeout (s : State) : s.beginSample.dropoutTimeout = s.dropoutTimeout := by
  have begun := beginSample_begun s
  unfold State.dropoutTimeout
  rw [begun.recordInterval, begun.settings]

/-- A gap inside a record, where records are checked, is a bad record (R180). -/
theorem cinGap_inside {s : State} (h : s.tracker.cin.isSome = true) (hclk : s.tracker.clockLost = false)
    (hsrc : s.settings.source ≠ .localGen) :
    s.cinGap = (s.mapTracker fun t => { t with cin := none }).raiseFault .codeError := by
  obtain ⟨bytes, hb⟩ := Option.isSome_iff_exists.1 h
  unfold State.cinGap
  simp only [hb]
  exact if_neg (by simp [hclk, hsrc])

/-! ## A record in MOVING (R28 to R32, R39) -/

section Moving

variable {s : State} {r : CodeRecord} {p : PreviousRecord} (hhold : r.hold = false)
  (hstate : s.tracker.state = .moving) (hp : s.tracker.previous = some p)
  (htimer : s.tracker.dropoutTimer.isSome = true)

include hp htimer

theorem beginSample_contiguousFrames : s.beginSample.contiguousFrames r =
    if samplesFrom p.arrival s.beginSample.tracker.count ≤ s.dropoutTimeout
        ∧ 1 ≤ framesBetween s.settings.standard p.base r ∧ framesBetween s.settings.standard p.base r ≤ 8 then
      some (framesBetween s.settings.standard p.base r)
    else none := by
  have kept := beginSample_keepsMeasures s
  have hcontiguous := contiguousFrames_eq (r := r) (kept.previous.trans hp) (kept.dropoutTimer.trans htimer)
  rwa [beginSample_dropoutTimeout, (beginSample_begun s).settings] at hcontiguous

include hhold hstate

/-- A contiguous record forms the estimate and takes its candidate by the anchor rule (R30, R32). -/
theorem takeInCode_tracker_of_near {o : EstimateOrigin} (ho : s.tracker.origin = some o)
    (hlow : 1 ≤ framesBetween s.settings.standard p.base r) (hhigh : framesBetween s.settings.standard p.base r ≤ 8)
    (htime : samplesFrom p.arrival s.beginSample.tracker.count ≤ s.dropoutTimeout) :
    let spd := clampSpeed s.nominal ((if r.reverse then -1 else 1) *
      (2 ^ 32 * framesBetween s.settings.standard p.base r / (max 1 (samplesFrom o.sample s.beginSample.tracker.count))))
    let x := anchored s.settings.standard s.tracker.pos
      (s.settings.standard.into (r.base + s.settings.codeLatency * spd)) (!r.reverse)
    (s.takeInCode r).tracker = { (s.recordTaken r).tracker with
      spd := spd, origin := some ⟨s.beginSample.tracker.count, 0⟩, pos := x, lastAnchor := x } := by
  intro spd x
  have kept := beginSample_keepsMeasures s
  have hpos : (s.recordTaken r).tracker.pos = s.tracker.pos := (beginSample_begun s).pos
  have hset := recordTaken_settings s r
  have hspd : clampSpeed (s.recordTaken r).nominal (estimate (!r.reverse) (framesBetween s.settings.standard p.base r) 1
      (max 1 (samplesFrom o.sample (s.recordTaken r).tracker.count))) = spd := by
    rw [estimate_frames (by omega) (by omega), State.nominal, hset]
    rfl
  have htracker := codeAnchor_tracker (s := s.recordTaken r) (kept.origin.trans ho)
    ((recordTaken_state s r).trans hstate) r (framesBetween s.settings.standard p.base r)
  simp only [hspd, hset, hpos] at htracker
  rw [(takeInCode_of_moving hhold hstate).1 _
    ((beginSample_contiguousFrames hp htimer).trans (if_pos ⟨htime, hlow, hhigh⟩)), htracker]
  rfl

/-- A record that is not contiguous places Pos at its candidate and keeps the speed (R39). -/
theorem takeInCode_tracker_of_far (hfar : ¬(1 ≤ framesBetween s.settings.standard p.base r
      ∧ framesBetween s.settings.standard p.base r ≤ 8
      ∧ samplesFrom p.arrival s.beginSample.tracker.count ≤ s.dropoutTimeout)) :
    let x := s.settings.standard.into (r.base + s.settings.codeLatency * s.tracker.spd)
    (s.takeInCode r).tracker = { (s.recordTaken r).tracker with
      origin := some ⟨s.beginSample.tracker.count, 0⟩, pos := x, lastAnchor := x } := by
  have hspd : (s.recordTaken r).tracker.spd = s.tracker.spd := (beginSample_keepsMeasures s).spd
  rw [(takeInCode_of_moving hhold hstate).2 ((beginSample_contiguousFrames hp htimer).trans
    (if_neg fun ⟨htime, hlow, hhigh⟩ => hfar ⟨hlow, hhigh, htime⟩)), codeJump_tracker, State.codeCandidate,
    recordTaken_settings, hspd]
  rfl

end Moving

/-- Settles O59: bytes read back; a good record in CODE references the tracker, and moves it as an anchor or a jump. -/
theorem codeRecordsReferenceTheTracker : Obligations.CodeRecordsReferenceTheTracker := by
  have record {s : State} (hcin : s.tracker.cin = none) (hh mm ss ff flags check : Byte) :
      exec (.codeRecord [0x5A, hh, mm, ss, ff, flags, check]) s = .next (s.takeRecord hh mm ss ff flags check) :=
    congrArg Host.Outcome.next (cinBytes_record hcin hh mm ss ff flags check)
  refine ⟨fun std n hold reverse h => codeOut_bytes_read std hold reverse h,
    fun s bytes hcin hb => congrArg Host.Outcome.next (cinBytes_discarded hcin hb), ?_, ?_, fun s => ⟨fun hcin => ?_,
      fun hcin hclk hsrc => congrArg Host.Outcome.next (cinGap_inside hcin hclk hsrc)⟩⟩
  · intro s hh mm ss ff flags check hcin hclk hsrc
    refine ⟨fun hsum => ?_, fun r hr hhold hstate => ?_⟩
    · rw [record hcin, takeRecord_bad hclk hsrc (readCodeRecord_badCheck _ hsum)]
    · have htracker := codeReference_tracker (s.recordTaken r) r
      have kept := beginSample_keepsMeasures s
      have hspd : (s.recordTaken r).tracker.spd = s.tracker.spd := kept.spd
      have hcin' : (s.recordTaken r).tracker.cin = none := kept.cin.trans hcin
      refine ⟨(s.recordTaken r).codeReference r, ?_, ?_⟩
      · rw [record hcin, takeRecord_good hclk hsrc hr, takeInCode_of_unreferenced hhold hstate]
      · rw [htracker, hspd]
        exact ⟨rfl, rfl, rfl, rfl, rfl, rfl, rfl, hcin'⟩
  · intro s hh mm ss ff flags check r p o std count k n spd near a ahead hcin hclk hsrc hr hhold hstate hp ho htimer
    have hexec : exec (.codeRecord [0x5A, hh, mm, ss, ff, flags, check]) s = .next (s.takeInCode r) := by
      rw [record hcin, takeRecord_good hclk hsrc hr]
    have hinterval := recordTaken_interval hp r
    have hstate' : (s.recordTaken r).tracker.state = .moving := (recordTaken_state s r).trans hstate
    refine ⟨s.takeInCode r, hexec, ?_⟩
    by_cases hnear : near
    · obtain ⟨hlow, hhigh, htime⟩ := hnear
      rw [takeInCode_tracker_of_near hhold hstate hp htimer ho hlow hhigh htime, anchored_reverse]
      exact ⟨hstate', rfl, rfl, rfl, hinterval, rfl, rfl, fun _ => ⟨rfl, rfl, rfl⟩,
        fun hfar => absurd ⟨hlow, hhigh, htime⟩ hfar⟩
    · have hspd : (s.recordTaken r).tracker.spd = s.tracker.spd := (beginSample_keepsMeasures s).spd
      rw [takeInCode_tracker_of_far hhold hstate hp htimer hnear]
      exact ⟨hstate', rfl, rfl, rfl, hinterval, rfl, rfl, fun hc => absurd hc hnear, fun _ => ⟨hspd, rfl, rfl⟩⟩
  · change Host.Outcome.next s.cinGap = _
    unfold State.cinGap
    rw [hcin]

end Sys2Proof.Machine

/-! One word-clock sample (R24, R25, R29 to R32, R36, R42, R44, R45, R136, R144): what a sample does around its motion,
the reports of a quiet part with IDLE lanes, and the motion by source. -/

namespace Sys2Proof.Machine

/-! ## A sample around its motion (R7, R31, R136) -/

/-- The tracker as a sample begins: the count and the timers advance (R7, R35, R36). -/
def Tracker.begun (t : Tracker) : Tracker :=
  { t with
    count := t.count + 1, stallTimer := t.stallTimer.map (· + 1), dropoutTimer := t.dropoutTimer.map (· + 1)
    sampleBegun := true, anchorTaken := false }

/-- The tracker as a sample ends. -/
def Tracker.sampled (t : Tracker) : Tracker := { t with sampleBegun := false, anchorTaken := false }

/-- The feeds as a sample begins: the hold timer advances (R145). -/
def Feeds.begun (f : Feeds) : Feeds := { f with holdTimer := f.holdTimer.map (· + 1) }

/-- The part as a sample begins. -/
def State.begun (s : State) : State := (s.mapTracker Tracker.begun).mapFeeds Feeds.begun

theorem tickTimer_eq (t : Option Nat) : tickTimer t = t.map (· + 1) := by cases t <;> rfl

theorem beginSample_eq_begun {s : State} (h : s.tracker.sampleBegun = false) : s.beginSample = s.begun := by
  unfold State.beginSample State.begun Tracker.begun Feeds.begun
  simp only [h, Bool.false_eq_true, if_false, tickTimer_eq]

/-- A sample with the clock present is its motion, then its TONE frame. -/
theorem sample_eq {s : State} (hclk : s.tracker.clockLost = false) (hbegun : s.tracker.sampleBegun = false)
    (ta tb tz : BitVec 16) : s.sample ta tb tz = ((s.begun.sampleMotion ta tb tz).toneFrame).endSample := by
  unfold State.sample
  simp only [hclk, Bool.false_eq_true, if_false, beginSample_eq_begun hbegun]

/-- What the TONE frame of a sample leaves in the feeds: all but the frame itself and the phases, which advance (R136). -/
structure Toned (f g : Feeds) : Prop where
  copies : g.copies = f.copies
  increments : g.increments = f.increments
  phases : ∀ i, g.phases.get i = f.phases.get i + f.increments.get i
  ovlSending : g.ovlSending = f.ovlSending
  ovlHolding : g.ovlHolding = f.ovlHolding
  coutSending : g.coutSending = f.coutSending
  coutWaiting : g.coutWaiting = f.coutWaiting
  holdTimer : g.holdTimer = f.holdTimer

theorem toneFrame_toned (s : State) : Toned s.feeds s.toneFrame.feeds := by
  refine ⟨rfl, rfl, fun i => ?_, rfl, rfl, rfl, rfl, rfl⟩
  fin_cases i <;> rfl

theorem toneFrame_eq (s : State) : s.toneFrame = s.mapFeeds fun _ => s.toneFrame.feeds := rfl

/-- What the motion of a sample without a lane at work leaves in the feeds: all but the senders and the hold timer. -/
structure SendsOnly (f g : Feeds) : Prop where
  copies : g.copies = f.copies
  phases : g.phases = f.phases
  increments : g.increments = f.increments

theorem SendsOnly.trans {f g h : Feeds} (a : SendsOnly f g) (b : SendsOnly g h) : SendsOnly f h :=
  ⟨b.copies.trans a.copies, b.phases.trans a.phases, b.increments.trans a.increments⟩

/-- The tones advance by one sample, with no lane handing anything (R136). -/
def Feeds.paced (f g : Feeds) : Prop :=
  g.copies = f.copies ∧ g.increments = f.increments ∧ ∀ i, g.phases.get i = f.phases.get i + f.increments.get i

theorem SendsOnly.paced {f g h : Feeds} (a : SendsOnly f g) (b : Toned g h) : f.paced h :=
  ⟨b.copies.trans a.copies, b.increments.trans a.increments, fun i => by rw [b.phases, a.phases, a.increments]⟩

/-- A sample whose motion changes the tracker and the senders alone. -/
theorem sample_of_motion {s : State} (hclk : s.tracker.clockLost = false) (hbegun : s.tracker.sampleBegun = false)
    {ta tb tz : BitVec 16} {f : Tracker → Tracker} {g : Feeds → Feeds}
    (hm : s.begun.sampleMotion ta tb tz = (s.begun.mapTracker f).mapFeeds g) :
    ∃ h, exec (.wordClockSample ta tb tz) s =
        .next { s with tracker := (f s.tracker.begun).sampled, feeds := h } ∧ Toned (g s.feeds.begun) h := by
  refine ⟨(s.begun.sampleMotion ta tb tz).toneFrame.feeds, ?_, ?_⟩
  · change Host.Outcome.next (s.sample ta tb tz) = _
    rw [sample_eq hclk hbegun, toneFrame_eq, hm]
    rfl
  · have toned := toneFrame_toned (s.begun.sampleMotion ta tb tz)
    rw [hm] at toned ⊢
    exact toned

/-- A sample's tracker, settings, lanes, table, log and link are those that its motion leaves. -/
theorem exec_sample {s : State} (hclk : s.tracker.clockLost = false) (hbegun : s.tracker.sampleBegun = false)
    (ta tb tz : BitVec 16) : ∃ t, exec (.wordClockSample ta tb tz) s = .next t
      ∧ t.tracker = (s.begun.sampleMotion ta tb tz).tracker.sampled
      ∧ t.settings = (s.begun.sampleMotion ta tb tz).settings ∧ KeepsStill (s.begun.sampleMotion ta tb tz) t
      ∧ t.link = (s.begun.sampleMotion ta tb tz).link := by
  refine ⟨((s.begun.sampleMotion ta tb tz).toneFrame).endSample, ?_, rfl, rfl, ⟨rfl, rfl, rfl⟩, rfl⟩
  exact congrArg Host.Outcome.next (sample_eq hclk hbegun ta tb tz)

/-! ## Reports of a quiet part with IDLE lanes (R44, R141, R144) -/

section Idle

variable {s : State} (hidle : ∀ i, (s.lane i).state = .idle) (hq : s.quiet)

include hidle

theorem lanesTake_of_idle (u : MotionUpdate) : s.lanesTake u none = s := by
  have hnone : ¬severalLanes (fun i => decide ((s.lane i).state ≠ .idle)) = true := by simp [severalLanes, hidle]
  unfold State.lanesTake
  simp only [hnone, Bool.false_eq_true, if_false]
  exact eachLane_of_fixed fun i => laneTurn_of_idle (hidle i) _ _ _

theorem lanesAndOverlay_of_idle (u : MotionUpdate) : s.lanesAndOverlay u none = s.formOverlay := by
  unfold State.lanesAndOverlay
  simp only [lanesTake_of_idle hidle, and_self, if_true]

/-- The records of a new frame: on OVL, and in LOCAL on COUT (R141, R144). -/
def State.boundaryRecords (s : State) (p0 : Nat) : State :=
  if frameOf p0 = frameOf s.tracker.pos then s else s.formOverlay.formCode (frameOf s.tracker.pos) s.tracker.spd

include hq

/-- In a quiet part with IDLE lanes a motion update forms the records of a new frame and does nothing else (R44). -/
theorem emitUpdate_of_idle (p0 : Nat) (kind : UpdateKind) : s.emitUpdate p0 kind = s.boundaryRecords p0 := by
  obtain ⟨-, hstandby, hstaging⟩ := hq
  have hspares := formCode_sparesTracker s.formOverlay (frameOf s.tracker.pos) s.tracker.spd
  have hrecords : (s.formOverlay.formCode (frameOf s.tracker.pos) s.tracker.spd).applyUnheld =
      s.formOverlay.formCode (frameOf s.tracker.pos) s.tracker.spd := by
    refine applyUnheld_of_empty ?_
    rw [hspares.settings]
    exact hstaging
  unfold State.emitUpdate State.emitUpdateWith State.boundaryTaken
  simp only [lanesTake_of_idle hidle, lanesAndOverlay_of_idle hidle, hstandby, Bool.false_eq_true, if_false, hrecords]
  rfl

theorem emitIfMoved_of_idle (p0 : Nat) (kind : UpdateKind) : s.emitIfMoved p0 kind = s.boundaryRecords p0 := by
  unfold State.emitIfMoved
  split
  · rename_i h
    rw [State.boundaryRecords, if_pos (by rw [h])]
  · exact emitUpdate_of_idle hidle hq p0 kind

theorem emitExternal_of_idle (hoff : s.settings.cycleAction = .off) (p0 : Nat) (kind : UpdateKind) :
    s.emitExternal p0 kind = s.boundaryRecords p0 := by
  unfold State.emitExternal
  simp only [hoff, ne_eq, not_true_eq_false, and_false, if_false]
  exact emitIfMoved_of_idle hidle hq p0 kind

end Idle

theorem Feeds.sendOverlay_sendsOnly (f : Feeds) (r : OverlayRecord) : SendsOnly f (f.sendOverlay r) := by
  unfold Feeds.sendOverlay
  split <;> exact ⟨rfl, rfl, rfl⟩

theorem Feeds.sendCode_sendsOnly (f : Feeds) (r : CodeOut) : SendsOnly f (f.sendCode r) := by
  unfold Feeds.sendCode
  split <;> exact ⟨rfl, rfl, rfl⟩

/-- The records of a boundary are the senders' alone. -/
theorem boundaryRecords_eq (s : State) (p0 : Nat) :
    ∃ g, s.boundaryRecords p0 = s.mapFeeds g ∧ SendsOnly s.feeds (g s.feeds) := by
  unfold State.boundaryRecords
  split
  · exact ⟨id, rfl, rfl, rfl, rfl⟩
  · unfold State.formCode
    have overlay := s.feeds.sendOverlay_sendsOnly s.overlayRecord
    split
    · exact ⟨fun f => (f.sendOverlay s.overlayRecord).sendCode
        (codeOut s.settings.standard (frameOf s.tracker.pos) s.tracker.spd), rfl,
        overlay.trans (Feeds.sendCode_sendsOnly _ _)⟩
    · exact ⟨_, rfl, overlay⟩

/-- A sample whose motion places Pos and forms the records of a new frame. -/
theorem sample_of_boundary {s : State} (hclk : s.tracker.clockLost = false) (hbegun : s.tracker.sampleBegun = false)
    {ta tb tz : BitVec 16} {p : Nat} (hm : s.begun.sampleMotion ta tb tz =
      (s.begun.mapTracker fun t => { t with pos := p }).boundaryRecords s.tracker.pos) :
    ∃ f, exec (.wordClockSample ta tb tz) s =
        .next { s with tracker := { s.tracker.begun.sampled with pos := p }, feeds := f } ∧ s.feeds.paced f := by
  obtain ⟨g, hg, sends⟩ := boundaryRecords_eq (s.begun.mapTracker fun t => { t with pos := p }) s.tracker.pos
  obtain ⟨f, hexec, toned⟩ := sample_of_motion hclk hbegun (hm.trans hg)
  exact ⟨f, hexec, (SendsOnly.trans ⟨rfl, rfl, rfl⟩ sends).paced toned⟩

end Sys2Proof.Machine

/-! The motion of a sample by source: the generator in LOCAL (R31, R42, R45), the integration in CODE and TACH (R31, R36),
and the edges of the tach (R24, R25, R29, R32). -/

namespace Sys2Proof.Machine

/-! ## LOCAL (R31, R42, R45) -/

/-- A MOVING generator makes no HOLD record and takes its step. -/
theorem sampleMotion_of_local {s : State} (hsrc : s.settings.source = .localGen) (hstate : s.tracker.state = .moving)
    (ta tb tz : BitVec 16) : s.sampleMotion ta tb tz = s.integrateLocal := by
  have hdue : ¬s.holdDue = true := fun h => by
    obtain ⟨⟨-, hstop⟩, -⟩ := (holdDue_iff s).1 h
    simp [hstate] at hstop
  unfold State.sampleMotion
  simp only [hsrc, hdue, Bool.false_eq_true, if_false]

/-- With the cycle action OFF a step of a quiet part with IDLE lanes is Pos and the records of a new frame. -/
theorem integrateLocal_of_off {s : State} (hidle : ∀ i, (s.lane i).state = .idle) (hq : s.quiet)
    (hstate : s.tracker.state = .moving) (hspd : s.tracker.spd ≠ 0) (hoff : s.settings.cycleAction = .off) :
    s.integrateLocal = (s.mapTracker fun t => { t with pos := s.steppedPos }).boundaryRecords s.tracker.pos := by
  have hstep := emitUpdate_of_idle (s := s.mapTracker fun t => { t with pos := s.steppedPos }) hidle hq s.tracker.pos .step
  unfold State.integrateLocal
  rw [if_pos ⟨hstate, hspd⟩, hoff, ← hstep]
  exact ite_self _

/-- What the records of a boundary are in LOCAL: none in the same frame, and in a new one a code record that restarts the
hold timer and an overlay record, each started by an idle sender (R141, R144 to R146). -/
theorem boundaryRecords_of_local {s : State} (hsrc : s.settings.source = .localGen) (p0 : Nat) :
    ∃ g, s.boundaryRecords p0 = s.mapFeeds g ∧ SendsOnly s.feeds (g s.feeds)
      ∧ (frameOf p0 = frameOf s.tracker.pos → g s.feeds = s.feeds)
      ∧ (frameOf p0 ≠ frameOf s.tracker.pos → (g s.feeds).holdTimer = some 0
        ∧ (s.feeds.coutSending = none → (g s.feeds).coutSending =
            some (codeOut s.settings.standard (frameOf s.tracker.pos) s.tracker.spd))
        ∧ (s.feeds.ovlSending = none → (g s.feeds).ovlSending = some s.overlayRecord)) := by
  by_cases hframe : frameOf p0 = frameOf s.tracker.pos
  · exact ⟨id, if_pos hframe, ⟨rfl, rfl, rfl⟩, fun _ => rfl, fun h => absurd hframe h⟩
  · have hrecords : s.boundaryRecords p0 = s.mapFeeds fun f => (f.sendOverlay s.overlayRecord).sendCode
        (codeOut s.settings.standard (frameOf s.tracker.pos) s.tracker.spd) := (if_neg hframe).trans (if_pos hsrc)
    refine ⟨_, hrecords, ?_, fun h => absurd h hframe, fun _ => ⟨?_, fun hcout => ?_, fun hovl => ?_⟩⟩
    · exact (Feeds.sendOverlay_sendsOnly _ _).trans (Feeds.sendCode_sendsOnly _ _)
    · unfold Feeds.sendCode
      split <;> rfl
    · have hkept : (s.feeds.sendOverlay s.overlayRecord).coutSending = none := by
        unfold Feeds.sendOverlay
        split <;> exact hcout
      unfold Feeds.sendCode
      rw [hkept]
    · have hstart : (s.feeds.sendOverlay s.overlayRecord).ovlSending = some s.overlayRecord := by
        unfold Feeds.sendOverlay
        rw [hovl]
      unfold Feeds.sendCode
      split <;> exact hstart

/-! ### The end of the cycle window (R45) -/

theorem crossesEnd_of_crossing {s : State} {p0 p1 : Nat} (h : s.crossing p0 p1) : s.crossesEnd p0 p1 = true :=
  decide_eq_true h

section Crossing

variable {s : State} (hstate : s.tracker.state = .moving) (hspd : s.tracker.spd ≠ 0)
  (hcross : s.crossing s.tracker.pos (s.settings.standard.into (s.tracker.pos + s.tracker.spd)))

include hstate hspd hcross

/-- Under OFF and NOTIFY a crossing step is taken (R45). -/
theorem crossing_tracker_of_off_or_notify (h : s.settings.cycleAction = .off ∨ s.settings.cycleAction = .notify) :
    s.integrateLocal.tracker = { s.tracker with pos := s.steppedPos } := by
  have step := emitUpdate_reports (s.mapTracker fun t => { t with pos := s.steppedPos }) s.tracker.pos .step
  unfold State.integrateLocal
  rw [if_pos ⟨hstate, hspd⟩]
  dsimp only
  rw [if_pos (crossesEnd_of_crossing hcross)]
  rcases h with h | h
  · rw [h]
    exact step.tracker
  · rw [h]
    exact (step.trans (noteTracker_reports _ .cycleEnd)).tracker

/-- Under WRAP a crossing step is replaced by the start plus the overshoot (R45). -/
theorem crossing_tracker_of_wrap (h : s.settings.cycleAction = .wrap) :
    s.integrateLocal.tracker = { s.tracker with
      pos := s.settings.standard.into
        (s.settings.cycleStart + s.settings.standard.dist s.steppedPos s.settings.cycleEnd) } := by
  unfold State.integrateLocal
  rw [if_pos ⟨hstate, hspd⟩]
  dsimp only
  rw [if_pos (crossesEnd_of_crossing hcross), h]
  exact (emitUpdate_reports _ _ _).tracker

/-- Under HALT a crossing step ends at the end of the window (R45). -/
theorem integrateLocal_of_halt (h : s.settings.cycleAction = .halt) :
    s.integrateLocal = s.haltAt s.settings.cycleEnd := by
  unfold State.integrateLocal
  rw [if_pos ⟨hstate, hspd⟩]
  dsimp only
  rw [if_pos (crossesEnd_of_crossing hcross), h]

end Crossing

/-! ### The local ratio (R42) -/

theorem applyEntries_localRatio (l : List Staged) (g : Settings) :
    (l.foldl Settings.applyEntry g).localRatio = g.localRatio := by
  induction l generalizing g with
  | nil => rfl
  | cons e l ih =>
    rw [List.foldl_cons, ih]
    cases e <;> rfl

theorem fallOfPlay_sparesTracker (s : State) (before : Bool) : SparesTracker s (s.fallOfPlay before) :=
  sparesTracker_ite (closeAll_sparesTracker s _) (.refl s)

theorem applyUnheld_localRatio (s : State) : s.applyUnheld.settings.localRatio = s.settings.localRatio := by
  unfold State.applyUnheld
  split
  · rfl
  · unfold State.applyStaging
    dsimp only
    rw [(fallOfPlay_sparesTracker _ _).settings]
    exact applyEntries_localRatio _ _

theorem setMode_localRatio (s : State) (mode : EngineMode) :
    (s.setMode mode).settings.localRatio = s.settings.localRatio := by
  unfold State.setMode
  dsimp only
  split <;> rfl

theorem closeAtStop_sparesTracker (s : State) (cause : EndCause) :
    SparesTracker s (s.eachLaneFreely fun i s => s.closeAtStop i cause) :=
  eachLaneFreely_sparesTracker s fun _ s =>
    .trans (b := s.settleOrder.2) ⟨rfl, rfl⟩ (closeOutside_sparesTracker _ _ _ _)

theorem stoppedEffects_localRatio (s : State) (cause : EndCause) :
    (s.stoppedEffects cause).settings.localRatio = s.settings.localRatio := by
  unfold State.stoppedEffects
  rw [applyUnheld_localRatio, State.formHold, (formCode_sparesTracker _ _ _).settings]
  split
  · unfold State.standbyAtStop
    dsimp only
    split
    · rw [(closeAtStop_sparesTracker _ _).settings, setMode_localRatio]
      rfl
    · rw [setMode_localRatio, (closeAtStop_sparesTracker _ _).settings]
      rfl
  · rw [State.lossOfPlay, (closeAll_sparesTracker _ _).settings]

/-- A stop leaves the local ratio. -/
theorem enterStopped_localRatio (s : State) (cause : TrackerCause) (loss : EndCause) :
    (s.enterStopped cause loss).settings.localRatio = s.settings.localRatio := by
  unfold State.enterStopped
  dsimp only
  split
  · split
    · rw [stoppedEffects_localRatio, noteTracker_settings]
      rfl
    · rw [noteTracker_settings, stoppedEffects_localRatio]
      rfl
  · rw [stoppedEffects_localRatio, noteTracker_settings]
    rfl

/-- HALT leaves Pos at the end, the ratio 0 and the tracker STOPPED (R45). -/
theorem haltAt_stops (s : State) (last : Nat) :
    (s.haltAt last).tracker = { s.tracker with pos := last, spd := 0, state := .stopped }
      ∧ (s.haltAt last).settings.localRatio = 0 := by
  have moved : Reports (s.mapTracker fun t => { t with pos := last })
      (if last = s.tracker.pos then s.mapTracker fun t => { t with pos := last }
        else if frameOf last = frameOf s.tracker.pos then
          (s.mapTracker fun t => { t with pos := last }).emitUpdate s.tracker.pos .step
        else
          (s.mapTracker fun t => { t with pos := last }).settleOrder.2.emitUpdateWith s.tracker.pos .step
            (if (s.mapTracker fun t => { t with pos := last }).settleOrder.1 then 0
              else (s.mapTracker fun t => { t with pos := last }).settleOrder.2.tracker.spd)) :=
    reports_ite (.refl _) (reports_ite (emitUpdate_reports _ _ _)
      ((reports_settleOrder _).trans (emitUpdateWith_reports _ _ _ _)))
  unfold State.haltAt
  dsimp only
  rw [(enterStopped_reports _ _ _).tracker, enterStopped_localRatio]
  refine ⟨?_, rfl⟩
  rw [State.mapTracker_tracker, State.mapSettings_tracker]
  rw [moved.tracker]
  rfl

/-! ## CODE and TACH (R31, R36) -/

/-- A reduced sum of a reduced position is the reduced sum (R3). -/
theorem into_into_add (std : Standard) (z c : Int) : std.into ((std.into z : Nat) + c) = std.into (z + c) := by
  have hday := dayLength_pos std
  have hz : ((z % (std.dayLength : Int)).toNat : Int) = z % std.dayLength :=
    Int.toNat_of_nonneg (Int.emod_nonneg _ (by omega))
  unfold Standard.into
  rw [hz, Int.emod_add_emod]

/-- The step of Spd, held between two bounds: the one ahead going forward, and the one behind in reverse (R31). -/
def State.stepWithin (s : State) (ahead behind : Nat) : Nat :=
  if 0 < s.tracker.spd then (if 0 < s.settings.standard.dist s.steppedPos ahead then ahead else s.steppedPos)
  else if s.settings.standard.dist s.steppedPos behind < 0 then behind else s.steppedPos

/-- In CODE the bounds stand one pu short of a frame from the last anchor (R30, R31). -/
theorem clampedStep_of_code {s : State} (hsrc : s.settings.source = .codeIn) :
    s.clampedStep = s.stepWithin (s.settings.standard.into (s.tracker.lastAnchor + 2 ^ 32 - 1))
      (s.settings.standard.into (s.tracker.lastAnchor - 2 ^ 32 + 1)) := by
  have hunits : (frameUnits : Int) = 2 ^ 32 := by norm_num [frameUnits]
  have hahead : s.settings.standard.into ((s.nextAnchor true : Int) - 1) =
      s.settings.standard.into (s.tracker.lastAnchor + 2 ^ 32 - 1) := by
    simp only [State.nextAnchor, hsrc, reduceCtorEq, if_false, if_true, hunits]
    exact into_into_add _ _ (-1)
  have hbehind : s.settings.standard.into ((s.nextAnchor false : Int) + 1) =
      s.settings.standard.into (s.tracker.lastAnchor - 2 ^ 32 + 1) := by
    simp only [State.nextAnchor, hsrc, reduceCtorEq, if_false, Bool.false_eq_true, hunits]
    exact into_into_add _ _ 1
  unfold State.clampedStep
  simp only [hahead, hbehind]
  rfl

/-- In TACH the bounds stand one pu short of the transitions beyond the last anchor (R30, R31). -/
theorem clampedStep_of_tach {s : State} (hsrc : s.settings.source = .tach) :
    s.clampedStep = s.stepWithin
      (s.settings.standard.into
        (nextTransition s.settings.standard s.settings.edges s.tracker.lastAnchor - 1 : Int))
      (s.settings.standard.into
        (previousTransition s.settings.standard s.settings.edges s.tracker.lastAnchor + 1 : Int)) := by
  unfold State.clampedStep State.nextAnchor
  simp only [hsrc, if_true, Bool.false_eq_true, if_false]
  rfl

/-- In CODE a sample without a record and with no dropout due is its integration (R31). -/
theorem sampleMotion_of_code {s : State} (hsrc : s.settings.source = .codeIn) (htaken : s.tracker.anchorTaken = false)
    (hlimit : ∀ k, s.tracker.dropoutTimer = some k → k < s.dropoutTimeout) (ta tb tz : BitVec 16) :
    s.sampleMotion ta tb tz = s.integrate := by
  have hdue : ¬s.dropoutDue = true := fun h => by
    obtain ⟨-, k, hk, hle⟩ := (dropoutDue_iff s).1 h
    have := hlimit k hk
    omega
  unfold State.sampleMotion
  simp only [hsrc, htaken, hdue, Bool.false_eq_true, if_false]

/-- A tracker at rest does not integrate (R31). -/
theorem integrate_of_rest {s : State} (h : s.tracker.state = .unreferenced ∨ s.tracker.state = .stopped) :
    s.integrate = s := by
  unfold State.integrate
  rcases h with h | h <;> rw [h]

section Integration

variable {s : State} (hidle : ∀ i, (s.lane i).state = .idle) (hq : s.quiet) (hoff : s.settings.cycleAction = .off)

include hidle hq hoff

/-- A step in MOVING is Pos, clamped, and the records of a new frame (R31). -/
theorem integrate_of_moving (hstate : s.tracker.state = .moving) (hspd : s.tracker.spd ≠ 0) :
    s.integrate = (s.mapTracker fun t => { t with pos := s.clampedStep }).boundaryRecords s.tracker.pos := by
  unfold State.integrate
  simp only [hstate, hspd, if_false]
  exact emitExternal_of_idle (s := s.mapTracker fun t => { t with pos := s.clampedStep }) hidle hq hoff _ _

/-- A step in COASTING is Pos, unclamped, the records of a new frame, and the end of the coast (R36). -/
theorem integrate_of_coasting (hstate : s.tracker.state = .coasting) :
    s.integrate = ((s.mapTracker fun t => { t with pos := s.steppedPos }).boundaryRecords s.tracker.pos).coastEnd
      s.settings.coastLimit := by
  unfold State.integrate
  simp only [hstate]
  exact congrArg (State.coastEnd · _)
    (emitExternal_of_idle (s := s.mapTracker fun t => { t with pos := s.steppedPos }) hidle hq hoff _ _)

end Integration

end Sys2Proof.Machine

/-! The tach lines of a sample and its edges (R24, R25, R29, R30, R32), and the sample that settles O54. -/

namespace Sys2Proof.Machine

/-! ## Steady lines and a rise of TA (R24, R25) -/

/-- The sixteen subsamples of a line that holds one level through a sample. -/
def steadyLine (a : Bool) : BitVec 16 := if a then 0xFFFF else 0

theorem steadyLine_getLsbD : ∀ a : Bool, ∀ k < 16, (steadyLine a).getLsbD k = a := by decide

/-- The decoder with its lines settled at three levels. -/
def Decoder.settled (a b c : Bool) : Decoder := ⟨⟨a, 0⟩, ⟨b, 0⟩, ⟨c, 0⟩, false⟩

/-- A sample with steady lines is the same subsample sixteen times. -/
theorem frontEnd_of_steadyLines (s : State) (a b c : Bool) :
    s.frontEnd (steadyLine a) (steadyLine b) (steadyLine c) =
      (fun x : EdgeTally × State => x.2.subsample x.1 a b c)^[16] ({ net := 0, last := none }, s) := by
  unfold State.frontEnd
  rw [List.foldl_ext _ fun (x : EdgeTally × State) _ => x.2.subsample x.1 a b c]
  · exact List.foldl_const _ _ _
  · intro x k hk
    have hk : k < 16 := List.mem_range.1 hk
    simp only [steadyLine_getLsbD _ k hk]

/-- A subsample at the settled levels changes nothing (R24). -/
theorem subsample_of_settled {s : State} {a b c : Bool} (h : s.tracker.decoder = .settled a b c) (tally : EdgeTally) :
    s.subsample tally a b c = (tally, s) := by
  have hkept : (s.mapTracker fun t => { t with decoder := .settled a b c }) = s := by
    simp only [State.mapTracker, ← h]
  have hline (l : Bool) (limit : Nat) : LineFilter.sample ⟨l, 0⟩ limit l = ⟨l, 0⟩ := if_pos rfl
  unfold State.subsample
  simp only [h, Decoder.settled, hline, Bool.false_eq_true, if_false, ne_eq, not_true_eq_false, and_self, and_not_self,
    if_true]
  exact congrArg (Prod.mk tally) hkept

/-- Settled lines bring no edge (R25). -/
theorem frontEnd_of_settled {s : State} {a b c : Bool} (h : s.tracker.decoder = .settled a b c) :
    s.frontEnd (steadyLine a) (steadyLine b) (steadyLine c) = ({ net := 0, last := none }, s) := by
  rw [frontEnd_of_steadyLines]
  exact Function.iterate_fixed (subsample_of_settled h _) 16

/-- The part after a rise of TA with the other lines low: one forward count of the phase (R25). -/
def State.risen (s : State) : State :=
  s.mapTracker fun t => { t with phase := (t.phase + 1) % s.phaseCells, decoder := .settled true false false }

/-- With the filter at 0 or 1, a subsample with TA high and all lines low before is a rise: one forward edge (R24, R25). -/
theorem subsample_of_rise {s : State} (hfilter : s.settings.tachFilter ≤ 1)
    (h : s.tracker.decoder = .settled false false false) (tally : EdgeTally) :
    s.subsample tally true false false = ({ net := tally.net + 1, last := some true }, s.risen) := by
  have hlow (limit : Nat) : LineFilter.sample ⟨false, 0⟩ limit false = ⟨false, 0⟩ := if_pos rfl
  have hrise : LineFilter.sample ⟨false, 0⟩ s.settings.tachFilter true = ⟨true, 0⟩ := by
    unfold LineFilter.sample
    rw [if_neg (by decide), if_pos (by omega)]
  unfold State.subsample
  simp only [h, Decoder.settled, hlow, hrise]
  rfl

/-- A rise of TA at the start of a sample is its one edge (R24, R25). -/
theorem frontEnd_of_rise {s : State} (hfilter : s.settings.tachFilter ≤ 1)
    (h : s.tracker.decoder = .settled false false false) :
    s.frontEnd (steadyLine true) (steadyLine false) (steadyLine false) = ({ net := 1, last := some true }, s.risen) := by
  rw [frontEnd_of_steadyLines, Function.iterate_succ_apply, subsample_of_rise hfilter h]
  exact Function.iterate_fixed (subsample_of_settled (s := s.risen) rfl _) 15

/-- Without an edge and with no stall due, a sample in TACH is its integration (R31). -/
theorem sampleMotion_of_settled {s : State} {a b c : Bool} (hsrc : s.settings.source = .tach)
    (h : s.tracker.decoder = .settled a b c)
    (hlimit : ∀ k, s.tracker.stallTimer = some k → k < s.settings.stallTimeout) :
    s.sampleMotion (steadyLine a) (steadyLine b) (steadyLine c) = s.integrate := by
  have hdue : ¬s.stallDue = true := fun hd => by
    obtain ⟨-, k, hk, hle⟩ := (stallDue_iff s).1 hd
    have := hlimit k hk
    omega
  unfold State.sampleMotion
  simp only [hsrc, frontEnd_of_settled h, hdue, Bool.false_eq_true, if_false]

/-- A sample in TACH with a rise of TA takes its edge as an anchor (R29). -/
theorem sampleMotion_of_rise {s : State} (hsrc : s.settings.source = .tach) (hfilter : s.settings.tachFilter ≤ 1)
    (h : s.tracker.decoder = .settled false false false) :
    s.sampleMotion (steadyLine true) (steadyLine false) (steadyLine false) =
      s.risen.tachAnchor { net := 1, last := some true } true := by
  unfold State.sampleMotion
  simp only [hsrc, frontEnd_of_rise hfilter h]

/-! ## The edges of a sample (R29, R30, R32) -/

/-- The first edge of an UNREFERENCED tracker sets the estimate origin and restarts the stall timer (R32, R35). -/
theorem tachAnchor_of_unreferenced {s : State} (hstate : s.tracker.state = .unreferenced)
    (horigin : s.tracker.origin = none) (tally : EdgeTally) (forward : Bool) :
    s.tachAnchor tally forward =
      s.mapTracker fun t => { t with stallTimer := some 0, origin := some ⟨t.count, 0⟩ } := by
  unfold State.tachAnchor State.tachEstimate
  simp only [State.mapTracker_tracker, horigin]
  exact if_pos hstate

/-- A forward edge in MOVING forms the estimate and takes its transition by the anchor rule (R29, R30, R32). -/
theorem tachAnchor_of_moving {s : State} {o : EstimateOrigin} (hstate : s.tracker.state = .moving)
    (horigin : s.tracker.origin = some o) (tally : EdgeTally) :
    (s.tachAnchor tally true).tracker = { s.tracker with
      stallTimer := some 0
      spd := clampSpeed s.nominal (estimate true (if o.net + tally.net < 1 then 1 else o.net + tally.net)
        s.settings.edges (max 1 (samplesFrom o.sample s.tracker.count)))
      origin := some ⟨s.tracker.count, 0⟩
      pos := anchored s.settings.standard s.tracker.pos
        (transitionPos s.settings.standard s.settings.edges s.tracker.phase) true
      lastAnchor := anchored s.settings.standard s.tracker.pos
        (transitionPos s.settings.standard s.settings.edges s.tracker.phase) true } := by
  obtain ⟨g, hg⟩ := setSpeed_setOrigin_eq (s.mapTracker fun t => { t with stallTimer := some 0 })
    (estimate true (if o.net + tally.net < 1 then 1 else o.net + tally.net) s.settings.edges
      (max 1 (samplesFrom o.sample s.tracker.count)))
  unfold State.tachAnchor State.tachEstimate
  simp only [State.mapTracker_tracker, State.mapTracker_settings, horigin, if_true, hg]
  rw [if_neg (by simp [hstate]), anchor_tracker (by exact hstate)]
  rfl

/-! ## The end of a coast (R36) -/

/-- Short of the limit a coast goes on. -/
theorem coastEnd_of_within {s : State} {limit : Nat}
    (h : (s.settings.standard.dist s.tracker.pos s.tracker.lastAnchor).natAbs < limit * 2 ^ 32) :
    s.coastEnd limit = s := by
  have hunits : frameUnits = 2 ^ 32 := by norm_num [frameUnits]
  exact if_neg (by rw [hunits]; omega)

/-- What a stop leaves as it is in a quiet part, and what it changes. -/
theorem coastEnd_of_reached {s : State} (hq : s.quiet) {limit : Nat}
    (h : limit * 2 ^ 32 ≤ (s.settings.standard.dist s.tracker.pos s.tracker.lastAnchor).natAbs) :
    (s.coastEnd limit).tracker = { s.tracker with spd := 0, state := .stopped }
      ∧ (s.coastEnd limit).settings = s.settings ∧ KeepsStill s (s.coastEnd limit)
      ∧ (s.coastEnd limit).hasFlag .lockLost = true := by
  have hunits : frameUnits = 2 ^ 32 := by norm_num [frameUnits]
  have hend : s.coastEnd limit = (s.raise .lockLost).enterStopped .lockLost .lockLost :=
    if_pos (by rw [hunits]; exact h)
  have hquiet := enterStopped_quiet (s := s.raise .lockLost) hq .lockLost .lockLost
  have hspared : SparesTracker ((s.raise .lockLost).mapTracker fun t => { t with spd := 0, state := .stopped })
      ((s.raise .lockLost).enterStopped .lockLost .lockLost) := by
    rw [hquiet]
    exact (noteTracker_sparesTracker _ _).trans (formCode_sparesTracker _ _ _)
  have hstill : KeepsStill ((s.raise .lockLost).mapTracker fun t => { t with spd := 0, state := .stopped })
      ((s.raise .lockLost).enterStopped .lockLost .lockLost) := by
    rw [hquiet]
    exact (post_keepsStill _ _).trans (formCode_keepsStill _ _ _)
  rw [hend]
  exact ⟨hspared.tracker, hspared.settings, ⟨hstill.lanes, hstill.table, hstill.log⟩,
    (enterStopped_evolves _ _ _).hasFlag (hasFlag_raise s .lockLost)⟩

end Sys2Proof.Machine

/-! O54: one word-clock sample, by source and state. -/

namespace Sys2Proof.Machine

/-- A record that is formed with a Spd other than 0 is not HOLD (R143). -/
theorem codeOut_of_moving (std : Standard) (frame : Nat) {spd : Int} (h : spd ≠ 0) :
    codeOut std frame spd = ⟨frameToLabel std frame, std.isDrop, false, decide (spd < 0)⟩ := by
  simp [codeOut, h]

/-- The tracker with one forward edge of TA taken, before its anchor (R25, R32, R35). -/
def Tracker.edged (t : Tracker) (cells : Nat) : Tracker :=
  { t with
    phase := (t.phase + 1) % cells, stallTimer := some 0, origin := some ⟨t.count, 0⟩
    decoder := .settled true false false }

section Sample

variable {s : State} (hclk : s.tracker.clockLost = false) (hbegun : s.tracker.sampleBegun = false)

include hclk hbegun

/-! ## LOCAL (R31, R42, R44, R45) -/

/-- A sample in LOCAL under OFF: Pos steps, and a new frame brings its records (R31, R44, R144). -/
theorem sample_in_local (hsrc : s.settings.source = .localGen) (hstate : s.tracker.state = .moving)
    (hspd : s.tracker.spd ≠ 0) (hidle : ∀ i, (s.lane i).state = .idle) (hq : s.quiet)
    (hoff : s.settings.cycleAction = .off) (ta tb tz : BitVec 16) :
    ∃ f, exec (.wordClockSample ta tb tz) s =
        .next { s with tracker := { s.tracker.begun.sampled with pos := s.steppedPos }, feeds := f }
      ∧ s.feeds.paced f
      ∧ (frameOf s.steppedPos = frameOf s.tracker.pos → f.ovlSending = s.feeds.ovlSending
        ∧ f.ovlHolding = s.feeds.ovlHolding ∧ f.coutSending = s.feeds.coutSending
        ∧ f.coutWaiting = s.feeds.coutWaiting ∧ f.holdTimer = s.feeds.holdTimer.map (· + 1))
      ∧ (frameOf s.steppedPos ≠ frameOf s.tracker.pos → f.holdTimer = some 0
        ∧ (s.feeds.coutSending = none → f.coutSending = some ⟨frameToLabel s.settings.standard (frameOf s.steppedPos),
            s.settings.standard.isDrop, false, decide (s.tracker.spd < 0)⟩)
        ∧ (s.feeds.ovlSending = none →
            f.ovlSending.map (·.label) = some (frameToLabel s.settings.standard (frameOf s.steppedPos)))) := by
  obtain ⟨g, hrecords, sends, same, new⟩ :=
    boundaryRecords_of_local (s := s.begun.mapTracker fun t => { t with pos := s.steppedPos }) hsrc s.tracker.pos
  have hmotion : s.begun.sampleMotion ta tb tz =
      (s.begun.mapTracker fun t => { t with pos := s.steppedPos }).mapFeeds g :=
    (sampleMotion_of_local (s := s.begun) hsrc hstate ta tb tz).trans
      ((integrateLocal_of_off (s := s.begun) hidle hq hstate hspd hoff).trans hrecords)
  obtain ⟨f, hexec, toned⟩ := sample_of_motion hclk hbegun hmotion
  refine ⟨f, hexec, (SendsOnly.trans ⟨rfl, rfl, rfl⟩ sends).paced toned, fun hframe => ?_, fun hframe => ?_⟩
  · have hkept : g s.feeds.begun = s.feeds.begun := same hframe.symm
    have kept : Toned s.feeds.begun f := by rwa [hkept] at toned
    exact ⟨kept.ovlSending, kept.ovlHolding, kept.coutSending, kept.coutWaiting, kept.holdTimer⟩
  · obtain ⟨hhold, hcout, hovl⟩ := new (Ne.symm hframe)
    exact ⟨toned.holdTimer.trans hhold,
      fun h => (toned.coutSending.trans (hcout h)).trans (congrArg some (codeOut_of_moving _ _ hspd)),
      fun h => congrArg (Option.map (·.label)) (toned.ovlSending.trans (hovl h))⟩

/-- A step in LOCAL that crosses the end of the cycle window, by the cycle action (R45). -/
theorem sample_of_crossing (hsrc : s.settings.source = .localGen) (hstate : s.tracker.state = .moving)
    (hspd : s.tracker.spd ≠ 0) (hcross : s.crossing s.tracker.pos s.steppedPos) (ta tb tz : BitVec 16) :
    ∃ t, exec (.wordClockSample ta tb tz) s = .next t
      ∧ (s.settings.cycleAction = .off ∨ s.settings.cycleAction = .notify →
        t.tracker = { s.tracker.begun.sampled with pos := s.steppedPos })
      ∧ (s.settings.cycleAction = .wrap → t.tracker = { s.tracker.begun.sampled with
          pos := s.settings.standard.into
            (s.settings.cycleStart + s.settings.standard.dist s.steppedPos s.settings.cycleEnd) })
      ∧ (s.settings.cycleAction = .halt →
        t.tracker = { s.tracker.begun.sampled with pos := s.settings.cycleEnd, spd := 0, state := .stopped }
          ∧ t.settings.localRatio = 0) := by
  obtain ⟨t, hexec, htracker, hsettings, -, -⟩ := exec_sample hclk hbegun ta tb tz
  rw [sampleMotion_of_local (s := s.begun) hsrc hstate] at htracker hsettings
  refine ⟨t, hexec, fun h => ?_, fun h => ?_, fun h => ?_⟩
  · rw [htracker, crossing_tracker_of_off_or_notify (s := s.begun) hstate hspd hcross h]
    rfl
  · rw [htracker, crossing_tracker_of_wrap (s := s.begun) hstate hspd hcross h]
    rfl
  · obtain ⟨hstops, hratio⟩ := haltAt_stops s.begun s.settings.cycleEnd
    rw [htracker, hsettings, integrateLocal_of_halt (s := s.begun) hstate hspd hcross h]
    exact ⟨congrArg Tracker.sampled hstops, hratio⟩

/-! ## CODE and TACH (R31, R36) -/

/-- A tracker at rest in CODE holds Pos (R31). -/
theorem sample_at_rest (hsrc : s.settings.source = .codeIn)
    (hrest : s.tracker.state = .unreferenced ∨ s.tracker.state = .stopped) (hdrop : s.tracker.dropoutTimer = none)
    (ta tb tz : BitVec 16) :
    ∃ f, exec (.wordClockSample ta tb tz) s = .next { s with tracker := s.tracker.begun.sampled, feeds := f }
      ∧ s.feeds.paced f := by
  have hmotion : s.begun.sampleMotion ta tb tz = (s.begun.mapTracker id).mapFeeds id :=
    (sampleMotion_of_code (s := s.begun) hsrc rfl (by simp [State.begun, Tracker.begun, hdrop]) ta tb tz).trans
      (integrate_of_rest (s := s.begun) hrest)
  obtain ⟨f, hexec, toned⟩ := sample_of_motion hclk hbegun hmotion
  exact ⟨f, hexec, SendsOnly.paced (f := s.feeds) (g := s.feeds.begun) ⟨rfl, rfl, rfl⟩ toned⟩

section Integration

variable (hidle : ∀ i, (s.lane i).state = .idle) (hq : s.quiet) (hoff : s.settings.cycleAction = .off)

include hidle hq hoff

/-- A sample in MOVING in CODE steps between the frames about the last anchor (R30, R31). -/
theorem sample_moving_in_code (hsrc : s.settings.source = .codeIn) (hstate : s.tracker.state = .moving)
    (hspd : s.tracker.spd ≠ 0) (hlimit : ∀ k, s.tracker.dropoutTimer = some k → k + 1 < s.dropoutTimeout)
    (ta tb tz : BitVec 16) :
    ∃ f, exec (.wordClockSample ta tb tz) s = .next { s with
        tracker := { s.tracker.begun.sampled with
          pos := s.stepWithin (s.settings.standard.into (s.tracker.lastAnchor + 2 ^ 32 - 1))
            (s.settings.standard.into (s.tracker.lastAnchor - 2 ^ 32 + 1)) }
        feeds := f }
      ∧ s.feeds.paced f := by
  have hlimit' (k : Nat) (hk : s.begun.tracker.dropoutTimer = some k) : k < s.begun.dropoutTimeout := by
    obtain ⟨j, hj, rfl⟩ := Option.map_eq_some_iff.1 hk
    exact hlimit j hj
  have hmotion := (sampleMotion_of_code (s := s.begun) hsrc rfl hlimit' ta tb tz).trans
    (integrate_of_moving (s := s.begun) hidle hq hoff hstate hspd)
  rw [clampedStep_of_code (s := s.begun) hsrc] at hmotion
  exact sample_of_boundary hclk hbegun hmotion

/-- A sample in MOVING in TACH without an edge steps between the transitions about the last anchor (R30, R31). -/
theorem sample_moving_in_tach (hsrc : s.settings.source = .tach) (hstate : s.tracker.state = .moving)
    (hspd : s.tracker.spd ≠ 0) {a b c : Bool} (hlines : s.tracker.decoder = .settled a b c)
    (hlimit : ∀ k, s.tracker.stallTimer = some k → k + 1 < s.settings.stallTimeout) :
    ∃ f, exec (.wordClockSample (steadyLine a) (steadyLine b) (steadyLine c)) s = .next { s with
        tracker := { s.tracker.begun.sampled with
          pos := s.stepWithin
            (s.settings.standard.into
              (nextTransition s.settings.standard s.settings.edges s.tracker.lastAnchor - 1 : Int))
            (s.settings.standard.into
              (previousTransition s.settings.standard s.settings.edges s.tracker.lastAnchor + 1 : Int)) }
        feeds := f }
      ∧ s.feeds.paced f := by
  have hlimit' (k : Nat) (hk : s.begun.tracker.stallTimer = some k) : k < s.begun.settings.stallTimeout := by
    obtain ⟨j, hj, rfl⟩ := Option.map_eq_some_iff.1 hk
    exact hlimit j hj
  have hmotion := (sampleMotion_of_settled (s := s.begun) hsrc hlines hlimit').trans
    (integrate_of_moving (s := s.begun) hidle hq hoff hstate hspd)
  rw [clampedStep_of_tach (s := s.begun) hsrc] at hmotion
  exact sample_of_boundary hclk hbegun hmotion

/-- A coast steps unclamped, and ends at the coast limit from the last anchor (R36). -/
theorem sample_in_coast (hsrc : s.settings.source = .codeIn) (hstate : s.tracker.state = .coasting)
    (hdrop : s.tracker.dropoutTimer = none) (ta tb tz : BitVec 16) :
    ((s.settings.standard.dist s.steppedPos s.tracker.lastAnchor).natAbs < s.settings.coastLimit * 2 ^ 32 →
      ∃ f, exec (.wordClockSample ta tb tz) s =
          .next { s with tracker := { s.tracker.begun.sampled with pos := s.steppedPos }, feeds := f }
        ∧ s.feeds.paced f)
    ∧ (s.settings.coastLimit * 2 ^ 32 ≤ (s.settings.standard.dist s.steppedPos s.tracker.lastAnchor).natAbs →
      ∃ t, exec (.wordClockSample ta tb tz) s = .next t
        ∧ t.tracker = { s.tracker.begun.sampled with pos := s.steppedPos, spd := 0, state := .stopped }
        ∧ t.hasFlag .lockLost = true ∧ t.settings = s.settings ∧ KeepsStill s t) := by
  have hmotion := (sampleMotion_of_code (s := s.begun) hsrc rfl
    (by simp [State.begun, Tracker.begun, hdrop]) ta tb tz).trans
      (integrate_of_coasting (s := s.begun) hidle hq hoff hstate)
  obtain ⟨g, hg, -⟩ := boundaryRecords_eq (s.begun.mapTracker fun t => { t with pos := s.steppedPos }) s.tracker.pos
  refine ⟨fun h => sample_of_boundary hclk hbegun (hmotion.trans (coastEnd_of_within ?_)), fun h => ?_⟩
  · exact hg ▸ h
  · obtain ⟨t, hexec, htracker, hsettings, hstill, hlink⟩ := exec_sample hclk hbegun ta tb tz
    obtain ⟨hstops, hset, hkeeps, hflag⟩ := coastEnd_of_reached
      (s := (s.begun.mapTracker fun t => { t with pos := s.steppedPos }).mapFeeds g) hq h
    rw [hmotion.trans (congrArg (State.coastEnd · _) hg)] at htracker hsettings hstill hlink
    have hflag' : t.hasFlag .lockLost = true := by
      rw [State.hasFlag, hlink]
      exact hflag
    have still := hkeeps.trans hstill
    exact ⟨t, hexec, htracker.trans (congrArg Tracker.sampled hstops), hflag', hsettings.trans hset,
      ⟨still.lanes, still.table, still.log⟩⟩

end Integration

/-! ## A rise of TA (R25, R29, R30, R32) -/

section Rise

variable (hsrc : s.settings.source = .tach) (hfilter : s.settings.tachFilter ≤ 1)
  (hlines : s.tracker.decoder = .settled false false false)

include hsrc hfilter hlines

/-- The first edge of an UNREFERENCED tracker is counted and sets the origin, and Pos holds (R25, R32). -/
theorem sample_of_firstRise (hstate : s.tracker.state = .unreferenced) (horigin : s.tracker.origin = none) :
    ∃ f, exec (.wordClockSample (steadyLine true) (steadyLine false) (steadyLine false)) s =
        .next { s with tracker := (s.tracker.begun.edged s.phaseCells).sampled, feeds := f }
      ∧ s.feeds.paced f := by
  have hmotion := (sampleMotion_of_rise (s := s.begun) hsrc hfilter hlines).trans
    (tachAnchor_of_unreferenced (s := s.begun.risen) hstate horigin _ true)
  obtain ⟨f, hexec, toned⟩ := sample_of_motion hclk hbegun (f := (·.edged s.phaseCells)) (g := id) hmotion
  exact ⟨f, hexec, SendsOnly.paced (f := s.feeds) (g := s.feeds.begun) ⟨rfl, rfl, rfl⟩ toned⟩

/-- An edge in MOVING forms the estimate since the origin and takes its transition by the anchor rule (R29, R30, R32). -/
theorem sample_of_rise {o : EstimateOrigin} (hstate : s.tracker.state = .moving) (horigin : s.tracker.origin = some o) :
    let a := transitionPos s.settings.standard s.settings.edges ((s.tracker.phase + 1) % s.phaseCells)
    let p := if 0 ≤ s.settings.standard.dist a s.tracker.pos then a else s.tracker.pos
    ∃ t, exec (.wordClockSample (steadyLine true) (steadyLine false) (steadyLine false)) s = .next t
      ∧ t.tracker = { (s.tracker.begun.edged s.phaseCells).sampled with
          spd := clampSpeed s.nominal (2 ^ 32 * max 1 (o.net + 1) /
            (s.settings.edges * max 1 (samplesFrom o.sample (s.tracker.count + 1)) : Nat))
          pos := p, lastAnchor := p } := by
  obtain ⟨t, hexec, htracker, -⟩ := exec_sample hclk hbegun (steadyLine true) (steadyLine false) (steadyLine false)
  have hmax : (if o.net + 1 < 1 then 1 else o.net + 1) = max 1 (o.net + 1) := by split <;> omega
  have hanchor := tachAnchor_of_moving (s := s.begun.risen) hstate horigin { net := 1, last := some true }
  rw [hmax, estimate_forward (by omega)] at hanchor
  rw [sampleMotion_of_rise (s := s.begun) hsrc hfilter hlines, hanchor] at htracker
  exact ⟨t, hexec, htracker⟩

end Rise

end Sample

/-- Settles O54, clause by clause: in LOCAL, at the end of the cycle window, at rest, in MOVING in CODE and TACH, in
COASTING, and at an edge. -/
theorem wordClockSampleMoves : Obligations.WordClockSampleMoves := by
  intro s ta tb tz hclk hbegun
  refine ⟨fun hsrc hstate hspd hidle hq hoff => sample_in_local hclk hbegun hsrc hstate hspd hidle hq hoff ta tb tz,
    fun hstep hcross => ?_,
    fun hsrc hrest hdrop _ => sample_at_rest hclk hbegun hsrc hrest hdrop ta tb tz,
    fun hoff hidle hq _ => ⟨fun hsrc hstate hspd hlimit => ?_, fun a b c hsrc hstate hspd hlines hlimit => ?_,
      fun hsrc hstate hdrop => ?_⟩,
    fun hsrc hfilter hlines => ⟨fun hstate horigin => ?_, fun o hstate horigin => ?_⟩⟩
  · obtain ⟨-, -, hsrc, hstate, hspd⟩ := hstep
    obtain ⟨t, hexec, htaken, hwrap, hhalt⟩ := sample_of_crossing hclk hbegun hsrc hstate hspd hcross ta tb tz
    refine ⟨t, hexec, ?_⟩
    split
    · rename_i h
      rw [htaken (.inl h)]
      exact ⟨rfl, hstate, rfl⟩
    · rename_i h
      rw [htaken (.inr h)]
      exact ⟨rfl, hstate, rfl⟩
    · rename_i h
      rw [hwrap h]
      exact ⟨rfl, hstate, rfl⟩
    · rename_i h
      obtain ⟨hstops, hratio⟩ := hhalt h
      rw [hstops]
      exact ⟨rfl, rfl, rfl, hratio⟩
  · exact sample_moving_in_code hclk hbegun hidle hq hoff hsrc hstate hspd hlimit ta tb tz
  · exact sample_moving_in_tach hclk hbegun hidle hq hoff hsrc hstate hspd hlines hlimit
  · obtain ⟨hwithin, hreached⟩ := sample_in_coast hclk hbegun hidle hq hoff hsrc hstate hdrop ta tb tz
    refine ⟨hwithin, fun h => ?_⟩
    obtain ⟨t, hexec, htracker, hflag, hset, hlanes, htable, hlog⟩ := hreached h
    exact ⟨t, hexec, htracker, hflag, hset, htable, hlanes, hlog⟩
  · exact sample_of_firstRise hclk hbegun hsrc hfilter hlines hstate horigin
  · exact sample_of_rise hclk hbegun hsrc hfilter hlines hstate horigin

end Sys2Proof.Machine

/-! What every step keeps of the cue table (R52, R54 to R57), and the part after power-on. -/

namespace Sys2Proof.Machine

/-- Settles O7: power-on reset empties the table, and every other command keeps it legal and its labels unique. -/
theorem stepKeepsTheCueTableLegal : Obligations.StepKeepsTheCueTableLegal := by
  intro s t hs h
  rcases step_eq_next h with rfl | ⟨c, rest, hx⟩
  · exact ⟨id, id⟩
  · by_cases hp : c = .powerOnReset
    · subst hp
      cases hx
      exact ⟨fun _ => powerOn_contents _, fun _ => powerOn_labels _⟩
    · have keeps := exec_keeps hp hx
      exact ⟨keeps.contents hs, keeps.labels hs⟩

end Sys2Proof.Machine

/-! The expansion of a cue: which events it has, and the order in which its queue holds them (R76, R80, R81). -/

namespace Sys2Proof.Machine

/-! ## Positions reduced into the day (R3) -/

/-- A position of the day is its own reduction (R3). -/
theorem into_of_lt {std : Standard} {x : Nat} (h : x < std.dayLength) : std.into x = x := by
  unfold Standard.into
  rw [Int.emod_eq_of_lt (by omega) (by omega)]
  rfl

/-- The distance forward from one reduced position to another that lies `d` ahead, days apart or not (R81). -/
theorem forwardFrom_into {std : Standard} {z y m : Int} {d : Nat} (hz : z = y + d + m * std.dayLength)
    (hd : d < std.dayLength) : forwardFrom std (std.into y) (std.into z) = d := by
  have hy : ((std.into y : Nat) : Int) = y % std.dayLength := Int.toNat_of_nonneg
    (Int.emod_nonneg _ (by have := dayLength_pos std; omega))
  unfold forwardFrom
  rw [sub_eq_add_neg, into_into_add, hy, ← into_of_lt hd]
  unfold Standard.into
  rw [← sub_eq_add_neg, Int.sub_emod_emod, hz, show y + d + m * std.dayLength - y = d + m * std.dayLength by ring,
    Int.add_mul_emod_self_right]

/-- Two positions differ by their signed distance and whole days (R4). -/
theorem eq_add_dist (std : Standard) (x y : Nat) : ∃ m : Int, (x : Int) = y + std.dist x y + m * std.dayLength := by
  refine ⟨((x : Int) - y + std.dayLength / 2) / std.dayLength, ?_⟩
  have h := Int.emod_add_mul_ediv ((x : Int) - y + std.dayLength / 2) std.dayLength
  unfold Standard.dist
  linarith

/-! ## Queue order (R81) -/

/-- What queue order compares: the forward distance from the cue's origin, then the place among equals (R81). -/
theorem eventBefore_iff {std : Standard} {origin : Nat} {a b : Event} :
    eventBefore std origin a b = true ↔
      forwardFrom std origin a.target < forwardFrom std origin b.target
        ∨ (forwardFrom std origin a.target = forwardFrom std origin b.target ∧ a.kind.rank ≤ b.kind.rank) := by
  simp [eventBefore]

/-- Putting events in one by one, each into its place. -/
theorem insertEvent_eq (std : Standard) (origin : Nat) (e : Event) (q : List Event) :
    insertEvent std origin e q = q.orderedInsert (fun a b => eventBefore std origin a b = true) e := by
  induction q with
  | nil => rfl
  | cons f q ih => simp only [insertEvent, List.orderedInsert_cons, ih]

theorem insertEvents_perm (std : Standard) (origin : Nat) (events q : List Event) :
    (events.foldl (fun q e => insertEvent std origin e q) q).Perm (events ++ q) := by
  induction events generalizing q with
  | nil => exact .refl q
  | cons e events ih =>
    rw [List.foldl_cons, List.cons_append]
    refine (ih _).trans (((List.Perm.append_left events ?_)).trans List.perm_middle)
    rw [insertEvent_eq]
    exact List.perm_orderedInsert _ e q

theorem insertEvents_pairwise (std : Standard) (origin : Nat) (events : List Event) {q : List Event}
    (hq : q.Pairwise fun a b => eventBefore std origin a b = true) :
    (events.foldl (fun q e => insertEvent std origin e q) q).Pairwise
      fun a b => eventBefore std origin a b = true := by
  have total : Std.Total fun a b => eventBefore std origin a b = true :=
    ⟨fun a b => by simp only [eventBefore_iff]; omega⟩
  have trans : IsTrans Event fun a b => eventBefore std origin a b = true :=
    ⟨fun a b c => by simp only [eventBefore_iff]; omega⟩
  induction events generalizing q with
  | nil => exact hq
  | cons e events ih =>
    rw [List.foldl_cons]
    refine ih ?_
    rw [insertEvent_eq]
    exact hq.orderedInsert e q

/-- A queue holds the events of its cue, each as often as the cue has it (R80). -/
theorem expandCue_perm (std : Standard) (c : Contents) (lead : Nat) :
    (expandCue std c lead).Perm (cueEvents std c lead) := by
  have h := insertEvents_perm std (c.originPos std lead) (cueEvents std c lead) []
  rwa [List.append_nil] at h

/-- A queue stands in the order of R81. -/
theorem expandCue_pairwise (std : Standard) (c : Contents) (lead : Nat) :
    (expandCue std c lead).Pairwise fun a b => eventBefore std (c.originPos std lead) a b = true :=
  insertEvents_pairwise _ _ _ .nil

/-! ## The events of a cue (R80) -/

/-- The streamer's two events, for a cue that has a streamer (R80). -/
def Contents.streamerEvents (std : Standard) (c : Contents) : List Event :=
  if c.streamer > 0 then
    [⟨.streamerStart, 0, std.into ((c.inPoint : Int) - (c.streamer * frameUnits : Nat))⟩,
     ⟨.streamerEnd, 0, c.inPoint⟩]
  else []

/-- The two events of each beep (R80). -/
def Contents.allBeeps (std : Standard) (c : Contents) : List Event :=
  ((List.range c.beepCount).map fun k => beepEvents std c (k + 1)).flatten

/-- The PUNCH_IN of a cue that records (R80). -/
def Contents.punchIns (std : Standard) (c : Contents) (lead : Nat) : List Event :=
  if c.record then [⟨.punchIn, 0, std.into ((c.inPoint : Int) - lead)⟩] else []

/-- What ends a cue that has an end: its PUNCH_OUT when it records, and its CUE_END (R80). -/
def Contents.endEvents (std : Standard) (c : Contents) (lead : Nat) : List Event :=
  match c.endPos std with
  | none => []
  | some last => (if c.record then [⟨.punchOut, 0, std.into ((last : Int) - lead)⟩] else []) ++ [⟨.cueEnd, 0, last⟩]

theorem cueEvents_eq (std : Standard) (c : Contents) (lead : Nat) :
    cueEvents std c lead = c.streamerEvents std ++ c.allBeeps std ++ c.punchIns std lead ++ c.endEvents std lead := rfl

variable {std : Standard} {c : Contents} {lead : Nat} {e : Event}

theorem mem_streamerEvents : e ∈ c.streamerEvents std ↔
    c.streamer > 0 ∧ (e = ⟨.streamerStart, 0, std.into (c.inPoint - c.streamer * 2 ^ 32 : Int)⟩
      ∨ e = ⟨.streamerEnd, 0, c.inPoint⟩) := by
  unfold Contents.streamerEvents
  split <;> simp_all [frameUnits]

theorem beepEvents_eq (std : Standard) (c : Contents) (k : Nat) :
    beepEvents std c k =
      [⟨.beepOn, k, std.into (c.inPoint - k * c.beepSpacing * 2 ^ 32 : Int)⟩,
       ⟨.beepOff, k, std.into (c.inPoint - k * c.beepSpacing * 2 ^ 32 + c.beepLength * 2 ^ 32 : Int)⟩] := by
  simp only [beepEvents, frameUnits, Nat.cast_mul, Nat.cast_ofNat, into_into_add]
  norm_num

theorem mem_allBeeps : e ∈ c.allBeeps std ↔
    ∃ k, 1 ≤ k ∧ k ≤ c.beepCount ∧ (e = ⟨.beepOn, k, std.into (c.inPoint - k * c.beepSpacing * 2 ^ 32 : Int)⟩
      ∨ e = ⟨.beepOff, k, std.into (c.inPoint - k * c.beepSpacing * 2 ^ 32 + c.beepLength * 2 ^ 32 : Int)⟩) := by
  simp only [Contents.allBeeps, beepEvents_eq, List.mem_flatten, List.mem_map, List.mem_range,
    exists_exists_and_eq_and, List.mem_cons, List.not_mem_nil, or_false]
  constructor
  · rintro ⟨k, hk, he⟩
    exact ⟨k + 1, by omega, by omega, he⟩
  · rintro ⟨k, h1, hk, he⟩
    obtain ⟨j, rfl⟩ : ∃ j, k = j + 1 := ⟨k - 1, by omega⟩
    exact ⟨j, by omega, he⟩

theorem mem_punchIns : e ∈ c.punchIns std lead ↔
    c.record = true ∧ e = ⟨.punchIn, 0, std.into (c.inPoint - lead : Int)⟩ := by
  unfold Contents.punchIns
  split <;> simp_all

theorem endEvents_of_out {out : Nat} (h : c.outPoint = some out) : c.endEvents std lead =
    (if c.record then
      [⟨.punchOut, 0, std.into ((std.into ((out : Int) + (c.tail * frameUnits : Nat)) : Nat) - lead : Int)⟩]
      else []) ++ [⟨.cueEnd, 0, std.into ((out : Int) + (c.tail * frameUnits : Nat))⟩] := by
  simp only [Contents.endEvents, Contents.endPos, h]
  rfl

theorem mem_endEvents : e ∈ c.endEvents std lead ↔ ∃ out, c.outPoint = some out
    ∧ (c.record = true ∧ e = ⟨.punchOut, 0, std.into (out + c.tail * 2 ^ 32 - lead : Int)⟩
      ∨ e = ⟨.cueEnd, 0, std.into (out + c.tail * 2 ^ 32 : Int)⟩) := by
  cases hout : c.outPoint with
  | none => simp [Contents.endEvents, Contents.endPos, hout]
  | some out =>
    simp only [endEvents_of_out hout, Option.some.injEq, exists_eq_left', sub_eq_add_neg, into_into_add]
    split <;> simp_all [frameUnits]

/-- The events that a cue has, with their targets (R80). -/
theorem mem_cueEvents : e ∈ cueEvents std c lead ↔
    (c.streamer > 0 ∧ (e = ⟨.streamerStart, 0, std.into (c.inPoint - c.streamer * 2 ^ 32 : Int)⟩
        ∨ e = ⟨.streamerEnd, 0, c.inPoint⟩))
    ∨ (∃ k, 1 ≤ k ∧ k ≤ c.beepCount ∧ (e = ⟨.beepOn, k, std.into (c.inPoint - k * c.beepSpacing * 2 ^ 32 : Int)⟩
        ∨ e = ⟨.beepOff, k, std.into (c.inPoint - k * c.beepSpacing * 2 ^ 32 + c.beepLength * 2 ^ 32 : Int)⟩))
    ∨ (c.record = true ∧ e = ⟨.punchIn, 0, std.into (c.inPoint - lead : Int)⟩)
    ∨ ∃ out, c.outPoint = some out
      ∧ (c.record = true ∧ e = ⟨.punchOut, 0, std.into (out + c.tail * 2 ^ 32 - lead : Int)⟩
        ∨ e = ⟨.cueEnd, 0, std.into (out + c.tail * 2 ^ 32 : Int)⟩) := by
  simp only [cueEvents_eq, List.mem_append, mem_streamerEvents, mem_allBeeps, mem_punchIns, mem_endEvents, or_assoc]

theorem allBeeps_nodup (std : Standard) (c : Contents) : (c.allBeeps std).Nodup := by
  refine List.nodup_flatten.2 ⟨fun l hl => ?_, ?_⟩
  · obtain ⟨k, -, rfl⟩ := List.mem_map.1 hl
    simp [beepEvents]
  · refine List.pairwise_map.2 (List.nodup_range.imp fun {a b} hab => ?_)
    simp [beepEvents, List.disjoint_left, hab]

theorem endEvents_nodup (std : Standard) (c : Contents) (lead : Nat) : (c.endEvents std lead).Nodup := by
  unfold Contents.endEvents
  split
  · exact .nil
  · split <;> simp

/-- A cue has each of its events once (R80). -/
theorem cueEvents_nodup (std : Standard) (c : Contents) (lead : Nat) : (cueEvents std c lead).Nodup := by
  have streamer : (c.streamerEvents std).Nodup := by
    unfold Contents.streamerEvents
    split <;> simp
  have punchIn : (c.punchIns std lead).Nodup := by
    unfold Contents.punchIns
    split <;> simp
  rw [cueEvents_eq]
  refine (((streamer.append (allBeeps_nodup std c) ?_).append punchIn ?_).append (endEvents_nodup std c lead) ?_)
  all_goals
    intro e h h'
    simp only [List.mem_append, mem_streamerEvents, mem_allBeeps, mem_punchIns, mem_endEvents] at h h'
    grind

/-! ## The order of a cue's events (R54, R76, R80, R81) -/

/-- The punch lead is below four frames (R8, R76, R152). -/
theorem punchLead_le {latency : Nat} (h : latency ≤ 4095) (std : Standard) (pd : Bool) (rate : SampleRate) :
    punchLead latency (nominalSpeed std pd rate) ≤ 4 * 2 ^ 32 := by
  have hn : nominalSpeed std pd rate ≤ 2684355 := by cases std <;> cases pd <;> cases rate <;> decide
  have h0 := nominalSpeed_pos std pd rate
  have hl : (latency : Int) * nominalSpeed std pd rate ≤ 4095 * 2684355 :=
    mul_le_mul (by omega) hn h0.le (by norm_num)
  unfold punchLead
  omega

/-- The pre-roll covers the streamer, every beep, and the punch lead of a cue that records (R76). -/
theorem le_preRoll (c : Contents) (lead : Nat) :
    c.streamer * 2 ^ 32 ≤ c.preRoll lead ∧ c.beepCount * c.beepSpacing * 2 ^ 32 ≤ c.preRoll lead
      ∧ (c.record = true → lead ≤ c.preRoll lead) := by
  unfold Contents.preRoll
  refine ⟨le_max_left _ _, le_max_of_le_right (le_max_left _ _), fun h => ?_⟩
  rw [if_pos h]
  exact le_max_of_le_right (le_max_right _ _)

/-- The pre-roll of legal contents is at most 192 frames (R52, R76). -/
theorem preRoll_le (h : c.legal std) (hlead : lead ≤ 4 * 2 ^ 32) : c.preRoll lead ≤ 192 * 2 ^ 32 := by
  obtain ⟨-, -, hstreamer, hcount, -, hspacing, -⟩ := h
  have hbeeps : c.beepCount * c.beepSpacing ≤ 4 * 48 := Nat.mul_le_mul hcount hspacing
  have hu : frameUnits = 2 ^ 32 := rfl
  unfold Contents.preRoll
  rw [hu]
  refine max_le (by omega) (max_le (by omega) ?_)
  split <;> omega

/-- The forward distance of each event from the origin of a legal cue: all but the end events lie within the pre-roll,
and the end events beyond it by the span and the tail (R76, R80, R81). -/
theorem forward_of_mem (h : c.legal std) (hlead : lead ≤ 4 * 2 ^ 32) (he : e ∈ cueEvents std c lead) :
    (e.kind ≠ .punchOut → e.kind ≠ .cueEnd → forwardFrom std (c.originPos std lead) e.target ≤ c.preRoll lead)
    ∧ (e.kind = .punchIn → lead ≤ c.preRoll lead
        ∧ forwardFrom std (c.originPos std lead) e.target = c.preRoll lead - lead)
    ∧ ((e.kind = .punchOut ∨ e.kind = .cueEnd) → ∃ out, c.outPoint = some out ∧ 0 < std.dist out c.inPoint
        ∧ forwardFrom std (c.originPos std lead) e.target =
          c.preRoll lead + (std.dist out c.inPoint).toNat + c.tail * 2 ^ 32
            - (if e.kind = .punchOut then lead else 0)) := by
  have hroll := preRoll_le h hlead
  obtain ⟨hstreamer, hbeeps, hrecord⟩ := le_preRoll c lead
  obtain ⟨hin, -, -, -, hsp, -, hlen, -, hlensp, htail, hspan⟩ := h
  have hday : 2073600 * 2 ^ 32 ≤ std.dayLength := by cases std <;> decide
  have near {z : Int} {d : Nat} (hz : z = (c.inPoint : Int) - c.preRoll lead + d) (hd : d ≤ c.preRoll lead) :
      forwardFrom std (c.originPos std lead) (std.into z) = d :=
    forwardFrom_into (m := 0) (by rw [hz]; ring) (by omega)
  rcases mem_cueEvents.1 he with ⟨-, rfl | rfl⟩ | ⟨k, h1, hk, hbeep⟩ | ⟨hr, rfl⟩ | ⟨out, hout, hend⟩
  · refine ⟨fun _ _ => ?_, nofun, nofun⟩
    rw [near (d := c.preRoll lead - c.streamer * 2 ^ 32) (by omega) (by omega)]
    omega
  · refine ⟨fun _ _ => ?_, nofun, nofun⟩
    dsimp only
    rw [← into_of_lt hin, near (d := c.preRoll lead) (by ring) le_rfl]
  · have hks : k * c.beepSpacing * 2 ^ 32 ≤ c.preRoll lead :=
      (Nat.mul_le_mul_right _ (Nat.mul_le_mul_right _ hk)).trans hbeeps
    have hls : c.beepLength * 2 ^ 32 ≤ k * c.beepSpacing * 2 ^ 32 :=
      Nat.mul_le_mul_right _ (hlensp.le.trans (Nat.le_mul_of_pos_left _ h1))
    rcases hbeep with rfl | rfl
    · refine ⟨fun _ _ => ?_, nofun, nofun⟩
      rw [near (d := c.preRoll lead - k * c.beepSpacing * 2 ^ 32) (by omega) (by omega)]
      omega
    · refine ⟨fun _ _ => ?_, nofun, nofun⟩
      rw [near (d := c.preRoll lead - k * c.beepSpacing * 2 ^ 32 + c.beepLength * 2 ^ 32)
        (by omega) (by omega)]
      omega
  · have hl := hrecord hr
    refine ⟨fun _ _ => ?_, fun _ => ⟨hl, ?_⟩, nofun⟩
    · rw [near (d := c.preRoll lead - lead) (by omega) (by omega)]
      omega
    · exact near (by omega) (by omega)
  · simp only [Contents.spanOk, hout, decide_eq_true_eq] at hspan
    have hlimit : (std.spanLimit : Int) ≤ 9000 * 2 ^ 32 := by cases std <;> decide
    obtain ⟨m, hm⟩ := eq_add_dist std out c.inPoint
    have hdist : ((std.dist out c.inPoint).toNat : Int) = std.dist out c.inPoint := Int.toNat_of_nonneg hspan.1.le
    have far {z : Int} {d : Nat} (hz : z = (out : Int) + c.tail * 2 ^ 32 - d) (hd : d ≤ c.preRoll lead) :
        forwardFrom std (c.originPos std lead) (std.into z) =
          c.preRoll lead + (std.dist out c.inPoint).toNat + c.tail * 2 ^ 32 - d := by
      refine forwardFrom_into (m := m) ?_ (by omega)
      rw [hz, hm]
      omega
    rcases hend with ⟨hr, rfl⟩ | rfl
    · refine ⟨fun hne => absurd rfl hne, nofun, fun _ => ⟨out, hout, hspan.1, ?_⟩⟩
      exact far rfl (hrecord hr)
    · refine ⟨fun _ hne => absurd rfl hne, nofun, fun _ => ⟨out, hout, hspan.1, ?_⟩⟩
      exact far (z := out + c.tail * 2 ^ 32) (d := 0) (by simp) (Nat.zero_le _)

/-- Two events of one cue that are both a PUNCH_IN, or both a CUE_END, are the same event (R80). -/
theorem cueEvents_unique {a b : Event} (ha : a ∈ cueEvents std c lead) (hb : b ∈ cueEvents std c lead)
    (hk : a.kind = b.kind) (h : a.kind = .punchIn ∨ a.kind = .cueEnd) : a = b := by
  rw [mem_cueEvents] at ha hb
  grind

/-- The events of a legal cue stand in the order of a cue (R80, R81). -/
theorem cueOrdered_expandCue (h : c.legal std) (hlead : lead ≤ 4 * 2 ^ 32) : cueOrdered (expandCue std c lead) := by
  have mem (x : Event) : x ∈ expandCue std c lead ↔ x ∈ cueEvents std c lead := (expandCue_perm std c lead).mem_iff
  refine ⟨?_, ?_⟩
  · have nodup : (expandCue std c lead).Nodup := (expandCue_perm std c lead).nodup_iff.2 (cueEvents_nodup std c lead)
    refine ((expandCue_pairwise std c lead).and nodup).imp_of_mem fun {a b} ha hb => ?_
    rintro ⟨hab, hne⟩
    rw [mem] at ha hb
    obtain ⟨nearA, inA, endA⟩ := forward_of_mem h hlead ha
    obtain ⟨nearB, inB, endB⟩ := forward_of_mem h hlead hb
    rw [eventBefore_iff] at hab
    refine ⟨fun hk => ?_, fun hk => ⟨fun hk' => ?_, fun hk' => ?_⟩⟩
    · obtain ⟨out, hout, hpos, hA⟩ := endA (.inr hk)
      have hbe : b.kind ≠ .cueEnd := fun hkb => hne (cueEvents_unique ha hb (hk.trans hkb.symm) (.inr hk))
      rw [hA] at hab
      simp only [hk, reduceCtorEq, if_false] at hab
      by_cases hbo : b.kind = .punchOut
      · obtain ⟨out', hout', -, hB⟩ := endB (.inl hbo)
        obtain rfl : out = out' := Option.some.inj (hout.symm.trans hout')
        rw [hB] at hab
        simp only [hbo, if_true, EventKind.rank] at hab
        omega
      · have := nearB hbo hbe
        omega
    · exact hne (cueEvents_unique ha hb (hk'.trans hk.symm) (.inl hk'))
    · obtain ⟨out, -, hpos, hA⟩ := endA (.inl hk')
      obtain ⟨hlp, hB⟩ := inB hk
      rw [hA, hB] at hab
      rw [if_pos hk'] at hab
      omega
  · rintro ⟨a, ha, hka⟩ ⟨b, hb, hkb⟩
    rw [mem, mem_cueEvents] at ha hb
    have hr : c.record = true := by grind
    obtain ⟨out, hout⟩ : ∃ out, c.outPoint = some out := by grind
    exact ⟨_, (mem _).2 (mem_cueEvents.2 (.inr (.inr (.inr ⟨out, hout, .inl ⟨hr, rfl⟩⟩)))), rfl⟩

end Sys2Proof.Machine

/-! Expansion counts and the lanes at work (R59, R92), and takes and the lanes that hold them (R102, R120). -/

namespace Sys2Proof.Machine

/-! ## Expansion counts (R59, R92) -/

/-- The expansion count of slot `n` in a table, 0 for an EMPTY slot (R59). -/
def expansionsAt (t : CueTable) (n : Nat) : Nat := ((slotAt t n).map Slot.expansions).getD 0

theorem expansionsOf_eq (s : State) (n : Nat) : s.expansionsOf n = expansionsAt s.table n := by
  unfold State.expansionsOf expansionsAt
  cases slotAt s.table n <;> rfl

/-- Every expansion count equals the number of lanes that work the slot, where `work` says what each lane works. -/
def Counted (t : CueTable) (work : LaneId → Option Nat) : Prop :=
  ∀ n, expansionsAt t n = ∑ j : Fin 8, if work j = some n then 1 else 0

/-- What each lane works, with the lane `out` left out: it has let its cue go and not yet gone on (R59, R86). -/
def State.works (s : State) (out : Option LaneId) (j : LaneId) : Option Nat :=
  if out = some j then none else (s.lane j).currentSlot

theorem expansionsSound_iff (s : State) : s.expansionsSound ↔ Counted s.table (s.works none) := by
  have workers (n : Nat) : s.workedBy n = ∑ j : Fin 8, if s.works none j = some n then 1 else 0 := by
    rw [State.workedBy, length_filter_sum, Fin.sum_univ_eight]
    simp only [laneIds, List.map_cons, List.map_nil, List.sum_cons, List.sum_nil, decide_eq_true_eq, State.works,
      reduceCtorEq, if_false]
    omega
  exact forall_congr' fun n => by rw [expansionsOf_eq, workers]

/-- The lanes that work a slot when one lane goes over to another slot. -/
theorem workers_update (work : LaneId → Option Nat) (i : LaneId) (x : Option Nat) (n : Nat) :
    (∑ j : Fin 8, if Function.update work i x j = some n then 1 else 0) + (if work i = some n then 1 else 0)
      = (∑ j : Fin 8, if work j = some n then 1 else 0) + (if x = some n then 1 else 0) := by
  have rest : ∑ j ∈ Finset.univ.erase i, (if Function.update work i x j = some n then 1 else 0)
      = ∑ j ∈ Finset.univ.erase i, (if work j = some n then 1 else 0) :=
    Finset.sum_congr rfl fun j hj => by rw [Function.update_of_ne (Finset.ne_of_mem_erase hj)]
  rw [← Finset.add_sum_erase _ _ (Finset.mem_univ i),
    ← Finset.add_sum_erase Finset.univ (fun j => if work j = some n then 1 else 0) (Finset.mem_univ i), rest,
    Function.update_self]
  omega

/-- The expansion counts after a change of one slot that changes its count by `g`. -/
theorem expansionsAt_changeSlot {t : CueTable} (hw : tableWf t = true) {n : Nat} {f : Slot → Slot} {g : Nat → Nat}
    (hf : ∀ v, (f v).expansions = g v.expansions) (m : Nat) :
    expansionsAt (changeSlot t n f) m = if m = n ∧ (slotAt t m).isSome = true then g (expansionsAt t m)
      else expansionsAt t m := by
  unfold expansionsAt
  rw [slotAt_changeSlot hw]
  by_cases hm : m = n
  · cases slotAt t m <;> simp [hm, hf]
  · simp [hm]

/-- A change of one slot that keeps its expansion count. -/
theorem expansionsAt_changeSlot_same {t : CueTable} (hw : tableWf t = true) {n : Nat} {f : Slot → Slot}
    (hf : ∀ v, (f v).expansions = v.expansions) (m : Nat) : expansionsAt (changeSlot t n f) m = expansionsAt t m := by
  rw [expansionsAt_changeSlot hw (g := id) hf, id, ite_self]

theorem Slot.promote_expansions (v : Slot) : v.promote.expansions = v.expansions := by
  unfold Slot.promote
  split <;> rfl

theorem Slot.drop_expansions (v : Slot) : v.drop.expansions = v.expansions - 1 := by
  unfold Slot.drop
  dsimp only
  split
  · rw [Slot.promote_expansions]
  · rfl

/-- A lane that works nothing takes the expansion of a DEFINED slot (R59). -/
theorem Counted.take {t : CueTable} {work : LaneId → Option Nat} (h : Counted t work) (hw : tableWf t = true)
    {i : LaneId} (hi : work i = none) {n : Nat} (hn : (slotAt t n).isSome = true) :
    Counted (changeSlot t n Slot.take) (Function.update work i (some n)) := by
  intro m
  have hm := h m
  have workers := workers_update work i (some n) m
  rw [expansionsAt_changeSlot hw (f := Slot.take) (g := (· + 1)) fun _ => rfl]
  rw [hi, if_neg (by simp)] at workers
  by_cases hmn : m = n
  · subst hmn
    simp only [hn, and_self, if_true] at workers ⊢
    omega
  · rw [if_neg fun e => hmn e.1]
    rw [if_neg fun e => hmn (Option.some.inj e).symm] at workers
    omega

/-- A lane drops the expansion of the slot it works (R59). -/
theorem Counted.drop {t : CueTable} {work : LaneId → Option Nat} (h : Counted t work) (hw : tableWf t = true)
    {i : LaneId} {n : Nat} (hi : work i = some n) :
    Counted (changeSlot t n Slot.drop) (Function.update work i none) := by
  intro m
  have hm := h m
  have workers := workers_update work i none m
  rw [expansionsAt_changeSlot hw (f := Slot.drop) (g := (· - 1)) Slot.drop_expansions]
  rw [hi, if_neg (show ¬(none : Option Nat) = some m by simp)] at workers
  by_cases hmn : m = n
  · subst hmn
    rw [if_pos rfl] at workers
    have hdef : (slotAt t m).isSome = true := by
      by_contra hnone
      have : expansionsAt t m = 0 := by simp_all [expansionsAt]
      omega
    rw [if_pos ⟨rfl, hdef⟩]
    omega
  · rw [if_neg fun e => hmn e.1]
    rw [if_neg fun e => hmn (Option.some.inj e).symm] at workers
    omega

/-- Right counts depend on the counts of the slots and on what the lanes work. -/
theorem Counted.congr {t u : CueTable} {work work' : LaneId → Option Nat} (h : Counted t work)
    (ht : ∀ n, expansionsAt u n = expansionsAt t n) (hw : ∀ j, work' j = work j) : Counted u work' := by
  intro n
  rw [ht, h n]
  simp only [hw]

/-- A slot that a run list names is DEFINED (R58). -/
theorem defined_of_named {s : State} (h : s.refsSound) {i : LaneId} {n : Nat} (hn : n ∈ (s.lane i).runList) :
    (slotAt s.table n).isSome = true := by
  have named : 1 ≤ s.namedBy n := by
    rw [namedBy_eq_sum]
    calc 1 = (if n ∈ (s.lane i).runList then 1 else 0) := by rw [if_pos hn]
      _ ≤ _ := Finset.single_le_sum (f := fun j => if n ∈ (s.lane j).runList then 1 else 0)
          (fun _ _ => Nat.zero_le _) (Finset.mem_univ i)
  have refs := h.1 n
  rw [refsOf_eq] at refs
  cases hs : slotAt s.table n with
  | some v => rfl
  | none =>
    rw [hs] at refs
    simp only [Option.map_none, Option.getD_none] at refs
    omega

/-- The slot of a lane's current cue is one of its run list (R74). -/
theorem Lane.currentSlot_mem {l : Lane} {n : Nat} (h : l.currentSlot = some n) : n ∈ l.runList := by
  unfold Lane.currentSlot at h
  split at h
  · exact List.mem_of_getElem? h
  · cases h
  · cases h

theorem Lane.currentSlot_armed {l : Lane} {n : Nat} (h : l.currentSlot = some n) : l.state = .armed := by
  unfold Lane.currentSlot at h
  split at h
  · assumption
  · cases h
  · cases h

theorem Lane.currentSlot_of_not_armed {l : Lane} (h : l.state ≠ .armed) : l.currentSlot = none := by
  unfold Lane.currentSlot
  split
  · exact absurd ‹_› h
  · rfl
  · rfl

/-! ## The parts of a sound state (R51, R64, R120) -/

theorem State.sound.table {s : State} (h : s.sound) : tableWf s.table = true := h.1

theorem State.sound.lane {s : State} (h : s.sound) : ∀ i, (s.lane i).sound := h.2.1

theorem State.sound.link {s : State} (h : s.sound) : s.link.sound := h.2.2.1

theorem State.sound.log {s : State} (h : s.sound) : s.log.sound := h.2.2.2

/-! ## Takes and lanes (R102, R120) -/

/-- The serials of a run, counted back from its newest end: the record `k` from the end carries `next` less `k + 1`. -/
theorem serialsRun_getElem {next : BitVec 16} {l : List Take} (h : serialsRun next l) (k : Nat) (hk : k < l.length) :
    l[k].serial + BitVec.ofNat 16 (l.length - k) = next := by
  induction l generalizing k with
  | nil => simp at hk
  | cons t l ih =>
    have tail := ih (serialsRun_tail h)
    cases k with
    | succ k => simpa using tail k (by simpa using hk)
    | zero =>
      cases l with
      | nil => simpa [serialsRun] using h
      | cons u l =>
        have first := tail 0 (by simp)
        simp only [List.getElem_cons_zero, List.length_cons, Nat.sub_zero] at first ⊢
        rw [← first, ← h.1, BitVec.add_assoc]
        congr 1
        apply BitVec.eq_of_toNat_eq
        simp
        omega

/-- No two records of a log carry the same serial (R120). -/
theorem serials_nodup {g : TakeLog} (h : g.sound) : (g.records.map Take.serial).Nodup := by
  obtain ⟨hlen, hrun⟩ := h
  simp only [Config.takeLogSize] at hlen
  rw [List.nodup_iff_injective_get]
  intro a b hab
  have ha := serialsRun_getElem hrun a.1 (by simpa using a.2)
  have hb := serialsRun_getElem hrun b.1 (by simpa using b.2)
  have ha' := a.2
  have hb' := b.2
  simp only [List.length_map] at ha' hb'
  simp only [List.get_eq_getElem, List.getElem_map] at hab
  rw [hab, ← hb] at ha
  have := congrArg BitVec.toNat (BitVec.add_right_inj _ |>.1 ha)
  simp only [BitVec.toNat_ofNat] at this
  apply Fin.ext
  omega

/-- Two records of a log with the same serial are one record (R120). -/
theorem record_eq_of_serial {g : TakeLog} (h : g.sound) {a b : Take} (ha : a ∈ g.records) (hb : b ∈ g.records)
    (hab : a.serial = b.serial) : a = b :=
  List.inj_on_of_nodup_map (serials_nodup h) ha hb hab

variable {s t : State}

/-- Takes and lanes agree by the handles and the records alone. -/
theorem takesSound_congr (hlog : t.log = s.log) (hopen : ∀ j, (t.lane j).openTake = (s.lane j).openTake)
    (h : s.takesSound) : t.takesSound := by
  unfold State.takesSound at h ⊢
  simpa only [hlog, hopen] using h

/-- Takes and lanes agree after a change of the records that keeps their serials, their lanes and which are OPEN. -/
theorem takesSound_mapRecords {f : Take → Take} (hf : ∀ r, (f r).serial = r.serial ∧ (f r).lane = r.lane
      ∧ ((f r).closing = none ↔ r.closing = none)) (h : s.takesSound) :
    (s.mapLog fun g => { g with records := g.records.map f }).takesSound := by
  obtain ⟨held, opened, apart⟩ := h
  refine ⟨fun i n hn => ?_, fun r hr hc => ?_, ?_⟩
  · obtain ⟨r, hr, h1, h2, h3⟩ := held i n hn
    obtain ⟨f1, f2, f3⟩ := hf r
    exact ⟨f r, List.mem_map_of_mem hr, f1.trans h1, f2.trans h2, f3.2 h3⟩
  · obtain ⟨r0, hr0, rfl⟩ := List.mem_map.1 hr
    obtain ⟨f1, f2, f3⟩ := hf r0
    rw [f1, f2]
    exact opened r0 hr0 (f3.1 hc)
  · refine List.pairwise_map.2 (apart.imp fun {a b} hab ha hb => ?_)
    obtain ⟨-, a2, a3⟩ := hf a
    obtain ⟨-, b2, b3⟩ := hf b
    rw [a2, b2]
    exact hab (a3.1 ha) (b3.1 hb)

/-- A lane that closes its take keeps takes and lanes in agreement (R107, R126). -/
theorem ClosesLane.takesSound {c : Closing} {g : Lane → Lane} {i : LaneId} (h : ClosesLane c g i s t)
    (hg : (g (s.lane i)).openTake = none) (hs : s.log.sound) (ht : s.takesSound) : t.takesSound := by
  obtain ⟨held, opened, apart⟩ := ht
  have own : (t.lane i).openTake = none := by rw [h.own, hg]
  unfold State.takesSound
  rw [h.log]
  refine ⟨fun j n hn => ?_, fun r hr hc => ?_, ?_⟩
  · have hji : j ≠ i := fun e => by rw [e, own] at hn; cases hn
    rw [h.others j hji] at hn
    obtain ⟨r, hr, h1, h2, h3⟩ := held j n hn
    refine ⟨r, List.mem_map.2 ⟨r, hr, if_neg fun hi => ?_⟩, h1, h2, h3⟩
    obtain ⟨q, hq, q1, q2, -⟩ := held i _ hi
    exact hji (by rw [← h2, ← q2, record_eq_of_serial hs hr hq q1.symm])
  · obtain ⟨r0, hr0, rfl⟩ := List.mem_map.1 hr
    split at hc
    · cases hc
    · rename_i hne
      rw [if_neg hne]
      have hr0i : r0.lane ≠ i := fun e => hne (e ▸ opened r0 hr0 hc)
      rw [h.others _ hr0i]
      exact opened r0 hr0 hc
  · refine List.pairwise_map.2 (apart.imp fun {a b} hab ha hb => ?_)
    split at ha
    · cases ha
    · split at hb
      · cases hb
      · rename_i ha' hb'
        rw [if_neg ha', if_neg hb']
        exact hab ha hb

/-- A lane without a take that is granted one keeps takes and lanes in agreement (R103, R121). -/
theorem takesSound_grant {i : LaneId} {r : Take} (hr : r.lane = i ∧ r.closing = none)
    (hlog : t.log.records = s.log.records ++ [r]) (own : (t.lane i).openTake = some r.serial)
    (others : ∀ j, j ≠ i → (t.lane j).openTake = (s.lane j).openTake) (hi : (s.lane i).openTake = none)
    (h : s.takesSound) : t.takesSound := by
  obtain ⟨held, opened, apart⟩ := h
  have old (q : Take) (hq : q ∈ s.log.records) (hc : q.closing = none) : q.lane ≠ i := fun e => by
    have := opened q hq hc
    rw [e, hi] at this
    cases this
  unfold State.takesSound
  rw [hlog]
  refine ⟨fun j n hn => ?_, fun q hq hc => ?_, ?_⟩
  · by_cases hj : j = i
    · subst hj
      exact ⟨r, by simp, Option.some.inj (own.symm.trans hn), hr⟩
    · obtain ⟨q, hq, h1⟩ := held j n (others j hj ▸ hn)
      exact ⟨q, List.mem_append_left _ hq, h1⟩
  · rcases List.mem_append.1 hq with hq | hq
    · rw [others _ (old q hq hc)]
      exact opened q hq hc
    · rw [List.mem_singleton.1 hq, hr.1]
      exact own
  · refine List.pairwise_append.2 ⟨apart, List.pairwise_singleton _ _, fun a ha b hb hac _ => ?_⟩
    rw [List.mem_singleton.1 hb, hr.1]
    exact old a ha hac

end Sys2Proof.Machine

/-! The work of the lanes, step by step: how each operation of chapters 4 to 6 keeps takes, counts and cues in order
(R59, R80 to R82, R86 to R108). -/

namespace Sys2Proof.Machine

/-! ## A lane between two steps (R82, R98, R99) -/

/-- A lane in ARMED that has retired `events` in all and still has the actions `rs` to take: its events stand in the
order of a cue, those to act upon on top of the stack, and with an open take no PUNCH_OUT lies below them. -/
def Lane.acting (events : List Event) (rs : List Retirement) (l : Lane) : Prop :=
  l.state = .armed ∧ cueOrdered l.line ∧ (l.openTake.isSome = true → ∃ e ∈ l.line, e.kind = .punchIn)
    ∧ l.stack.map (·.event) = events ∧ ∃ done : List Event, events = (rs.map (·.retired.event)).reverse ++ done
      ∧ (l.openTake.isSome = true → ∀ e ∈ done, e.kind ≠ .punchOut)

/-- No PUNCH_OUT has retired, said of the events of the stack. -/
theorem noPunchOut_iff (l : Lane) :
    (∀ r ∈ l.stack, r.event.kind ≠ .punchOut) ↔ ∀ e ∈ l.stack.map (·.event), e.kind ≠ .punchOut := by
  simp only [List.mem_map, forall_exists_index, and_imp, forall_apply_eq_imp_iff₂]

/-- A lane with no action left works its cue in order. -/
theorem Lane.acting.cueSound {l : Lane} {events : List Event} (h : l.acting events []) : l.cueSound := by
  obtain ⟨harmed, hline, hin, hstack, done, rfl, hout⟩ := h
  refine ⟨fun hne => absurd harmed hne, hline, fun ho => ⟨hin ho, (noPunchOut_iff l).2 ?_⟩⟩
  rw [hstack]
  exact hout ho

/-- Changes of a lane that keep its state and its events and close its take, if they touch it. -/
theorem Lane.cueSound.same {l m : Lane} (h : l.cueSound) (hs : m.state = l.state) (hq : m.queue = l.queue)
    (he : m.stack.map (·.event) = l.stack.map (·.event)) (ho : m.openTake = none ∨ m.openTake = l.openTake) :
    m.cueSound := by
  obtain ⟨hidle, hline, htake⟩ := h
  have line : m.line = l.line := by rw [Lane.line, Lane.line, he, hq]
  refine ⟨fun hne => ?_, line ▸ hline, fun hm => ?_⟩
  · rcases ho with ho | ho
    · exact ho
    · rw [ho]; exact hidle (hs ▸ hne)
  · rcases ho with ho | ho
    · rw [ho] at hm; cases hm
    · rw [ho] at hm
      rw [line, noPunchOut_iff, he, ← noPunchOut_iff]
      exact htake hm

/-- An action that leaves the lane's state and events, and opens a take on a PUNCH_IN at most. -/
theorem Lane.acting.next {l m : Lane} {events : List Event} {r : Retirement} {rs : List Retirement}
    (h : l.acting events (r :: rs))
    (hs : m.state = l.state) (hq : m.queue = l.queue) (he : m.stack.map (·.event) = l.stack.map (·.event))
    (ho : m.openTake = none ∨ (m.openTake = l.openTake ∧ r.retired.event.kind ≠ .punchOut)
      ∨ r.retired.event.kind = .punchIn) : m.acting events rs := by
  obtain ⟨harmed, hline, hin, hevents, done, hstack, hout⟩ := h
  have line : m.line = l.line := by rw [Lane.line, Lane.line, he, hq]
  have all := he.trans hevents
  simp only [List.map_cons, List.reverse_cons, List.append_assoc, List.singleton_append] at hstack
  rw [hstack] at hevents
  have mem : r.retired.event ∈ l.line := by
    rw [Lane.line, hevents]
    simp
  have below (hk : r.retired.event.kind = .punchIn) : ∀ e ∈ done, e.kind ≠ .punchOut := by
    have pairs := hline.1
    simp only [Lane.line, hevents, List.reverse_append, List.reverse_cons, List.reverse_reverse, List.append_assoc,
      List.cons_append] at pairs
    intro e he
    exact ((List.pairwise_append.1 pairs).2.2 e (by simpa using he) _ (by simp)).2 hk |>.2
  refine ⟨hs.trans harmed, line ▸ hline, fun hm => line ▸ ?_, all, r.retired.event :: done, hstack, fun hm => ?_⟩
  · rcases ho with ho | ⟨ho, -⟩ | hk
    · rw [ho] at hm; cases hm
    · exact hin (ho ▸ hm)
    · exact ⟨_, mem, hk⟩
  · rintro e (_ | ⟨_, he⟩) hk
    · rcases ho with ho | ⟨-, hne⟩ | hk'
      · rw [ho] at hm; cases hm
      · exact hne hk
      · rw [hk] at hk'; cases hk'
    · rcases ho with ho | ⟨ho, -⟩ | hk'
      · rw [ho] at hm; cases hm
      · exact hout (ho ▸ hm) e he hk
      · exact below hk' e he hk

/-- A lane whose CUE_END has retired has no open take: its PUNCH_OUT has retired before (R80, R81, R108). -/
theorem Lane.cueSound.openTake_none {l : Lane} (h : l.cueSound) (he : ∃ e ∈ l.stack.map (·.event), e.kind = .cueEnd) :
    l.openTake = none := by
  obtain ⟨-, ⟨pairs, ends⟩, htake⟩ := h
  by_contra hne
  obtain ⟨hin, hout⟩ := htake (Option.isSome_iff_ne_none.2 hne)
  obtain ⟨c, hc, hk⟩ := he
  obtain ⟨p, hp, hpk⟩ := ends hin ⟨c, List.mem_append_left _ (List.mem_reverse.2 hc), hk⟩
  rw [noPunchOut_iff] at hout
  rcases List.mem_append.1 hp with hp | hp
  · exact hout p (List.mem_reverse.1 hp) hpk
  · exact ((List.pairwise_append.1 pairs).2.2 c (List.mem_reverse.2 hc) p hp).1 hk

/-- A lane that holds no event and no take works its cue in order. -/
theorem Lane.cueSound_of_empty {l : Lane} (hq : l.queue = []) (hs : l.stack = []) (ho : l.openTake = none) :
    l.cueSound := by
  have line : l.line = [] := by rw [Lane.line, hq, hs]; rfl
  refine ⟨fun _ => ho, ?_, fun h => ?_⟩
  · rw [line]
    exact ⟨.nil, fun ⟨_, h, _⟩ => by cases h⟩
  · rw [ho] at h; cases h

/-! ## A part at work -/

/-- A sound part at work. Takes and lanes agree if `takes` asks for it; run lists and counts are right, the lane `out`
left out, if `counts` does; and every slot is legal and every lane as `own` says if `cues` does. -/
structure Orderly (takes counts cues : Prop) (own : LaneId → Lane → Prop) (out : Option LaneId) (s : State) :
    Prop where
  sound : s.sound
  takesSound : takes → s.takesSound
  refsSound : counts → s.refsSound
  counted : counts → Counted s.table (s.works out)
  contentsSound : cues → s.contentsSound
  latency : cues → s.settings.recorderLatency ≤ 4095
  lanes : cues → ∀ j, own j (s.lane j)

/-- A part at work between two updates of its lanes: every lane works its cue in order. -/
abbrev InOrder (takes counts cues : Prop) (s : State) : Prop :=
  Orderly takes counts cues (fun _ => Lane.cueSound) none s

namespace Orderly

variable {takes counts cues : Prop} {own own' : LaneId → Lane → Prop} {out : Option LaneId} {s t : State}

/-- What changes neither a lane nor the log nor the table, and is sound. -/
theorem still (h : Orderly takes counts cues own out s) (e : Evolves s t) (k : KeepsStill s t)
    (hg : t.settings = s.settings) : Orderly takes counts cues own out t where
  sound := e.keeps.sound h.sound
  takesSound a := takesSound_congr k.log (fun j => by rw [k.lane]) (h.takesSound a)
  refsSound b := e.keeps.refs h.sound (h.refsSound b)
  counted b := (h.counted b).congr (fun n => by rw [k.table]) fun j => by simp only [State.works, k.lane]
  contentsSound c := e.keeps.contents h.sound (h.contentsSound c)
  latency c := hg ▸ h.latency c
  lanes c j := (k.lane j).symm ▸ h.lanes c j

/-- A step of the lanes that leaves every take, every run list and what every lane works. -/
theorem laneStep (h : Orderly takes counts cues own out s) (e : Evolves s t) (g : SparesTracker s t)
    (hlog : t.log = s.log) (htable : ∀ n, expansionsAt t.table n = expansionsAt s.table n)
    (hopen : ∀ j, (t.lane j).openTake = (s.lane j).openTake)
    (hwork : ∀ j, (t.lane j).currentSlot = (s.lane j).currentSlot)
    (hown : cues → ∀ j, own' j (t.lane j)) : Orderly takes counts cues own' out t where
  sound := e.keeps.sound h.sound
  takesSound a := takesSound_congr hlog hopen (h.takesSound a)
  refsSound b := e.keeps.refs h.sound (h.refsSound b)
  counted b := (h.counted b).congr htable fun j => by simp only [State.works, hwork]
  contentsSound c := e.keeps.contents h.sound (h.contentsSound c)
  latency c := g.settings ▸ h.latency c
  lanes := hown

/-- What changes none of the blocks that the order of a part is about. -/
theorem elsewhere (h : Orderly takes counts cues own out s) (htable : t.table = s.table) (hlanes : t.lanes = s.lanes)
    (hlog : t.log = s.log) (hsettings : t.settings = s.settings) (hlink : t.link = s.link) :
    Orderly takes counts cues own out t := by
  obtain ⟨tracker, table, lanes, log, feeds, settings, link, service, occasion, pending⟩ := t
  cases htable
  cases hlanes
  cases hlog
  cases hsettings
  cases hlink
  exact ⟨h.sound, h.takesSound, h.refsSound, h.counted, h.contentsSound, h.latency, h.lanes⟩

theorem mapTracker (h : Orderly takes counts cues own out s) (f : Tracker → Tracker) :
    Orderly takes counts cues own out (s.mapTracker f) := h.elsewhere rfl rfl rfl rfl rfl

theorem mapFeeds (h : Orderly takes counts cues own out s) (f : Feeds → Feeds) :
    Orderly takes counts cues own out (s.mapFeeds f) := h.elsewhere rfl rfl rfl rfl rfl

theorem withService (h : Orderly takes counts cues own out s) (level : Bool) :
    Orderly takes counts cues own out (s.withService level) := h.elsewhere rfl rfl rfl rfl rfl

theorem withOccasion (h : Orderly takes counts cues own out s) (n : Nat) :
    Orderly takes counts cues own out { s with occasion := n } := h.elsewhere rfl rfl rfl rfl rfl

theorem settleOrder (h : Orderly takes counts cues own out s) :
    Orderly takes counts cues own out s.settleOrder.2 := h.withOccasion _

theorem mapLink (h : Orderly takes counts cues own out s) {f : Link → Link} (hf : s.link.sound → (f s.link).sound) :
    Orderly takes counts cues own out (s.mapLink f) :=
  { h with sound := ⟨h.sound.table, h.sound.lane, hf h.sound.link, h.sound.log⟩ }

/-- A change of the log that keeps its size, its run of serials, and its agreement with the lanes. -/
theorem mapLog (h : Orderly takes counts cues own out s) {f : TakeLog → TakeLog} (hf : s.log.sound → (f s.log).sound)
    (ht : s.takesSound → (s.mapLog f).takesSound) : Orderly takes counts cues own out (s.mapLog f) :=
  { h with
    sound := ⟨h.sound.table, h.sound.lane, h.sound.link, hf h.sound.log⟩
    takesSound := fun a => ht (h.takesSound a) }

/-- A change of the settings that keeps the legality of the table and the range of the recorder latency. -/
theorem mapSettings (h : Orderly takes counts cues own out s) {f : Settings → Settings}
    (hl : s.settings.recorderLatency ≤ 4095 → (f s.settings).recorderLatency ≤ 4095)
    (hc : s.contentsSound → (s.mapSettings f).contentsSound) :
    Orderly takes counts cues own out (s.mapSettings f) :=
  { h with contentsSound := fun c => hc (h.contentsSound c), latency := fun c => hl (h.latency c) }

/-- A change of settings that neither the table nor an expansion depends on. -/
theorem setting (h : Orderly takes counts cues own out s) {f : Settings → Settings}
    (hs : (f s.settings).standard = s.settings.standard)
    (hl : (f s.settings).recorderLatency = s.settings.recorderLatency) :
    Orderly takes counts cues own out (s.mapSettings f) :=
  h.mapSettings (hl ▸ id) fun hc n v hv => by
    simp only [State.mapSettings_settings, hs]
    exact hc n v hv

/-- A change of the records that keeps their serials, their lanes and which are OPEN. -/
theorem mapRecords (h : Orderly takes counts cues own out s) {f : Take → Take}
    (hf : ∀ r, (f r).serial = r.serial ∧ (f r).lane = r.lane ∧ ((f r).closing = none ↔ r.closing = none)) :
    Orderly takes counts cues own out (s.mapLog fun g => { g with records := g.records.map f }) :=
  h.mapLog (fun ⟨hlen, hrun⟩ => ⟨by simpa using hlen, serialsRun_map f (fun r => (hf r).1) hrun⟩)
    (takesSound_mapRecords hf)

theorem ite {c : Prop} [Decidable c] {a b : State} (ha : c → Orderly takes counts cues own out a)
    (hb : ¬c → Orderly takes counts cues own out b) : Orderly takes counts cues own out (if c then a else b) := by
  split
  · exact ha ‹_›
  · exact hb ‹_›

theorem foldl {α : Type} {f : State → α → State}
    (hf : ∀ {s} a, Orderly takes counts cues own out s → Orderly takes counts cues own out (f s a)) (l : List α)
    (h : Orderly takes counts cues own out s) : Orderly takes counts cues own out (l.foldl f s) := by
  induction l generalizing s with
  | nil => exact h
  | cons a l ih => exact ih (hf a h)

/-! ## Flags, notices and feeds -/

theorem post (h : Orderly takes counts cues own out s) (n : Notice) : Orderly takes counts cues own out (s.post n) :=
  h.still (post_evolves s n) (post_keepsStill s n) (post_sparesTracker s n).settings

theorem raise (h : Orderly takes counts cues own out s) (f : Flag) : Orderly takes counts cues own out (s.raise f) :=
  h.mapLink id

theorem raiseFault (h : Orderly takes counts cues own out s) (f : Flag) :
    Orderly takes counts cues own out (s.raiseFault f) := ite (fun _ => h) fun _ => (h.raise f).post _

theorem noteTracker (h : Orderly takes counts cues own out s) (c : TrackerCause) :
    Orderly takes counts cues own out (s.noteTracker c) := h.post _

theorem noteLane (h : Orderly takes counts cues own out s) (i : LaneId) (cause : LaneCause) (state : LaneState)
    (index slot : Nat) (punchIn : Option ExactPos) :
    Orderly takes counts cues own out (s.noteLane i cause state index slot punchIn) := h.post _

theorem formOverlay (h : Orderly takes counts cues own out s) : Orderly takes counts cues own out s.formOverlay :=
  h.mapFeeds _

theorem formCode (h : Orderly takes counts cues own out s) (frame : Nat) (spd : Int) :
    Orderly takes counts cues own out (s.formCode frame spd) := ite (fun _ => h.mapFeeds _) fun _ => h

theorem formHold (h : Orderly takes counts cues own out s) : Orderly takes counts cues own out s.formHold :=
  h.formCode _ _

theorem handFeeds (h : Orderly takes counts cues own out s) (i : LaneId) (b : Bool) :
    Orderly takes counts cues own out (s.handFeeds i b) :=
  ite (fun _ => (h.mapFeeds _).formOverlay) fun _ => h.mapFeeds _

end Orderly

/-! ## Takes (R102 to R108) -/

theorem remarkPunchIn_events (stack : List Retired) : (remarkPunchIn stack).map (·.event) = stack.map (·.event) := by
  unfold remarkPunchIn
  rw [List.map_map]
  refine List.map_congr_left fun r _ => ?_
  simp only [Function.comp]
  split <;> rfl

/-- Closing its take leaves a lane's state, its cue and its events. -/
theorem Lane.closed_spares (l : Lane) (cause : EndCause) :
    (l.closed cause).state = l.state ∧ (l.closed cause).index = l.index ∧ (l.closed cause).queue = l.queue
      ∧ (l.closed cause).stack.map (·.event) = l.stack.map (·.event) := by
  unfold Lane.closed
  split
  · exact ⟨rfl, rfl, rfl, rfl⟩
  · refine ⟨rfl, rfl, rfl, ?_⟩
    dsimp only
    split
    · rfl
    · exact remarkPunchIn_events _

theorem Lane.closed_currentSlot (l : Lane) (cause : EndCause) : (l.closed cause).currentSlot = l.currentSlot := by
  obtain ⟨hstate, hindex, -⟩ := l.closed_spares cause
  unfold Lane.currentSlot
  rw [hstate, hindex, Lane.closed_runList]

theorem ClosesLane.lane {c : Closing} {g : Lane → Lane} {i : LaneId} {s t : State} (h : ClosesLane c g i s t)
    (j : LaneId) : t.lane j = if j = i then g (s.lane j) else s.lane j := by
  split
  · rename_i hj
    rw [hj, h.own]
  · exact h.others j ‹_›

theorem noteLane_keepsStill (s : State) (i : LaneId) (cause : LaneCause) (state : LaneState) (index slot : Nat)
    (punchIn : Option ExactPos) : KeepsStill s (s.noteLane i cause state index slot punchIn) := post_keepsStill _ _

/-- Any number of notices. -/
theorem posts_keepsStill {α : Type} (n : α → Notice) (l : List α) (s : State) :
    KeepsStill s (l.foldl (fun s a => s.post (n a)) s) := by
  induction l generalizing s with
  | nil => exact .refl s
  | cons a l ih => exact (post_keepsStill s _).trans (ih _)

/-- What a grant does to the lanes, the log and the table (R102, R103, R121). -/
theorem grantTake_eq (s : State) (q : TakeRequest) :
    (∀ j, (s.grantTake q).lane j = if j = q.lane then
        { s.lane j with openTake := some s.log.nextSerial, punchLine := true } else s.lane j)
      ∧ (s.grantTake q).log.records = s.log.records ++ [newTake s q]
      ∧ (s.grantTake q).table =
        changeSlot s.table q.slot fun v => { v with takes := (nextTakeNumber v.takes).1 } := by
  have k : KeepsStill _ (s.grantTake q) := post_keepsStill _ _
  refine ⟨fun j => ?_, by rw [k.log]; rfl, k.table⟩
  rw [k.lane, State.lane_mapLane]
  split
  · rename_i hj
    rw [hj]
    rfl
  · rfl

namespace Orderly

variable {takes counts cues : Prop} {own own' : LaneId → Lane → Prop} {out : Option LaneId} {s t : State}

/-- A lane closes its take, if it has one. -/
theorem closeTake' (h : Orderly takes counts cues own out s) (i : LaneId) (pos : Nat) (sample : SampleCount)
    (cause : EndCause) (hown : ∀ j, own j (s.lane j) → own' j (if j = i then (s.lane j).closed cause else s.lane j)) :
    Orderly takes counts cues own' out (s.closeTake i pos sample cause) := by
  have e := closeTake_evolves s i pos sample cause
  have c := closeTake_closesLane s i pos sample cause
  refine ⟨e.keeps.sound h.sound, fun a => c.takesSound (Lane.closed_openTake _ _) h.sound.log (h.takesSound a),
    fun b => e.keeps.refs h.sound (h.refsSound b), fun b => (h.counted b).congr (fun n => by rw [c.table]) fun j => ?_,
    fun q => e.keeps.contents h.sound (h.contentsSound q), fun q => ?_, fun q j => ?_⟩
  · simp only [State.works, c.lane]
    by_cases hj : j = i
    · simp only [hj, if_true, Lane.closed_currentSlot]
    · simp only [hj, if_false]
  · rw [(closeTake_sparesTracker s i pos sample cause).settings]
    exact h.latency q
  · rw [c.lane]
    exact hown j (h.lanes q j)

theorem closeTake (h : InOrder takes counts cues s) (i : LaneId) (pos : Nat) (sample : SampleCount)
    (cause : EndCause) : InOrder takes counts cues (s.closeTake i pos sample cause) := by
  refine closeTake' h i pos sample cause fun j hj => ?_
  split
  · obtain ⟨hs, -, hq, he⟩ := (s.lane j).closed_spares cause
    exact hj.same hs hq he (.inl (Lane.closed_openTake _ _))
  · exact hj

/-- The log grants a record to a lane that holds none. -/
theorem grantTake (h : Orderly takes counts cues own out s) (q : TakeRequest) (hroom : s.logHasRoom = true)
    (hi : (s.lane q.lane).openTake = none)
    (hown : ∀ j, own j (s.lane j) → own' j (if j = q.lane then
      { s.lane j with openTake := some s.log.nextSerial, punchLine := true } else s.lane j)) :
    Orderly takes counts cues own' out (s.grantTake q) := by
  have e := grantTake_evolves s q hroom
  obtain ⟨hlane, hlog, htable⟩ := grantTake_eq s q
  refine ⟨e.keeps.sound h.sound, fun a => ?_, fun b => e.keeps.refs h.sound (h.refsSound b), fun b => ?_,
    fun c => e.keeps.contents h.sound (h.contentsSound c), fun c => ?_, fun c j => ?_⟩
  · refine takesSound_grant (r := newTake s q) (i := q.lane) ⟨rfl, rfl⟩ hlog ?_ (fun j hj => ?_) hi (h.takesSound a)
    · rw [hlane, if_pos rfl]
      rfl
    · rw [hlane, if_neg hj]
  · refine (h.counted b).congr (fun n => ?_) fun j => ?_
    · rw [htable]
      refine expansionsAt_changeSlot_same h.sound.table (fun v => ?_) n
      rfl
    · simp only [State.works, hlane]
      split
      · rfl
      · split <;> rfl
  · rw [(grantTake_sparesTracker s q).settings]
    exact h.latency c
  · rw [hlane]
    exact hown j (h.lanes c j)

/-- A lane asks the log for a record while it holds none. -/
theorem askLog (h : Orderly takes counts cues own out s) (i : LaneId) (slot : Nat) (u : MotionUpdate)
    (r : Retirement) (hi : (s.lane i).openTake = none)
    (hown : ∀ j, own j (s.lane j) → ∀ l : Lane, l.state = (s.lane j).state → l.queue = (s.lane j).queue →
      l.stack.map (·.event) = (s.lane j).stack.map (·.event) →
      (l.openTake = (s.lane j).openTake ∨ j = i) → own' j l) :
    Orderly takes counts cues own' out (s.askLog i slot u r) := by
  unfold State.askLog
  split
  · refine h.grantTake _ ‹_› hi fun j hj => ?_
    split
    · exact hown j hj _ rfl rfl rfl (.inr ‹_›)
    · exact hown j hj _ rfl rfl rfl (.inl rfl)
  · refine (laneStep h (t := s.mapLane i fun l => { l with stack := remarkPunchIn l.stack }) ?_ ⟨rfl, rfl⟩ rfl
      (fun _ => rfl) (fun j => ?_) (fun j => ?_) fun c j => ?_).raise _ |>.post _
    · refine evolves_mapLane s i rfl fun ⟨x, y, z, w⟩ => ⟨fun hne => ?_, y, z, w⟩
      obtain ⟨hq, hs, hx⟩ := x hne
      exact ⟨hq, by simp only [hs]; rfl, hx⟩
    · rw [State.lane_mapLane]
      split
      · rename_i hj; rw [hj]
      · rfl
    · rw [State.lane_mapLane]
      split
      · rename_i hj; rw [hj]; rfl
      · rfl
    · rw [State.lane_mapLane]
      split
      · rename_i hj
        subst hj
        exact hown j (h.lanes c j) _ rfl rfl (remarkPunchIn_events _) (.inl rfl)
      · exact hown j (h.lanes c j) _ rfl rfl rfl (.inl rfl)

end Orderly

/-! ## Restore, retire and act (R97 to R99) -/

/-- Restoring takes events from the top of the stack and none away (R97). -/
theorem restoreSplit_events (std : Standard) (p1 : Nat) (stack : List Retired) :
    (restoreSplit std p1 stack).1 ++ (restoreSplit std p1 stack).2.map (·.event) = stack.map (·.event) := by
  induction stack with
  | nil => rfl
  | cons r rest ih =>
    unfold restoreSplit
    split
    · simp [ih]
    · rfl

/-- Retiring takes events from the head of the queue and none away (R98). -/
theorem retireSplit_events (std : Standard) (p0 p1 : Nat) (live : Bool) (queue : List Event) :
    (retireSplit std p0 p1 live queue).1.map (·.retired.event) ++ (retireSplit std p0 p1 live queue).2 = queue := by
  induction queue with
  | nil => rfl
  | cons e q ih =>
    simp only [retireSplit]
    split
    · split
      · rfl
      · simp [ih]
    · rfl

/-- Lane `i` still has actions to take, and every other lane works its cue in order. -/
def actingOn (i : LaneId) (events : List Event) (rs : List Retirement) (j : LaneId) (l : Lane) : Prop :=
  if j = i then l.acting events rs else l.cueSound

namespace Orderly

variable {takes counts cues : Prop} {s t : State} {i : LaneId}

theorem restoreStep (h : InOrder takes counts cues s) (i : LaneId) (slot : Nat) (u : MotionUpdate) :
    InOrder takes counts cues (s.restoreStep i slot u) := by
  have k : KeepsStill _ (s.restoreStep i slot u) := posts_keepsStill _ _ _
  refine laneStep h (restoreStep_evolves s i slot u) (restoreStep_sparesTracker s i slot u) k.log
    (fun n => by rw [k.table]; rfl) (fun j => ?_) (fun j => ?_) fun c j => ?_
  all_goals rw [k.lane, State.lane_mapLane]
  · split
    · rename_i hj; rw [hj]
    · rfl
  · split
    · rename_i hj; rw [hj]; rfl
    · rfl
  · have hj := h.lanes c j
    split
    · rename_i hji
      subst hji
      obtain ⟨hidle, hline, htake⟩ := hj
      generalize hsplit : restoreSplit s.settings.standard u.p1 (s.lane j).stack = split
      have events := restoreSplit_events s.settings.standard u.p1 (s.lane j).stack
      rw [hsplit] at events
      have line : ({ s.lane j with stack := split.2, queue := split.1.reverse ++ (s.lane j).queue } : Lane).line =
          (s.lane j).line := by
        simp only [Lane.line, ← events, List.reverse_append, List.append_assoc]
      refine ⟨hidle, line ▸ hline, fun ho => ⟨line ▸ (htake ho).1, (noPunchOut_iff _).2 fun e he => ?_⟩⟩
      exact (noPunchOut_iff (s.lane j)).1 (htake ho).2 e (events ▸ List.mem_append_right _ he)
    · exact hj

theorem retireStep (h : InOrder takes counts cues s) (slot : Nat) (u : MotionUpdate) (live : Bool)
    (harmed : (s.lane i).state = .armed) :
    Orderly takes counts cues (actingOn i (((s.retireStep i slot u live).1.map (·.retired.event)).reverse
        ++ (s.lane i).stack.map (·.event)) (s.retireStep i slot u live).1)
      none (s.retireStep i slot u live).2 := by
  have k : KeepsStill _ (s.retireStep i slot u live).2 := posts_keepsStill _ _ _
  refine laneStep h (retireStep_evolves s i slot u live) (retireStep_sparesTracker s i slot u live) k.log
    (fun n => by rw [k.table]; rfl) (fun j => ?_) (fun j => ?_) fun c j => ?_
  all_goals rw [k.lane, State.lane_mapLane]
  · split
    · rename_i hj; rw [hj]
    · rfl
  · split
    · rename_i hj; rw [hj]; rfl
    · rfl
  · have hj := h.lanes c j
    unfold actingOn
    split
    · rename_i hji
      subst hji
      obtain ⟨-, hline, htake⟩ := hj
      have hrs : (s.retireStep j slot u live).1 =
        (retireSplit s.settings.standard u.p0 u.p1 live (s.lane j).queue).1 := rfl
      rw [hrs]
      generalize hsplit : retireSplit s.settings.standard u.p0 u.p1 live (s.lane j).queue = split
      have events := retireSplit_events s.settings.standard u.p0 u.p1 live (s.lane j).queue
      rw [hsplit] at events
      have stack : ((split.1.map (·.retired)).reverse ++ (s.lane j).stack).map (·.event) =
          (split.1.map (·.retired.event)).reverse ++ (s.lane j).stack.map (·.event) := by
        simp [List.map_reverse, Function.comp_def]
      have line : ({ s.lane j with
          stack := (split.1.map (·.retired)).reverse ++ (s.lane j).stack, queue := split.2 } : Lane).line =
          (s.lane j).line := by
        simp only [Lane.line, stack, ← events, List.reverse_append, List.reverse_reverse, List.append_assoc]
      exact ⟨harmed, line ▸ hline, fun ho => line ▸ (htake ho).1, stack, _, rfl,
        fun ho => (noPunchOut_iff (s.lane j)).1 (htake ho).2⟩
    · exact hj

theorem actOn {events : List Event} {r : Retirement} {rs : List Retirement}
    (h : Orderly takes counts cues (actingOn i events (r :: rs)) none s) (slot : Nat) (u : MotionUpdate)
    (mode : EngineMode) : Orderly takes counts cues (actingOn i events rs) none (s.actOn i slot u mode r) := by
  have pass (hk : r.retired.event.kind ≠ .punchOut) : Orderly takes counts cues (actingOn i events rs) none s := by
    refine laneStep h (.refl s) (.refl s) rfl (fun _ => rfl) (fun _ => rfl) (fun _ => rfl) fun c j => ?_
    have hj := h.lanes c j
    unfold actingOn at hj ⊢
    split
    · rw [if_pos ‹_›] at hj
      exact hj.next rfl rfl rfl (.inr (.inl ⟨rfl, hk⟩))
    · rwa [if_neg ‹_›] at hj
  unfold State.actOn
  split
  case h_1 hk =>
    refine ite (fun hc => askLog h i slot u r hc.2.2 fun j hj l hs hq he ho => ?_) fun _ => pass (by simp [hk])
    unfold actingOn at hj ⊢
    split
    · rw [if_pos ‹_›] at hj
      exact hj.next hs hq he (.inr (.inr hk))
    · rw [if_neg ‹_›] at hj
      exact hj.same hs hq he (.inr (ho.resolve_right ‹_›))
  case h_2 hk =>
    refine closeTake' h i u.p1 u.sample .out fun j hj => ?_
    unfold actingOn at hj ⊢
    split
    · rw [if_pos ‹_›] at hj
      obtain ⟨hs, -, hq, he⟩ := (s.lane j).closed_spares .out
      exact hj.next hs hq he (.inl (Lane.closed_openTake _ _))
    · rwa [if_neg ‹_›] at hj
  all_goals exact pass (by simp [*])

theorem actAll {events : List Event} {rs : List Retirement}
    (h : Orderly takes counts cues (actingOn i events rs) none s) (slot : Nat) (u : MotionUpdate) (mode : EngineMode) :
    Orderly takes counts cues (actingOn i events []) none (rs.foldl (fun s r => s.actOn i slot u mode r) s) := by
  induction rs generalizing s with
  | nil => exact h
  | cons r rs ih => exact ih (h.actOn slot u mode)

/-- With no action left every lane works its cue in order. -/
theorem acted {events : List Event} (h : Orderly takes counts cues (actingOn i events []) none s) :
    InOrder takes counts cues s := by
  refine laneStep h (.refl s) (.refl s) rfl (fun _ => rfl) (fun _ => rfl) (fun _ => rfl) fun c j => ?_
  have hj := h.lanes c j
  unfold actingOn at hj
  split at hj
  · exact hj.cueSound
  · exact hj

end Orderly

end Sys2Proof.Machine

/-! The lanes' cues, one after another, and the updates and losses of play that reach all eight lanes (R59, R81 to R94,
R107 to R113, R155). -/

namespace Sys2Proof.Machine

/-! ## What a released, an expanded and a finished lane is -/

theorem releaseCue_lane (s : State) (i j : LaneId) :
    (s.releaseCue i).lane j = if j = i then { s.lane j with queue := [], stack := [] } else s.lane j := by
  have h : (s.releaseCue i).lane j = (s.mapLane i fun l => { l with queue := [], stack := [] }).lane j := by
    unfold State.releaseCue
    dsimp only
    split <;> rfl
  rw [h, State.lane_mapLane]
  split
  · rename_i hj; rw [hj]
  · rfl

theorem releaseCue_log (s : State) (i : LaneId) : (s.releaseCue i).log = s.log := by
  unfold State.releaseCue
  dsimp only
  split <;> rfl

/-- Letting a cue go drops the expansion of the slot it stands in (R59). -/
theorem releaseCue_table (s : State) (i : LaneId) : (s.releaseCue i).table =
    match (s.lane i).currentSlot with
    | none => s.table
    | some n => changeSlot s.table n Slot.drop := by
  unfold State.releaseCue
  cases (s.lane i).currentSlot <;> rfl

/-- The queue of a slot's live contents with the lead in force; an EMPTY slot has none (R80). -/
def State.queueOf (s : State) (n : Nat) : List Event :=
  match slotAt s.table n with
  | none => []
  | some v => expandCue s.settings.standard v.live s.lead

theorem expandInto_eq (s : State) (i : LaneId) (index n : Nat) : s.expandInto i index n =
    (s.takeExpansion n).mapLane i fun l =>
      { l with state := .armed, index := index, queue := s.queueOf n, stack := [] } := rfl

theorem expandInto_lane (s : State) (i j : LaneId) (index n : Nat) : (s.expandInto i index n).lane j =
    if j = i then { s.lane j with state := .armed, index := index, queue := s.queueOf n, stack := [] }
    else s.lane j := by
  rw [expandInto_eq, State.lane_mapLane]
  split
  · rename_i hj; rw [hj]; rfl
  · rfl

/-- The queue of a legal slot stands in the order of a cue (R80, R81). -/
theorem cueOrdered_queueOf {s : State} (hc : s.contentsSound) (hl : s.settings.recorderLatency ≤ 4095) (n : Nat) :
    cueOrdered (s.queueOf n) := by
  unfold State.queueOf
  split
  · exact ⟨.nil, fun ⟨_, h, _⟩ => by cases h⟩
  · rename_i v hv
    exact cueOrdered_expandCue (hc n v hv).1 (punchLead_le hl _ _ _)

namespace Orderly

variable {takes counts cues : Prop} {s t : State} {i : LaneId}

/-! ## One cue after another (R59, R80, R86 to R88) -/

/-- A lane that is not ARMED works nothing. -/
theorem leave (h : InOrder takes counts cues s) (hi : (s.lane i).state ≠ .armed) :
    Orderly takes counts cues (fun _ => Lane.cueSound) (some i) s where
  __ := h
  counted b := (h.counted b).congr (fun _ => rfl) fun j => by
    simp only [State.works, Option.some.injEq, reduceCtorEq, if_false]
    split
    · rename_i hj
      rw [← hj, Lane.currentSlot_of_not_armed hi]
    · rfl

/-- A lane left out that works nothing is in order again. -/
theorem back (h : Orderly takes counts cues (fun _ => Lane.cueSound) (some i) s)
    (hi : (s.lane i).currentSlot = none) : InOrder takes counts cues s where
  __ := h
  counted b := (h.counted b).congr (fun _ => rfl) fun j => by
    simp only [State.works, Option.some.injEq, reduceCtorEq, if_false]
    split
    · rename_i hj
      rw [← hj, hi]
    · rfl

/-- A lane without an open take lets its cue go. -/
theorem releaseCue (h : InOrder takes counts cues s) (hi : cues → (s.lane i).openTake = none) :
    Orderly takes counts cues (fun _ => Lane.cueSound) (some i) (s.releaseCue i) := by
  have e := releaseCue_evolves s i
  refine ⟨e.keeps.sound h.sound, fun a => takesSound_congr (releaseCue_log s i) (fun j => ?_) (h.takesSound a),
    fun b => e.keeps.refs h.sound (h.refsSound b), fun b => ?_, fun c => e.keeps.contents h.sound (h.contentsSound c),
    fun c => ?_, fun c j => ?_⟩
  · rw [releaseCue_lane]
    split <;> rfl
  · have works (j : LaneId) : (s.releaseCue i).works (some i) j = if j = i then none else (s.lane j).currentSlot := by
      simp only [State.works, releaseCue_lane, Option.some.injEq, eq_comm (a := i)]
      split <;> rfl
    rw [releaseCue_table]
    split
    · rename_i hnone
      refine (h.counted b).congr (fun _ => rfl) fun j => ?_
      rw [works]
      split
      · rename_i hj
        rw [hj]
        exact hnone.symm
      · rfl
    · rename_i n hn
      refine ((h.counted b).drop h.sound.table (i := i) (n := n) hn).congr (fun _ => rfl) fun j => ?_
      rw [works, Function.update_apply]
      rfl
  · rw [(releaseCue_sparesTracker s i).settings]
    exact h.latency c
  · rw [releaseCue_lane]
    split
    · rename_i hj
      subst hj
      exact Lane.cueSound_of_empty rfl rfl (hi c)
    · exact h.lanes c j

/-- A lane without an open take expands the cue of an entry of its run list. -/
theorem expandInto (h : Orderly takes counts cues (fun _ => Lane.cueSound) (some i) s) {index n : Nat}
    (hn : (s.lane i).runList[index]? = some n) (hi : cues → (s.lane i).openTake = none) :
    InOrder takes counts cues (s.expandInto i index n) := by
  have e := expandInto_evolves s i index n (List.getElem?_eq_some_iff.1 hn).1
  refine ⟨e.keeps.sound h.sound, fun a => takesSound_congr (s := s) rfl (fun j => ?_) (h.takesSound a),
    fun b => e.keeps.refs h.sound (h.refsSound b), fun b => ?_, fun c => e.keeps.contents h.sound (h.contentsSound c),
    h.latency, fun c j => ?_⟩
  · rw [expandInto_lane]
    split <;> rfl
  · have named := defined_of_named (h.refsSound b) (List.mem_of_getElem? hn)
    refine ((h.counted b).take h.sound.table (i := i) (by simp [State.works]) named).congr (fun _ => rfl) fun j => ?_
    rw [Function.update_apply]
    simp only [State.works, expandInto_lane, reduceCtorEq, if_false, Option.some.injEq]
    by_cases hj : j = i
    · subst hj
      simp only [if_true, Lane.currentSlot]
      exact hn
    · simp only [hj, Ne.symm hj, if_false]
  · rw [expandInto_lane]
    split
    · rename_i hj
      subst hj
      refine ⟨fun hne => absurd rfl hne, cueOrdered_queueOf (h.contentsSound c) (h.latency c) n, fun ho => ?_⟩
      rw [show ({ s.lane j with state := .armed, index := index, queue := s.queueOf n, stack := [] } : Lane).openTake =
        (s.lane j).openTake from rfl, hi c] at ho
      cases ho
    · exact h.lanes c j

/-- A lane without an open take enters a state in which it works nothing. -/
theorem rest (h : Orderly takes counts cues (fun _ => Lane.cueSound) (some i) s) {f : Lane → Lane}
    (hstate : (f (s.lane i)).state ≠ .armed) (hindex : (f (s.lane i)).index = 0)
    (hempty : (f (s.lane i)).queue = [] ∧ (f (s.lane i)).stack = [])
    (hkeep : (f (s.lane i)).runList = (s.lane i).runList ∧ (f (s.lane i)).openTake = (s.lane i).openTake
      ∧ (f (s.lane i)).punchLine = (s.lane i).punchLine)
    (hi : cues → (s.lane i).openTake = none) : InOrder takes counts cues (s.mapLane i f) := by
  obtain ⟨hrun, hopen, hline⟩ := hkeep
  have e : Evolves s (s.mapLane i f) := by
    refine evolves_mapLane s i hrun fun ⟨_, _, z, w⟩ => ⟨fun _ => ⟨hempty.1, hempty.2, hindex⟩,
      fun ha => absurd ha hstate, ?_, by rw [hrun]; exact w⟩
    rw [hline, hopen]
    exact z
  refine ⟨e.keeps.sound h.sound, fun a => takesSound_congr (s := s) rfl (fun j => ?_) (h.takesSound a),
    fun b => e.keeps.refs h.sound (h.refsSound b), fun b => (h.counted b).congr (fun _ => rfl) fun j => ?_,
    h.contentsSound, h.latency, fun c j => ?_⟩
  · rw [State.lane_mapLane]
    split
    · rename_i hj; rw [hj, hopen]
    · rfl
  · simp only [State.works, State.lane_mapLane, reduceCtorEq, if_false, Option.some.injEq]
    by_cases hj : j = i
    · subst hj
      simp only [if_true, Lane.currentSlot_of_not_armed hstate]
    · simp only [hj, Ne.symm hj, if_false]
  · rw [State.lane_mapLane]
    split
    · exact Lane.cueSound_of_empty hempty.1 hempty.2 (hopen.trans (hi c))
    · exact h.lanes c j

theorem tryEntries (h : Orderly takes counts cues (fun _ => Lane.cueSound) (some i) s) (prevEnd index last : Nat)
    (l : List Nat) (hl : l = (s.lane i).runList.drop index) (hi : cues → (s.lane i).openTake = none) :
    InOrder takes counts cues (s.tryEntries i prevEnd index last l) := by
  induction l generalizing s index last with
  | nil => exact (h.rest (by simp) rfl ⟨rfl, rfl⟩ ⟨rfl, rfl, rfl⟩ hi).post _
  | cons n rest ih =>
    have hn : (s.lane i).runList[index]? = some n := by
      rw [← Nat.add_zero index, ← List.getElem?_drop, ← hl]
      rfl
    have expanded := h.expandInto hn hi
    have lane : (s.expandInto i index n).lane i =
        { s.lane i with state := .armed, index := index, queue := s.queueOf n, stack := [] } := by
      rw [expandInto_lane, if_pos rfl]
    refine ite (fun _ => expanded.post _) fun _ => ?_
    have released := (expanded.releaseCue (i := i) fun c => by rw [lane]; exact hi c).noteLane i .cueSkipped
      (if rest = [] then .done else .armed) index n none
    have lane' : (((s.expandInto i index n).releaseCue i).noteLane i .cueSkipped (if rest = [] then .done else .armed)
        index n none).lane i = { s.lane i with state := .armed, index := index, queue := [], stack := [] } := by
      rw [(noteLane_keepsStill _ _ _ _ _ _ _).lane, releaseCue_lane, if_pos rfl, lane]
    refine ih released (index + 1) n ?_ fun c => ?_
    · refine Eq.trans ?_ (congrArg (fun l : Lane => l.runList.drop (index + 1)) lane').symm
      rw [← List.tail_drop, ← hl]
      rfl
    · exact (congrArg Lane.openTake lane').trans (hi c)

theorem advance (h : InOrder takes counts cues s) (slot prevEnd : Nat) (hi : cues → (s.lane i).openTake = none) :
    InOrder takes counts cues (s.advance i slot prevEnd) := by
  refine ((h.releaseCue hi).tryEntries prevEnd _ slot _ rfl fun c => ?_).handFeeds i false
  rw [releaseCue_lane, if_pos rfl]
  exact hi c

end Orderly

/-- The CUE_END that the retirements end with is one of them (R86). -/
theorem endedAt_mem {rs : List Retirement} {target : Nat} (h : endedAt rs = some target) :
    ∃ e ∈ rs.map (·.retired.event), e.kind = .cueEnd := by
  unfold endedAt at h
  split at h
  · cases h
  · rename_i r hr
    split at h
    · exact ⟨_, List.mem_map_of_mem (List.mem_of_getLast? hr), ‹_›⟩
    · cases h

namespace Orderly

variable {takes counts cues : Prop} {s t : State}

theorem retireAndAct (h : InOrder takes counts cues s) (i : LaneId) (u : MotionUpdate) (live : Bool)
    (mode : EngineMode) (fuel : Nat) : InOrder takes counts cues (s.retireAndAct i u live mode fuel).2 := by
  induction fuel generalizing s with
  | zero => exact h
  | succ fuel ih =>
    unfold State.retireAndAct
    split
    · exact h
    · rename_i slot hslot
      dsimp only
      have acting := (h.retireStep slot u live (Lane.currentSlot_armed hslot)).actAll slot u mode
      have acted := acting.acted
      split
      · exact acted
      · rename_i prevEnd hend
        refine ih (acted.advance _ _ fun c => ?_)
        have hi := acting.lanes c i
        rw [actingOn, if_pos rfl] at hi
        obtain ⟨-, -, -, hstack, -⟩ := hi
        refine (acted.lanes c i).openTake_none ?_
        rw [hstack]
        obtain ⟨e, he, hk⟩ := endedAt_mem hend
        exact ⟨e, List.mem_append_left _ (List.mem_reverse.2 he), hk⟩

/-! ## A lane's turn (R83, R90, R94, R107) -/

theorem reactLane (h : InOrder takes counts cues s) (i : LaneId) (u : MotionUpdate) (mode : EngineMode) :
    InOrder takes counts cues (s.reactLane i u mode) := by
  unfold State.reactLane
  split
  · exact h
  · refine handFeeds (retireAndAct (restoreStep (ite (fun _ => h) fun _ => ?_) _ _ _) _ _ _ _ _) _ _
    exact h.closeTake _ _ _ _

theorem evaluateAt (h : InOrder takes counts cues s) (i : LaneId) (pos : Nat) (sample : SampleCount) :
    InOrder takes counts cues (s.evaluateAt i pos sample) := (h.retireAndAct _ _ _ _ _).handFeeds _ _

theorem rearmLane (h : InOrder takes counts cues s) (i : LaneId) (u : MotionUpdate) :
    InOrder takes counts cues (s.rearmLane i u) := by
  have closed := h.closeTake i u.p0 u.sample .cycle
  have noTake : ((s.closeTake i u.p0 u.sample .cycle).lane i).openTake = none := by
    rw [(closeTake_closesLane s i u.p0 u.sample .cycle).own, Lane.closed_openTake]
  have released := closed.releaseCue fun _ => noTake
  have lane := releaseCue_lane (s.closeTake i u.p0 u.sample .cycle) i i
  rw [if_pos rfl] at lane
  unfold State.rearmLane
  dsimp only
  split
  · rename_i hnil
    refine released.back ?_
    unfold Lane.currentSlot
    rw [hnil]
    split <;> rfl
  · rename_i n l hcons
    refine (Orderly.post (released.expandInto (index := 0) (n := n) ?_ fun _ => ?_) _).evaluateAt _ _ _
    · rw [hcons]
      rfl
    · rw [lane]
      exact noTake

theorem laneTurn (h : InOrder takes counts cues s) (i : LaneId) (u : MotionUpdate) (trigger : Bool)
    (mode : EngineMode) : InOrder takes counts cues (s.laneTurn i u trigger mode) :=
  ite (fun _ => h.rearmLane i u) fun _ => h.reactLane i u mode

theorem closeOutside (h : InOrder takes counts cues s) (i : LaneId) (pos : Nat) (cause : EndCause) :
    InOrder takes counts cues (s.closeOutside i pos cause) := by
  unfold State.closeOutside
  split
  · exact h
  · exact (h.closeTake _ _ _ _).handFeeds _ _

/-! ## All lanes (R94, R107 to R113) -/

theorem eachLane (h : InOrder takes counts cues s) {f : LaneId → State → State}
    (hf : ∀ {s} i, InOrder takes counts cues s → InOrder takes counts cues (f i s)) :
    InOrder takes counts cues (s.eachLane f) := foldl (fun i => hf i) _ h

theorem eachLaneFreely (h : InOrder takes counts cues s) {f : LaneId → State → State}
    (hf : ∀ {s} i, InOrder takes counts cues s → InOrder takes counts cues (f i s)) :
    InOrder takes counts cues (s.eachLaneFreely f) := by
  obtain ⟨order, n, -, heq⟩ := eachLaneFreely_order s f
  rw [heq]
  exact foldl (fun i => hf i) _ (h.withOccasion n)

theorem closeAll (h : InOrder takes counts cues s) (cause : EndCause) : InOrder takes counts cues (s.closeAll cause) :=
  h.eachLaneFreely fun i h => h.closeOutside i _ _

theorem fallOfPlay (h : InOrder takes counts cues s) (before : Bool) :
    InOrder takes counts cues (s.fallOfPlay before) := ite (fun _ => h.closeAll _) fun _ => h

theorem setMode (h : InOrder takes counts cues s) (mode : EngineMode) : InOrder takes counts cues (s.setMode mode) :=
  have changed : InOrder takes counts cues
      (s.mapSettings fun g => { g with engineMode := mode, standbyPending := false }) := h.setting rfl rfl
  ite (fun _ => changed.formOverlay) fun _ => changed

theorem enterStandby (h : InOrder takes counts cues s) : InOrder takes counts cues s.enterStandby :=
  (h.closeAll _).setMode _

theorem laneTakes (h : InOrder takes counts cues s) (u : MotionUpdate) (trigger : Bool) (due : Option EngineMode)
    (i : LaneId) : InOrder takes counts cues (laneTakes u trigger due i s) := by
  cases due with
  | none => exact h.laneTurn _ _ _ _
  | some mode =>
    exact ite (fun _ => (h.settleOrder.closeOutside _ _ _).laneTurn _ _ _ _) fun _ =>
      (h.settleOrder.laneTurn _ _ _ _).closeOutside _ _ _

theorem lanesTake (h : InOrder takes counts cues s) (u : MotionUpdate) (due : Option EngineMode) :
    InOrder takes counts cues (s.lanesTake u due) := by
  obtain ⟨order, n, -, -, heq⟩ := lanesTake_order s u due
  rw [heq]
  exact foldl (fun i h => h.laneTakes u _ due i) _ (h.withOccasion n)

theorem lanesAndOverlay (h : InOrder takes counts cues s) (u : MotionUpdate) (due : Option EngineMode) :
    InOrder takes counts cues (s.lanesAndOverlay u due) :=
  ite (fun _ => (h.lanesTake u due).formOverlay) fun _ =>
    ite (fun _ => h.settleOrder.formOverlay.lanesTake u due) fun _ => (h.settleOrder.lanesTake u due).formOverlay

theorem boundaryTaken (h : InOrder takes counts cues s) (u : MotionUpdate) :
    InOrder takes counts cues (s.boundaryTaken u) :=
  ite (fun _ => ite (fun _ => (h.settleOrder.setMode _).lanesAndOverlay u _) fun _ =>
    (h.settleOrder.lanesAndOverlay u _).setMode _) fun _ => h.lanesAndOverlay u _

end Orderly

/-- The staged entries leave the recorder latency alone: it is no class-F setting (R152, R154). -/
theorem applyEntries_latency (l : List Staged) (g : Settings) :
    (l.foldl Settings.applyEntry g).recorderLatency = g.recorderLatency := by
  induction l generalizing g with
  | nil => rfl
  | cons e l ih =>
    rw [List.foldl_cons, ih]
    cases e <;> rfl

namespace Orderly

variable {takes counts cues : Prop} {s t : State}

theorem applyStaging (h : InOrder takes counts cues s) : InOrder takes counts cues s.applyStaging := by
  have applied : InOrder takes counts cues
      (s.mapSettings fun g => { g.staging.foldl Settings.applyEntry g with staging := [] }) :=
    h.setting (applyEntries_grid s.settings.staging s.settings).1 (applyEntries_latency _ _)
  exact (applied.mapFeeds _).fallOfPlay _

theorem applyUnheld (h : InOrder takes counts cues s) : InOrder takes counts cues s.applyUnheld :=
  ite (fun _ => h) fun _ => h.applyStaging

theorem emitUpdateWith (h : InOrder takes counts cues s) (p0 : Nat) (kind : UpdateKind) (spd : Int) :
    InOrder takes counts cues (s.emitUpdateWith p0 kind spd) :=
  ite (fun _ => h.lanesTake _ _) fun _ => ((h.boundaryTaken _).formCode _ _).applyUnheld

theorem emitUpdate (h : InOrder takes counts cues s) (p0 : Nat) (kind : UpdateKind) :
    InOrder takes counts cues (s.emitUpdate p0 kind) := h.emitUpdateWith _ _ _

theorem emitIfMoved (h : InOrder takes counts cues s) (p0 : Nat) (kind : UpdateKind) :
    InOrder takes counts cues (s.emitIfMoved p0 kind) := ite (fun _ => h) fun _ => h.emitUpdate _ _

theorem enter (h : InOrder takes counts cues s) (state : TrackerState) (cause : TrackerCause) :
    InOrder takes counts cues (s.enter state cause) := (h.mapTracker _).noteTracker _

theorem standbyAtStop (h : InOrder takes counts cues s) (cause : EndCause) :
    InOrder takes counts cues (s.standbyAtStop cause) := by
  have close {s : State} (h : InOrder takes counts cues s) :
      InOrder takes counts cues (s.eachLaneFreely fun i s => s.closeAtStop i cause) :=
    h.eachLaneFreely fun i h => h.settleOrder.closeOutside i _ _
  exact ite (fun _ => close (h.settleOrder.setMode _)) fun _ => (close h.settleOrder).setMode _

theorem stoppedEffects (h : InOrder takes counts cues s) (cause : EndCause) :
    InOrder takes counts cues (s.stoppedEffects cause) :=
  (ite (fun _ => h.standbyAtStop _) fun _ => h.closeAll _ : InOrder takes counts cues
    (if s.settings.standbyPending then s.standbyAtStop cause else s.lossOfPlay cause)).formHold.applyUnheld

theorem enterStopped (h : InOrder takes counts cues s) (cause : TrackerCause) (loss : EndCause) :
    InOrder takes counts cues (s.enterStopped cause loss) := by
  have stopped := h.mapTracker fun t => { t with spd := 0, state := .stopped }
  exact ite (fun _ => ite (fun _ => (stopped.settleOrder.noteTracker _).stoppedEffects _) fun _ =>
    (stopped.settleOrder.stoppedEffects _).noteTracker _) fun _ => (stopped.noteTracker _).stoppedEffects _

theorem enterBySpeed (h : InOrder takes counts cues s) (cause : TrackerCause) :
    InOrder takes counts cues (s.enterBySpeed cause) := ite (fun _ => h.enterStopped _ _) fun _ => h.enter _ _

end Orderly

end Sys2Proof.Machine

/-! Every command keeps the part in order: the transport tracker (chapter 2), the requests, the link and the resets. -/

namespace Sys2Proof.Machine

namespace Orderly

variable {takes counts cues : Prop} {s : State}

/-! ## Speed, anchors and integration (R9, R24 to R32, R42, R45) -/

theorem setSpeed (h : InOrder takes counts cues s) (v : Int) : InOrder takes counts cues (s.setSpeed v) :=
  ite (fun _ => h.mapTracker _) fun _ => (h.mapTracker _).raiseFault _

theorem recomputeLocal (h : InOrder takes counts cues s) : InOrder takes counts cues s.recomputeLocal := by
  have sped := h.setSpeed s.localSpeed
  exact ite (fun _ => ite (fun _ => ite (fun _ => sped) fun _ => sped.enterStopped _ _) fun _ =>
    ite (fun _ => sped.fallOfPlay _) fun _ => sped.enter _ _) fun _ => h

theorem newNominal (h : InOrder takes counts cues s) (before : Bool) :
    InOrder takes counts cues (s.newNominal before) :=
  (((h.setSpeed _).mapTracker _).recomputeLocal).fallOfPlay _

theorem indexPulse (h : InOrder takes counts cues s) (q : Nat) : InOrder takes counts cues (s.indexPulse q) :=
  ite (fun _ => ite (fun _ => ite (fun _ => h) fun _ => (h.mapTracker _).raiseFault _) fun _ => h.raiseFault _)
    fun _ => h

/-- The state of either branch of a choice, beside what else the branches answer. -/
theorem sndIte {α : Type} {c : Prop} [Decidable c] {a b : α × State} (ha : InOrder takes counts cues a.2)
    (hb : InOrder takes counts cues b.2) : InOrder takes counts cues (if c then a else b).2 := by
  split
  · exact ha
  · exact hb

theorem fstIte {α : Type} {c : Prop} [Decidable c] {a b : State × α} (ha : c → InOrder takes counts cues a.1)
    (hb : ¬c → InOrder takes counts cues b.1) : InOrder takes counts cues (if c then a else b).1 := by
  split
  · exact ha ‹_›
  · exact hb ‹_›

/-- The state of an answered request, beside the answer. -/
theorem fstOf {α : Type} {a : α} (h : InOrder takes counts cues s) : InOrder takes counts cues (s, a).1 := h

theorem movePhase (h : InOrder takes counts cues s) {up : Bool} : InOrder takes counts cues (s.movePhase up) := by
  unfold State.movePhase
  exact h.mapTracker _

theorem subsample (h : InOrder takes counts cues s) (tally : EdgeTally) (ta tb tz : Bool) :
    InOrder takes counts cues (s.subsample tally ta tb tz).2 := by
  have filtered (d : Decoder) : InOrder takes counts cues (s.mapTracker fun t => { t with decoder := d }) :=
    h.mapTracker _
  refine sndIte (filtered _) (sndIte (indexPulse ?_ _) ?_)
  all_goals
    exact sndIte ((filtered _).raiseFault _) (sndIte (filtered _) (sndIte (filtered _).movePhase
      (filtered _).movePhase))

theorem frontEnd (h : InOrder takes counts cues s) (ta tb tz : BitVec 16) :
    InOrder takes counts cues (s.frontEnd ta tb tz).2 := by
  have all (l : List Nat) (a : EdgeTally × State) (ha : InOrder takes counts cues a.2) : InOrder takes counts cues
      (l.foldl (fun a k => a.2.subsample a.1 (ta.getLsbD k) (tb.getLsbD k) (tz.getLsbD k)) a).2 := by
    induction l generalizing a with
    | nil => exact ha
    | cons k l ih => exact ih _ (ha.subsample _ _ _ _)
  exact all _ ({ net := 0, last := none }, s) h

theorem emitExternal (h : InOrder takes counts cues s) (p0 : Nat) (kind : UpdateKind) :
    InOrder takes counts cues (s.emitExternal p0 kind) :=
  ite (fun _ => (h.emitIfMoved _ _).noteTracker _) fun _ => h.emitIfMoved _ _

theorem startIfEstimated (h : InOrder takes counts cues s) (formed : Bool) :
    InOrder takes counts cues (s.startIfEstimated formed) := ite (fun _ => h.enter _ _) fun _ => h

theorem setOrigin (h : InOrder takes counts cues s) : InOrder takes counts cues s.setOrigin := h.mapTracker _

theorem tachEstimate (h : InOrder takes counts cues s) (tally : EdgeTally) (forward : Bool) :
    InOrder takes counts cues (s.tachEstimate tally forward).2 := by
  unfold State.tachEstimate
  split
  · exact h.setOrigin
  · exact (h.setSpeed _).setOrigin

theorem tachAnchor (h : InOrder takes counts cues s) (tally : EdgeTally) (forward : Bool) :
    InOrder takes counts cues (s.tachAnchor tally forward) := by
  have estimated := (h.mapTracker fun t => { t with stallTimer := some 0 }).tachEstimate tally forward
  exact ite (fun _ => estimated) fun _ =>
    (((estimated.mapTracker _).startIfEstimated _).emitExternal _ _).fallOfPlay _

theorem coastEnd (h : InOrder takes counts cues s) (limit : Nat) : InOrder takes counts cues (s.coastEnd limit) :=
  ite (fun _ => (h.raise _).enterStopped _ _) fun _ => h

theorem integrate (h : InOrder takes counts cues s) : InOrder takes counts cues s.integrate := by
  unfold State.integrate
  split
  · exact h
  · exact h
  · exact ite (fun _ => h) fun _ => (h.mapTracker _).emitExternal _ _
  · exact ((h.mapTracker _).emitExternal _ _).coastEnd _

theorem haltAt (h : InOrder takes counts cues s) (last : Nat) : InOrder takes counts cues (s.haltAt last) := by
  have placed := h.mapTracker fun t => { t with pos := last }
  refine enterStopped (setting ?_ rfl rfl) _ _
  exact ite (fun _ => placed) fun _ => ite (fun _ => placed.emitUpdate _ _) fun _ =>
    placed.settleOrder.emitUpdateWith _ _ _

theorem integrateLocal (h : InOrder takes counts cues s) : InOrder takes counts cues s.integrateLocal := by
  unfold State.integrateLocal
  refine ite (fun _ => ite (fun _ => ?_) fun _ => (h.mapTracker _).emitUpdate _ _) fun _ => h
  split
  · exact (h.mapTracker _).emitUpdate _ _
  · exact ((h.mapTracker _).emitUpdate _ _).noteTracker _
  · exact (h.mapTracker _).emitUpdate _ _
  · exact h.haltAt _

/-! ## Timers, code records and the word clock (R28 to R39, R47, R48) -/

theorem beginSample (h : InOrder takes counts cues s) : InOrder takes counts cues s.beginSample :=
  ite (fun _ => h) fun _ => (h.mapTracker _).mapFeeds _

theorem fireStall (h : InOrder takes counts cues s) : InOrder takes counts cues s.fireStall := by
  have timed := h.mapTracker fun t => { t with stallTimer := none }
  unfold State.fireStall
  dsimp only
  split
  · exact (timed.mapTracker _).enterStopped _ _
  · exact timed.mapTracker _
  · exact timed
  · exact timed

/-- The entry into COASTING marks records and no more (R125). -/
theorem markCoasted (h : InOrder takes counts cues s) : InOrder takes counts cues (s.mapLog TakeLog.markCoasted) :=
  h.mapRecords fun r => by split <;> exact ⟨rfl, rfl, .rfl⟩

theorem fireDropout (h : InOrder takes counts cues s) : InOrder takes counts cues s.fireDropout := by
  have timed := h.mapTracker fun t => { t with dropoutTimer := none, recordInterval := none }
  unfold State.fireDropout
  dsimp only
  split
  · exact ((timed.mapTracker _).enter _ _).markCoasted
  · exact timed
  · exact timed
  · exact timed

theorem codeHold (h : InOrder takes counts cues s) (r : CodeRecord) : InOrder takes counts cues (s.codeHold r) := by
  have moved := ((h.mapTracker fun t => { t with pos := r.base, lastAnchor := r.base }).mapTracker
    fun t => { t with spd := 0, origin := none }).emitIfMoved s.tracker.pos .jump
  unfold State.codeHold
  dsimp only
  split
  · exact (moved.mapTracker _).enterStopped _ _
  · exact moved.enterStopped _ _
  · exact moved.enterStopped _ _
  · exact ite (fun _ => moved) fun _ => moved.noteTracker _

theorem codeReference (h : InOrder takes counts cues s) (r : CodeRecord) :
    InOrder takes counts cues (s.codeReference r) :=
  ((((h.mapTracker _).mapTracker _).mapTracker _).emitIfMoved _ _).enterBySpeed _

theorem codeRecover (h : InOrder takes counts cues s) (r : CodeRecord) : InOrder takes counts cues (s.codeRecover r) :=
  have moving := (h.mapTracker fun t => { t with origin := some { sample := t.count, net := 0 } }).mapTracker
    fun t => { t with state := .moving }
  noteTracker (ite (fun _ => (moving.mapTracker _).emitIfMoved _ _) fun _ => (moving.mapTracker _).emitExternal _ _) _

theorem codeJump (h : InOrder takes counts cues s) (r : CodeRecord) : InOrder takes counts cues (s.codeJump r) :=
  ite (fun _ => (h.mapTracker _).mapTracker _) fun _ =>
    (((h.mapTracker _).mapTracker _).emitUpdate _ _).noteTracker _

theorem codeAnchor (h : InOrder takes counts cues s) (r : CodeRecord) (k : Int) :
    InOrder takes counts cues (s.codeAnchor r k) := by
  unfold State.codeAnchor
  refine fallOfPlay (emitExternal (startIfEstimated (mapTracker ?_ _) _) _ _) _
  split
  · exact h.mapTracker _
  · exact (h.setSpeed _).mapTracker _

theorem takeInCode (h : InOrder takes counts cues s) (r : CodeRecord) : InOrder takes counts cues (s.takeInCode r) := by
  unfold State.takeInCode
  have kept := (h.beginSample.mapTracker fun t => { t with
    recordInterval :=
      match t.previous with
      | none => t.recordInterval
      | some p => some (samplesFrom p.arrival t.count)
    previous := some { base := r.base, reverse := r.reverse, arrival := t.count }
    dropoutTimer := some 0 }).mapTracker fun t => { t with anchorTaken := true }
  refine ite (fun _ => kept.codeHold r) fun _ => ?_
  split
  · exact kept.codeReference r
  · exact kept.codeRecover r
  all_goals
    split
    · exact kept.codeAnchor r _
    · exact kept.codeJump r

theorem tachReference (h : InOrder takes counts cues s) (r : CodeRecord) :
    InOrder takes counts cues (s.tachReference r) :=
  have held : InOrder takes counts cues
      (if r.hold then s.mapTracker fun t => { t with spd := 0, origin := none } else s) :=
    ite (fun _ => h.mapTracker _) fun _ => h
  ((((held.mapTracker _).mapTracker _).mapTracker _).emitIfMoved _ _).enterBySpeed _

theorem driftCheck (h : InOrder takes counts cues s) (r : CodeRecord) : InOrder takes counts cues (s.driftCheck r) :=
  ite (fun _ => h.mapTracker _) fun _ => ite (fun _ => h.mapTracker _) fun _ =>
    (((((h.mapTracker _).mapTracker _).mapTracker _).raise _).emitUpdate _ _).noteTracker _

theorem takeRecord (h : InOrder takes counts cues s) (hh mm ss ff flags check : Byte) :
    InOrder takes counts cues (s.takeRecord hh mm ss ff flags check) := by
  unfold State.takeRecord
  refine ite (fun _ => h) fun _ => ?_
  split
  · exact h
  · split
    · exact h.raiseFault _
    · exact ite (fun _ => (h.mapTracker _).tachReference _) fun _ => (h.mapTracker _).driftCheck _
  · split
    · exact h.raiseFault _
    · exact h.takeInCode _

theorem cinByte (h : InOrder takes counts cues s) (b : Byte) : InOrder takes counts cues (s.cinByte b) := by
  unfold State.cinByte
  split
  · exact ite (fun _ => h.mapTracker _) fun _ => h
  · exact (h.mapTracker _).takeRecord _ _ _ _ _ _
  · exact h.mapTracker _

theorem cinGap (h : InOrder takes counts cues s) : InOrder takes counts cues s.cinGap := by
  unfold State.cinGap
  split
  · exact h
  · exact ite (fun _ => h.mapTracker _) fun _ => (h.mapTracker _).raiseFault _

theorem loseClock (h : InOrder takes counts cues s) : InOrder takes counts cues s.loseClock := by
  have lost := (h.raise .clockLost).mapTracker fun t =>
    { t with clockLost := true, spd := 0, origin := none, sampleBegun := false, anchorTaken := false }
  unfold State.loseClock
  dsimp only
  split
  · exact lost.noteTracker _
  all_goals exact lost.enterStopped _ _

theorem regainClock (h : InOrder takes counts cues s) : InOrder takes counts cues s.regainClock :=
  ite (fun _ => noteTracker (ite (fun _ => (h.mapTracker _).setSpeed _) fun _ =>
    ((h.mapTracker _).setSpeed _).mapTracker _) _) fun _ => (h.mapTracker _).noteTracker _

theorem sampleMotion (h : InOrder takes counts cues s) (ta tb tz : BitVec 16) :
    InOrder takes counts cues (s.sampleMotion ta tb tz) := by
  unfold State.sampleMotion
  split
  · have edges := h.frontEnd ta tb tz
    dsimp only
    split
    · exact edges.tachAnchor _ _
    · exact integrate (ite (fun _ => edges.fireStall) fun _ => edges)
  · exact ite (fun _ => h) fun _ => integrate (ite (fun _ => h.fireDropout) fun _ => h)
  · exact integrateLocal (ite (fun _ => h.formHold) fun _ => h)

theorem toneFrame (h : InOrder takes counts cues s) : InOrder takes counts cues s.toneFrame := by
  unfold State.toneFrame
  exact h.mapFeeds _

theorem endSample (h : InOrder takes counts cues s) : InOrder takes counts cues s.endSample := h.mapTracker _

theorem sample (h : InOrder takes counts cues s) (ta tb tz : BitVec 16) :
    InOrder takes counts cues (s.sample ta tb tz) :=
  have clocked : InOrder takes counts cues (if s.tracker.clockLost then s.regainClock else s) :=
    ite (fun _ => h.regainClock) fun _ => h
  (clocked.beginSample.sampleMotion ta tb tz).toneFrame.endSample

/-! ## Settings (chapter 8) -/

theorem stage (h : InOrder takes counts cues s) (e : Staged) (flags : OutFlags) (v : ReportedValue) :
    InOrder takes counts cues (s.stage e flags v).1 :=
  have staged : InOrder takes counts cues (s.mapSettings fun g => { g with staging := putStaged g.staging e }) :=
    h.setting rfl rfl
  ite (fun _ => staged.applyUnheld) fun _ => staged

theorem writeEngineMode (h : InOrder takes counts cues s) (code : Byte) :
    InOrder takes counts cues (s.writeEngineMode code).1 := by
  unfold State.writeEngineMode
  split
  · exact h
  · exact fstIte (fun _ => h) fun _ => fstIte (fun _ => h.enterStandby) fun _ => fstOf (h.setting rfl rfl)
  · exact setMode (ite (fun _ => h.closeAll _) fun _ => h) _
  · exact h.setMode _

/-- A change of the standard, which an empty table alone allows (R6, R153). -/
theorem changeStandard (h : InOrder takes counts cues s) (std : Standard) (hempty : s.table = []) :
    InOrder takes counts cues (s.changeStandard std) := by
  have under : InOrder takes counts cues (s.mapSettings fun g => g.underStandard std) :=
    h.mapSettings id fun _ n v hv => by
      rw [State.mapSettings_table, hempty] at hv
      cases hv
  have reduced := (under.mapTracker fun t =>
    { t with pos := reducePos std t.pos, lastAnchor := reducePos std t.pos }).mapRecords
      (f := Take.reduce std) fun r => ⟨rfl, rfl, by simp [Take.reduce]⟩
  have nominal := (reduced.mapTracker fun t => { t with phase := phaseOf (s.settings.underStandard std).edges t.pos })
    |>.newNominal s.inPlay
  exact emitIfMoved (ite (fun _ => nominal) fun _ => (nominal.mapTracker _).enter _ _) _ _

theorem writeStandard (h : InOrder takes counts cues s) (code : Byte) :
    InOrder takes counts cues (s.writeStandard code).1 := by
  unfold State.writeStandard
  split
  · exact h
  · exact fstIte (fun hc => ite (fun _ => h) fun _ => h.changeStandard _ hc.1) fun _ => h

theorem writePullDown (h : InOrder takes counts cues s) (w : Int) :
    InOrder takes counts cues (s.writePullDown w).1 :=
  fstIte (fun _ => h) fun _ => ite (fun _ => h) fun _ => (h.setting rfl rfl).newNominal _

theorem changeRate (h : InOrder takes counts cues s) (rate : SampleRate) :
    InOrder takes counts cues (s.changeRate rate) := by
  unfold State.changeRate
  exact mapFeeds (mapTracker (newNominal (h.setting rfl rfl) _) _) _

theorem writeSampleRate (h : InOrder takes counts cues s) (w : Int) :
    InOrder takes counts cues (s.writeSampleRate w).1 :=
  fstIte (fun _ => h) fun _ => fstIte (fun _ => h) fun _ => ite (fun _ => h) fun _ => h.changeRate _

theorem changeSource (h : InOrder takes counts cues s) (src : Source) :
    InOrder takes counts cues (s.changeSource src) := by
  unfold State.changeSource
  split
  · exact (h.setting rfl rfl).enterStopped _ _
  · exact ((((((h.mapFeeds _).mapTracker _).setting rfl rfl).mapTracker _).mapTracker _)).enter _ _
  · exact (((h.mapFeeds _).mapTracker _).setting rfl rfl).enter _ _

theorem writeSource (h : InOrder takes counts cues s) (code : Byte) :
    InOrder takes counts cues (s.writeSource code).1 := by
  unfold State.writeSource
  split
  · exact h
  · exact fstIte (fun _ => ite (fun _ => h) fun _ => h.changeSource _) fun _ => h

theorem writeCycleAction (h : InOrder takes counts cues s) (code : Byte) :
    InOrder takes counts cues (s.writeCycleAction code).1 := by
  unfold State.writeCycleAction
  split
  · exact h
  · exact h.stage _ _ _

theorem writeByte (h : InOrder takes counts cues s) (id b : Byte) : InOrder takes counts cues (s.writeByte id b).1 := by
  unfold State.writeByte
  split
  · exact h.writeEngineMode b
  · exact h.writeStandard b
  · exact h.writeSource b
  · exact fstOf (h.setting rfl rfl)
  · exact h.writeCycleAction b
  · exact fstOf (h.setting rfl rfl)
  · exact h

theorem writeRounding (h : InOrder takes counts cues s) (w : Int) :
    InOrder takes counts cues (s.writeRounding w).1 := by
  unfold State.writeRounding
  split
  · exact h
  · exact recomputeLocal (h.setting rfl rfl)

theorem writeHold (h : InOrder takes counts cues s) (w : Int) : InOrder takes counts cues (s.writeHold w).1 :=
  have freed : InOrder takes counts cues (s.mapSettings fun g => { g with stagingHold := false }) := h.setting rfl rfl
  fstIte (fun _ => fstOf (h.setting rfl rfl))
    fun _ => fstIte (fun _ => ite (fun _ => freed.applyUnheld) fun _ => freed) fun _ => h

theorem writeRatio (h : InOrder takes counts cues s) (w : Int) : InOrder takes counts cues (s.writeRatio w).1 := by
  unfold State.writeRatio
  exact recomputeLocal (h.setting rfl rfl)

theorem writeEdges (h : InOrder takes counts cues s) (w : Int) : InOrder takes counts cues (s.writeEdges w).1 := by
  unfold State.writeEdges
  split
  · exact fstOf (mapTracker (mapTracker (h.setting rfl rfl) _) _)
  · exact h

theorem writeFilter (h : InOrder takes counts cues s) (w : Int) : InOrder takes counts cues (s.writeFilter w).1 := by
  unfold State.writeFilter
  exact fstOf (mapTracker (h.setting rfl rfl) _)

theorem writeIndexState (h : InOrder takes counts cues s) (w : Int) :
    InOrder takes counts cues (s.writeIndexState w).1 := by
  unfold State.writeIndexState
  exact fstIte (fun _ => fstOf (h.setting rfl rfl)) fun _ => h

theorem writeIndexCheck (h : InOrder takes counts cues s) (w : Int) :
    InOrder takes counts cues (s.writeIndexCheck w).1 := by
  unfold State.writeIndexCheck
  exact fstIte (fun _ => fstOf (h.setting rfl rfl)) fun _ => h

theorem writeToneLevel (h : InOrder takes counts cues s) (i : LaneId) (w : Int) :
    InOrder takes counts cues (s.writeToneLevel i w).1 := by
  unfold State.writeToneLevel
  exact fstOf (h.setting rfl rfl)

theorem writeAutoRearm (h : InOrder takes counts cues s) (w : Int) :
    InOrder takes counts cues (s.writeAutoRearm w).1 :=
  fstIte (fun _ => h.stage _ _ _) fun _ => h

/-- The recorder latency is clamped to its range (R152). -/
theorem writeRecorderLatency (h : InOrder takes counts cues s) (w : Int) :
    InOrder takes counts cues (s.writeRecorderLatency w).1 := by
  have clamped : (clampTo 0 4095 w).toNat ≤ 4095 := by
    unfold clampTo
    split_ifs <;> omega
  unfold State.writeRecorderLatency
  exact fstOf (h.mapSettings (fun _ => clamped) id)

theorem writeNumber (h : InOrder takes counts cues s) (id : Byte) (w : Int) :
    InOrder takes counts cues (s.writeNumber id w).1 := by
  unfold State.writeNumber
  split
  case h_1 => exact h.writePullDown w
  case h_2 => exact h.writeSampleRate w
  case h_3 => exact h.writeRounding w
  case h_4 => exact h.writeHold w
  case h_7 => exact h.writeRatio w
  case h_8 => exact h.writeAutoRearm w
  case h_17 | h_18 | h_19 | h_20 | h_21 | h_22 | h_23 | h_24 => exact h.writeToneLevel _ w
  case h_25 => exact h.writeEdges w
  case h_26 => exact h.writeFilter w
  case h_27 => exact h.writeIndexState w
  case h_28 => exact h.writeIndexCheck w
  case h_32 => exact h.writeRecorderLatency w
  case h_34 => exact h
  all_goals exact h.stage _ _ _

theorem settingWrite (h : InOrder takes counts cues s) (id r : Byte) (v : SettingValue) :
    InOrder takes counts cues (s.settingWrite id r v).1 := by
  unfold State.settingWrite
  split
  · exact h
  · refine fstIte (fun _ => h) fun _ => ?_
    split
    · exact h
    · refine fstIte (fun _ => h) fun _ => fstIte (fun _ => h) fun _ => ?_
      unfold State.writeValue
      split
      · exact h.writeByte _ _
      · exact h.writeNumber _ _
      · exact h
      · unfold State.writeWindow
        dsimp only
        split
        · exact fstIte (fun _ => h.stage _ _ _) fun _ => h
        · exact h

theorem storeMask (h : InOrder takes counts cues s) (id v : Byte) : InOrder takes counts cues (s.storeMask id v) :=
  ite (fun _ => h.setting rfl rfl) fun _ => h.setting rfl rfl

end Orderly

end Sys2Proof.Machine

/-! Every command keeps the part in order: the requests, the link and the resets (chapters 3, 4, 7 to 9). -/

namespace Sys2Proof.Machine

variable {s : State}

/-! ## Expansion counts, records and lanes after a request -/

/-- A written slot keeps its expansion count, 0 at its creation (R60, R68, R69). -/
theorem expansionsAt_writtenSlot {t : CueTable} (hw : tableWf t = true) (n : Nat) (view : View) (c : Contents)
    (m : Nat) : expansionsAt (putSlot t n (writtenSlot (slotAt t n) view c)) m = expansionsAt t m := by
  unfold expansionsAt
  rw [slotAt_putSlot hw]
  split
  · rename_i hm
    subst hm
    cases slotAt t m with
    | none => rfl
    | some v => cases view <;> rfl
  · rfl

/-- Reference counts move without touching an expansion count (R78). -/
theorem expansionsAt_changeAll {t : CueTable} (hw : tableWf t = true) {f : Slot → Slot}
    (hf : ∀ v, (f v).expansions = v.expansions) (l : List Nat) (m : Nat) :
    expansionsAt (l.foldl (fun t n => changeSlot t n f) t) m = expansionsAt t m := by
  induction l generalizing t with
  | nil => rfl
  | cons n l ih => rw [List.foldl_cons, ih (tableWf_changeSlot hw n f), expansionsAt_changeSlot_same hw hf]

theorem expansionsAt_moveRefs {t : CueTable} (hw : tableWf t = true) (before after : List Nat) (m : Nat) :
    expansionsAt (moveRefs t before after) m = expansionsAt t m := by
  refine (expansionsAt_changeAll (tableWf_changeAll hw _ _) ?_ before m).trans (expansionsAt_changeAll hw ?_ after m)
  all_goals exact fun _ => rfl

/-- A lane outside ARMED that works its cue in order holds no take, and so does whatever it becomes with the same
events and no take. -/
theorem Lane.cueSound.idle {l m : Lane} (h : l.cueSound) (hl : l.state ≠ .armed)
    (hm : m.line = l.line) (ho : m.openTake = l.openTake) : m.cueSound := by
  obtain ⟨hidle, hline, -⟩ := h
  have noTake : m.openTake = none := ho.trans (hidle hl)
  exact ⟨fun _ => noTake, hm ▸ hline, fun ht => by rw [noTake] at ht; cases ht⟩

/-- A closing outside an update leaves its lane without a take. -/
theorem closeOutside_openTake (s : State) (i : LaneId) (pos : Nat) (cause : EndCause) :
    ((s.closeOutside i pos cause).lane i).openTake = none := by
  rw [(closeOutside_closesLane s i pos cause).own, Lane.closed_openTake]

/-- A release keeps takes and lanes in agreement: no OPEN record goes (R102, R128). -/
theorem takesSound_release {n : Nat} (h : s.takesSound) :
    (s.mapLog fun g => { g with records := releaseTakes n s.log.records }).takesSound := by
  obtain ⟨gone, hsplit, hgone, -⟩ := releaseTakes_split n s.log.records
  obtain ⟨held, opened, apart⟩ := h
  have left {r : Take} (hr : r ∈ s.log.records) (hc : r.closing = none) : r ∈ releaseTakes n s.log.records := by
    rw [hsplit] at hr
    exact (List.mem_append.1 hr).resolve_left fun hg => by simpa [hc] using hgone r hg
  refine ⟨fun i m hm => ?_, fun r hr hc => ?_, ?_⟩
  · obtain ⟨r, hr, h1, h2, h3⟩ := held i m hm
    exact ⟨r, left hr h3, h1, h2, h3⟩
  · refine opened r ?_ hc
    rw [hsplit]
    exact List.mem_append_right _ hr
  · rw [hsplit] at apart
    exact (List.pairwise_append.1 apart).2.1

namespace Orderly

variable {takes counts cues : Prop} {s t : State}

/-- What a request does that leaves the takes, what each lane works and the expansion counts. -/
theorem served (h : InOrder takes counts cues s) (e : Serves s t) (hlog : t.log = s.log)
    (hsettings : t.settings = s.settings)
    (htable : counts → ∀ n, expansionsAt t.table n = expansionsAt s.table n)
    (hopen : ∀ j, (t.lane j).openTake = (s.lane j).openTake)
    (hwork : ∀ j, (t.lane j).currentSlot = (s.lane j).currentSlot)
    (hown : ∀ j, (s.lane j).cueSound → (t.lane j).cueSound) : InOrder takes counts cues t := by
  have k := Serves.keeps (fun _ => e) e.spares
  exact {
    sound := k.sound h.sound
    takesSound := fun a => takesSound_congr hlog hopen (h.takesSound a)
    refsSound := fun b => k.refs h.sound (h.refsSound b)
    counted := fun b => (h.counted b).congr (htable b) fun j => by simp only [State.works, hwork]
    contentsSound := fun c => k.contents h.sound (h.contentsSound c)
    latency := fun c => hsettings ▸ h.latency c
    lanes := fun c j => hown j (h.lanes c j) }

/-! ## Cues (chapter 3) -/

theorem cueSeek (h : InOrder takes counts cues s) (b c : Byte) : InOrder takes counts cues (s.cueSeek b c).1 := by
  have e := cueSeek_serves s b c
  revert e
  unfold State.cueSeek
  split
  · exact fun e => h.served e rfl rfl (fun _ _ => rfl) (fun _ => rfl) (fun _ => rfl) fun _ => id
  · exact fun _ => h

theorem advanceCursor (h : InOrder takes counts cues s) (form : Byte) (n : Nat) :
    InOrder takes counts cues (s.advanceCursor form n) :=
  h.served (advanceCursor_serves s form n) rfl rfl (fun _ _ => rfl) (fun _ => rfl) (fun _ => rfl) fun _ => id

/-- A cue request that writes to the table. -/
theorem servedTable (h : InOrder takes counts cues s) {f : CueTable → CueTable} {form : Byte} {n : Nat}
    (e : Serves s ((s.mapTable f).advanceCursor form n))
    (htable : counts → ∀ m, expansionsAt (f s.table) m = expansionsAt s.table m) :
    InOrder takes counts cues ((s.mapTable f).advanceCursor form n) :=
  h.served e rfl rfl htable (fun _ => rfl) (fun _ => rfl) fun _ => id

theorem cueRead (h : InOrder takes counts cues s) (form : Byte) (o : BitVec 16) (n m v r : Byte) :
    InOrder takes counts cues (s.cueRead form o n m v r).1 := by
  unfold State.cueRead
  split
  · split
    · exact h
    · split
      · exact h
      · exact h.advanceCursor _ _
  · exact h

theorem writeSlot (h : InOrder takes counts cues s) (form : Byte) (slot : Nat) (mode : Rounding) (groups : CueGroups)
    (e : Serves s (s.writeSlot form slot mode groups).1) :
    InOrder takes counts cues (s.writeSlot form slot mode groups).1 := by
  revert e
  unfold State.writeSlot
  dsimp only
  split
  · exact fun _ => h
  · split
    · exact fun _ => h
    · split
      · exact fun _ => h
      · exact fun e => h.servedTable e fun _ => expansionsAt_writtenSlot h.sound.table _ _ _

theorem cueWrite (h : InOrder takes counts cues s) (form : Byte) (o : BitVec 16) (r : Byte) (g : CueGroups) :
    InOrder takes counts cues (s.cueWrite form o r g).1 := by
  obtain ⟨-, -, hbank, hcursor⟩ := h.sound.link
  have e := cueWrite_serves s form o r g hbank hcursor h.sound.table
  revert e
  unfold State.cueWrite
  split
  · split
    · exact fun _ => h
    · split
      · exact fun _ => h
      · exact h.writeSlot _ _ _ _
  · exact fun _ => h

/-- With right counts a slot that no run list names is not expanded (R58, R59). -/
theorem expansionsAt_of_unnamed (h : InOrder takes counts cues s) (b : counts) {n : Nat} (hn : s.refsOf n = 0) :
    expansionsAt s.table n = 0 := by
  rw [h.counted b n]
  refine Finset.sum_eq_zero fun j _ => if_neg fun hj => ?_
  have hj : (s.lane j).currentSlot = some n := hj
  have named := (h.refsSound b).1 n
  rw [hn, namedBy_eq_sum] at named
  have := (Finset.sum_eq_zero_iff.1 named.symm) j (Finset.mem_univ j)
  rw [if_pos (Lane.currentSlot_mem hj)] at this
  cases this

theorem cueErase (h : InOrder takes counts cues s) (form : Byte) (o : BitVec 16) :
    InOrder takes counts cues (s.cueErase form o).1 := by
  have e := cueErase_serves s form o
  revert e
  unfold State.cueErase
  split
  · split
    · exact fun _ => h
    · rename_i slot _
      split
      · rename_i hrefs
        refine fun e => h.servedTable e fun b n => ?_
        unfold expansionsAt
        rw [slotAt_dropSlot h.sound.table]
        split
        · rename_i hn
          subst hn
          exact (h.expansionsAt_of_unnamed b (by rw [refsOf_eq]; exact hrefs)).symm
        · rfl
      · exact fun _ => h
  · exact fun _ => h

/-! ## Run lists, arming and disarming (chapter 4) -/

/-- Lane `i`, not ARMED, becomes a lane that is not ARMED either. -/
theorem servedLane (h : InOrder takes counts cues s) {i : LaneId} (hi : (s.lane i).state ≠ .armed)
    {f : CueTable → CueTable} {g : Lane → Lane} (e : Serves s ((s.mapTable f).mapLane i g))
    (htable : ∀ n, expansionsAt (f s.table) n = expansionsAt s.table n)
    (hstate : (g (s.lane i)).state ≠ .armed) (hline : (g (s.lane i)).line = (s.lane i).line)
    (hopen : (g (s.lane i)).openTake = (s.lane i).openTake) :
    InOrder takes counts cues ((s.mapTable f).mapLane i g) := by
  have lane (j : LaneId) : ((s.mapTable f).mapLane i g).lane j = if j = i then g (s.lane i) else s.lane j := by
    rw [State.lane_mapLane]
    rfl
  refine h.served e rfl rfl (fun _ => htable) (fun j => ?_) (fun j => ?_) fun j hj => ?_
  all_goals rw [lane]; split
  · rename_i hj; rw [hj, hopen]
  · rfl
  · rename_i hj; rw [hj, Lane.currentSlot_of_not_armed hstate, Lane.currentSlot_of_not_armed hi]
  · rfl
  · rename_i hji
    subst hji
    exact hj.idle hi hline hopen
  · exact hj

theorem replaceRunList (h : InOrder takes counts cues s) {i : LaneId} (hi : (s.lane i).state ≠ .armed)
    (slots : List Nat) (e : Serves s (s.replaceRunList i slots)) :
    InOrder takes counts cues (s.replaceRunList i slots) :=
  h.servedLane (f := fun t => moveRefs t (s.lane i).runList slots)
    (g := fun l => { l with state := .idle, runList := slots, index := 0 }) hi e (expansionsAt_moveRefs h.sound.table _ _)
    (by simp) rfl rfl

theorem runlistWrite (h : InOrder takes counts cues s) (b : Byte) (l : List (BitVec 16)) :
    InOrder takes counts cues (s.runlistWrite b l).1 := by
  have e := runlistWrite_serves s b l
  revert e
  unfold State.runlistWrite
  dsimp only
  split
  · exact fun _ => h
  · split
    · split
      · exact fun _ => h
      · split
        · exact fun _ => h
        · exact h.replaceRunList (by assumption) _
    · exact fun _ => h

theorem laneArm (h : InOrder takes counts cues s) (b : Byte) : InOrder takes counts cues (s.laneArm b).1 := by
  unfold State.laneArm
  split
  · exact h
  · rename_i i _
    split
    · exact h
    · rename_i n rest hlist
      split
      · rename_i hc
        refine evaluateAt ((h.leave hc.1).expandInto ?_ fun c => (h.lanes c i).1 hc.1) _ _ _
        rw [hlist]
        rfl
      · exact h

theorem disarmLane (h : InOrder takes counts cues s) (i : LaneId) : InOrder takes counts cues (s.disarmLane i) := by
  unfold State.disarmLane
  split
  · exact h
  · rename_i hdone
    have hne : (s.lane i).state ≠ .armed := by rw [hdone]; decide
    have hempty := (h.sound.lane i).1 hne
    exact (h.leave hne).rest (by simp) rfl ⟨hempty.1, hempty.2.1⟩ ⟨rfl, rfl, rfl⟩ fun c => (h.lanes c i).1 hne
  · have noTake := closeOutside_openTake s i s.tracker.pos .disarmed
    have released := (h.closeOutside i s.tracker.pos .disarmed).releaseCue fun _ => noTake
    refine (released.rest (by simp) rfl (mapLane_queue_after_release _ i) ⟨rfl, rfl, rfl⟩ fun _ => ?_).handFeeds _ _
    rw [releaseCue_lane, if_pos rfl]
    exact noTake

theorem laneDisarm (h : InOrder takes counts cues s) (b : Byte) : InOrder takes counts cues (s.laneDisarm b).1 := by
  unfold State.laneDisarm
  split
  · exact h
  · exact h.disarmLane _

/-! ## The other requests -/

theorem setBits (h : InOrder takes counts cues s) (id m : Byte) : InOrder takes counts cues (s.setBits id m).1 := by
  unfold State.setBits
  split
  · exact h
  · exact h.storeMask _ _

theorem clearBits (h : InOrder takes counts cues s) (id m : Byte) : InOrder takes counts cues (s.clearBits id m).1 := by
  unfold State.clearBits
  split
  · exact h
  · exact h.storeMask _ _

theorem statusRead (h : InOrder takes counts cues s) (mask : BitVec 16) :
    InOrder takes counts cues (s.statusRead mask).1 := by
  unfold State.statusRead
  exact fstOf (h.mapLink fun hs => hs)

theorem askReset (h : InOrder takes counts cues s) (scope : Byte) : InOrder takes counts cues (s.askReset scope).1 := by
  unfold State.askReset
  split
  · exact h
  · exact fstOf (h.mapLink fun hs => hs)

theorem rederiveInTach (h : InOrder takes counts cues s) : InOrder takes counts cues s.rederiveInTach :=
  ite (fun _ => h.mapTracker _) fun _ => h

theorem jamTo (h : InOrder takes counts cues s) (x : Nat) : InOrder takes counts cues (s.jamTo x) := by
  have placed : InOrder takes counts cues (s.placePos x) := h.mapTracker _
  have jumped := (placed.rederiveInTach.mapTracker fun t => { t with driftCount := 0 }).emitUpdate s.tracker.pos .jump
  exact ite (fun _ => jumped.enterBySpeed _) fun _ => jumped

theorem positionJam (h : InOrder takes counts cues s) (r : Byte) (st : Stamp) :
    InOrder takes counts cues (s.positionJam r st).1 := by
  unfold State.positionJam
  split
  · exact h
  · split
    · exact h
    · exact h.jamTo _

theorem takeRelease (h : InOrder takes counts cues s) (n : Byte) : InOrder takes counts cues (s.takeRelease n).1 := by
  unfold State.takeRelease
  split
  · exact fstOf (h.mapLog (fun ⟨hlen, hrun⟩ => ⟨Nat.le_trans (releaseTakes_length _ _) hlen, releaseTakes_run hrun⟩)
      takesSound_release)
  · exact h

theorem perform (h : InOrder takes counts cues s) (r : Request) : InOrder takes counts cues (s.perform r).1 := by
  cases r with
  | ping => exact h
  | statusRead mask => exact h.statusRead mask
  | reset scope => exact h.askReset scope
  | settingRead => exact h
  | settingWrite id r v => exact h.settingWrite id r v
  | settingSetBits id mask => exact h.setBits id mask
  | settingClearBits id mask => exact h.clearBits id mask
  | cueSeek bank cursor => exact h.cueSeek bank cursor
  | cueRead form operand count mask view r => exact h.cueRead form operand count mask view r
  | cueWrite form operand r g => exact h.cueWrite form operand r g
  | cueErase form operand => exact h.cueErase form operand
  | runlistWrite lane slots => exact h.runlistWrite lane slots
  | runlistRead => exact h
  | laneArm lane => exact h.laneArm lane
  | laneDisarm lane => exact h.laneDisarm lane
  | laneRead => exact h
  | positionJam r st => exact h.positionJam r st
  | positionRead => exact h
  | takePeek => exact h
  | takeRelease count => exact h.takeRelease count

/-! ## The link (chapter 9) -/

/-- Starting the next reply or notice keeps the link within its sizes. -/
theorem start (h : InOrder takes counts cues s) {f : Link → Link} (hf : s.link.sound → (f s.link).sound) :
    InOrder takes counts cues (s.mapLink fun l => (f l).start) :=
  h.mapLink fun hs => (Link.start_evolves _).sound (hf hs)

theorem performFrame (h : InOrder takes counts cues s) (f : QueuedFrame) :
    InOrder takes counts cues (s.performFrame f).1 := by
  unfold State.performFrame
  split
  · exact h
  · exact h.perform _

theorem executeFrame (h : InOrder takes counts cues s) (f : QueuedFrame) :
    InOrder takes counts cues (s.executeFrame f) := by
  unfold State.executeFrame
  dsimp only
  exact (h.performFrame f).start (f := fun l => Link.drain (l.join _)) fun hs => Link.drain_sound hs

theorem pump (h : InOrder takes counts cues s) (n : Nat) : InOrder takes counts cues (s.pump n) := by
  induction n generalizing s with
  | zero => exact h
  | succ n ih =>
    unfold State.pump
    refine ite (fun _ => h) fun _ => ?_
    split
    · exact h
    · rename_i f rest hq
      refine ih (executeFrame (h.mapLink fun hs => ⟨?_, hs.2⟩) f)
      have := hs.1
      rw [hq] at this
      exact Nat.le_of_succ_le this

theorem runQueue (h : InOrder takes counts cues s) : InOrder takes counts cues s.runQueue := h.pump _

theorem receptionFault (h : InOrder takes counts cues s) : InOrder takes counts cues s.receptionFault :=
  h.raiseFault _

theorem acceptFrame (h : InOrder takes counts cues s) (f : QueuedFrame) :
    InOrder takes counts cues (s.acceptFrame f) := by
  refine ite (fun _ => h.receptionFault) fun _ => ite (fun hroom => ?_) fun _ =>
    ite (fun _ => h.start id) fun _ => h.receptionFault
  refine runQueue (h.mapLink fun hs => ⟨?_, hs.2⟩)
  simp only [List.length_append, List.length_singleton]
  omega

theorem setReceiver (h : InOrder takes counts cues s) (r : Receiver) : InOrder takes counts cues (s.setReceiver r) :=
  h.mapLink id

theorem lockFraming (h : InOrder takes counts cues s) (f : Framing) : InOrder takes counts cues (s.lockFraming f) :=
  h.start (f := fun l => { l with framing := f }) id

theorem fault (h : InOrder takes counts cues s) (r : Receiver) :
    InOrder takes counts cues (s.setReceiver r).receptionFault := (h.setReceiver r).receptionFault

theorem submit (h : InOrder takes counts cues s) (head : FrameHead) (r : Request) :
    InOrder takes counts cues (s.submit head r) := by
  have served := h.withService head.service
  have locked : InOrder takes counts cues (if (s.withService head.service).link.framing = .undecided then
      (s.withService head.service).lockFraming (framingOf head.wire) else s.withService head.service) :=
    ite (fun _ => served.lockFraming _) fun _ => served
  exact ite (fun _ => (locked.setReceiver _).acceptFrame _) fun _ => locked

theorem endFrame (h : InOrder takes counts cues s) (bytes : List Byte) :
    InOrder takes counts cues (s.endFrame bytes) := by
  refine ite (fun _ => ?_) fun _ => h.fault _
  split
  · exact h.fault _
  · exact (h.setReceiver _).acceptFrame _

theorem binaryByte (h : InOrder takes counts cues s) (bytes : List Byte) (b : Byte) :
    InOrder takes counts cues (s.binaryByte bytes b) := by
  cases bytes with
  | nil => exact ite (fun _ => h.setReceiver _) fun _ => h.fault _
  | cons n rest => exact ite (fun _ => h.endFrame _) fun _ => h.setReceiver _

theorem textByte (h : InOrder takes counts cues s) (bytes : List Byte) (half : Option (BitVec 4)) (c : Byte) :
    InOrder takes counts cues (s.textByte bytes half c) := by
  refine ite (fun _ => h) fun _ => ite (fun _ => h.fault _) fun _ => ite (fun _ => ?_) fun _ => ?_
  · split
    · exact h.endFrame _
    · exact h.fault _
  · split
    · exact h.fault _
    · exact h.setReceiver _
    · exact h.setReceiver _

theorem receiveByte (h : InOrder takes counts cues s) (b : Byte) : InOrder takes counts cues (s.receiveByte b) := by
  unfold State.receiveByte
  split
  · exact ite (fun _ => (h.setReceiver _).lockFraming _) fun _ =>
      ite (fun _ => (h.setReceiver _).lockFraming _) fun _ => h
  · split
    · exact h.binaryByte _ b
    all_goals exact ite (fun _ => h.setReceiver _) fun _ => h
  · split
    · exact h.textByte _ _ b
    all_goals exact ite (fun _ => h.setReceiver _) fun _ => h

theorem receiveBytes (h : InOrder takes counts cues s) (bytes : List Byte) :
    InOrder takes counts cues (s.receiveBytes bytes) := foldl (fun b h => h.receiveByte b) bytes h

theorem frameGap (h : InOrder takes counts cues s) : InOrder takes counts cues s.frameGap := by
  unfold State.frameGap
  split
  · exact h
  all_goals exact h.fault _

theorem transmitDone (h : InOrder takes counts cues s) : InOrder takes counts cues s.transmitDone := by
  unfold State.transmitDone
  split
  · exact h
  · exact (h.start (f := fun l => { l with sending := none }) id).runQueue

/-! ## The resets (R21, R62, R74, R131, R174) -/

end Orderly

theorem resetState_expansions : State.reset.expansionsSound := by
  intro n
  simp [State.expansionsOf, State.workedBy, State.reset, slotAt, laneIds, State.lane, Eight.all, Eight.get, Lane.reset,
    Lane.currentSlot]

theorem resetState_lane (i : LaneId) : State.reset.lane i = Lane.reset := by
  fin_cases i <;> rfl

theorem resetState_takes : State.reset.takesSound := by
  refine ⟨fun i n h => ?_, fun r hr => ?_, ?_⟩
  · rw [resetState_lane] at h
    cases h
  · cases hr
  · exact .nil

theorem resetState_cues : State.reset.cuesSound := by
  refine ⟨fun i => ?_, by decide⟩
  rw [resetState_lane]
  exact Lane.cueSound_of_empty rfl rfl rfl

namespace Orderly

variable {takes counts cues : Prop} {s : State}

/-- The part after power-on reset is in order. -/
theorem reset : InOrder takes counts cues State.reset where
  sound := resetState_sound
  takesSound _ := resetState_takes
  refsSound _ := resetState_refs
  counted _ := (expansionsSound_iff _).1 resetState_expansions
  contentsSound _ := resetState_contents
  latency _ := resetState_cues.2
  lanes _ := resetState_cues.1

theorem powerOn : InOrder takes counts cues s.powerOn :=
  reset.elsewhere rfl rfl rfl rfl rfl

theorem fullReset (h : InOrder takes counts cues s) : InOrder takes counts cues s.fullReset :=
  have r : InOrder takes counts cues State.reset := reset
  { r with sound := (fullReset_keeps s).sound h.sound }

/-- After RESET ENGINE no lane works anything and no slot is expanded, every lane is empty and every record CLOSED. -/
theorem engineReset (h : InOrder takes counts cues s) : InOrder takes counts cues s.engineReset where
  sound := (engineReset_keeps s).sound h.sound
  takesSound a := by
    have closed : ∀ r ∈ s.engineReset.log.records, r.closing ≠ none := by
      rw [engineReset_log]
      exact fun r hr => Option.isSome_iff_ne_none.1 (closedBy_closed (h.takesSound a) _ r hr)
    refine ⟨fun i n hn => ?_, fun r hr hc => absurd hc (closed r hr), ?_⟩
    · rw [engineReset_lane] at hn
      cases hn
    · exact List.Pairwise.imp_of_mem (fun ha _ _ hc => absurd hc (closed _ ha))
        (List.pairwise_of_forall (R := fun _ _ => True) fun _ _ => trivial)
  refsSound b := (engineReset_keeps s).refs h.sound (h.refsSound b)
  counted _ n := by
    rw [engineReset_table, expansionsAt, slotAt_engineResetTable]
    refine Eq.trans ?_ (Finset.sum_eq_zero fun j _ => if_neg ?_).symm
    · cases slotAt s.table n <;> rfl
    · rw [State.works, if_neg (by simp), engineReset_lane, Lane.currentSlot_of_not_armed (by simp [Lane.reset])]
      simp
  contentsSound c := (engineReset_keeps s).contents h.sound (h.contentsSound c)
  latency c := by
    rw [engineReset_settings]
    exact h.latency c
  lanes c j := by
    rw [engineReset_lane]
    exact Lane.cueSound_of_empty rfl rfl rfl

end Orderly

/-! ## Every command -/

/-- Every command keeps the part in order (chapters 2 to 9). -/
theorem exec_inOrder {takes counts cues : Prop} {c : Instr} {s t : State} (h : InOrder takes counts cues s)
    (hx : exec c s = .next t) : InOrder takes counts cues t := by
  cases hr : c.request? with
  | some q =>
    rw [exec_of_request (h := q.1) (r := q.2) hr] at hx
    cases hx
    exact h.submit _ _
  | none =>
    have begun := h.beginSample
    cases c <;> simp only [Instr.request?, reduceCtorEq] at hr <;> (injection hx with hx; subst hx)
    case powerOnReset => exact Orderly.powerOn
    case resetFull => exact .ite (fun _ => h.fullReset) fun _ => h
    case resetEngine => exact .ite (fun _ => h.engineReset) fun _ => h
    case frameReceived service bytes => exact (h.withService service).receiveBytes bytes
    case receptionError bytes => exact h.receiveBytes bytes
    case frameGapTimeout => exact h.frameGap
    case transmitComplete service => exact (h.withService service).transmitDone
    case framingStartByte byte => exact h.receiveByte byte
    case wordClockSample ta tb tz => exact h.sample ta tb tz
    case codeRecord bytes => exact .foldl (fun b h => h.cinByte b) bytes h
    case codeRecordGap => exact h.cinGap
    case stall => exact .ite (fun _ => begun.fireStall) fun _ => h
    case dropout => exact .ite (fun _ => begun.fireDropout) fun _ => h
    case holdTimer => exact .ite (fun _ => begun.formHold) fun _ => h
    case clockLost => exact .ite (fun _ => h) fun _ => h.loseClock
    case clockBack => exact .ite (fun _ => h.regainClock) fun _ => h
    case ovlSendComplete => exact h.mapFeeds _
    case coutSendComplete => exact h.mapFeeds _

/-- Every step keeps the part in order. -/
theorem step_inOrder {takes counts cues : Prop} {s t : State} (h : InOrder takes counts cues s)
    (hx : step s = .next t) : InOrder takes counts cues t := by
  rcases step_eq_next hx with rfl | ⟨c, rest, hx⟩
  · exact h
  · exact exec_inOrder (s := { s with pending := rest }) (h.elsewhere rfl rfl rfl rfl rfl) hx

/-- Settles O4: a sound part is in order as far as its takes and its cues are, and every step keeps it so. -/
theorem stepKeepsTheStateSound : Obligations.StepKeepsTheStateSound := by
  intro s t hs hx
  have order : InOrder s.takesSound False (s.contentsSound ∧ s.cuesSound) s :=
    ⟨hs, id, False.elim, False.elim, And.left, fun h => h.2.2, fun h => h.2.1⟩
  have kept := step_inOrder order hx
  exact ⟨kept.sound, kept.takesSound, fun hc hq => ⟨kept.lanes ⟨hc, hq⟩, kept.latency ⟨hc, hq⟩⟩⟩

/-- Settles O6: a sound part with right counts is in order as far as they go, and every step keeps it so. -/
theorem stepKeepsReferenceCountsRight : Obligations.StepKeepsReferenceCountsRight := by
  intro s t hs hrefs hx
  have order : InOrder False s.expansionsSound False s :=
    ⟨hs, False.elim, fun _ => hrefs, (expansionsSound_iff s).1, False.elim, False.elim, False.elim⟩
  have kept := step_inOrder order hx
  refine ⟨?_, fun he => (expansionsSound_iff t).2 (kept.counted he)⟩
  rcases step_eq_next hx with rfl | ⟨c, rest, hx⟩
  · exact hrefs
  · by_cases hp : c = .powerOnReset
    · subst hp
      cases hx
      exact powerOn_refs _
    · exact (exec_keeps hp hx).refs hs hrefs

/-- Settles O3: the reset state by its own facts. -/
theorem resetStateIsSound : Obligations.ResetStateIsSound :=
  ⟨resetState_sound, resetState_motion, resetState_refs, resetState_contents, resetState_labels, resetState_expansions,
    resetState_takes, resetState_cues⟩

end Sys2Proof.Machine

/-! The addressing of cue slots and the requests that seek, read, write and erase them (chapter 3). -/

namespace Sys2Proof.Machine

variable {s : State}

/-- A request row on a ready link, when it is known what the request does and answers. -/
theorem exec_answers {c : Instr} {h : FrameHead} {r : Request} {t : State} {a : Answer}
    (hc : c.request? = some (h, r)) (hr : s.ready h) (ha : (s.withService h.service).perform r = (t, a)) :
    exec c s = .next (t.replied h r.kind a) := by
  rw [exec_ready hc hr, ha]

/-! ## CUE_SEEK (R65) -/

/-- Settles O39: a seek is one test of both fields. -/
theorem cueSeekSetsBankAndCursor : Obligations.CueSeekSetsBankAndCursor := by
  intro s h bank cursor hr
  rw [exec_ready (c := .cueSeek h bank cursor) (r := .cueSeek bank cursor) rfl hr]
  simp only [State.perform, State.cueSeek]
  split
  · rfl
  · rfl

/-! ## Addressing (R56, R63, R64) -/

/-- Only the CURSOR form moves the cursor (R64). -/
theorem advanceCursor_of_ne {form : Byte} (hf : form ≠ 2) (n : Nat) : s.advanceCursor form n = s := by
  have hform : isCursorForm form = false := decide_eq_false hf
  simp only [State.advanceCursor, State.setCursor, cursorAfter, hform, Bool.false_eq_true, if_false]
  rfl

/-- The slots of a table are those of its first entry and of the rest. -/
theorem slotAt_cons_eq_some {j : Nat} {w : Slot} {t : CueTable} (hw : tableWf ((j, w) :: t) = true) {k : Nat}
    {v : Slot} : slotAt ((j, w) :: t) k = some v ↔ k = j ∧ v = w ∨ slotAt t k = some v := by
  obtain ⟨-, habove, -⟩ := (tableWf_cons (j, w) t).1 hw
  by_cases hk : k = j
  · subst hk
    simp [slotAt, slotAt_of_allAbove habove k (Nat.le_refl k), eq_comm]
  · simp [slotAt, hk, Ne.symm hk]

/-- A label is not found when no slot holds it live (R56). -/
theorem findLabel_eq_none {t : CueTable} (hw : tableWf t = true) {l : BitVec 16} :
    findLabel t l = none ↔ ∀ k v, slotAt t k = some v → v.live.label ≠ l := by
  induction t with
  | nil => simp [findLabel, slotAt]
  | cons e t ih =>
    obtain ⟨j, w⟩ := e
    have htail := ((tableWf_cons (j, w) t).1 hw).2.2
    simp only [slotAt_cons_eq_some hw, findLabel]
    split
    · simp only [reduceCtorEq, false_iff]
      exact fun h => h j w (.inl ⟨rfl, rfl⟩) ‹_›
    · rw [ih htail]
      exact ⟨fun h k v hv => hv.elim (fun e => e.2 ▸ ‹_›) (h k v), fun h k v hv => h k v (.inr hv)⟩

/-- A slot that a label finds is DEFINED and holds the label live (R56, R63). -/
theorem slotAt_of_findLabel {t : CueTable} (hw : tableWf t = true) {l : BitVec 16} {k : Nat}
    (h : findLabel t l = some k) : ∃ v, slotAt t k = some v ∧ v.live.label = l := by
  induction t with
  | nil => cases h
  | cons e t ih =>
    obtain ⟨j, w⟩ := e
    simp only [slotAt_cons_eq_some hw]
    rw [findLabel] at h
    split at h
    · cases h
      exact ⟨w, .inl ⟨rfl, rfl⟩, ‹_›⟩
    · obtain ⟨v, hv, hl⟩ := ih ((tableWf_cons (j, w) t).1 hw).2.2 h
      exact ⟨v, .inr hv, hl⟩

/-- Settles O40: the forms of addressing one by one, the label form by the uniqueness of labels. -/
theorem addressingFormsNameTheirSlots : Obligations.AddressingFormsNameTheirSlots := by
  intro s operand n hs
  refine ⟨rfl, rfl, rfl, ⟨_, rfl, ?_, ?_⟩, fun hlabels k v hv hl => ?_, (findLabel_eq_none hs.1).2,
    rfl, fun form hf => advanceCursor_of_ne hf n⟩
  · omega
  · omega
  · show findLabel s.table operand = some k
    cases hfound : findLabel s.table operand with
    | none => exact absurd hl ((findLabel_eq_none hs.1).1 hfound k v hv)
    | some m =>
      obtain ⟨w, hw, hwl⟩ := slotAt_of_findLabel hs.1 hfound
      rw [(labelsSound_iff s).1 hlabels m k w v operand hw hv (.inl hwl) (.inl hl)]

end Sys2Proof.Machine

/-! CUE_READ (R70 to R72) and CUE_ERASE (R73). -/

namespace Sys2Proof.Machine

variable {s : State}

/-! ## The checks of CUE_READ (R63, R70, R71) -/

theorem formOk_of_beyond {form : Byte} (h : 4 < form.toNat) (operand : BitVec 16) : formOk form operand = false := by
  unfold formOk
  split
  case h_6 => rfl
  all_goals omega

theorem viewOfCode_of_beyond {view : Byte} (h : 1 < view.toNat) : View.ofCode view = none := by
  have h0 : view ≠ 0 := fun e => by subst e; simp at h
  have h1 : view ≠ 1 := fun e => by subst e; simp at h
  rw [View.ofCode, if_neg h0, if_neg h1]

/-- A read that fails a check is refused before its slot is looked at (R70, R71; log entry 18). -/
theorem cueRead_refuses {form count mask view rounding : Byte} {operand : BitVec 16}
    (h : formOk form operand = false ∨ countOk form count = false ∨ View.ofCode view = none
      ∨ selectRounding s.settings.rounding rounding = none) :
    s.cueRead form operand count mask view rounding = (s, .refuse .badField) := by
  unfold State.cueRead
  split
  · rename_i hchecks hv hm
    simp only [Bool.and_eq_true] at hchecks
    simp_all
  · rfl

/-! ## The entries of a read (R70 to R72) -/

theorem readSlots_single (mode : Rounding) (view : View) (mask : Byte) (n : Nat) :
    s.readSlots mode view mask [n] =
      (s.readSlot mode view mask n).map fun e => ([e.1], e.2.union OutFlags.clear) := by
  simp only [State.readSlots]
  cases s.readSlot mode view mask n <;> rfl

/-- Every slot reads in view LIVE, an EMPTY one as such. -/
theorem readSlot_live (mode : Rounding) (mask : Byte) (n : Nat) : ∃ e, s.readSlot mode .live mask n = some e
    ∧ e.1.slot = n ∧ (e.1.defined = none ↔ slotAt s.table n = none) := by
  unfold State.readSlot
  cases slotAt s.table n with
  | none => exact ⟨_, rfl, rfl, by simp⟩
  | some v => exact ⟨_, rfl, rfl, by simp⟩

theorem readSlots_live (mode : Rounding) (mask : Byte) (l : List Nat) :
    ∃ entries flags, s.readSlots mode .live mask l = some (entries, flags) ∧ entries.map (·.slot) = l
      ∧ ∀ e ∈ entries, (e.defined = none ↔ slotAt s.table e.slot = none) := by
  induction l with
  | nil => exact ⟨[], _, rfl, rfl, by simp⟩
  | cons n l ih =>
    obtain ⟨entries, flags, hread, hslots, hdefined⟩ := ih
    obtain ⟨e, he, hslot, hdef⟩ := readSlot_live (s := s) mode mask n
    refine ⟨e.1 :: entries, e.2.union flags, ?_, by rw [List.map_cons, hslot, hslots], ?_⟩
    · simp only [State.readSlots, he, hread]
    · rintro x (_ | ⟨_, hx⟩)
      · rw [hslot]
        exact hdef
      · exact hdefined x hx

section Checked

variable {form count mask view rounding : Byte} {operand : BitVec 16} {mode : Rounding} {v : View} {slot : Nat}
  (hform : formOk form operand = true) (hcount : countOk form count = true) (hview : View.ofCode view = some v)
  (hmode : selectRounding s.settings.rounding rounding = some mode) (haddress : s.addressed form operand = some slot)

include hform hcount hview hmode haddress

theorem cueRead_notFound (h : s.readSlots mode v mask (s.slotsToRead form slot count.toNat) = none) :
    s.cueRead form operand count mask view rounding = (s, .refuse .notFound) := by
  simp only [State.cueRead, hform, hcount, hview, hmode, haddress, h, Bool.and_self]

theorem cueRead_reports {r : List CueEntry × OutFlags}
    (h : s.readSlots mode v mask (s.slotsToRead form slot count.toNat) = some r) :
    s.cueRead form operand count mask view rounding =
      (s.advanceCursor form count.toNat, .ok r.2 (.cueRead r.1)) := by
  simp only [State.cueRead, hform, hcount, hview, hmode, haddress, h, Bool.and_self]

end Checked

/-- A read of one slot by its number that passes its checks reports the slot in the view, or does not find it. -/
theorem cueRead_absolute {operand : BitVec 16} {mask view rounding : Byte} {mode : Rounding} {v : View}
    (hslot : operand.toNat ≤ 511) (hview : View.ofCode view = some v)
    (hmode : selectRounding s.settings.rounding rounding = some mode) :
    s.cueRead 0 operand 1 mask view rounding =
      (s, ((s.readSlot mode v mask operand.toNat).map fun e =>
        Answer.ok (e.2.union OutFlags.clear) (.cueRead [e.1])).getD (.refuse .notFound)) := by
  have hform : formOk 0 operand = true := decide_eq_true hslot
  have hread : s.readSlots mode v mask (s.slotsToRead 0 operand.toNat (1 : Byte).toNat) = _ :=
    readSlots_single mode v mask operand.toNat
  cases hr : s.readSlot mode v mask operand.toNat with
  | none =>
    rw [hr] at hread
    exact cueRead_notFound hform rfl hview hmode rfl hread
  | some e =>
    rw [hr] at hread
    refine (cueRead_reports hform rfl hview hmode rfl hread).trans ?_
    rw [advanceCursor_of_ne (by decide)]
    rfl

/-- An EMPTY slot reads as such in view LIVE and is not found in view PENDING (R70). -/
theorem readSlot_of_empty {n : Nat} (h : slotAt s.table n = none) (mode : Rounding) (mask : Byte) :
    s.readSlot mode .live mask n = some ({ slot := n, defined := none }, OutFlags.clear)
      ∧ s.readSlot mode .pending mask n = none := by
  simp only [State.readSlot, h, and_self]

/-- A DEFINED slot reports the groups of its contents in the view, and is not found when it has none (R70, R72). -/
theorem readSlot_of_defined {n : Nat} {v : Slot} (h : slotAt s.table n = some v) (mode : Rounding) (view : View)
    (mask : Byte) : s.readSlot mode view mask n = (v.view view).map fun c =>
      ({ slot := n, defined := some (view, (reportGroups s.settings.standard mode mask v c).1) },
        (reportGroups s.settings.standard mode mask v c).2) := by
  simp only [State.readSlot, h]

/-- A CUE_READ on a ready link, when it is known what the read does and answers. -/
theorem exec_cueRead {h : FrameHead} (hr : s.ready h) {form count mask view rounding : Byte} {operand : BitVec 16}
    {t : State} {a : Answer}
    (ha : (s.withService h.service).cueRead form operand count mask view rounding = (t, a)) :
    exec (.cueRead h form operand count mask view rounding) s = .next (t.replied h 0x09 a) :=
  exec_answers (r := .cueRead form operand count mask view rounding) rfl hr ha

/-- Settles O41: the refusals by the checks, a read by number from its slot, a read by the cursor from all its slots. -/
theorem cueReadReportsSlots : Obligations.CueReadReportsSlots := by
  intro s h operand mask rounding hr u read
  have hu : ∀ mode, selectRounding s.settings.rounding rounding = some mode →
    selectRounding u.settings.rounding rounding = some mode := fun _ h => h
  refine ⟨fun form count view hbad => exec_cueRead hr (cueRead_refuses ?_), fun mode hm => ⟨fun hslot hempty => ?_,
    fun v hslot hv => ?_, fun count hlow hhigh => ?_⟩⟩
  · rcases hbad with hform | ⟨rfl, hslot⟩ | ⟨rfl, hcount⟩ | hview | hmode
    · exact .inl (formOk_of_beyond hform operand)
    · exact .inl (decide_eq_false (Nat.not_le.2 hslot))
    · refine .inr (.inl ?_)
      rw [countOk, decide_eq_false hcount]
      simp [isCursorForm]
    · exact .inr (.inr (.inl (viewOfCode_of_beyond hview)))
    · exact .inr (.inr (.inr hmode))
  · obtain ⟨hlive, hpending⟩ := readSlot_of_empty (s := u) hempty mode mask
    refine ⟨exec_cueRead hr ?_, exec_cueRead hr ?_⟩
    · rw [cueRead_absolute (v := .live) hslot rfl (hu mode hm), hlive]
      rfl
    · rw [cueRead_absolute (v := .pending) hslot rfl (hu mode hm), hpending]
      rfl
  · have entry := readSlot_of_defined (s := u) hv mode
    refine ⟨exec_cueRead hr ?_, fun hnone => exec_cueRead hr ?_, fun c hc => exec_cueRead hr ?_⟩
    · rw [cueRead_absolute (v := .live) hslot rfl (hu mode hm), entry]
      rfl
    · rw [cueRead_absolute (v := .pending) hslot rfl (hu mode hm), entry, Slot.view, hnone]
      rfl
    · rw [cueRead_absolute (v := .pending) hslot rfl (hu mode hm), entry, Slot.view, hc]
      rfl
  · obtain ⟨entries, flags, hread, hslots, hdefined⟩ :=
      readSlots_live (s := u) mode mask (u.slotsToRead 2 (64 * u.link.bank + u.link.cursor) count.toNat)
    have hcount : countOk 2 count = true := by simp [countOk, isCursorForm, hlow, hhigh]
    refine ⟨entries, flags, exec_cueRead hr ?_, hslots, hdefined⟩
    exact cueRead_reports (s := u) (v := .live) rfl hcount rfl (hu mode hm) rfl hread

/-! ## CUE_ERASE (R73) -/

/-- Settles O44: a slot that a run list names is refused, and any other leaves the table. -/
theorem cueEraseEmptiesAnUnusedSlot : Obligations.CueEraseEmptiesAnUnusedSlot := by
  intro s h slot hr hs hslot
  have hform : formOk 0 slot = true := decide_eq_true hslot
  have haddress : (s.withService h.service).addressed 0 slot = some slot.toNat := rfl
  refine ⟨fun hrefs => ?_, fun hrefs => ⟨dropSlot s.table slot.toNat, ?_, ?_, fun n hn => ?_⟩⟩
  · refine exec_answers (c := .cueErase h 0 slot) (r := .cueErase 0 slot) rfl hr ?_
    rw [refsOf_eq] at hrefs
    simp only [State.perform, State.cueErase, hform, haddress, if_true]
    exact if_neg hrefs
  · refine exec_answers (c := .cueErase h 0 slot) (r := .cueErase 0 slot) rfl hr ?_
    rw [refsOf_eq] at hrefs
    simp only [State.perform, State.cueErase, hform, haddress, if_true]
    exact if_pos hrefs
  · rw [slotAt_dropSlot hs.1, if_pos rfl]
  · rw [slotAt_dropSlot hs.1, if_neg hn]

end Sys2Proof.Machine

/-! CUE_WRITE (R66 to R69): its checks in their order, the creation of a cue, and the write of a DEFINED slot. -/

namespace Sys2Proof.Machine

variable {s : State} {form rounding : Byte} {n : Nat} {mode : Rounding} {groups : CueGroups}

/-! ## The checks of R67 and the write behind them -/

section Checked

variable {old : Option Slot} (hold : slotAt s.table n = old)

include hold

theorem writeSlot_of_refusal {st : Status} (h : groupsRefusal groups old = some st) :
    s.writeSlot form n mode groups = (s, .refuse st) := by
  simp only [State.writeSlot, hold, h]

theorem writeSlot_of_badLabel (hgroups : groupsRefusal groups old = none)
    (h : legaliseGroups groups s.settings.standard mode = none) :
    s.writeSlot form n mode groups = (s, .refuse .badLabel) := by
  simp only [State.writeSlot, hold, hgroups, h]

theorem writeSlot_of_contentsRefusal {g : LegalGroups} {st : Status} (hgroups : groupsRefusal groups old = none)
    (hlegal : legaliseGroups groups s.settings.standard mode = some g)
    (h : s.contentsRefusal n g ((writeBase old).1.write g) = some st) :
    s.writeSlot form n mode groups = (s, .refuse st) := by
  simp only [State.writeSlot, hold, hgroups, hlegal, h]

theorem writeSlot_writes {g : LegalGroups} {base : Contents × View} (hbase : writeBase old = base)
    (hgroups : groupsRefusal groups old = none)
    (hlegal : legaliseGroups groups s.settings.standard mode = some g)
    (h : s.contentsRefusal n g (base.1.write g) = none) :
    s.writeSlot form n mode groups =
      ((s.mapTable fun t => putSlot t n (writtenSlot old base.2 (base.1.write g))).advanceCursor form 1,
        .ok g.flags (.cueWrite n base.2 g.echo)) := by
  subst hbase
  simp only [State.writeSlot, hold, hgroups, hlegal, h]

end Checked

/-- A write to a slot named by its number. -/
theorem cueWrite_absolute {slot : BitVec 16} (hslot : slot.toNat ≤ 511)
    (hmode : selectRounding s.settings.rounding rounding = some mode) :
    s.cueWrite 0 slot rounding groups = s.writeSlot 0 slot.toNat mode groups := by
  have hform : formOk 0 slot = true := decide_eq_true hslot
  have haddress : s.addressed 0 slot = some slot.toNat := rfl
  simp only [State.cueWrite, hform, haddress, hmode, if_true]

/-- A CUE_WRITE to a slot named by its number on a ready link, when it is known what the write does and answers. -/
theorem exec_cueWrite {h : FrameHead} (hr : s.ready h) {slot : BitVec 16} (hslot : slot.toNat ≤ 511)
    (hmode : selectRounding s.settings.rounding rounding = some mode) {t : State} {a : Answer}
    (ha : (s.withService h.service).writeSlot 0 slot.toNat mode groups = (t, a)) :
    exec (.cueWrite h 0 slot rounding groups) s = .next (t.replied h 0x0A a) := by
  refine exec_answers (r := .cueWrite 0 slot rounding groups) rfl hr ?_
  rw [State.perform, cueWrite_absolute (s := s.withService h.service) hslot hmode, ha]

/-! ## The creation of a cue (R68) -/

/-- A creation without LABEL or IN is refused (R67, check 5; R68). -/
theorem groupsRefusal_of_bare (hinfo : groups.info = false) (h : groups.label = none ∨ groups.inPoint = none) :
    groupsRefusal groups none = some .badField := by
  unfold groupsRefusal
  split
  · rfl
  · rw [hinfo, if_neg Bool.false_ne_true, if_pos]
    exact ⟨rfl, h.imp (fun h => by rw [h]; rfl) fun h => by rw [h]; rfl⟩

/-- The groups of a write of LABEL and IN alone. -/
def labelAndIn (label : BitVec 16) (stamp : Stamp) : CueGroups :=
  { label := some label, inPoint := some stamp, outPoint := none, streamer := none, beeps := none, tail := none,
    flags := none, info := false }

/-- Those groups taken in. -/
def labelAndInTaken (label : BitVec 16) (x : TakenStamp) : LegalGroups :=
  { label := some label, inPoint := some x, outPoint := none, streamer := none, beeps := none, tail := none,
    record := none, flags := (x.flags.union OutFlags.clear).union OutFlags.clear }

theorem legaliseGroups_labelAndIn (std : Standard) (label : BitVec 16) (stamp : Stamp) :
    legaliseGroups (labelAndIn label stamp) std mode = (takeStamp std mode stamp).map (labelAndInTaken label) := by
  simp only [legaliseGroups, labelAndIn, takeInGroup, takeOutGroup]
  cases takeStamp std mode stamp <;> rfl

theorem labelTaken_iff (t : CueTable) (n : Nat) (l : BitVec 16) : labelTaken t n l = true ↔
    ∃ e ∈ t, e.1 ≠ n ∧ (e.2.live.label = l ∨ e.2.pending.map (·.label) = some l) := by
  simp only [labelTaken, List.any_eq_true, Bool.and_eq_true, Bool.or_eq_true, decide_eq_true_eq]

/-- A cue without OUT passes the span test, so its label decides (R54, R56). -/
theorem contentsRefusal_of_open {g : LegalGroups} {c : Contents} {l : BitVec 16} (hout : c.outPoint = none)
    (hl : g.label = some l) :
    s.contentsRefusal n g c = if labelTaken s.table n l = true then some .duplicate else none := by
  have hspan : c.spanOk s.settings.standard = true := by simp [Contents.spanOk, hout]
  simp only [State.contentsRefusal, hspan, hl, Bool.true_eq_false, if_false]

/-- Settles O42: the checks of the write in their order, and the contents of a creation. -/
theorem cueWriteCreatesACue : Obligations.CueWriteCreatesACue := by
  intro s h slot label rounding mode stamp hr hslot hempty hmode u groups write
  have hold : slotAt u.table slot.toNat = none := hempty
  have accepted : groupsRefusal (labelAndIn label stamp) none = none := rfl
  have taken := legaliseGroups_labelAndIn (mode := mode) s.settings.standard label stamp
  refine ⟨fun g hinfo hbare => ?_, fun hbad => ?_, fun x hx => ⟨fun hdup => ?_, fun hfree => ?_⟩⟩
  · exact exec_cueWrite hr hslot hmode (writeSlot_of_refusal hold (groupsRefusal_of_bare hinfo hbare))
  · rw [hbad] at taken
    exact exec_cueWrite hr hslot hmode (writeSlot_of_badLabel hold accepted taken)
  · rw [hx] at taken
    refine exec_cueWrite hr hslot hmode (writeSlot_of_contentsRefusal hold accepted taken ?_)
    exact (contentsRefusal_of_open (l := label) rfl rfl).trans (if_pos ((labelTaken_iff _ _ _).2 hdup))
  · rw [hx] at taken
    refine exec_cueWrite hr hslot hmode ((writeSlot_writes hold rfl accepted taken ?_).trans ?_)
    · refine (contentsRefusal_of_open (l := label) rfl rfl).trans (if_neg fun htaken => ?_)
      obtain ⟨e, he, -, hl⟩ := (labelTaken_iff _ _ _).1 htaken
      exact hl.elim (hfree e he).1 (hfree e he).2
    · rw [advanceCursor_of_ne (by decide)]
      rfl

/-! ## The write of a DEFINED slot (R60, R69) -/

/-- The groups of a write of TAIL and FLAGS, and of INFO besides. -/
def tailAndFlags (tail f : Byte) (info : Bool) : CueGroups :=
  { label := none, inPoint := none, outPoint := none, streamer := none, beeps := none, tail := some tail,
    flags := some f, info := info }

/-- Those groups taken in: the tail is clamped (R55). -/
def tailAndFlagsTaken (tail : Byte) (record : Bool) : LegalGroups :=
  { label := none, inPoint := none, outPoint := none, streamer := none, beeps := none, tail := some (min tail.toNat 48),
    record := some record, flags := { OutFlags.clear with clamped := decide (48 < tail.toNat) } }

theorem legaliseGroups_tailAndFlags (std : Standard) (tail : Byte) (record : Bool) :
    legaliseGroups (tailAndFlags tail (boolByte record) false) std mode = some (tailAndFlagsTaken tail record) := by
  have clamps : decide (capped 48 tail ≠ tail.toNat) = decide (48 < tail.toNat) := by
    unfold capped
    exact decide_eq_decide.2 (by omega)
  have flag : decide (boolByte record = 1) = record := by cases record <;> rfl
  simp only [legaliseGroups, tailAndFlags, takeInGroup, takeOutGroup, groupsClamp, clamps, Option.map_some, flag]
  rfl

/-- Settles O43: the refusals by the mask and the FLAGS value, and the write to the view that the expansions ask for. -/
theorem cueWriteKeepsUnselectedGroups : Obligations.CueWriteKeepsUnselectedGroups := by
  intro s h slot rounding tail record v hr hslot hv hlegal hmode u groups write change done
  obtain ⟨mode, hmode⟩ := Option.isSome_iff_exists.1 hmode
  have hold : slotAt u.table slot.toNat = some v := hv
  have accepted : groupsRefusal (tailAndFlags tail (boolByte record) false) (some v) = none := by cases record <;> rfl
  have taken := legaliseGroups_tailAndFlags (mode := mode) s.settings.standard tail record
  have passes {c : Contents} (hc : c.legal s.settings.standard) :
      u.contentsRefusal slot.toNat (tailAndFlagsTaken tail record)
        (c.write (tailAndFlagsTaken tail record)) = none := by
    obtain ⟨-, -, -, -, -, -, -, -, -, -, hspan⟩ := hc
    have kept : (c.write (tailAndFlagsTaken tail record)).spanOk u.settings.standard = true := hspan
    rw [State.contentsRefusal, kept]
    rfl
  refine ⟨fun f => ?_, fun f hf => ?_, fun h0 => ?_, fun h0 => ?_⟩
  · exact exec_cueWrite hr hslot hmode (writeSlot_of_refusal hold rfl)
  · exact exec_cueWrite hr hslot hmode (writeSlot_of_refusal hold (if_neg (Nat.not_le.2 hf)))
  · have hbase : writeBase (some v) = (v.live, .live) := if_pos h0
    refine exec_cueWrite hr hslot hmode ((writeSlot_writes hold hbase accepted taken (passes hlegal.1)).trans ?_)
    rw [advanceCursor_of_ne (by decide)]
    rfl
  · have hbase : writeBase (some v) = (v.pending.getD v.live, .pending) := if_neg h0
    have legal : (v.pending.getD v.live).legal s.settings.standard := by
      cases hp : v.pending with
      | none => exact hlegal.1
      | some c => exact hlegal.2.1 c hp
    refine exec_cueWrite hr hslot hmode ((writeSlot_writes hold hbase accepted taken (passes legal)).trans ?_)
    rw [advanceCursor_of_ne (by decide)]
    rfl

end Sys2Proof.Machine

/-! RUNLIST_WRITE (R75, R77, R78). -/

namespace Sys2Proof.Machine

variable {s : State}

/-! ## A lane named by its byte -/

theorem laneOfByte_of_lane {i : LaneId} {b : Byte} (h : i.val = b.toNat) : laneOfByte b = some i := by
  have hb : b.toNat < 8 := h ▸ i.isLt
  rw [laneOfByte, dif_pos hb]
  exact congrArg some (Fin.ext h.symm)

theorem laneOfByte_of_beyond {b : Byte} (h : 8 ≤ b.toNat) : laneOfByte b = none := dif_neg (Nat.not_lt.2 h)

/-! ## The checks of RUNLIST_WRITE (R75, R77) -/

/-- No index is picked when the test picks none. -/
theorem firstIndex_eq_none {bad : Nat → Nat → Bool} {l : List Nat} {k : Nat}
    (h : ∀ j (hj : j < l.length), bad (k + j) l[j] = false) : firstIndex bad k l = none := by
  induction l generalizing k with
  | nil => rfl
  | cons n l ih =>
    have first : bad k n = false := h 0 (by simp)
    rw [firstIndex, first, if_neg Bool.false_ne_true]
    refine ih fun j hj => ?_
    have := h (j + 1) (by simpa using hj)
    rwa [← Nat.add_assoc, Nat.add_right_comm, List.getElem_cons_succ] at this

theorem duplicateIndex_of_nodup {l : List Nat} (h : l.Nodup) : duplicateIndex l = none := by
  refine firstIndex_eq_none fun j hj => ?_
  rw [Nat.zero_add, Bool.eq_false_iff, Ne, List.contains_iff_mem, List.mem_take_iff_getElem]
  rintro ⟨i, hi, heq⟩
  have := (List.Nodup.getElem_inj_iff h).1 heq
  omega

theorem emptyIndex_of_defined {t : CueTable} {l : List Nat} (h : ∀ n ∈ l, (slotAt t n).isSome = true) :
    emptyIndex t l = none := by
  refine firstIndex_eq_none fun j hj => ?_
  rw [← Option.not_isSome, h _ (List.getElem_mem hj)]
  rfl

/-- Two entries side by side are neighbours. -/
theorem neighbours_infix {l : List Nat} {j : Nat} (hj : j + 1 < l.length) : [l[j], l[j + 1]] <:+: l := by
  refine ⟨l.take j, l.drop (j + 2), ?_⟩
  rw [List.append_assoc, List.cons_append, List.cons_append, List.nil_append, List.getElem_cons_drop,
    List.getElem_cons_drop, List.take_append_drop]

section Neighbours

variable {l : List Nat} (h : ∀ a b, [a, b] <:+: l → s.pairOk a b = true)

include h

theorem overlapIndex_of_neighbours : s.overlapIndex l = none := by
  refine firstIndex_eq_none fun j hj => ?_
  rw [Nat.zero_add]
  cases j with
  | zero => rfl
  | succ j =>
    simp only [List.getElem?_eq_getElem (Nat.lt_of_succ_lt hj), h _ _ (neighbours_infix hj), Bool.not_true]

/-- An entry that passes the overlap test with the next one has an end (R77). -/
theorem openIndex_of_neighbours : openIndex s.table l = none := by
  refine firstIndex_eq_none fun j hj => ?_
  rw [Nat.zero_add]
  by_cases hnext : j + 1 < l.length
  · have ok := h _ _ (neighbours_infix hnext)
    have closed : isOpenCue s.table l[j] = false := by
      unfold State.pairOk at ok
      unfold isOpenCue
      split at ok
      · rename_i x y hx hy
        rw [hx]
        cases hout : x.live.outPoint with
        | none => simp [Contents.endPos, hout] at ok
        | some out => exact congrArg Option.isNone hout
      · cases ok
    rw [closed, Bool.and_false]
  · rw [decide_eq_false hnext, Bool.false_and]

theorem runListRefusal_of_neighbours (hn : l.Nodup) (hd : ∀ n ∈ l, (slotAt s.table n).isSome = true) :
    s.runListRefusal l = none := by
  simp only [State.runListRefusal, duplicateIndex_of_nodup hn, emptyIndex_of_defined hd, openIndex_of_neighbours h,
    overlapIndex_of_neighbours h]

end Neighbours

/-! ## The reference counts (R58, R78) -/

/-- A slot gains 1 when the new list names it and loses 1 when the old one did. -/
theorem slotAt_moveRefs {t : CueTable} (hw : tableWf t = true) {before after : List Nat} (hb : before.Nodup)
    (ha : after.Nodup) (n : Nat) : slotAt (moveRefs t before after) n = (slotAt t n).map fun v =>
      { v with refs := v.refs + (if n ∈ after then 1 else 0) - (if n ∈ before then 1 else 0) } := by
  unfold moveRefs
  dsimp only
  rw [slotAt_changeAll (tableWf_changeAll hw _ _) _ hb, slotAt_changeAll hw _ ha]
  cases slotAt t n <;> by_cases h1 : n ∈ before <;> by_cases h2 : n ∈ after <;> simp [h1, h2]

/-- Settles O45: the checks pass, and the accepted list replaces the old one. -/
theorem runlistWriteReplacesTheList : Obligations.RunlistWriteReplacesTheList := by
  intro s h i slots hr hs hold hstate hlen hnodup hdefined hpairs
  have defined : ∀ n ∈ slots.map BitVec.toNat, (slotAt s.table n).isSome = true := by simpa using hdefined
  have inTable : (slots.map BitVec.toNat).all (fun n => decide (n ≤ 511)) = true := by
    refine List.all_eq_true.2 fun n hn => decide_eq_true ?_
    obtain ⟨v, hv⟩ := Option.isSome_iff_exists.1 (defined n hn)
    exact Nat.le_of_lt_succ (slotAt_lt hs.1 hv)
  have byte : i.val = (BitVec.ofNat 8 i.val).toNat := by
    rw [BitVec.toNat_ofNat]
    omega
  refine ⟨moveRefs s.table (s.lane i).runList (slots.map BitVec.toNat), ?_, slotAt_moveRefs hs.1 hold hnodup⟩
  refine exec_answers (r := .runlistWrite (BitVec.ofNat 8 i.val) slots) rfl hr ?_
  have accepted : (s.withService h.service).runListRefusal (slots.map BitVec.toNat) = none :=
    runListRefusal_of_neighbours (s := s.withService h.service) hpairs hnodup defined
  have idle : ((s.withService h.service).lane i).state ≠ .armed := hstate
  simp only [State.perform, State.runlistWrite, laneOfByte_of_lane byte, List.length_map, hlen, inTable, and_self,
    if_true, idle, if_false, accepted]
  rfl

end Sys2Proof.Machine

/-! LANE_DISARM (R59, R61, R84, R107, R126). -/

namespace Sys2Proof.Machine

variable {s : State} {i : LaneId}

/-! ## Two changes of one lane -/

theorem mapLane_mapLane (f g : Lane → Lane) : (s.mapLane i f).mapLane i g = s.mapLane i fun l => g (f l) := by
  have lanes : ((s.lanes.set i (f (s.lanes.get i))).set i (g ((s.lanes.set i (f (s.lanes.get i))).get i))) =
      s.lanes.set i (g (f (s.lanes.get i))) := by
    refine Eight.ext_get fun j => ?_
    simp only [Eight.get_set]
    split
    · rfl
    · rfl
  simp only [State.mapLane, lanes]

theorem mapLane_of_same {f : Lane → Lane} (h : f (s.lane i) = s.lane i) : s.mapLane i f = s := by
  have lanes : s.lanes.set i (f (s.lanes.get i)) = s.lanes := by
    refine Eight.ext_get fun j => ?_
    rw [Eight.get_set]
    split
    · rename_i hj
      subst hj
      exact h
    · rfl
  rw [State.mapLane, lanes]

/-! ## What a lane hands (R100, R101) -/

/-- A lane with an empty stack and a low punch line shows nothing and sounds nothing. -/
theorem Lane.derived_of_bare {l : Lane} (hs : l.stack = []) (hp : l.punchLine = false) : l.derived = LaneCopy.off := by
  simp [Lane.derived, Lane.streamerState, Lane.toneState, Lane.beepIsOn, Lane.punchShown, LaneCopy.off, stackTarget,
    hs, hp]

/-- A lane that hands what the feeds hold already changes nothing, unless a beep begins. -/
theorem handFeeds_of_copy (h : s.feeds.copies.get i = (s.lane i).derived) : s.handFeeds i false = s := by
  have copies : s.feeds.copies.set i (s.lane i).derived = s.feeds.copies := by
    refine Eight.ext_get fun j => ?_
    rw [Eight.get_set]
    split
    · rename_i hj
      rw [hj, h]
    · rfl
  have same : ¬((s.feeds.copies.get i).shown s.settings.engineMode ≠ (s.lane i).derived.shown s.settings.engineMode
      ∨ (s.feeds.copies.get i).punch ≠ (s.lane i).derived.punch) := by
    rw [h]
    simp
  unfold State.handFeeds
  dsimp only
  rw [State.mapFeeds_settings, if_neg same]
  simp only [State.mapFeeds, copies, Bool.false_eq_true, if_false]

/-! ## The disarm of a lane (R59, R84, R107) -/

theorem releaseCue_of_armed {n : Nat} (h : (s.lane i).currentSlot = some n) :
    s.releaseCue i =
      (s.mapTable fun t => changeSlot t n Slot.drop).mapLane i fun l => { l with queue := [], stack := [] } := by
  simp only [State.releaseCue, h]
  rfl

theorem disarmLane_eq (hstate : (s.lane i).state = .armed) : s.disarmLane i =
    (((s.closeOutside i s.tracker.pos .disarmed).releaseCue i).idleLane i).handFeeds i false := by
  simp only [State.disarmLane, hstate]

/-- An ARMED lane that shows nothing and has no take open enters IDLE and drops its expansion (R59, R84). -/
theorem disarmLane_of_armed {n : Nat} (hstate : (s.lane i).state = .armed)
    (hn : (s.lane i).runList[(s.lane i).index]? = some n) (ho : (s.lane i).openTake = none)
    (hp : (s.lane i).punchLine = false) (hcopy : s.feeds.copies.get i = LaneCopy.off) :
    s.disarmLane i = (s.mapTable fun t => changeSlot t n Slot.drop).mapLane i fun l =>
      { l with state := .idle, index := 0, queue := [], stack := [] } := by
  have hslot : (s.lane i).currentSlot = some n := by simp only [Lane.currentSlot, hstate, hn]
  rw [disarmLane_eq hstate, closeOutside_of_none ho, releaseCue_of_armed hslot, State.idleLane, mapLane_mapLane]
  refine handFeeds_of_copy (hcopy.trans (Lane.derived_of_bare ?_ ?_).symm)
  · rw [State.lane_mapLane, if_pos rfl]
  · rw [State.lane_mapLane, if_pos rfl]
    exact hp

/-- An ARMED lane with an open take closes it at the last position, now, and is emptied; the other lanes stay (R84,
R107, R126). -/
theorem disarmLane_closes {serial : BitVec 16} (hstate : (s.lane i).state = .armed)
    (ho : (s.lane i).openTake = some serial) :
    (s.disarmLane i).lane i = { Lane.reset with runList := (s.lane i).runList }
      ∧ (∀ j, j ≠ i → (s.disarmLane i).lane j = s.lane j)
      ∧ (s.disarmLane i).log =
        { s.log with records := closedIn s.log.records (some serial) ⟨s.tracker.pos, s.tracker.count, .disarmed⟩ } := by
  have closed := closeOutside_closesLane s i s.tracker.pos .disarmed
  have handed := handFeeds_keepsStill (((s.closeOutside i s.tracker.pos .disarmed).releaseCue i).idleLane i) i false
  rw [disarmLane_eq hstate]
  refine ⟨?_, fun j hj => ?_, ?_⟩
  · rw [handed.lane, State.idleLane, State.lane_mapLane, if_pos rfl, releaseCue_lane, if_pos rfl, closed.own,
      Lane.closed, ho]
    rfl
  · rw [handed.lane, State.idleLane, State.lane_mapLane, if_neg hj, releaseCue_lane, if_neg hj, closed.others j hj]
  · rw [handed.log, ← ho, ← closed.log]
    exact releaseCue_log _ i

/-- Settles O50: the disarm by the state of the lane, and with an open take by its closing. -/
theorem laneDisarmReturnsTheLaneToIdle : Obligations.LaneDisarmReturnsTheLaneToIdle := by
  intro s h lane hr u
  refine ⟨fun hbeyond => ?_, fun i hi => ?_⟩
  · refine exec_answers (r := .laneDisarm lane) rfl hr ?_
    simp only [State.perform, State.laneDisarm, laneOfByte_of_beyond hbeyond]
    rfl
  intro answer
  have disarmed : exec (.laneDisarm h lane) s = .next ((u.disarmLane i).replied h 0x0F answer) := by
    refine exec_answers (r := .laneDisarm lane) rfl hr ?_
    simp only [State.perform, State.laneDisarm, laneOfByte_of_lane hi]
    rfl
  rw [disarmed]
  refine ⟨fun hidle => ?_, fun hdone => ?_, fun n hstate hn ho hp hcopy => ?_, fun serial hstate ho => ?_⟩
  · have hidle : (u.lane i).state = .idle := hidle
    simp only [State.disarmLane, hidle]
  · have hdone : (u.lane i).state = .done := hdone
    simp only [State.disarmLane, hdone]
    rfl
  · rw [disarmLane_of_armed (s := u) hstate hn ho hp hcopy]
  · obtain ⟨hlane, hothers, hlog⟩ := disarmLane_closes (s := u) hstate ho
    refine ⟨u.disarmLane i, rfl, hlane, hothers, by rw [hlog]; rfl, ?_⟩
    rw [hlog, closedIn_some]
    rfl

end Sys2Proof.Machine

/-! A lane alone on an update: what its release, its expansion, the end of its cue and its cycle re-arm leave in the
lane, the cue table and the take log (R59, R86, R87, R90, R94). -/

namespace Sys2Proof.Machine

variable {s t u : State} {i : LaneId} {l m : Lane} {table table' : CueTable} {log log' : TakeLog}

/-! ## Where a step of one lane lands -/

/-- Between `s` and `t` only lane `i` has moved: it stands at `l`, over a table and a log. -/
structure Lands (i : LaneId) (l : Lane) (table : CueTable) (log : TakeLog) (s t : State) : Prop where
  own : t.lane i = l
  others : ∀ j, j ≠ i → t.lane j = s.lane j
  table : t.table = table
  log : t.log = log

theorem Lands.trans (h : Lands i l table log s t) (g : Lands i m table' log' t u) : Lands i m table' log' s u :=
  ⟨g.own, fun j hj => (g.others j hj).trans (h.others j hj), g.table, g.log⟩

theorem Lands.andThen (h : Lands i l table log s t) (k : KeepsStill t u) : Lands i l table log s u :=
  ⟨(k.lane i).trans h.own, fun j hj => (k.lane j).trans (h.others j hj), k.table.trans h.table, k.log.trans h.log⟩

theorem Lands.after (k : KeepsStill s t) (h : Lands i l table log t u) : Lands i l table log s u :=
  ⟨h.own, fun j hj => (h.others j hj).trans (k.lane j), h.table, h.log⟩

theorem Lands.onlyLane (h : Lands i l table log s t) (only : s.onlyLane i) : t.onlyLane i := fun j hj => by
  rw [h.others j hj]
  exact only j hj

theorem lands_mapLane (f : Lane → Lane) : Lands i (f (s.lane i)) s.table s.log s (s.mapLane i f) := by
  refine ⟨?_, fun j hj => ?_, rfl, rfl⟩
  · rw [State.lane_mapLane, if_pos rfl]
  · rw [State.lane_mapLane, if_neg hj]

/-! ## Release, expansion and the entries tried (R59, R80, R87) -/

theorem releaseCue_lands {n : Nat} (h : (s.lane i).currentSlot = some n) :
    Lands i { s.lane i with queue := [], stack := [] } (changeSlot s.table n Slot.drop) s.log s (s.releaseCue i) := by
  rw [releaseCue_of_armed h]
  have own := lands_mapLane (s := s.mapTable fun t => changeSlot t n Slot.drop) (i := i) fun l =>
    { l with queue := [], stack := [] }
  exact ⟨own.own, own.others, own.table, own.log⟩

theorem expandInto_lands (index n : Nat) :
    Lands i { s.lane i with state := .armed, index := index, queue := s.queueOf n, stack := [] }
      (changeSlot s.table n Slot.take) s.log s (s.expandInto i index n) := by
  have own := lands_mapLane (s := s.takeExpansion n) (i := i) fun l =>
    { l with state := .armed, index := index, queue := s.queueOf n, stack := [] }
  rw [expandInto_eq]
  exact ⟨own.own, own.others, own.table, own.log⟩

theorem queueOf_of_defined {n : Nat} {v : Slot} (h : slotAt s.table n = some v) :
    s.queueOf n = expandCue s.settings.standard v.live s.lead := by
  simp only [State.queueOf, h]

theorem originOf_of_defined {n : Nat} {v : Slot} (h : slotAt s.table n = some v) :
    s.originOf n = v.live.originPos s.settings.standard s.lead := by
  simp only [State.originOf, h]

theorem lead_congr (h : t.settings = s.settings) : t.lead = s.lead := by
  simp only [State.lead, State.nominal, h]

/-- Past the last entry the lane enters DONE (R87). -/
theorem tryEntries_pastLast (prevEnd index last : Nat) :
    Lands i { s.lane i with state := .done, index := 0, queue := [], stack := [] } s.table s.log s
      (s.tryEntries i prevEnd index last []) :=
  (lands_mapLane fun l => { l with state := .done, index := 0, queue := [], stack := [] }).andThen (post_keepsStill _ _)

/-- An entry that passes the overlap test becomes the current cue (R87). -/
theorem tryEntries_starts {prevEnd n : Nat} (h : overlapOk s.settings.standard (s.originOf n) prevEnd = true)
    (index last : Nat) (rest : List Nat) :
    Lands i { s.lane i with state := .armed, index := index, queue := s.queueOf n, stack := [] }
      (changeSlot s.table n Slot.take) s.log s (s.tryEntries i prevEnd index last (n :: rest)) := by
  have tried : s.tryEntries i prevEnd index last (n :: rest) =
      (s.expandInto i index n).noteLane i .cueStart .armed index n none := if_pos h
  rw [tried]
  exact (expandInto_lands index n).andThen (post_keepsStill _ _)

/-- A last entry that fails the overlap test is expanded, dropped and skipped (R59, R87). -/
theorem tryEntries_skipsLast {prevEnd index n : Nat}
    (h : overlapOk s.settings.standard (s.originOf n) prevEnd = false) (hn : (s.lane i).runList[index]? = some n)
    (last : Nat) :
    Lands i { s.lane i with state := .done, index := 0, queue := [], stack := [] }
      (changeSlot (changeSlot s.table n Slot.take) n Slot.drop) s.log s (s.tryEntries i prevEnd index last [n]) := by
  have expanded := expandInto_lands (s := s) (i := i) index n
  have slot : ((s.expandInto i index n).lane i).currentSlot = some n := by
    rw [expanded.own]
    exact hn
  have skipped := (expanded.trans (releaseCue_lands slot)).andThen
    (noteLane_keepsStill _ i .cueSkipped .done index n none)
  have ended := skipped.trans (tryEntries_pastLast prevEnd (index + 1) n)
  rw [skipped.own, skipped.table, skipped.log, expanded.own, expanded.table, expanded.log] at ended
  have tried : s.tryEntries i prevEnd index last [n] = (((s.expandInto i index n).releaseCue i).noteLane i
      .cueSkipped .done index n none).tryEntries i prevEnd (index + 1) n [] := if_neg (ne_true_of_eq_false h)
  rw [tried]
  exact ended

/-! ## Retiring (R98) and going on (R86) -/

/-- A head of the queue that does not retire holds the queue back. -/
theorem retireSplit_of_ahead {std : Standard} {p0 p1 : Nat} {live : Bool} {queue : List Event}
    (h : ∀ e, queue.head? = some e → ¬retires std p1 e.target) : retireSplit std p0 p1 live queue = ([], queue) := by
  cases queue with
  | nil => rfl
  | cons e q => exact if_neg (h e rfl)

/-- A lane whose head of the queue does not retire does nothing. -/
theorem retireAndAct_of_ahead {up : MotionUpdate}
    (h : ∀ e, (s.lane i).queue.head? = some e → ¬retires s.settings.standard up.p1 e.target) (live : Bool)
    (mode : EngineMode) (fuel : Nat) : s.retireAndAct i up live mode fuel = (false, s) := by
  cases fuel with
  | zero => rfl
  | succ fuel =>
    have step (slot : Nat) : s.retireStep i slot up live = ([], s) := by
      simp only [State.retireStep, retireSplit_of_ahead h, List.map_nil, List.reverse_nil, List.nil_append,
        List.foldl_nil]
      rw [mapLane_of_same rfl]
    unfold State.retireAndAct
    split
    · rfl
    · simp only [step]
      rfl

/-- An evaluation at a place that no event stands behind only hands the lane's states (R83). -/
theorem evaluateAt_of_ahead {pos : Nat}
    (h : ∀ e, (s.lane i).queue.head? = some e → ¬retires s.settings.standard pos e.target) (sample : SampleCount) :
    s.evaluateAt i pos sample = s.handFeeds i false := by
  have done := retireAndAct_of_ahead (up := {
    p0 := pos, p1 := pos, kind := .jump, sample := sample, inPlay := false, coasting := false }) h false
    s.settings.engineMode advanceFuel
  unfold State.evaluateAt
  dsimp only
  rw [done]

/-- A top of the stack that does not return holds the stack. -/
theorem restoreStep_of_behind {up : MotionUpdate}
    (h : ∀ r, (s.lane i).stack.head? = some r → ¬returns s.settings.standard up.p1 r.event.target) (slot : Nat) :
    s.restoreStep i slot up = s := by
  have split : restoreSplit s.settings.standard up.p1 (s.lane i).stack = ([], (s.lane i).stack) := by
    cases hstack : (s.lane i).stack with
    | nil => rfl
    | cons r rest => exact if_neg (h r (by rw [hstack]; rfl))
  simp only [State.restoreStep, split, List.reverse_nil, List.nil_append, List.foldl_nil]
  exact mapLane_of_same rfl

/-- The CUE_END that is all a lane has left retires, and the lane goes on to its next entry (R86, R98). -/
theorem retireAndAct_of_cueEnd {up : MotionUpdate} {n : Nat} {e : Event} (hslot : (s.lane i).currentSlot = some n)
    (hqueue : (s.lane i).queue = [e]) (hkind : e.kind = .cueEnd) (hretires : retires s.settings.standard up.p1 e.target)
    (live : Bool) (mode : EngineMode) (fuel : Nat) : ∃ r s', Lands i
        { s.lane i with stack := r :: (s.lane i).stack, queue := [] } s.table s.log s s' ∧ SparesTracker s s'
      ∧ (s.retireAndAct i up live mode (fuel + 1)).2 =
        ((s'.advance i n e.target).retireAndAct i up live mode fuel).2 := by
  obtain ⟨r, hr, hsplit⟩ : ∃ r : Retirement, r.retired.event = e
      ∧ retireSplit s.settings.standard up.p0 up.p1 live (s.lane i).queue = ([r], []) := by
    rw [hqueue]
    refine ⟨_, rfl, (if_pos hretires).trans (if_pos hkind)⟩
  have acts (s : State) : s.actOn i n up mode r = s := by
    simp only [State.actOn, hr, hkind]
  have retired : (s.retireStep i n up live).1 = [r] := congrArg Prod.fst hsplit
  refine ⟨r.retired, (s.retireStep i n up live).2, ?_, retireStep_sparesTracker s i n up live, ?_⟩
  · have own := lands_mapLane (s := s) (i := i) fun l => { l with stack := r.retired :: l.stack, queue := [] }
    refine own.andThen ?_
    have stepped : (s.retireStep i n up live).2 =
        (s.mapLane i fun l => { l with stack := r.retired :: l.stack, queue := [] }).noteEvent i n r.retired.event
          (if r.retired.live then .live else .passed) r.overshoot up.sample := by
      simp only [State.retireStep, hsplit]
      rfl
    rw [stepped]
    exact post_keepsStill _ _
  · have ended : endedAt [r] = some e.target := by
      simp only [endedAt, List.getLast?_singleton, hr, hkind, if_true]
    rw [State.retireAndAct]
    simp only [hslot, retired, List.foldl_cons, List.foldl_nil, acts, ended]

/-- A lane without a take whose CUE_END alone is left, and retires: the lane lands where going on takes it, if no event
of the new cue retires at once (R86, R98). -/
theorem reactLane_of_cueEnd {up : MotionUpdate} {mode : EngineMode} {n : Nat} {e : Event}
    (hslot : (s.lane i).currentSlot = some n) (ho : (s.lane i).openTake = none) (hqueue : (s.lane i).queue = [e])
    (hkind : e.kind = .cueEnd) (hretires : retires s.settings.standard up.p1 e.target)
    (htop : ∀ r, (s.lane i).stack.head? = some r → ¬returns s.settings.standard up.p1 r.event.target)
    (hnext : ∀ r s', Lands i { s.lane i with stack := r :: (s.lane i).stack, queue := [] } s.table s.log s s' →
      SparesTracker s s' → Lands i l table log s' (s'.advance i n e.target))
    (hahead : ∀ f, l.queue.head? = some f → ¬retires s.settings.standard up.p1 f.target) :
    Lands i l table log s (s.reactLane i up mode) := by
  have untaken (sample : SampleCount) : s.closeTake i up.p0 sample .broken = s := by
    unfold State.closeTake
    rw [ho]
  obtain ⟨r, s', landed, spared, retired⟩ := retireAndAct_of_cueEnd hslot hqueue hkind hretires
    (up.playStep s.settings.standard mode) mode 16
  have advanced := hnext r s' landed spared
  have settings : (s'.advance i n e.target).settings = s.settings :=
    (advance_sparesTracker s' i n e.target).settings.trans spared.settings
  have rests := retireAndAct_of_ahead (s := s'.advance i n e.target) (i := i) (up := up)
    (by rw [advanced.own, settings]; exact hahead) (up.playStep s.settings.standard mode) mode 16
  have reacted : s.reactLane i up mode =
      (s.retireAndAct i up (up.playStep s.settings.standard mode) mode advanceFuel).2.handFeeds i
        (s.retireAndAct i up (up.playStep s.settings.standard mode) mode advanceFuel).1 := by
    simp only [State.reactLane, hslot, untaken, ite_self, restoreStep_of_behind htop]
  rw [reacted]
  refine Lands.andThen ?_ (handFeeds_keepsStill _ _ _)
  rw [show advanceFuel = 16 + 1 from rfl, retired, rests]
  exact landed.trans advanced

/-- Going on from the current cue drops its expansion and tries the entries behind it (R59, R86). -/
theorem advance_lands {n prevEnd : Nat} (hslot : (s.lane i).currentSlot = some n)
    (h : Lands i l table log (s.releaseCue i) ((s.releaseCue i).tryEntries i prevEnd ((s.lane i).index + 1) n
      ((s.lane i).runList.drop ((s.lane i).index + 1)))) : Lands i l table log s (s.advance i n prevEnd) := by
  have released := releaseCue_lands hslot
  have advanced : s.advance i n prevEnd = ((s.releaseCue i).tryEntries i prevEnd ((s.lane i).index + 1) n
      ((s.lane i).runList.drop ((s.lane i).index + 1))).handFeeds i false := by
    unfold State.advance
    dsimp only
    rw [released.own]
  rw [advanced]
  exact (released.trans h).andThen (handFeeds_keepsStill _ _ _)

/-! ## The cycle re-arm (R59, R90, R107) -/

/-- A lane's punch line is low once its take is closed, if it was high with an open take alone (R102). -/
theorem Lane.closed_lineLow (h : l.punchLine = l.openTake.isSome) (cause : EndCause) :
    (l.closed cause).punchLine = false := by
  unfold Lane.closed
  split
  · rename_i hnone
    rw [h, hnone]
    rfl
  · rfl

/-- A lane that closes its take and lets its cue go drops the expansion it held (R59, R107). -/
theorem closeTake_releaseCue_lands (pos : Nat) (sample : SampleCount) (cause : EndCause) :
    Lands i { (s.lane i).closed cause with queue := [], stack := [] } (s.releaseCue i).table
      { s.log with records := closedIn s.log.records (s.lane i).openTake ⟨pos, sample, cause⟩ } s
      ((s.closeTake i pos sample cause).releaseCue i) := by
  have closed := closeTake_closesLane s i pos sample cause
  refine ⟨?_, fun j hj => ?_, ?_, ?_⟩
  · rw [releaseCue_lane, if_pos rfl, closed.own]
  · rw [releaseCue_lane, if_neg hj, closed.others j hj]
  · rw [releaseCue_table, releaseCue_table, closed.own, Lane.closed_currentSlot, closed.table]
  · rw [releaseCue_log, closed.log]

/-- The lane closes its take, drops its expansion, and is ARMED anew on entry 0 (R90, R107). -/
theorem rearmLane_lands {up : MotionUpdate} {n : Nat} {rest : List Nat} (hrun : (s.lane i).runList = n :: rest)
    (hline : (s.lane i).punchLine = (s.lane i).openTake.isSome) {v : Slot}
    (hv : slotAt (s.releaseCue i).table n = some v)
    (hahead : ∀ f, (expandCue s.settings.standard v.live s.lead).head? = some f →
      ¬retires s.settings.standard up.p1 f.target) :
    Lands i { Lane.reset with
        state := .armed, runList := n :: rest, queue := expandCue s.settings.standard v.live s.lead }
      (changeSlot (s.releaseCue i).table n Slot.take)
      { s.log with records := closedIn s.log.records (s.lane i).openTake ⟨up.p0, up.sample, .cycle⟩ } s
      (s.rearmLane i up) := by
  have released := closeTake_releaseCue_lands (s := s) (i := i) up.p0 up.sample .cycle
  have settings : ((s.closeTake i up.p0 up.sample .cycle).releaseCue i).settings = s.settings :=
    (releaseCue_sparesTracker _ i).settings.trans (closeTake_sparesTracker s i _ _ _).settings
  have rearmed : s.rearmLane i up = ((((s.closeTake i up.p0 up.sample .cycle).releaseCue i).expandInto i 0 n).noteLane i
      .reArmed .armed 0 n none).evaluateAt i up.p1 up.sample := by
    have hlist : (((s.closeTake i up.p0 up.sample .cycle).releaseCue i).lane i).runList = n :: rest := by
      rw [released.own]
      exact (Lane.closed_runList _ _).trans hrun
    simp only [State.rearmLane, hlist]
  rw [rearmed]
  generalize (s.closeTake i up.p0 up.sample .cycle).releaseCue i = b at released settings
  have queue : b.queueOf n = expandCue s.settings.standard v.live s.lead := by
    rw [queueOf_of_defined (released.table.symm ▸ hv), settings, lead_congr settings]
  have lane : ({ b.lane i with state := .armed, index := 0, queue := b.queueOf n, stack := [] } : Lane) =
      { Lane.reset with
        state := .armed, runList := n :: rest, queue := expandCue s.settings.standard v.live s.lead } := by
    rw [queue, released.own, Lane.mk.injEq]
    exact ⟨rfl, (Lane.closed_runList _ _).trans hrun, rfl, rfl, rfl, Lane.closed_openTake _ _,
      Lane.closed_lineLow hline _⟩
  have landed := (released.trans (expandInto_lands 0 n)).andThen
    (noteLane_keepsStill _ i .reArmed .armed 0 n none)
  rw [lane, released.table, released.log] at landed
  have spared : ((b.expandInto i 0 n).noteLane i .reArmed .armed 0 n none).settings = s.settings :=
    (post_sparesTracker _ _).settings.trans settings
  rw [evaluateAt_of_ahead]
  · exact landed.andThen (handFeeds_keepsStill _ _ _)
  · intro f hf
    rw [spared]
    refine hahead f ?_
    rw [← hf]
    exact congrArg (fun l : Lane => l.queue.head?) landed.own.symm

/-! ## A lane alone on an update (R94) -/

/-- Lanes in IDLE pass their turns. -/
theorem foldl_idle {f : LaneId → State → State} (hf : ∀ j t, (t.lane j).state = .idle → f j t = t)
    {order : List LaneId} (hi : i ∉ order) (only : s.onlyLane i) : order.foldl (fun s j => f j s) s = s := by
  induction order with
  | nil => rfl
  | cons j order ih =>
    have hj : j ≠ i := fun e => hi (e ▸ List.mem_cons_self)
    rw [List.foldl_cons, hf j s (only j hj)]
    exact ih fun h => hi (List.mem_cons_of_mem _ h)

/-- With the other lanes in IDLE, eight turns in any order are one. -/
theorem foldl_onlyLane {f : LaneId → State → State} (hf : ∀ j t, (t.lane j).state = .idle → f j t = t)
    {order : List LaneId} (horder : order.Perm laneIds) (only : s.onlyLane i) (h : Lands i l table log s (f i s)) :
    order.foldl (fun s j => f j s) s = f i s := by
  have every : ∀ i : LaneId, i ∈ laneIds := by decide
  obtain ⟨before, behind, rfl⟩ := List.append_of_mem (horder.mem_iff.2 (every i))
  have nodup : (before ++ i :: behind).Nodup := horder.nodup_iff.2 (by decide)
  obtain ⟨-, hbehind, hapart⟩ := List.nodup_append.1 nodup
  have hbefore : i ∉ before := fun hi => hapart i hi i List.mem_cons_self rfl
  rw [List.foldl_append, foldl_idle hf hbefore only, List.foldl_cons,
    foldl_idle hf (List.nodup_cons.1 hbehind).1 (h.onlyLane only)]

/-- What lane `i` does on an update in its turn, in any part with these lanes, table, log, tracker and settings. -/
def State.turnLands (s : State) (i : LaneId) (l : Lane) (table : CueTable) (log : TakeLog) (up : MotionUpdate) : Prop :=
  ∀ t, KeepsStill s t → SparesTracker s t →
    Lands i l table log t (t.laneTurn i up (s.rearmTriggered up) s.settings.engineMode)

theorem State.turnLands.after {up : MotionUpdate} (h : s.turnLands i l table log up) (k : KeepsStill s t)
    (g : SparesTracker s t) : t.turnLands i l table log up := fun u k' g' => by
  have turned := h u (k.trans k') (g.trans g')
  have trigger : t.rearmTriggered up = s.rearmTriggered up := by simp only [State.rearmTriggered, g.settings]
  rwa [trigger, g.settings]

theorem lanesTake_lands {up : MotionUpdate} (only : s.onlyLane i) (h : s.turnLands i l table log up) :
    Lands i l table log s (s.lanesTake up none) := by
  obtain ⟨order, n, horder, -, heq⟩ := lanesTake_order s up none
  have start : KeepsStill s { s with occasion := n } := ⟨rfl, rfl, rfl⟩
  have turned := h { s with occasion := n } start ⟨rfl, rfl⟩
  have idle : ∀ j (t : State), (t.lane j).state = .idle → laneTakes up (s.rearmTriggered up) none j t = t :=
    fun j t ht => laneTurn_of_idle ht _ _ _
  rw [heq, foldl_onlyLane (s := { s with occasion := n }) idle horder (i := i) only turned]
  exact .after start turned

/-- An update forms an overlay record before or behind the lanes (R141), which they do not see. -/
theorem lanesAndOverlay_lands {up : MotionUpdate} (only : s.onlyLane i) (h : s.turnLands i l table log up) :
    Lands i l table log s (s.lanesAndOverlay up none) := by
  have settled : KeepsStill s s.settleOrder.2 := ⟨rfl, rfl, rfl⟩
  have formed : KeepsStill s s.settleOrder.2.formOverlay := ⟨rfl, rfl, rfl⟩
  unfold State.lanesAndOverlay
  dsimp only
  split
  · exact (lanesTake_lands only h).andThen ⟨rfl, rfl, rfl⟩
  · split
    · exact .after formed (lanesTake_lands (s := s.settleOrder.2.formOverlay) only (h.after formed ⟨rfl, rfl⟩))
    · have taken := lanesTake_lands (s := s.settleOrder.2) only (h.after settled ⟨rfl, rfl⟩)
      exact .after settled (taken.andThen ⟨rfl, rfl, rfl⟩)

/-- The update of a motion from `p0` to Pos (R93). -/
def State.updateFrom (s : State) (p0 : Nat) (kind : UpdateKind) : MotionUpdate :=
  { p0 := p0, p1 := s.tracker.pos, kind := kind, sample := s.tracker.count, inPlay := s.inPlay,
    coasting := decide (s.tracker.state = .coasting) }

/-- With no STANDBY entry pending a frame boundary is the lanes and the overlay record (R113). -/
theorem boundaryTaken_of_unpending (h : s.settings.standbyPending = false) (up : MotionUpdate) :
    s.boundaryTaken up = s.lanesAndOverlay up none := if_neg (ne_true_of_eq_false h)

/-- An update with one lane at work, in its frame or with nothing staged, lands where the lane's turn does (R94, R113,
R155). -/
theorem emitUpdate_lands {p0 : Nat} {kind : UpdateKind} (only : s.onlyLane i)
    (hquiet : frameOf p0 = frameOf s.tracker.pos ∨ s.settings.standbyPending = false ∧ s.settings.staging = [])
    (h : s.turnLands i l table log (s.updateFrom p0 kind)) : Lands i l table log s (s.emitUpdate p0 kind) := by
  by_cases hframe : frameOf p0 = frameOf s.tracker.pos
  · have emitted : s.emitUpdate p0 kind = s.lanesTake (s.updateFrom p0 kind) none := if_pos hframe
    rw [emitted]
    exact lanesTake_lands only h
  · obtain ⟨hstandby, hstaging⟩ := hquiet.resolve_left hframe
    have emitted : s.emitUpdate p0 kind = ((s.boundaryTaken (s.updateFrom p0 kind)).formCode (frameOf s.tracker.pos)
      s.tracker.spd).applyUnheld := if_neg hframe
    have landed := (lanesAndOverlay_lands only h).andThen (formCode_keepsStill _ (frameOf s.tracker.pos) s.tracker.spd)
    rw [emitted, boundaryTaken_of_unpending hstandby, applyUnheld_of_empty]
    · exact landed
    · rw [(formCode_sparesTracker _ _ _).settings, (lanesAndOverlay_sparesTracker s _ none).settings]
      exact hstaging

end Sys2Proof.Machine

/-! LANE_ARM, and a lane alone in a sample that ends its cue or re-arms it (R59, R80 to R90, R107). -/

namespace Sys2Proof.Machine

variable {s : State} {i : LaneId} {l : Lane} {table : CueTable} {log : TakeLog}

/-! ## LANE_ARM (R59, R83) -/

/-- A lane that shows nothing, armed with no event of entry 0 behind Pos, takes the cue's queue and its expansion. -/
theorem armLane_of_ahead {n : Nat} {v : Slot} (hv : slotAt s.table n = some v)
    (hp : (s.lane i).punchLine = false) (hcopy : s.feeds.copies.get i = LaneCopy.off)
    (hahead : ∀ e, (expandCue s.settings.standard v.live s.lead).head? = some e →
      ¬retires s.settings.standard s.tracker.pos e.target) :
    s.armLane i n = (s.mapTable fun t => changeSlot t n Slot.take).mapLane i fun l =>
      { l with state := .armed, index := 0, queue := expandCue s.settings.standard v.live s.lead, stack := [] } := by
  have expanded : s.expandInto i 0 n = (s.mapTable fun t => changeSlot t n Slot.take).mapLane i fun l =>
      { l with state := .armed, index := 0, queue := expandCue s.settings.standard v.live s.lead, stack := [] } := by
    rw [expandInto_eq, queueOf_of_defined hv]
    rfl
  have lane := (lands_mapLane (s := s.mapTable fun t => changeSlot t n Slot.take) (i := i) fun l =>
    { l with state := .armed, index := 0, queue := expandCue s.settings.standard v.live s.lead, stack := [] }).own
  unfold State.armLane
  rw [expanded, evaluateAt_of_ahead (by rw [lane]; exact hahead)]
  refine handFeeds_of_copy (hcopy.trans ?_)
  rw [Lane.derived_of_bare] <;> rw [lane]
  exact hp

theorem laneArm_of_refused {lane : Byte} (hi : i.val = lane.toNat)
    (h : (s.lane i).state = .armed ∨ (s.lane i).runList = [] ∨ s.tracker.state = .unreferenced) :
    s.laneArm lane = (s, .refuse .state) := by
  simp only [State.laneArm, laneOfByte_of_lane hi]
  split
  · rfl
  · rename_i hrun
    refine if_neg fun hc => ?_
    rcases h with h | h | h
    · exact hc.1 h
    · rw [hrun] at h
      cases h
    · exact hc.2 h

theorem laneArm_of_accepted {lane : Byte} (hi : i.val = lane.toNat) (hstate : (s.lane i).state ≠ .armed)
    (href : s.tracker.state ≠ .unreferenced) {n : Nat} {rest : List Nat} (hrun : (s.lane i).runList = n :: rest) :
    s.laneArm lane = (s.armLane i n,
      .ok OutFlags.clear (.laneArm ((s.armLane i n).lane i).state ((s.armLane i n).lane i).index)) := by
  simp only [State.laneArm, laneOfByte_of_lane hi, hrun]
  exact if_pos ⟨hstate, href⟩

theorem laneArm_of_beyond {lane : Byte} (h : 8 ≤ lane.toNat) : s.laneArm lane = (s, .refuse .badField) := by
  simp only [State.laneArm, laneOfByte_of_beyond h]

/-- A LANE_ARM on a ready link, when it is known what the arm does and answers. -/
theorem exec_laneArm {h : FrameHead} (hr : s.ready h) {lane : Byte} {t : State} {a : Answer}
    (ha : (s.withService h.service).laneArm lane = (t, a)) :
    exec (.laneArm h lane) s = .next (t.replied h 0x0E a) :=
  exec_answers (r := .laneArm lane) rfl hr ha

/-! ## Going on to the next entry (R59, R86, R87) -/

section Advance

variable {n m prevEnd : Nat} {w : Slot} (hslot : (s.lane i).currentSlot = some n)

include hslot

theorem advance_pastLast (hlast : (s.lane i).runList[(s.lane i).index + 1]? = none) :
    Lands i { s.lane i with state := .done, index := 0, queue := [], stack := [] } (changeSlot s.table n Slot.drop)
      s.log s (s.advance i n prevEnd) := by
  have released := releaseCue_lands hslot
  have ended := tryEntries_pastLast (s := s.releaseCue i) (i := i) prevEnd ((s.lane i).index + 1) n
  rw [released.own, released.table, released.log] at ended
  refine advance_lands hslot ?_
  rw [List.drop_eq_nil_of_le (List.getElem?_eq_none_iff.1 hlast)]
  exact ended

section Next

variable (hm : (s.lane i).runList[(s.lane i).index + 1]? = some m)
  (hw : slotAt (changeSlot s.table n Slot.drop) m = some w)

include hm hw

/-- What the released lane sees of the next entry. -/
theorem released_next :
    (s.lane i).runList.drop ((s.lane i).index + 1) = m :: (s.lane i).runList.drop ((s.lane i).index + 2)
    ∧ (s.releaseCue i).settings = s.settings ∧ slotAt (s.releaseCue i).table m = some w
    ∧ (s.releaseCue i).originOf m = w.live.originPos s.settings.standard s.lead
    ∧ (s.releaseCue i).queueOf m = expandCue s.settings.standard w.live s.lead := by
  have settings := (releaseCue_sparesTracker s i).settings
  have slot : slotAt (s.releaseCue i).table m = some w := by rw [(releaseCue_lands hslot).table, hw]
  obtain ⟨hlt, heq⟩ := List.getElem?_eq_some_iff.1 hm
  refine ⟨by rw [List.drop_eq_getElem_cons hlt, heq], settings, slot, ?_, ?_⟩
  · rw [originOf_of_defined slot, settings, lead_congr settings]
  · rw [queueOf_of_defined slot, settings, lead_congr settings]

theorem advance_starts
    (hover : overlapOk s.settings.standard (w.live.originPos s.settings.standard s.lead) prevEnd = true) :
    Lands i { s.lane i with
        state := .armed, index := (s.lane i).index + 1, queue := expandCue s.settings.standard w.live s.lead
        stack := [] }
      (changeSlot (changeSlot s.table n Slot.drop) m Slot.take) s.log s (s.advance i n prevEnd) := by
  have released := releaseCue_lands hslot
  obtain ⟨hdrop, settings, -, origin, queue⟩ := released_next hslot hm hw
  have started := tryEntries_starts (s := s.releaseCue i) (i := i) (prevEnd := prevEnd) (n := m)
    (by rw [settings, origin]; exact hover) ((s.lane i).index + 1) n ((s.lane i).runList.drop ((s.lane i).index + 2))
  rw [released.own, released.table, released.log, queue] at started
  refine advance_lands hslot ?_
  rw [hdrop]
  exact started

theorem advance_skipsLast
    (hover : overlapOk s.settings.standard (w.live.originPos s.settings.standard s.lead) prevEnd = false)
    (hlast : (s.lane i).runList[(s.lane i).index + 2]? = none) :
    Lands i { s.lane i with state := .done, index := 0, queue := [], stack := [] }
      (changeSlot (changeSlot (changeSlot s.table n Slot.drop) m Slot.take) m Slot.drop) s.log s
      (s.advance i n prevEnd) := by
  have released := releaseCue_lands hslot
  obtain ⟨hdrop, settings, -, origin, -⟩ := released_next hslot hm hw
  have skipped := tryEntries_skipsLast (s := s.releaseCue i) (i := i) (prevEnd := prevEnd)
    (index := (s.lane i).index + 1) (n := m) (by rw [settings, origin]; exact hover)
    (by rw [released.own]; exact hm) n
  rw [released.own, released.table, released.log] at skipped
  refine advance_lands hslot ?_
  rw [hdrop, List.drop_eq_nil_of_le (List.getElem?_eq_none_iff.1 hlast)]
  exact skipped

end Next

end Advance

/-! ## A sample in LOCAL with one lane at work (R31, R45, R94) -/

/-- A step in LOCAL whose report lands a lane is a sample that lands it. -/
theorem exec_sample_lands (hstep : s.stepping) {ta tb tz : BitVec 16} {p : Nat}
    (hpos : s.begun.integrateLocal.tracker.pos = p) (h : Lands i l table log s.begun s.begun.integrateLocal) :
    ∃ t, exec (.wordClockSample ta tb tz) s = .next t ∧ t.tracker.pos = p ∧ t.table = table ∧ t.lane i = l
      ∧ t.log = log := by
  obtain ⟨hclk, hbegun, hsrc, hstate, -⟩ := hstep
  obtain ⟨t, hexec, htracker, -, still, -⟩ := exec_sample hclk hbegun ta tb tz
  rw [sampleMotion_of_local (s := s.begun) hsrc hstate] at htracker still
  have landed := h.andThen still
  exact ⟨t, hexec, by rw [htracker]; exact hpos, landed.table, landed.own, landed.log⟩

/-- A step inside its frame with the cycle action OFF lands a lane where its reaction to the step does. -/
theorem exec_step_lands (hstep : s.stepping) (hoff : s.settings.cycleAction = .off)
    (hframe : frameOf s.steppedPos = frameOf s.tracker.pos) (only : s.onlyLane i) (ta tb tz : BitVec 16)
    (h : ∀ (t : State) (up : MotionUpdate) (mode : EngineMode), t.lanes = s.lanes → t.table = s.table → t.log = s.log →
      t.settings = s.settings → up.p1 = s.steppedPos → Lands i l table log t (t.reactLane i up mode)) :
    ∃ t, exec (.wordClockSample ta tb tz) s = .next t ∧ t.table = table ∧ t.lane i = l ∧ t.log = log := by
  have ⟨_, _, _, hstate, hspd⟩ := hstep
  have integrated : s.begun.integrateLocal =
      (s.begun.mapTracker fun t => { t with pos := s.steppedPos }).emitUpdate s.tracker.pos .step := by
    unfold State.integrateLocal
    rw [if_pos ⟨hstate, hspd⟩, show s.begun.settings.cycleAction = .off from hoff]
    exact ite_self _
  have landed : Lands i l table log s.begun s.begun.integrateLocal := by
    rw [integrated]
    refine .after (t := s.begun.mapTracker fun t => { t with pos := s.steppedPos }) ⟨rfl, rfl, rfl⟩
      (emitUpdate_lands only (.inl hframe.symm) fun t k g => ?_)
    have untriggered : (s.begun.mapTracker fun t => { t with pos := s.steppedPos }).rearmTriggered
        ((s.begun.mapTracker fun t => { t with pos := s.steppedPos }).updateFrom s.tracker.pos .step) = false := by
      simp only [State.rearmTriggered, State.mapTracker_settings, show s.begun.settings.cycleAction = .off from hoff]
      simp
    rw [untriggered, State.laneTurn, if_neg (by simp)]
    exact h t _ _ k.lanes k.table k.log g.settings rfl
  obtain ⟨t, hexec, -, ht⟩ := exec_sample_lands hstep (ta := ta) (tb := tb) (tz := tz) rfl landed
  exact ⟨t, hexec, ht⟩

/-- A step that wraps at the end of the cycle window, with nothing staged, re-arms a lane that is not IDLE (R45,
R90). -/
theorem exec_wrap_lands (hstep : s.stepping) (hwrap : s.settings.cycleAction = .wrap)
    (hrearm : s.settings.autoRearm = true) (hcross : s.crossing s.tracker.pos s.steppedPos)
    (hquiet : s.settings.standbyPending = false ∧ s.settings.staging = []) (only : s.onlyLane i)
    (hstate : (s.lane i).state ≠ .idle) {x : Nat}
    (hx : x = s.settings.standard.into
      (s.settings.cycleStart + s.settings.standard.dist s.steppedPos s.settings.cycleEnd)) (ta tb tz : BitVec 16)
    (h : ∀ (t : State) (up : MotionUpdate), t.lanes = s.lanes → t.table = s.table → t.log = s.log →
      t.settings = s.settings → up.p0 = s.tracker.pos → up.p1 = x → up.sample = s.tracker.count + 1 →
      Lands i l table log t (t.rearmLane i up)) :
    ∃ t, exec (.wordClockSample ta tb tz) s = .next t ∧ t.tracker.pos = x ∧ t.table = table ∧ t.lane i = l
      ∧ t.log = log := by
  have ⟨_, _, _, hmoving, hspd⟩ := hstep
  have integrated : s.begun.integrateLocal =
      (s.begun.mapTracker fun t => { t with pos := x }).emitUpdate s.tracker.pos .wrap := by
    have crosses : s.begun.crossesEnd s.begun.tracker.pos
        (s.begun.settings.standard.into (s.begun.tracker.pos + s.begun.tracker.spd)) = true :=
      crossesEnd_of_crossing (s := s.begun) hcross
    unfold State.integrateLocal
    dsimp only
    rw [if_pos ⟨hmoving, hspd⟩, if_pos crosses,
      show s.begun.settings.cycleAction = .wrap from hwrap, hx]
    rfl
  have landed : Lands i l table log s.begun s.begun.integrateLocal := by
    rw [integrated]
    refine .after (t := s.begun.mapTracker fun t => { t with pos := x }) ⟨rfl, rfl, rfl⟩
      (emitUpdate_lands only (.inr hquiet) fun t k g => ?_)
    have triggered : (s.begun.mapTracker fun t => { t with pos := x }).rearmTriggered
        ((s.begun.mapTracker fun t => { t with pos := x }).updateFrom s.tracker.pos .wrap) = true := by
      simp only [State.rearmTriggered, State.mapTracker_settings, show s.begun.settings.cycleAction = .wrap from hwrap,
        show s.begun.settings.autoRearm = true from hrearm]
      rfl
    have busy : (t.lane i).state ≠ .idle := by
      rw [k.lane]
      exact hstate
    rw [triggered, State.laneTurn, if_pos ⟨rfl, busy⟩]
    exact h t _ k.lanes k.table k.log g.settings rfl rfl rfl
  refine exec_sample_lands hstep ?_ landed
  rw [integrated]
  exact congrArg Tracker.pos (emitUpdate_reports _ _ _).tracker

/-! ## The obligation -/

/-- A lane whose CUE_END retires in a step goes on to its next entry, and lands where that takes it (R86). -/
theorem exec_cueEnd_lands {n : Nat} {e : Event} (hstep : s.stepping) (hoff : s.settings.cycleAction = .off)
    (hframe : frameOf s.steppedPos = frameOf s.tracker.pos) (only : s.onlyLane i)
    (hslot : (s.lane i).currentSlot = some n) (ho : (s.lane i).openTake = none) (hqueue : (s.lane i).queue = [e])
    (hkind : e.kind = .cueEnd) (hretires : retires s.settings.standard s.steppedPos e.target)
    (htop : ∀ r, (s.lane i).stack.head? = some r → ¬returns s.settings.standard s.steppedPos r.event.target)
    (ta tb tz : BitVec 16)
    (hnext : ∀ (t : State) (r : Retired), t.lane i = { s.lane i with stack := r :: (s.lane i).stack, queue := [] } →
      t.table = s.table → t.log = s.log → t.settings = s.settings → Lands i l table s.log t (t.advance i n e.target))
    (hahead : ∀ f, l.queue.head? = some f → ¬retires s.settings.standard s.steppedPos f.target) :
    ∃ t, exec (.wordClockSample ta tb tz) s = .next t ∧ t.table = table ∧ t.lane i = l ∧ t.log = s.log := by
  refine exec_step_lands hstep hoff hframe only ta tb tz fun t up mode hlanes htable hlog hset hp => ?_
  have lane : t.lane i = s.lane i := congrArg (fun e : Eight Lane => e.get i) hlanes
  rw [← hp] at hretires htop hahead
  rw [← hset] at hretires htop hahead
  rw [← lane] at hslot ho hqueue htop hnext
  rw [← htable, ← hlog] at hnext
  rw [← hlog]
  exact reactLane_of_cueEnd hslot ho hqueue hkind hretires htop
    (fun r s' landed spared => hnext s' r landed.own landed.table landed.log (spared.settings.trans hset)) hahead

/-- Settles O49: the arm, the events of a cue, the end of a cue in a step, and the re-arm at a wrap. -/
theorem laneArmExpandsTheFirstEntry : Obligations.LaneArmExpandsTheFirstEntry := by
  refine ⟨fun s h lane hr => ?_, fun std c lead => ?_, fun s ta tb tz i n e => ?_, fun s ta tb tz i n rest w => ?_⟩
  · intro u
    refine ⟨fun hbeyond => exec_laneArm hr (laneArm_of_beyond hbeyond), fun i hi =>
      ⟨fun hbad => exec_laneArm hr (laneArm_of_refused (s := u) hi hbad), ?_⟩⟩
    intro n rest v hstate href hrun hv _ hp hcopy hahead
    have held (e : Event) (he : (expandCue s.settings.standard v.live s.lead).head? = some e) :
        ¬retires s.settings.standard s.tracker.pos e.target := fun ⟨hlow, hhigh⟩ => by
      rcases hahead e he with h | h <;> omega
    refine exec_laneArm hr ((laneArm_of_accepted (s := u) hi hstate href hrun).trans ?_)
    rw [armLane_of_ahead (s := u) hv hp hcopy held, State.lane_mapLane, if_pos rfl]
    rfl
  · exact ⟨expandCue_perm std c lead, expandCue_pairwise std c lead, cueEvents_nodup std c lead,
      fun _ => mem_cueEvents⟩
  · intro std l p1 dropped hstep hoff hframe only hstate hn ho hp hqueue hkind hretires htop
    have slot : (s.lane i).currentSlot = some n := by
      simp only [Lane.currentSlot]
      rw [hstate]
      exact hn
    refine ⟨fun hlast => ?_, fun m w hm hw => ⟨fun hover hahead => ?_, fun hover hlast => ?_⟩⟩
    · refine exec_cueEnd_lands hstep hoff hframe only slot ho hqueue hkind hretires htop ta tb tz
        (fun t r lane table log settings => ?_) (fun f hf => by cases hf)
      have ended := advance_pastLast (s := t) (i := i) (n := n) (prevEnd := e.target) (by rw [lane]; exact slot)
        (by rw [lane]; exact hlast)
      rwa [lane, table, log] at ended
    · refine exec_cueEnd_lands hstep hoff hframe only slot ho hqueue hkind hretires htop ta tb tz
        (fun t r lane table log settings => ?_) hahead
      have started := advance_starts (s := t) (i := i) (n := n) (prevEnd := e.target) (m := m) (w := w)
        (by rw [lane]; exact slot) (by rw [lane]; exact hm) (by rw [table]; exact hw)
        (by rw [settings, lead_congr settings]; exact hover)
      rw [lane, table, log, settings, lead_congr settings, ← hstate] at started
      exact started
    · refine exec_cueEnd_lands hstep hoff hframe only slot ho hqueue hkind hretires htop ta tb tz
        (fun t r lane table log settings => ?_) (fun f hf => by cases hf)
      have skipped := advance_skipsLast (s := t) (i := i) (n := n) (prevEnd := e.target) (m := m) (w := w)
        (by rw [lane]; exact slot) (by rw [lane]; exact hm) (by rw [table]; exact hw)
        (by rw [settings, lead_congr settings]; exact hover) (by rw [lane]; exact hlast)
      rwa [lane, table, log] at skipped
  · intro std l x dropped hstep hwrap hrearm hcross hstandby hstaging only hstate hrun hline hw hahead
    have released (t : State) (hlane : t.lane i = s.lane i) (htable : t.table = s.table) :
        (t.releaseCue i).table = dropped := by
      rw [releaseCue_table, hlane, htable]
      simp only [dropped, l]
      cases (s.lane i).currentSlot <;> rfl
    obtain ⟨t, hexec, hpos, htable, hlane, hlog⟩ := exec_wrap_lands (table := changeSlot dropped n Slot.take)
      (log := { s.log with
        records := closedIn s.log.records (s.lane i).openTake ⟨s.tracker.pos, s.tracker.count + 1, .cycle⟩ })
      hstep hwrap hrearm hcross ⟨hstandby, hstaging⟩ only hstate (x := x) rfl ta tb tz
      (fun t up hlanes htable hlog hset hp0 hp1 hsample => by
        have lane : t.lane i = s.lane i := congrArg (fun e : Eight Lane => e.get i) hlanes
        have landed := rearmLane_lands (s := t) (i := i) (up := up) (n := n) (rest := rest) (v := w)
          (by rw [lane]; exact hrun) (by rw [lane]; exact hline) (by rw [released t lane htable]; exact hw)
          (by rw [hset, lead_congr hset, hp1]; exact hahead)
        rwa [released t lane htable, hset, lead_congr hset, hlog, lane, hp0, hsample] at landed)
    exact ⟨t, hexec, hpos, htable, hlane, by rw [hlog], by rw [hlog]⟩

end Sys2Proof.Machine

/-! The refusals of RUNLIST_WRITE (R75). -/

namespace Sys2Proof.Machine

variable {s : State} {i : LaneId} {lane : Byte} {entries : List (BitVec 16)}

/-! ## The fields of RUNLIST_WRITE (R75, checks 1 and 2) -/

theorem runlistWrite_of_badField
    (h : 8 ≤ lane.toNat ∨ 16 < entries.length ∨ ∃ n ∈ entries, 511 < n.toNat) :
    s.runlistWrite lane entries = (s, .refuse .badField) := by
  unfold State.runlistWrite
  dsimp only
  split
  · rfl
  · rename_i i hlane
    refine if_neg fun ⟨hlen, hmax⟩ => ?_
    rcases h with hbeyond | hlong | ⟨n, hn, hhigh⟩
    · rw [laneOfByte_of_beyond hbeyond] at hlane
      cases hlane
    · rw [List.length_map] at hlen
      omega
    · have := of_decide_eq_true (List.all_eq_true.1 hmax n.toNat (List.mem_map_of_mem hn))
      omega

section Fields

variable (hi : i.val = lane.toNat) (hlen : entries.length ≤ 16) (hmax : ∀ n ∈ entries, n.toNat ≤ 511)

include hlen hmax in
/-- The test that RUNLIST_WRITE makes of the list's length and of its slot numbers. -/
theorem entries_fit : (entries.map BitVec.toNat).length ≤ 16 ∧
    (entries.map BitVec.toNat).all (fun n => decide (n ≤ 511)) = true := by
  simpa using And.intro hlen hmax

include hi hlen hmax

theorem runlistWrite_of_armed (hstate : (s.lane i).state = .armed) :
    s.runlistWrite lane entries = (s, .refuse .state) := by
  simp only [State.runlistWrite, laneOfByte_of_lane hi]
  rw [if_pos (entries_fit hlen hmax), if_pos hstate]

/-- An IDLE or DONE lane answers what the checks of the list answer. -/
theorem runlistWrite_of_refusal (hstate : (s.lane i).state ≠ .armed) {a : Answer}
    (ha : s.runListRefusal (entries.map BitVec.toNat) = some a) : s.runlistWrite lane entries = (s, a) := by
  simp only [State.runlistWrite, laneOfByte_of_lane hi, ha]
  rw [if_pos (entries_fit hlen hmax), if_neg hstate]

end Fields

/-! ## The checks of a list of two entries (R75, checks 3 to 6) -/

section Pair

variable {t : CueTable} {a b : Nat}

theorem firstIndex_pair (bad : Nat → Nat → Bool) (a b : Nat) :
    firstIndex bad 0 [a, b] = if bad 0 a then some 0 else if bad 1 b then some 1 else none := rfl

theorem duplicateIndex_pair : duplicateIndex [a, b] = if a = b then some 1 else none := by
  simp [duplicateIndex, firstIndex_pair, eq_comm]

theorem emptyIndex_pair : emptyIndex t [a, b] =
    if slotAt t a = none then some 0 else if slotAt t b = none then some 1 else none := by
  simp [emptyIndex, firstIndex_pair]

/-- An open cue may stand last, so only the first of two entries can fail. -/
theorem openIndex_pair : openIndex t [a, b] = if isOpenCue t a then some 0 else none := by
  simp [openIndex, firstIndex_pair]

theorem overlapIndex_pair : s.overlapIndex [a, b] = if s.pairOk a b then none else some 1 := by
  cases h : s.pairOk a b <;> simp [State.overlapIndex, firstIndex_pair, h]

theorem isOpenCue_of_defined {v : Slot} (hv : slotAt t a = some v) : isOpenCue t a = v.live.outPoint.isNone := by
  simp only [isOpenCue, hv]

theorem runListRefusal_of_same : s.runListRefusal [a, a] = some (.refuseAt .duplicate 1) := by
  simp only [State.runListRefusal, duplicateIndex_pair, if_true]

variable (hne : a ≠ b)

include hne

theorem runListRefusal_of_firstEmpty (ha : slotAt s.table a = none) :
    s.runListRefusal [a, b] = some (.refuseAt .notFound 0) := by
  simp only [State.runListRefusal, duplicateIndex_pair, emptyIndex_pair, if_neg hne, if_pos ha]

theorem runListRefusal_of_secondEmpty (ha : slotAt s.table a ≠ none) (hb : slotAt s.table b = none) :
    s.runListRefusal [a, b] = some (.refuseAt .notFound 1) := by
  simp only [State.runListRefusal, duplicateIndex_pair, emptyIndex_pair, if_neg hne, if_neg ha, if_pos hb]

variable {v : Slot} (hv : slotAt s.table a = some v) (hb : slotAt s.table b ≠ none)

include hv hb

theorem runListRefusal_of_firstOpen (ho : v.live.outPoint = none) :
    s.runListRefusal [a, b] = some (.refuseAt .openNotLast 0) := by
  simp [State.runListRefusal, duplicateIndex_pair, emptyIndex_pair, openIndex_pair, isOpenCue_of_defined hv, hne, hv,
    hb, ho]

theorem runListRefusal_of_overlap (ho : v.live.outPoint ≠ none) (hover : s.pairOk a b = false) :
    s.runListRefusal [a, b] = some (.refuseAt .overlap 1) := by
  simp [State.runListRefusal, duplicateIndex_pair, emptyIndex_pair, openIndex_pair, overlapIndex_pair,
    isOpenCue_of_defined hv, hne, hv, hb, ho, hover]

end Pair

/-- Settles O46: the fields, the state of the lane, and then the checks of the list in their order. -/
theorem runlistWriteRefusals : Obligations.RunlistWriteRefusals := by
  intro s h lane slots hr u refused
  have refused_of (a : Answer) (ha : u.runlistWrite lane slots = (u, a)) : refused slots a :=
    exec_answers (r := .runlistWrite lane slots) rfl hr ha
  refine ⟨fun hbad => refused_of _ (runlistWrite_of_badField hbad), fun i hi hlen hmax =>
    ⟨fun hstate => refused_of _ (runlistWrite_of_armed (s := u) hi hlen hmax hstate), fun hstate a b hslots => ?_⟩⟩
  have pair_refused (answer : Answer) (ha : u.runListRefusal [a.toNat, b.toNat] = some answer) :
      refused slots answer :=
    refused_of _ (runlistWrite_of_refusal (s := u) hi hlen hmax hstate (by rw [hslots]; exact ha))
  refine ⟨fun heq => ?_, fun hne ha => ?_, fun hne ha hb => ?_, fun v w hne hv hw => ⟨fun ho => ?_, fun ho hover => ?_⟩⟩
  · rw [heq] at pair_refused
    exact pair_refused _ runListRefusal_of_same
  · exact pair_refused _ (runListRefusal_of_firstEmpty (s := u) (BitVec.toNat_ne.1 hne) ha)
  · exact pair_refused _ (runListRefusal_of_secondEmpty (s := u) (BitVec.toNat_ne.1 hne)
      (Option.isSome_iff_ne_none.1 ha) hb)
  · exact pair_refused _ (runListRefusal_of_firstOpen (s := u) (BitVec.toNat_ne.1 hne) hv
      (Option.ne_none_iff_exists'.2 ⟨w, hw⟩) ho)
  · exact pair_refused _ (runListRefusal_of_overlap (s := u) (BitVec.toNat_ne.1 hne) hv
      (Option.ne_none_iff_exists'.2 ⟨w, hw⟩) ho hover)

end Sys2Proof.Machine

/-! RUNLIST_READ (R79) and LANE_READ (R85). -/

namespace Sys2Proof.Machine

variable {s : State} {i : LaneId} {lane : Byte}

theorem liveLabel_of_defined {n : Nat} {v : Slot} (hv : slotAt s.table n = some v) :
    s.liveLabel n = v.live.label := by
  simp only [State.liveLabel, hv]

/-! ## RUNLIST_READ (R79) -/

theorem runlistRead_of_beyond (h : 8 ≤ lane.toNat) : s.runlistRead lane = .refuse .badField := by
  simp only [State.runlistRead, laneOfByte_of_beyond h]

theorem runlistRead_of_lane (hi : i.val = lane.toNat) : s.runlistRead lane =
    .ok OutFlags.clear (.runlistRead (s.lane i).state ((s.lane i).runList.map fun n => (n, s.liveLabel n))) := by
  simp only [State.runlistRead, laneOfByte_of_lane hi]

/-- A RUNLIST_READ on a ready link changes nothing but the link, whatever it answers. -/
theorem exec_runlistRead {h : FrameHead} (hr : s.ready h) {a : Answer}
    (ha : (s.withService h.service).runlistRead lane = a) :
    exec (.runlistRead h lane) s = .next ((s.withService h.service).replied h 0x0D a) :=
  exec_answers (r := .runlistRead lane) rfl hr (congrArg (Prod.mk _) ha)

/-- Settles O47: the entries reported are those of the run list, each with its live label. -/
theorem runlistReadReportsTheList : Obligations.RunlistReadReportsTheList := by
  intro s h lane hr
  refine ⟨fun hbeyond => exec_runlistRead hr (runlistRead_of_beyond hbeyond), fun i hi =>
    ⟨_, exec_runlistRead hr (runlistRead_of_lane hi), List.length_map _, fun k e he => ?_⟩⟩
  rw [List.getElem?_map, Option.map_eq_some_iff] at he
  obtain ⟨n, hn, rfl⟩ := he
  exact ⟨hn, fun v hv => liveLabel_of_defined (s := s.withService h.service) hv⟩

/-! ## LANE_READ (R85) -/

theorem laneRead_of_beyond (h : 8 ≤ lane.toNat) : s.laneRead lane = .refuse .badField := by
  simp only [State.laneRead, laneOfByte_of_beyond h]

theorem laneRead_of_lane (hi : i.val = lane.toNat) :
    s.laneRead lane = .ok OutFlags.clear (.laneRead (s.laneReport i)) := by
  simp only [State.laneRead, laneOfByte_of_lane hi]

/-- A LANE_READ on a ready link changes nothing but the link, whatever it answers. -/
theorem exec_laneRead {h : FrameHead} (hr : s.ready h) {a : Answer}
    (ha : (s.withService h.service).laneRead lane = a) :
    exec (.laneRead h lane) s = .next ((s.withService h.service).replied h 0x10 a) :=
  exec_answers (r := .laneRead lane) rfl hr (congrArg (Prod.mk _) ha)

theorem Lane.currentSlot_of_armed {l : Lane} (h : l.state = .armed) : l.currentSlot = l.runList[l.index]? := by
  simp only [Lane.currentSlot, h]

/-- The report of a lane that is not ARMED has no current cue (R74, R85). -/
theorem laneReport_current_of_not_armed (h : (s.lane i).state ≠ .armed) : (s.laneReport i).current = none := by
  simp only [State.laneReport, Lane.currentSlot_of_not_armed h, Option.map_none]

/-- The report of an ARMED lane names the entry at its index, with its live label (R74, R85). -/
theorem laneReport_current_of_armed (h : (s.lane i).state = .armed) {n : Nat} {v : Slot}
    (hn : (s.lane i).runList[(s.lane i).index]? = some n) (hv : slotAt s.table n = some v) :
    (s.laneReport i).current = some ((s.lane i).index, n, v.live.label) := by
  simp only [State.laneReport, Lane.currentSlot_of_armed h, hn, Option.map_some, liveLabel_of_defined hv]

/-- Settles O48: the report copies the lane's record, and its current cue follows the lane's state. -/
theorem laneReadReportsTheRecord : Obligations.LaneReadReportsTheRecord := by
  intro s h lane hr
  refine ⟨fun hbeyond => exec_laneRead hr (laneRead_of_beyond hbeyond), fun i hi =>
    ⟨(s.withService h.service).laneReport i, exec_laneRead hr (laneRead_of_lane hi), rfl, rfl, rfl, rfl, rfl, rfl, rfl,
      rfl, fun hstate => ?_, fun hstate n v hn hv => ?_⟩⟩
  · exact laneReport_current_of_not_armed (s := s.withService h.service) hstate
  · exact laneReport_current_of_armed (s := s.withService h.service) hstate hn hv

end Sys2Proof.Machine

/-! Writes of the engine mode (R107, R111 to R113, R126). -/

namespace Sys2Proof.Machine

variable {s : State}

/-! ## The change of the mode (R113, R141) -/

theorem EngineMode.ofCode_none {c : Byte} (h : 2 < c.toNat) : EngineMode.ofCode c = none := by
  unfold EngineMode.ofCode
  rw [if_neg, if_neg, if_neg] <;> rintro rfl <;> simp at h

theorem setMode_engineMode (s : State) (mode : EngineMode) : (s.setMode mode).settings.engineMode = mode := by
  unfold State.setMode
  dsimp only
  split <;> rfl

theorem setMode_keepsStill (s : State) (mode : EngineMode) : KeepsStill s (s.setMode mode) :=
  keepsStill_ite ⟨rfl, rfl, rfl⟩ ⟨rfl, rfl, rfl⟩

/-- With no streamer to show or hide, a change of the mode is the settings' alone (R141). -/
theorem setMode_of_no_streamer (h : s.feeds.anyStreamer = false) (mode : EngineMode) :
    s.setMode mode = s.mapSettings fun g => { g with engineMode := mode, standbyPending := false } :=
  if_neg fun ⟨_, hshown⟩ => ne_true_of_eq_false h hshown

theorem enterStandby_of_noTakeOpen (h : s.noTakeOpen) : s.enterStandby = s.setMode .standby := by
  rw [State.enterStandby, closeAll_of_noTakeOpen h]

/-! ## The write by its code (R111 to R113) -/

theorem writeEngineMode_range {c : Byte} (h : 2 < c.toNat) : s.writeEngineMode c = (s, .refuse .range) := by
  simp only [State.writeEngineMode, EngineMode.ofCode_none h]

/-- The write of STANDBY, by the mode in force and the motion (R113). -/
theorem writeEngineMode_standby : s.writeEngineMode 0 =
    if s.settings.engineMode = .standby then (s, stored 0x01 OutFlags.clear (.byte 0))
    else if s.atRest then (s.enterStandby, stored 0x01 OutFlags.clear (.byte 0))
    else (s.mapSettings fun g => { g with standbyPending := true },
      stored 0x01 { OutFlags.clear with staged := true } (.byte 0)) := rfl

/-- REHEARSE closes the takes of RECORD (R107, R112). -/
theorem writeEngineMode_rehearse : s.writeEngineMode 1 =
    ((if s.settings.engineMode = .record then s.closeAll .mode else s).setMode .rehearse,
      stored 0x01 OutFlags.clear (.byte 1)) := rfl

theorem writeEngineMode_record : s.writeEngineMode 2 = (s.setMode .record, stored 0x01 OutFlags.clear (.byte 2)) := rfl

/-- An engine mode write on a ready link writes the mode and replies. -/
theorem exec_engineModeWrite {h : FrameHead} {rounding : Byte} (hr : s.ready h)
    (hm : (selectRounding s.settings.rounding rounding).isSome = true) (code : Byte) :
    exec (.engineModeWrite h rounding code) s =
      .next (((s.withService h.service).writeEngineMode code).1.replied h 0x05
        ((s.withService h.service).writeEngineMode code).2) :=
  exec_writeByte (c := .engineModeWrite h rounding code) rfl hr hm rfl (by decide) nofun

/-- Settles O31: each code by the mode in force; a part without takes and streamers changes its mode alone. -/
theorem engineModeWritesTakeEffect : Obligations.EngineModeWritesTakeEffect := by
  intro s h rounding code hr hm u reply enters
  have hx := exec_engineModeWrite hr hm
  refine ⟨fun hcode => ?_, fun hstandby => ?_, fun hmode hmotion => ?_, fun hopen hshown => ⟨?_, ?_, fun hmode hrest => ?_⟩⟩
  · rw [hx, writeEngineMode_range hcode]
    rfl
  · rw [hx, writeEngineMode_standby, if_pos (by exact hstandby)]
    rfl
  · rw [hx, writeEngineMode_standby, if_neg (by exact hmode), if_neg (by exact ne_true_of_eq_false hmotion)]
    rfl
  · have closed : (if u.settings.engineMode = .record then u.closeAll .mode else u) = u := by
      rw [closeAll_of_noTakeOpen (by exact hopen), ite_self]
    refine (hx 1).trans ?_
    rw [writeEngineMode_rehearse, closed, setMode_of_no_streamer (by exact hshown)]
    rfl
  · refine (hx 2).trans ?_
    rw [writeEngineMode_record, setMode_of_no_streamer (by exact hshown)]
    rfl
  · refine (hx 0).trans ?_
    rw [writeEngineMode_standby, if_neg (by exact hmode), if_pos (by exact hrest),
      enterStandby_of_noTakeOpen (by exact hopen), setMode_of_no_streamer (by exact hshown)]
    rfl

/-! ## Leaving RECORD (R107, R113, R126) -/

/-- A sound part that closes its takes and changes its mode: no take is left open, every line is low, and what was held
is closed (R102, R107). -/
theorem closeAll_setMode (hs : ∀ i, (s.lane i).sound) (cause : EndCause) (mode : EngineMode) :
    let t := (s.closeAll cause).setMode mode
    t.settings.engineMode = mode ∧ (∀ i, (t.lane i).openTake = none ∧ (t.lane i).punchLine = false)
      ∧ t.log.records.length = s.log.records.length
      ∧ ∀ i serial, (s.lane i).openTake = some serial → ∀ r ∈ t.log.records, r.serial = serial →
          r.closing = some ⟨s.tracker.pos, s.tracker.count, cause⟩ := by
  have closed := (closeAll_closesAll s cause).andThen (setMode_keepsStill _ mode)
  refine ⟨setMode_engineMode _ mode, fun i => ?_, ?_, fun i serial hi r hr hserial => closed.closing hi hr hserial⟩
  · rw [closed.lane]
    exact ⟨Lane.closed_openTake _ _, Lane.closed_punchLine (hs i) cause⟩
  · rw [closed.log]
    exact List.length_map _

/-- Settles O32: both writes close every take and then change the mode. -/
theorem leavingRecordClosesEveryTake : Obligations.LeavingRecordClosesEveryTake := by
  intro s h rounding hr hs hm hrecord closes
  obtain ⟨-, hlanes, -, -⟩ := hs
  have hx := exec_engineModeWrite hr hm
  have left (cause : EndCause) (mode : EngineMode) := closeAll_setMode (s := s.withService h.service) hlanes cause mode
  refine ⟨⟨_, hx 1, ?_⟩, fun hrest => ⟨_, hx 0, ?_⟩⟩
  · rw [writeEngineMode_rehearse, if_pos (by exact hrecord)]
    exact left .mode .rehearse
  · have hmode : (s.withService h.service).settings.engineMode ≠ .standby := by
      rw [State.withService_settings, hrecord]
      decide
    rw [writeEngineMode_standby, if_neg hmode, if_pos (by exact hrest)]
    exact left .standby .standby

end Sys2Proof.Machine

/-! A lane alone in a step of LOCAL: a take that PUNCH_IN opens or the log refuses, a take that PUNCH_OUT closes, and a
take that breaks (R95 to R108, R121, R124). -/

namespace Sys2Proof.Machine

variable {s : State} {i : LaneId} {l : Lane} {table : CueTable} {log : TakeLog} {up : MotionUpdate} {n : Nat}

/-! ## A step of LOCAL with one lane at work (R31, R94) -/

/-- One lane is not several. -/
theorem not_severalLanes_of_onlyLane (only : s.onlyLane i) :
    severalLanes (fun j => decide ((s.lane j).state ≠ .idle)) = false := by
  have within : laneIds.filter (fun j => decide ((s.lane j).state ≠ .idle)) ⊆ [i] := fun j hj => by
    have busy := of_decide_eq_true (List.mem_filter.1 hj).2
    exact List.mem_singleton.2 (not_not.1 fun hji => busy (only j hji))
  have nodup : laneIds.Nodup := by decide
  have short := (nodup.filter fun j => decide ((s.lane j).state ≠ .idle)).subperm within |>.length_le
  simp only [List.length_singleton] at short
  exact decide_eq_false (by omega)

/-- An update without a boundary is the turn of the lane at work (R94). -/
theorem lanesTake_of_onlyLane (only : s.onlyLane i)
    (h : Lands i l table log s (s.laneTurn i up (s.rearmTriggered up) s.settings.engineMode)) :
    s.lanesTake up none = s.laneTurn i up (s.rearmTriggered up) s.settings.engineMode := by
  have idle : ∀ j (t : State), (t.lane j).state = .idle → laneTakes up (s.rearmTriggered up) none j t = t :=
    fun j t ht => laneTurn_of_idle ht _ _ _
  unfold State.lanesTake
  simp only [not_severalLanes_of_onlyLane only, Bool.false_eq_true, if_false]
  exact foldl_onlyLane (f := laneTakes up (s.rearmTriggered up) none) idle (.refl _) only h

/-- The part as the generator has taken the step of a sample, and no lane has (R31). -/
def State.stepped (s : State) : State := s.begun.mapTracker fun t => { t with pos := s.steppedPos }

/-- The update of a step in LOCAL (R44). -/
def State.stepUpdate (s : State) : MotionUpdate :=
  { p0 := s.tracker.pos, p1 := s.steppedPos, kind := .step, sample := s.tracker.count + 1, inPlay := s.inPlay,
    coasting := false }

/-- With the cycle action OFF a step inside its frame is the reaction of the lane at work (R31, R94). -/
theorem integrateLocal_of_onlyLane (hstep : s.stepping) (hoff : s.settings.cycleAction = .off)
    (hframe : frameOf s.steppedPos = frameOf s.tracker.pos) (only : s.onlyLane i)
    (h : Lands i l table log s.stepped (s.stepped.reactLane i s.stepUpdate s.settings.engineMode)) :
    s.begun.integrateLocal = s.stepped.reactLane i s.stepUpdate s.settings.engineMode := by
  obtain ⟨-, -, -, hstate, hspd⟩ := hstep
  have update : s.stepped.updateFrom s.tracker.pos .step = s.stepUpdate := by
    have notCoasting : decide (s.stepped.tracker.state = .coasting) = false := by
      rw [show s.stepped.tracker.state = .moving from hstate]
      rfl
    unfold State.updateFrom
    rw [notCoasting]
    rfl
  have emitted : s.stepped.emitUpdate s.tracker.pos .step = s.stepped.lanesTake s.stepUpdate none :=
    (if_pos hframe.symm).trans (congrArg (s.stepped.lanesTake · none) update)
  have integrated : s.begun.integrateLocal = s.stepped.emitUpdate s.tracker.pos .step := by
    unfold State.integrateLocal
    rw [if_pos ⟨hstate, hspd⟩, show s.begun.settings.cycleAction = .off from hoff]
    exact ite_self _
  have turn : s.stepped.laneTurn i s.stepUpdate (s.stepped.rearmTriggered s.stepUpdate) s.stepped.settings.engineMode =
      s.stepped.reactLane i s.stepUpdate s.settings.engineMode := by
    have untriggered : s.stepped.rearmTriggered s.stepUpdate = false := by
      simp [State.rearmTriggered, show s.stepped.settings.cycleAction = .off from hoff]
    rw [untriggered]
    exact if_neg (by simp)
  rw [integrated, emitted, lanesTake_of_onlyLane (s := s.stepped) only (turn ▸ h), turn]

/-- A sample in LOCAL whose step lands the lane at work leaves its lanes, table, log and link where that reaction does. -/
theorem exec_step_reacts (hstep : s.stepping) (hoff : s.settings.cycleAction = .off)
    (hframe : frameOf s.steppedPos = frameOf s.tracker.pos) (only : s.onlyLane i) (ta tb tz : BitVec 16)
    (h : Lands i l table log s.stepped (s.stepped.reactLane i s.stepUpdate s.settings.engineMode)) :
    ∃ t, exec (.wordClockSample ta tb tz) s = .next t ∧ t.tracker.pos = s.steppedPos ∧ Lands i l table log s t
      ∧ t.link = (s.stepped.reactLane i s.stepUpdate s.settings.engineMode).link := by
  have ⟨hclk, hbegun, hsrc, hstate, _⟩ := hstep
  obtain ⟨t, hexec, htracker, -, still, hlink⟩ := exec_sample hclk hbegun ta tb tz
  rw [sampleMotion_of_local (s := s.begun) hsrc hstate, integrateLocal_of_onlyLane hstep hoff hframe only h]
    at htracker still hlink
  have spared := laneTurn_sparesTracker s.stepped i s.stepUpdate false s.settings.engineMode
  rw [State.laneTurn, if_neg (by simp)] at spared
  refine ⟨t, hexec, ?_, .after (t := s.stepped) ⟨rfl, rfl, rfl⟩ (h.andThen still), hlink⟩
  rw [htracker, spared.tracker]
  rfl

/-! ## Takes granted, refused and closed (R103, R104, R107, R121, R124) -/

theorem closeTake_lands (pos : Nat) (sample : SampleCount) (cause : EndCause) :
    Lands i ((s.lane i).closed cause) s.table
      { s.log with records := closedIn s.log.records (s.lane i).openTake ⟨pos, sample, cause⟩ } s
      (s.closeTake i pos sample cause) := by
  have closed := closeTake_closesLane s i pos sample cause
  exact ⟨closed.own, closed.others, closed.table, closed.log⟩

/-- A grant counts the take in its slot, appends the record and gives the lane its serial and its line (R102, R121). -/
theorem grantTake_lands (q : TakeRequest) :
    Lands q.lane { s.lane q.lane with openTake := some s.log.nextSerial, punchLine := true }
      (changeSlot s.table q.slot fun v => { v with takes := (nextTakeNumber v.takes).1 })
      { records := s.log.records ++ [newTake s q], nextSerial := s.log.nextSerial + 1 } s (s.grantTake q) := by
  have raised := lands_mapLane (i := q.lane) (s := (s.mapTable fun t =>
      changeSlot t q.slot fun v => { v with takes := (nextTakeNumber v.takes).1 }).mapLog fun g =>
      { records := g.records ++ [newTake s q], nextSerial := g.nextSerial + 1 }) fun l =>
    { l with openTake := some s.log.nextSerial, punchLine := true }
  exact Lands.andThen ⟨raised.own, raised.others, raised.table, raised.log⟩ (post_keepsStill _ _)

/-- The record of a grant, with the take counter below its limit (R121, R122). -/
theorem newTake_of_defined {q : TakeRequest} {v : Slot} (hv : slotAt s.table q.slot = some v) (htakes : v.takes < 999) :
    newTake s q =
      { serial := s.log.nextSerial, lane := q.lane, slot := q.slot, label := v.live.label, number := v.takes + 1,
        inPos := q.inPos, inSample := q.inSample, overshoot := q.overshoot, closing := none, numberHeld := false,
        coasted := q.coasting } := by
  simp only [newTake, hv, liveLabel_of_defined hv, nextTakeNumber, if_pos htakes]

/-- The take counter of the slot after a grant, below its limit (R122). -/
theorem slotAt_counted (hwf : tableWf table = true) {v : Slot} (hv : slotAt table n = some v) (htakes : v.takes < 999) :
    slotAt (changeSlot table n fun v => { v with takes := (nextTakeNumber v.takes).1 }) n =
      some { v with takes := v.takes + 1 } := by
  rw [slotAt_changeSlot hwf, if_pos rfl, hv]
  simp only [Option.map_some, nextTakeNumber, if_pos htakes]

/-- A full log refuses: the PUNCH_IN is marked PASSED and LOG_FULL is raised (R104, R124). -/
theorem askLog_of_full (h : s.logHasRoom = false) (r : Retirement) :
    Lands i { s.lane i with stack := remarkPunchIn (s.lane i).stack } s.table s.log s (s.askLog i n up r)
      ∧ (s.askLog i n up r).hasFlag .logFull = true := by
  have refused : s.askLog i n up r = ((s.mapLane i fun l => { l with stack := remarkPunchIn l.stack }).raise
      .logFull).noteLane i .logFull .armed (s.lane i).index n (some (exactPos r.retired.event.target)) := by
    unfold State.askLog
    rw [if_neg (ne_true_of_eq_false h)]
    simp only [State.raise, State.lane_mapLink, State.lane_mapLane, if_true]
  have marked := lands_mapLane (s := s) (i := i) fun l => { l with stack := remarkPunchIn l.stack }
  rw [refused]
  exact ⟨marked.andThen ((post_keepsStill _ _).after rfl rfl rfl),
    (post_evolves _ _).hasFlag (hasFlag_raise _ .logFull)⟩

/-! ## One event retires (R98, R99) -/

/-- The retirement of an event on an update, `live` in a play step (R98). -/
def retirementOf (std : Standard) (up : MotionUpdate) (live : Bool) (e : Event) : Retirement :=
  { retired := { event := e, live := live && decide (std.dist up.p0 e.target < 0) }
    overshoot := (std.dist up.p1 e.target).toNat }

/-- A head of the queue that retires, before one that does not, retires alone. -/
theorem retireSplit_of_one {std : Standard} {live : Bool} {e : Event} {rest : List Event} (hkind : e.kind ≠ .cueEnd)
    (hretires : retires std up.p1 e.target) (hnext : ∀ f, rest.head? = some f → ¬retires std up.p1 f.target) :
    retireSplit std up.p0 up.p1 live (e :: rest) = ([retirementOf std up live e], rest) := by
  have behind := retireSplit_of_ahead (p0 := up.p0) (live := live) hnext
  refine ((if_pos hretires).trans (if_neg hkind)).trans ?_
  rw [behind]
  rfl

theorem retireStep_of_one {live : Bool} {e : Event} {rest : List Event} (hqueue : (s.lane i).queue = e :: rest)
    (hkind : e.kind ≠ .cueEnd) (hretires : retires s.settings.standard up.p1 e.target)
    (hnext : ∀ f, rest.head? = some f → ¬retires s.settings.standard up.p1 f.target) :
    (s.retireStep i n up live).1 = [retirementOf s.settings.standard up live e]
      ∧ Lands i { s.lane i with
          queue := rest, stack := (retirementOf s.settings.standard up live e).retired :: (s.lane i).stack }
        s.table s.log s (s.retireStep i n up live).2 := by
  have split := retireSplit_of_one (live := live) hkind hretires hnext
  rw [← hqueue] at split
  have own := lands_mapLane (s := s) (i := i) fun l => { l with
    queue := rest, stack := (retirementOf s.settings.standard up live e).retired :: l.stack }
  refine ⟨congrArg Prod.fst split, ?_⟩
  simp only [State.retireStep, split, List.map_cons, List.map_nil, List.reverse_singleton, List.singleton_append,
    List.foldl_cons, List.foldl_nil]
  exact own.andThen (post_keepsStill _ _)

/-- A lane in a play step of which one event retires, no CUE_END, acts on it and hands its states (R97 to R101). -/
theorem reactLane_of_one {mode : EngineMode} {e : Event} {rest : List Event}
    (hlive : up.playStep s.settings.standard mode = true) (hslot : (s.lane i).currentSlot = some n)
    (htop : ∀ r, (s.lane i).stack.head? = some r → ¬returns s.settings.standard up.p1 r.event.target)
    (hqueue : (s.lane i).queue = e :: rest) (hkind : e.kind ≠ .cueEnd)
    (hretires : retires s.settings.standard up.p1 e.target)
    (hnext : ∀ f, rest.head? = some f → ¬retires s.settings.standard up.p1 f.target) :
    ∃ b t, Lands i { s.lane i with
        queue := rest, stack := ⟨e, decide (s.settings.standard.dist up.p0 e.target < 0)⟩ :: (s.lane i).stack }
        s.table s.log s t
      ∧ s.reactLane i up mode =
        (t.actOn i n up mode (retirementOf s.settings.standard up true e)).handFeeds i b := by
  obtain ⟨retired, landed⟩ := retireStep_of_one (n := n) (live := true) hqueue hkind hretires hnext
  have unended : endedAt [retirementOf s.settings.standard up true e] = none := if_neg hkind
  refine ⟨anyBeepOn [retirementOf s.settings.standard up true e], _, landed, ?_⟩
  simp only [State.reactLane, hslot, hlive, if_true, restoreStep_of_behind htop, advanceFuel, State.retireAndAct, retired,
    unended, List.foldl_cons, List.foldl_nil]

/-! ## A take that PUNCH_OUT closes (R99, R107, R108) -/

/-- A lane in a play step over its PUNCH_OUT alone closes its take OUT where the step ends. -/
theorem reactLane_of_punchOut {mode : EngineMode} {e : Event} {rest : List Event} {serial : BitVec 16}
    (hlive : up.playStep s.settings.standard mode = true) (hslot : (s.lane i).currentSlot = some n)
    (htop : ∀ r, (s.lane i).stack.head? = some r → ¬returns s.settings.standard up.p1 r.event.target)
    (hqueue : (s.lane i).queue = e :: rest) (hkind : e.kind = .punchOut)
    (hretires : retires s.settings.standard up.p1 e.target)
    (hnext : ∀ f, rest.head? = some f → ¬retires s.settings.standard up.p1 f.target)
    (ho : (s.lane i).openTake = some serial) :
    Lands i { s.lane i with
        queue := rest, stack := ⟨e, decide (s.settings.standard.dist up.p0 e.target < 0)⟩ :: (s.lane i).stack
        openTake := none, punchLine := false }
      s.table { s.log with records := closedIn s.log.records (some serial) ⟨up.p1, up.sample, .out⟩ } s
      (s.reactLane i up mode) := by
  obtain ⟨b, t, landed, reacted⟩ :=
    reactLane_of_one hlive hslot htop hqueue (by rw [hkind]; decide) hretires hnext
  have acted : t.actOn i n up mode (retirementOf s.settings.standard up true e) = t.closeTake i up.p1 up.sample .out := by
    simp only [State.actOn, retirementOf, hkind]
  have closed := closeTake_lands (s := t) (i := i) up.p1 up.sample .out
  rw [landed.own, landed.table, landed.log] at closed
  simp only [Lane.closed, ho, if_true] at closed
  rw [reacted, acted]
  exact (landed.trans closed).andThen (handFeeds_keepsStill _ _ _)

/-! ## A take that PUNCH_IN opens (R103, R104, R121, R124) -/

/-- What a lane asks the log for when its PUNCH_IN retires (R103). -/
def State.punchRequest (s : State) (i : LaneId) (n : Nat) (up : MotionUpdate) (e : Event) : TakeRequest :=
  { lane := i, slot := n, inPos := up.p1, inSample := up.sample
    overshoot := (s.settings.standard.dist up.p1 e.target).toNat, coasting := up.coasting }

section PunchIn

variable {e : Event} {rest : List Event} (hlive : up.playStep s.settings.standard .record = true)
  (hslot : (s.lane i).currentSlot = some n) (hstack : (s.lane i).stack = []) (ho : (s.lane i).openTake = none)
  (hqueue : (s.lane i).queue = e :: rest) (hkind : e.kind = .punchIn)
  (hahead : s.settings.standard.dist up.p0 e.target < 0) (hretires : retires s.settings.standard up.p1 e.target)
  (hnext : ∀ f, rest.head? = some f → ¬retires s.settings.standard up.p1 f.target)

include hlive hslot hstack ho hqueue hkind hahead hretires hnext

/-- A lane carried live over its PUNCH_IN alone in RECORD asks the log, its PUNCH_IN on the stack LIVE (R98, R103). -/
theorem reactLane_of_punchIn : ∃ b t, Lands i { s.lane i with queue := rest, stack := [⟨e, true⟩] } s.table s.log s t
    ∧ s.reactLane i up .record =
      (t.askLog i n up (retirementOf s.settings.standard up true e)).handFeeds i b := by
  obtain ⟨b, t, landed, reacted⟩ := reactLane_of_one hlive hslot (fun r hr => by rw [hstack] at hr; cases hr) hqueue
    (by rw [hkind]; decide) hretires hnext
  rw [hstack, decide_eq_true hahead] at landed
  refine ⟨b, t, landed, ?_⟩
  have untaken : (t.lane i).openTake = none := by rw [landed.own]; exact ho
  rw [reacted]
  simp only [State.actOn, retirementOf, hkind, decide_eq_true hahead, Bool.and_self, untaken, and_self, if_true]

theorem reactLane_granted (hroom : s.log.records.length < 64) :
    Lands i { s.lane i with
        queue := rest, stack := [⟨e, true⟩], openTake := some s.log.nextSerial, punchLine := true }
      (changeSlot s.table n fun v => { v with takes := (nextTakeNumber v.takes).1 })
      { records := s.log.records ++ [newTake s (s.punchRequest i n up e)], nextSerial := s.log.nextSerial + 1 } s
      (s.reactLane i up .record) := by
  obtain ⟨b, t, landed, reacted⟩ := reactLane_of_punchIn hlive hslot hstack ho hqueue hkind hahead hretires hnext
  have asked : t.askLog i n up (retirementOf s.settings.standard up true e) = t.grantTake (s.punchRequest i n up e) :=
    if_pos (decide_eq_true (by rw [landed.log]; exact hroom))
  have granted := grantTake_lands (s := t) (s.punchRequest i n up e)
  have record : newTake t (s.punchRequest i n up e) = newTake s (s.punchRequest i n up e) := by
    simp only [newTake, State.liveLabel, landed.table, landed.log]
  rw [record, landed.log, landed.table, show (s.punchRequest i n up e).lane = i from rfl, landed.own] at granted
  rw [reacted, asked]
  exact (landed.trans granted).andThen (handFeeds_keepsStill _ _ _)

theorem reactLane_refused (hfull : 64 ≤ s.log.records.length) :
    Lands i { s.lane i with queue := rest, stack := [⟨e, false⟩] } s.table s.log s (s.reactLane i up .record)
      ∧ (s.reactLane i up .record).hasFlag .logFull = true := by
  obtain ⟨b, t, landed, reacted⟩ := reactLane_of_punchIn hlive hslot hstack ho hqueue hkind hahead hretires hnext
  have full : t.logHasRoom = false := decide_eq_false (by rw [landed.log]; exact Nat.not_lt.2 hfull)
  obtain ⟨refused, flagged⟩ := askLog_of_full (i := i) (n := n) (up := up) full
    (retirementOf s.settings.standard up true e)
  have remarked : remarkPunchIn [(⟨e, true⟩ : Retired)] = [⟨e, false⟩] := by simp [remarkPunchIn, hkind]
  rw [landed.own, landed.table, landed.log] at refused
  simp only [remarked] at refused
  rw [reacted]
  exact ⟨(landed.trans refused).andThen (handFeeds_keepsStill _ _ _), (handFeeds_evolves _ _ _).hasFlag flagged⟩

end PunchIn

/-! ## A step that is no play step (R97, R107) -/

/-- The tops of a stack that return, above one that does not. -/
theorem restoreSplit_append {std : Standard} {p1 : Nat} {back kept : List Retired}
    (hback : ∀ r ∈ back, returns std p1 r.event.target)
    (hkept : ∀ r, kept.head? = some r → ¬returns std p1 r.event.target) :
    restoreSplit std p1 (back ++ kept) = (back.map (·.event), kept) := by
  induction back with
  | nil =>
    cases kept with
    | nil => rfl
    | cons r rest => exact if_neg (hkept r rfl)
  | cons r back ih =>
    have below := ih fun r' hr' => hback r' (List.mem_cons_of_mem _ hr')
    have returned : restoreSplit std p1 (r :: (back ++ kept)) =
        (r.event :: (restoreSplit std p1 (back ++ kept)).1, (restoreSplit std p1 (back ++ kept)).2) :=
      if_pos (hback r List.mem_cons_self)
    rw [List.cons_append, returned, below]
    rfl

/-- A run of steps that each keep still keeps still. -/
theorem keepsStill_foldl {α : Type} {f : State → α → State} (hf : ∀ s a, KeepsStill s (f s a)) (l : List α) (s : State) :
    KeepsStill s (l.foldl f s) := by
  induction l generalizing s with
  | nil => exact .refl s
  | cons a l ih => exact (hf s a).trans (ih _)

theorem restoreStep_lands {back kept : List Retired} (hstack : (s.lane i).stack = back ++ kept)
    (hback : ∀ r ∈ back, returns s.settings.standard up.p1 r.event.target)
    (hkept : ∀ r, kept.head? = some r → ¬returns s.settings.standard up.p1 r.event.target) :
    Lands i { s.lane i with queue := (back.map (·.event)).reverse ++ (s.lane i).queue, stack := kept } s.table s.log s
      (s.restoreStep i n up) := by
  have own := lands_mapLane (s := s) (i := i) fun l => { l with
    queue := (back.map (·.event)).reverse ++ l.queue, stack := kept }
  simp only [State.restoreStep, hstack, restoreSplit_append hback hkept]
  exact own.andThen (keepsStill_foldl (fun _ _ => post_keepsStill _ _) _ _)

/-- A retired event with its mark taken when it is the PUNCH_IN of a take that breaks (R107). -/
def Retired.broken (held : Bool) (r : Retired) : Retired :=
  if held = true ∧ r.event.kind = .punchIn then { r with live := false } else r

@[simp] theorem Retired.broken_event (held : Bool) (r : Retired) : (r.broken held).event = r.event := by
  unfold Retired.broken
  split <;> rfl

/-- A lane whose line follows its take, once that is broken (R102, R107). -/
theorem Lane.closed_broken (h : l.punchLine = l.openTake.isSome) : l.closed .broken = { l with
    stack := l.stack.map (Retired.broken l.openTake.isSome), openTake := none, punchLine := false } := by
  obtain ⟨state, runList, index, queue, stack, openTake, punchLine⟩ := l
  cases openTake with
  | none =>
    have unmarked : stack.map (Retired.broken false) = stack :=
      (List.map_congr_left fun r _ => if_neg (by simp)).trans (List.map_id _)
    have low : punchLine = false := h
    simp only [Lane.closed, Option.isSome_none, unmarked, low]
  | some serial =>
    have marked : remarkPunchIn stack = stack.map (Retired.broken true) :=
      List.map_congr_left fun r _ => by simp only [Retired.broken, true_and]
    exact congrArg (Lane.mk state runList index queue · none false) marked

/-- An event that returns lies ahead, so it does not retire. -/
theorem not_retires_of_returns {std : Standard} {p1 target : Nat} (h : returns std p1 target) :
    ¬retires std p1 target := fun hr => absurd h.2 (Int.not_lt.2 hr.1)

/-- The head of the queue to which events have returned does not retire. -/
theorem head_ahead_of_returned {std : Standard} {p1 : Nat} {back : List Retired} {queue : List Event}
    (hback : ∀ r ∈ back, returns std p1 r.event.target)
    (hahead : ∀ f, queue.head? = some f → back = [] → ¬retires std p1 f.target) (f : Event)
    (hf : ((back.map (·.event)).reverse ++ queue).head? = some f) : ¬retires std p1 f.target := by
  rcases List.eq_nil_or_concat back with rfl | ⟨tops, r, rfl⟩
  · exact hahead f hf rfl
  · simp only [List.concat_eq_append, List.map_append, List.map_cons, List.map_nil, List.reverse_append,
      List.reverse_singleton, List.cons_append, List.head?_cons, Option.some.injEq] at hf
    exact not_retires_of_returns (hf ▸ hback r (by simp))

/-- A step that is no play step breaks the take, brings the tops that lie ahead back, and retires nothing more. -/
theorem reactLane_of_break {mode : EngineMode} {back kept : List Retired}
    (hlive : up.playStep s.settings.standard mode = false) (hslot : (s.lane i).currentSlot = some n)
    (hline : (s.lane i).punchLine = (s.lane i).openTake.isSome) (hstack : (s.lane i).stack = back ++ kept)
    (hback : ∀ r ∈ back, returns s.settings.standard up.p1 r.event.target)
    (hkept : ∀ r, kept.head? = some r → ¬returns s.settings.standard up.p1 r.event.target)
    (hahead : ∀ f, (s.lane i).queue.head? = some f → back = [] → ¬retires s.settings.standard up.p1 f.target) :
    Lands i { s.lane i with
        queue := (back.map (·.event)).reverse ++ (s.lane i).queue
        stack := kept.map (Retired.broken (s.lane i).openTake.isSome), openTake := none, punchLine := false }
      s.table { s.log with records := closedIn s.log.records (s.lane i).openTake ⟨up.p0, up.sample, .broken⟩ } s
      (s.reactLane i up mode) := by
  have closed := closeTake_lands (s := s) (i := i) up.p0 up.sample .broken
  have standard : (s.closeTake i up.p0 up.sample .broken).settings.standard = s.settings.standard := by
    rw [(closeTake_sparesTracker s i _ _ _).settings]
  rw [Lane.closed_broken hline] at closed
  generalize hb : Retired.broken (s.lane i).openTake.isSome = b at closed ⊢
  have event (r : Retired) : (b r).event = r.event := by rw [← hb]; exact Retired.broken_event _ r
  have restored := restoreStep_lands (s := s.closeTake i up.p0 up.sample .broken) (i := i) (up := up) (n := n)
    (back := back.map b) (kept := kept.map b) (by rw [closed.own, hstack, List.map_append])
    (fun r hr => by
      obtain ⟨r', hr', rfl⟩ := List.mem_map.1 hr
      rw [standard, event]
      exact hback r' hr')
    (fun r hr => by
      rw [List.head?_map] at hr
      obtain ⟨r', hr', rfl⟩ := Option.map_eq_some_iff.1 hr
      rw [standard, event]
      exact hkept r' hr')
  simp only [List.map_map, Function.comp_def, event] at restored
  have landed := closed.trans restored
  rw [closed.own, closed.table, closed.log] at landed
  have rests := retireAndAct_of_ahead (s := (s.closeTake i up.p0 up.sample .broken).restoreStep i n up) (i := i)
    (up := up) (fun f hf => by
      rw [landed.own] at hf
      rw [(restoreStep_sparesTracker _ i n up).settings, standard]
      exact head_ahead_of_returned hback hahead f hf) false mode advanceFuel
  have reacted : s.reactLane i up mode =
      ((s.closeTake i up.p0 up.sample .broken).restoreStep i n up).handFeeds i false := by
    simp only [State.reactLane, hslot, hlive, Bool.false_eq_true, if_false, rests]
  rw [reacted]
  exact landed.andThen (handFeeds_keepsStill _ _ _)

/-! ## The obligation -/

theorem Lane.currentSlot_of_entry {l : Lane} (hstate : l.state = .armed) (hn : l.runList[l.index]? = some n) :
    l.currentSlot = some n := (Lane.currentSlot_of_armed hstate).trans hn

/-- A step in LOCAL is a play step by the play state, the mode and the way it takes (R95). -/
theorem stepUpdate_playStep_iff (mode : EngineMode) : s.stepUpdate.playStep s.settings.standard mode = true ↔
    s.inPlay = true ∧ mode ≠ .standby ∧ 0 ≤ s.settings.standard.dist s.steppedPos s.tracker.pos
      ∧ s.settings.standard.dist s.steppedPos s.tracker.pos < s.settings.standard.reach := by
  simp [MotionUpdate.playStep, State.stepUpdate]

/-- A part in play that is MOVING in LOCAL takes a step at its next sample (R31, R43). -/
theorem stepping_of_inPlay (hclk : s.tracker.clockLost = false) (hbegun : s.tracker.sampleBegun = false)
    (hsrc : s.settings.source = .localGen) (hstate : s.tracker.state = .moving) (hplay : s.inPlay = true) :
    s.stepping := by
  obtain ⟨-, hforward, -⟩ := of_decide_eq_true hplay
  exact ⟨hclk, hbegun, hsrc, hstate, hforward.ne'⟩

/-- Settles O56: the grant and the refusal of a PUNCH_IN, the end of a take at PUNCH_OUT, and the break. -/
theorem punchInOpensATake : Obligations.PunchInOpensATake := by
  refine ⟨fun s ta tb tz i n v e rest => ?_, fun s ta tb tz i n => ?_⟩
  · intro std p1 l hclk hbegun hsrc hmoving hplay hrecord hoff hframe hforward hreach hwf only hstate hn hv htakes hstack
      ho hqueue hkind hahead hpast hnear hnext
    have hstep := stepping_of_inPlay hclk hbegun hsrc hmoving hplay
    have hlive : s.stepUpdate.playStep s.settings.standard .record = true :=
      (stepUpdate_playStep_iff .record).2 ⟨hplay, by decide, hforward, hreach⟩
    have hslot := Lane.currentSlot_of_entry hstate hn
    have held (f : Event) (hf : rest.head? = some f) : ¬retires std p1 f.target := fun ⟨hlow, hhigh⟩ => by
      rcases hnext f hf with h | h <;> omega
    have reacts {l' : Lane} {table : CueTable} {log : TakeLog}
        (h : Lands i l' table log s.stepped (s.stepped.reactLane i s.stepUpdate .record)) :=
      exec_step_reacts hstep hoff hframe only ta tb tz (hrecord ▸ h)
    by_cases hroom : s.log.records.length < 64
    · have granted := reactLane_granted (s := s.stepped) (up := s.stepUpdate) hlive hslot hstack ho hqueue hkind hahead
        ⟨hpast, hnear⟩ held hroom
      obtain ⟨t, hexec, hpos, landed, -⟩ := reacts granted
      refine ⟨t, hexec, hpos, landed.others, fun _ => ⟨?_, ?_, ?_, landed.own⟩, fun hfull => absurd hroom (by omega)⟩
      · rw [landed.log]
        rfl
      · rw [landed.log, newTake_of_defined (s := s.stepped) (q := s.stepped.punchRequest i n s.stepUpdate e) hv htakes]
        rfl
      · rw [landed.table]
        exact slotAt_counted hwf hv htakes
    · obtain ⟨refused, flagged⟩ := reactLane_refused (s := s.stepped) (up := s.stepUpdate) hlive hslot hstack ho hqueue
        hkind hahead ⟨hpast, hnear⟩ held (Nat.not_lt.1 hroom)
      obtain ⟨t, hexec, hpos, landed, hlink⟩ := reacts refused
      refine ⟨t, hexec, hpos, landed.others, fun h => absurd h hroom, fun _ =>
        ⟨landed.log, landed.table, ?_, landed.own⟩⟩
      rw [State.hasFlag, hlink, hrecord]
      exact flagged
  · intro std l p0 p1 play hstep hoff hframe only hstate hn hline
    have hslot := Lane.currentSlot_of_entry hstate hn
    refine ⟨fun e rest serial hplay ho hqueue hkind hretires hnext htop => ?_,
      fun back kept hbreak hstack hback hkept hahead => ?_⟩
    · have closed := reactLane_of_punchOut (s := s.stepped) (up := s.stepUpdate)
        ((stepUpdate_playStep_iff s.settings.engineMode).2 hplay) hslot htop hqueue hkind hretires hnext ho
      obtain ⟨t, hexec, hpos, landed, -⟩ := exec_step_reacts hstep hoff hframe only ta tb tz closed
      exact ⟨t, hexec, hpos, landed.table, landed.others, landed.own, landed.log⟩
    · have broken := reactLane_of_break (s := s.stepped) (up := s.stepUpdate)
        (Bool.eq_false_iff.2 fun h => hbreak ((stepUpdate_playStep_iff s.settings.engineMode).1 h)) hslot hline hstack
        hback hkept hahead
      obtain ⟨t, hexec, hpos, landed, -⟩ := exec_step_reacts hstep hoff hframe only ta tb tz broken
      exact ⟨t, hexec, hpos, landed.table, landed.others, landed.own, landed.log⟩

end Sys2Proof.Machine

/-! The cue tone (R135 to R138, R182), the class-I settings without rows of their own (R150, R152), and the senders of
OVL and COUT (R142, R146). -/

namespace Sys2Proof.Machine

/-! ## The TONE stream (R138, R182) -/

theorem length_slotBits (v : BitVec 16) : (slotBits v).length = 16 := by simp [slotBits]

theorem slotBits_getElem? {v : BitVec 16} {k : Nat} (hk : k < 16) : (slotBits v)[k]? = some (v.getLsbD (15 - k)) := by
  simp [slotBits, hk]

/-- The bits of slot `n` stand from bit `16 * n` on. -/
theorem flatten_slotBits_getElem? {slots : List (BitVec 16)} {n k : Nat} {v : BitVec 16} (hn : slots[n]? = some v)
    (hk : k < 16) : ((slots.map slotBits).flatten)[16 * n + k]? = some (v.getLsbD (15 - k)) := by
  induction slots generalizing n with
  | nil => simp at hn
  | cons w ws ih =>
    rw [List.map_cons, List.flatten_cons]
    cases n with
    | zero =>
      obtain rfl : w = v := by simpa using hn
      rw [List.getElem?_append_left (by rw [length_slotBits]; omega), Nat.mul_zero, Nat.zero_add, slotBits_getElem? hk]
    | succ n =>
      rw [List.getElem?_append_right (by rw [length_slotBits]; omega), length_slotBits,
        show 16 * (n + 1) + k - 16 = 16 * n + k by omega]
      exact ih (by simpa using hn)

theorem toList_getElem? {α : Type} (e : Eight α) (i : LaneId) : e.toList[i.val]? = some (e.get i) := by
  fin_cases i <;> rfl

theorem length_toneStream (f : Feeds) : f.toneStream.length = 128 := by
  simp [Feeds.toneStream, Eight.toList, length_slotBits]

/-! ## The TONE frame (R135 to R137) -/

theorem audible_iff (s : State) (i : LaneId) : s.audible i = true ↔
    (s.feeds.copies.get i).tone ≠ 0 ∧ s.inPlay = true ∧ s.settings.engineMode ≠ .standby
      ∧ s.settings.toneMute.getLsbD i.val = false := by
  simp [State.audible, and_assoc]

theorem toneFrame_tone (s : State) (i : LaneId) : s.toneFrame.feeds.tone.get i = s.toneSlot i := by
  fin_cases i <;> rfl

/-- The phase from which a slot was formed is the one that the frame leaves, less the increment (R136). -/
theorem toneFrame_phaseBefore (s : State) (i : LaneId) :
    s.toneFrame.feeds.phases.get i - s.toneFrame.feeds.increments.get i = s.feeds.phases.get i := by
  rw [(toneFrame_toned s).phases, (toneFrame_toned s).increments, BitVec.add_sub_cancel]

/-- Every sample ends with its TONE frame, formed from the part as its motion leaves it (R31, R136). -/
theorem exec_sample_toneFrame {s t : State} {ta tb tz : BitVec 16} (h : exec (.wordClockSample ta tb tz) s = .next t) :
    ∃ u : State, t = (u.beginSample.sampleMotion ta tb tz).toneFrame.endSample :=
  ⟨_, (Host.Outcome.next.inj h).symm⟩

/-- Settles O55: the play state, the mode, the mutes and the levels are those from which the frame was formed. -/
theorem everySampleFormsItsToneFrame : Obligations.EverySampleFormsItsToneFrame := by
  intro s t ta tb tz h
  obtain ⟨u, rfl⟩ := exec_sample_toneFrame h
  generalize u.beginSample.sampleMotion ta tb tz = m
  refine ⟨fun i => ?_, length_toneStream _, fun i k hk => flatten_slotBits_getElem? (toList_getElem? _ i) hk⟩
  have hslot : m.toneFrame.endSample.feeds.tone.get i = m.toneSlot i := toneFrame_tone m i
  have hphase : m.toneFrame.endSample.feeds.phases.get i - m.toneFrame.endSample.feeds.increments.get i =
      m.feeds.phases.get i := toneFrame_phaseBefore m i
  rw [hslot, hphase, State.toneSlot]
  exact if_congr (audible_iff m i) rfl rfl

/-! ## Class-I settings without rows of their own (R135, R150, R152) -/

/-- The answer of a write that is clamped to a range has CLAMPED exactly when the value is out of range (R150). -/
theorem storedNumber_clamped {low high : Int} (hle : low ≤ high) (id : Byte) (v : Int) :
    storedNumber id (max low (min high v)) v =
      .ok { OutFlags.clear with clamped := decide (v < low ∨ high < v) }
        (.settingWrite id (.number (max low (min high v)))) := by
  simp only [← clampTo_eq hle, ← clampTo_ne_iff hle]
  rfl

/-- A tone level is clamped to 0 to 63 and takes hold at once (R135). -/
theorem writeToneLevel_eq (s : State) (i : LaneId) (w : Int) :
    s.writeToneLevel i w =
      (s.mapSettings fun g => { g with toneLevel := g.toneLevel.set i (max 0 (min 63 w)).toNat },
        .ok { OutFlags.clear with clamped := decide (w < 0 ∨ 63 < w) }
          (.settingWrite (0x28 + BitVec.ofNat 8 i.val) (.number (max 0 (min 63 w))))) := by
  simp only [State.writeToneLevel, clampTo_eq (low := 0) (high := 63) (by decide),
    storedNumber_clamped (low := 0) (high := 63) (by decide), BitVec.ofNat_add]
  rfl

/-- The recorder latency is clamped to 0 to 4,095 and takes hold at once (R152). -/
theorem writeRecorderLatency_eq (s : State) (w : Int) :
    s.writeRecorderLatency w =
      (s.mapSettings fun g => { g with recorderLatency := (max 0 (min 4095 w)).toNat },
        .ok { OutFlags.clear with clamped := decide (w < 0 ∨ 4095 < w) }
          (.settingWrite 0x37 (.number (max 0 (min 4095 w))))) := by
  simp only [State.writeRecorderLatency, clampTo_eq (low := 0) (high := 4095) (by decide),
    storedNumber_clamped (low := 0) (high := 4095) (by decide)]

theorem catalogue_toneLevel (i : LaneId) : catalogue (0x28 + BitVec.ofNat 8 i.val) = some (.number, .op) := by
  fin_cases i <;> rfl

theorem writeNumber_toneLevel (s : State) (i : LaneId) (w : Int) :
    s.writeNumber (0x28 + BitVec.ofNat 8 i.val) w = s.writeToneLevel i w := by
  fin_cases i <;> rfl

/-- A number other than 0 and 1 is no value of the index check (R150). -/
theorem writeIndexCheck_range {s : State} {v : BitVec 32} (h0 : v ≠ 0) (h1 : v ≠ 1) :
    s.writeIndexCheck v.toInt = (s, .refuse .range) := by
  refine if_neg fun h => h.elim (fun e => h0 ?_) fun e => h1 ?_
  · exact BitVec.toInt_inj.1 (e.trans (by decide))
  · exact BitVec.toInt_inj.1 (e.trans (by decide))

/-- Settles O27: each write reaches its setting, which is stored at once. -/
theorem immediateSettingsTakeHoldAtOnce : Obligations.ImmediateSettingsTakeHoldAtOnce := by
  intro s h rounding b v hr hs hm after
  let u := s.withService h.service
  have number (id : Byte) (access : Access) (w : BitVec 32) (hc : catalogue id = some (.number, access))
      (hro : access ≠ .ro) : exec (.settingWrite h id rounding (.number w)) s =
        .next ((u.writeNumber id w.toInt).1.replied h 0x05 (u.writeNumber id w.toInt).2) :=
    exec_writeNumber rfl hr hm hc hro fun _ => hs
  have byte (id : Byte) (access : Access) (hc : catalogue id = some (.byte, access)) (hro : access ≠ .ro) :
      exec (.settingWrite h id rounding (.byte b)) s =
        .next ((u.writeByte id b).1.replied h 0x05 (u.writeByte id b).2) :=
    exec_writeByte rfl hr hm hc hro fun _ => hs
  refine ⟨byte 0x08 _ rfl (by decide), byte 0x0F _ rfl (by decide), fun i => ?_, ?_,
    number 0x33 _ 0 rfl (by decide), number 0x33 _ 1 rfl (by decide), fun h0 h1 => ?_⟩
  · simp only [after]
    rw [number _ .op v (catalogue_toneLevel i) (by decide), writeNumber_toneLevel, writeToneLevel_eq]
  · have hw : u.writeNumber 0x37 v.toInt = u.writeRecorderLatency v.toInt := rfl
    simp only [after]
    rw [number 0x37 _ v rfl (by decide), hw, writeRecorderLatency_eq]
  · rw [number 0x33 _ v rfl (by decide)]
    simp only [State.writeNumber, writeIndexCheck_range h0 h1]
    rfl

/-! ## The senders of OVL and COUT (R142, R146) -/

/-- The end of a record does nothing to an idle OVL sender. -/
theorem overlaySent_of_idle {f : Feeds} (h : f.ovlSending = none) : f.overlaySent = f := by
  simp [Feeds.overlaySent, h]

/-- The OVL sender goes on to the record in the holding buffer, or is idle (R142). -/
theorem overlaySent_of_sending {f : Feeds} (h : f.ovlSending.isSome = true) :
    f.overlaySent = { f with ovlSending := f.ovlHolding, ovlHolding := none } := by
  obtain ⟨r, hr⟩ := Option.isSome_iff_exists.1 h
  simp [Feeds.overlaySent, hr]

/-- The end of a record does nothing to an idle COUT sender. -/
theorem codeSent_of_idle {f : Feeds} (h : f.coutSending = none) : f.codeSent = f := by
  simp [Feeds.codeSent, h]

/-- The COUT sender goes on to the waiting record, or is idle (R146). -/
theorem codeSent_of_sending {f : Feeds} (h : f.coutSending.isSome = true) :
    f.codeSent = { f with coutSending := f.coutWaiting, coutWaiting := none } := by
  obtain ⟨r, hr⟩ := Option.isSome_iff_exists.1 h
  simp [Feeds.codeSent, hr]

theorem exec_ovlSendComplete (s : State) : exec .ovlSendComplete s = .next (s.mapFeeds Feeds.overlaySent) := rfl

theorem exec_coutSendComplete (s : State) : exec .coutSendComplete s = .next (s.mapFeeds Feeds.codeSent) := rfl

/-- Settles O60: each row is the end of a record for its sender, idle or sending. -/
theorem sendersStartTheWaitingRecord : Obligations.SendersStartTheWaitingRecord := by
  intro s
  rw [exec_ovlSendComplete, exec_coutSendComplete]
  simp only [State.mapFeeds]
  refine ⟨fun h => ?_, fun h => ?_, fun h => ?_, fun h => ?_⟩
  · rw [overlaySent_of_idle h]
  · rw [overlaySent_of_sending h]
  · rw [codeSent_of_idle h]
  · rw [codeSent_of_sending h]

end Sys2Proof.Machine

/-! The settings after power-on reset (R148), the refusals of SETTING_WRITE (R149, R151), the staging hold (R155, R156)
and the bit requests (R161). -/

namespace Sys2Proof.Machine

/-! ## The catalogue's reset values (R148) -/

/-- The applied value of a lane's tone frequency (R134, R159). -/
theorem appliedValue_toneFrequency (s : State) (i : LaneId) (mode : Rounding) :
    s.appliedValue (0x20 + BitVec.ofNat 8 i.val) mode = plainValue (.number (s.settings.toneFrequency.get i)) := by
  fin_cases i <;> rfl

/-- The applied value of a lane's tone level (R135, R159). -/
theorem appliedValue_toneLevel (s : State) (i : LaneId) (mode : Rounding) :
    s.appliedValue (0x28 + BitVec.ofNat 8 i.val) mode = plainValue (.number (s.settings.toneLevel.get i)) := by
  fin_cases i <;> rfl

/-- Settles O10: the tone settings hold one value in all lanes, and the others are read off the reset settings. -/
theorem settingsResetAsTheCatalogueSays : Obligations.SettingsResetAsTheCatalogueSays := by
  have frequency (i : LaneId) : State.reset.settings.toneFrequency.get i = 1000 := Eight.get_all _ i
  have level (i : LaneId) : State.reset.settings.toneLevel.get i = 32 := Eight.get_all _ i
  refine ⟨rfl, rfl, rfl, rfl, rfl, rfl, rfl, rfl, rfl, rfl, rfl, rfl, rfl, rfl, rfl, fun n hn => ?_,
    rfl, rfl, rfl, rfl, rfl, rfl, rfl, rfl, rfl⟩
  have frequencyRead := appliedValue_toneFrequency State.reset ⟨n, hn⟩ .nearestEven
  have levelRead := appliedValue_toneLevel State.reset ⟨n, hn⟩ .nearestEven
  rw [frequency] at frequencyRead
  rw [level] at levelRead
  rw [BitVec.ofNat_add, BitVec.ofNat_add]
  exact ⟨congrArg Prod.fst frequencyRead, congrArg Prod.fst levelRead⟩

/-! ## The refusals of SETTING_WRITE (R149, R151) -/

/-- An identifier outside the catalogue is refused with BAD_FIELD, whatever else is wrong (R148, R151). -/
theorem settingWrite_unknown {s : State} {id : Byte} (rounding : Byte) (value : SettingValue)
    (hc : catalogue id = none) : s.settingWrite id rounding value = (s, .refuse .badField) := by
  simp only [State.settingWrite, hc]

/-- A value of another width is refused with BAD_LENGTH before the selector is looked at (R168). -/
theorem settingWrite_badLength {s : State} {id : Byte} (rounding : Byte) {value : SettingValue} {form : SettingForm}
    {access : Access} (hc : catalogue id = some (form, access)) (hform : formOf value ≠ form) :
    s.settingWrite id rounding value = (s, .refuse .badLength) := by
  simp only [State.settingWrite, hc, if_pos hform]

/-- A selector outside R11 is refused with BAD_FIELD before the access class is looked at (R151). -/
theorem settingWrite_badSelector {s : State} {id rounding : Byte} {value : SettingValue} {access : Access}
    (hc : catalogue id = some (formOf value, access)) (hm : selectRounding s.settings.rounding rounding = none) :
    s.settingWrite id rounding value = (s, .refuse .badField) := by
  simp only [State.settingWrite, hc, hm, ne_eq, not_true_eq_false, if_false]

/-- A read-only setting is refused with READ_ONLY at either level of SERVICE (R149). -/
theorem settingWrite_readOnly {s : State} {id rounding : Byte} {value : SettingValue}
    (hc : catalogue id = some (formOf value, .ro)) (hm : (selectRounding s.settings.rounding rounding).isSome = true) :
    s.settingWrite id rounding value = (s, .refuse .readOnly) := by
  obtain ⟨mode, hm⟩ := Option.isSome_iff_exists.1 hm
  simp only [State.settingWrite, hc, hm, ne_eq, not_true_eq_false, if_false, if_true]

/-- A request that is refused and leaves the state as it is gets its reply, and nothing else comes of it (R169). -/
theorem exec_refused {c : Instr} {s : State} {h : FrameHead} {r : Request} {kind : Byte} {st : Status}
    (hcmd : c.request? = some (h, r)) (hkind : r.kind = kind) (hr : s.ready h)
    (hp : (s.withService h.service).perform r = (s.withService h.service, .refuse st)) :
    exec c s = .next ((s.withService h.service).refusedWith h kind st) := by
  rw [exec_ready hcmd hr, hkind, hp]
  rfl

/-- Settles O26: one refusal for each check, behind the checks that come before it. -/
theorem settingWriteRefusalsComeInOrder : Obligations.SettingWriteRefusalsComeInOrder := by
  intro s h id rounding v hr refused
  let u := s.withService h.service
  have of_write {st : Status} (hw : u.settingWrite id rounding v = (u, .refuse st)) : refused st :=
    exec_refused (c := .settingWrite h id rounding v) rfl rfl hr hw
  refine ⟨fun hc => of_write (settingWrite_unknown rounding v hc), fun form access hc => ⟨fun hform => ?_, ?_⟩⟩
  · exact of_write (settingWrite_badLength rounding hc hform)
  · rintro rfl
    refine ⟨fun hm => of_write (settingWrite_badSelector hc hm), fun hm => ⟨?_, ?_⟩⟩
    · rintro rfl
      exact of_write (settingWrite_readOnly hc hm)
    · rintro rfl hs
      exact of_write (settingWrite_access hc hm hs)

/-! ## The staging hold (R155, R156) -/

/-- At rest no play falls: a list that waits without the hold is applied in its order and emptied, and the tones follow
(R155, R157). -/
theorem applyUnheld_at_rest {s : State} (hrest : s.atRest = true) (hhold : s.settings.stagingHold = false)
    (hwaits : s.settings.staging ≠ []) :
    s.applyUnheld =
      (s.mapSettings fun g => { g.staging.foldl Settings.applyEntry g with staging := [] }).recomputeTones := by
  have hplay : s.inPlay = false := inPlay_of_atRest hrest
  have hlist : s.settings.staging.isEmpty = false := List.isEmpty_eq_false_iff.2 hwaits
  simp only [State.applyUnheld, State.applyStaging, State.fallOfPlay, hhold, hlist, hplay, Bool.or_self,
    Bool.false_and, Bool.false_eq_true, if_false]

/-- The write of 1 sets the hold. -/
theorem writeHold_one (s : State) :
    s.writeHold 1 = (s.mapSettings fun g => { g with stagingHold := true }, storedNumber 0x07 1 1) := rfl

/-- The write of 0 releases the hold, and at rest what waits is applied (R156). -/
theorem writeHold_zero (s : State) :
    s.writeHold 0 =
      (if s.atRest then (s.mapSettings fun g => { g with stagingHold := false }).applyUnheld
        else s.mapSettings fun g => { g with stagingHold := false }, storedNumber 0x07 0 0) := rfl

/-- In motion, or with nothing waiting, the write of 0 only releases the hold (R156). -/
theorem writeHold_releases {s : State} (h : s.atRest = false ∨ s.settings.staging = []) :
    s.writeHold 0 = (s.mapSettings fun g => { g with stagingHold := false }, storedNumber 0x07 0 0) := by
  rw [writeHold_zero]
  rcases h with hmoving | hempty
  · rw [hmoving]
    rfl
  · rw [applyUnheld_of_empty (s := s.mapSettings fun g => { g with stagingHold := false }) hempty, ite_self]

/-- At rest the write of 0 applies the list that waits (R155, R156). -/
theorem writeHold_applies {s : State} (hrest : s.atRest = true) (hwaits : s.settings.staging ≠ []) :
    s.writeHold 0 =
      ((s.mapSettings fun g => { g.staging.foldl Settings.applyEntry { g with stagingHold := false } with
        staging := [] }).recomputeTones, storedNumber 0x07 0 0) := by
  rw [writeHold_zero, if_pos hrest,
    applyUnheld_at_rest (s := s.mapSettings fun g => { g with stagingHold := false }) hrest rfl hwaits,
    State.mapSettings_mapSettings]

/-- A number other than 0 and 1 is no value of the hold (R150). -/
theorem writeHold_range {s : State} {v : BitVec 32} (h0 : v ≠ 0) (h1 : v ≠ 1) :
    s.writeHold v.toInt = (s, .refuse .range) := by
  have hzero : v.toInt ≠ 0 := fun e => h0 (BitVec.toInt_inj.1 (e.trans (by decide)))
  have hone : v.toInt ≠ 1 := fun e => h1 (BitVec.toInt_inj.1 (e.trans (by decide)))
  rw [State.writeHold, if_neg hone, if_neg hzero]

/-- Settles O30: each row is a write of the hold. -/
theorem stagingHoldWriteReleasesTheList : Obligations.StagingHoldWriteReleasesTheList := by
  intro s h rounding v hr hm u ok
  have written (w : BitVec 32) : exec (.stagingHoldWrite h rounding w) s =
      .next ((u.writeHold w.toInt).1.replied h 0x05 (u.writeHold w.toInt).2) :=
    exec_writeNumber (c := .stagingHoldWrite h rounding w) rfl hr hm rfl (by decide) nofun
  have one : (1 : BitVec 32).toInt = 1 := by decide
  have zero : (0 : BitVec 32).toInt = 0 := by decide
  refine ⟨?_, fun hkept => ?_, fun hrest hwaits => ?_, fun h0 h1 => ?_⟩
  · rw [written, one, writeHold_one, storedNumber_exact]
  · rw [written, zero, writeHold_releases (s := u) hkept, storedNumber_exact]
  · rw [written, zero, writeHold_applies (s := u) hrest hwaits, storedNumber_exact]
  · rw [written, writeHold_range h0 h1]
    rfl

/-! ## The bit requests (R161) -/

/-- No other identifier than those of the two masks names a mask. -/
theorem maskOf_other {s : State} {id : Byte} (h8 : id ≠ 0x08) (hF : id ≠ 0x0F) : s.maskOf id = none := by
  rw [State.maskOf, if_neg h8, if_neg hF]

/-- A bit request on another setting than the two masks is refused (R161). -/
theorem bitRequests_refuse {s : State} {id : Byte} (mask : Byte) (h : s.maskOf id = none) :
    s.setBits id mask = (s, .refuse .badField) ∧ s.clearBits id mask = (s, .refuse .badField) := by
  simp only [State.setBits, State.clearBits, h, and_self]

theorem setBits_noticeMask (s : State) (mask : Byte) :
    s.setBits 0x08 mask = (s.mapSettings fun g => { g with noticeMask := (g.noticeMask ||| mask) &&& 0x1F },
      .ok { OutFlags.clear with clamped := decide (mask &&& 0xE0 ≠ 0) } (.bits 0x08 s.settings.noticeMask)) := by
  simp only [State.setBits, State.maskOf, State.storeMask, clampFlags, if_true, true_and]
  rfl

theorem clearBits_noticeMask (s : State) (mask : Byte) :
    s.clearBits 0x08 mask = (s.mapSettings fun g => { g with noticeMask := (g.noticeMask &&& ~~~mask) &&& 0x1F },
      .ok OutFlags.clear (.bits 0x08 s.settings.noticeMask)) := rfl

theorem setBits_toneMute (s : State) (mask : Byte) :
    s.setBits 0x0F mask = (s.mapSettings fun g => { g with toneMute := g.toneMute ||| mask },
      .ok OutFlags.clear (.bits 0x0F s.settings.toneMute)) := rfl

theorem clearBits_toneMute (s : State) (mask : Byte) :
    s.clearBits 0x0F mask = (s.mapSettings fun g => { g with toneMute := g.toneMute &&& ~~~mask },
      .ok OutFlags.clear (.bits 0x0F s.settings.toneMute)) := rfl

/-- Settles O38: the request is performed on the ready link, on one of the two masks or on neither. -/
theorem bitRequestsChangeTheMarkedPositions : Obligations.BitRequestsChangeTheMarkedPositions := by
  intro s h id mask hr u ok
  have sets := exec_ready (c := .settingSetBits h id mask) rfl hr
  have clears := exec_ready (c := .settingClearBits h id mask) rfl hr
  refine ⟨fun h8 hF => ?_, ?_, ?_⟩
  · obtain ⟨hset, hclear⟩ := bitRequests_refuse mask (maskOf_other (s := u) h8 hF)
    exact ⟨exec_refused rfl rfl hr hset, exec_refused rfl rfl hr hclear⟩
  · rintro rfl
    rw [sets, clears]
    simp only [State.perform, setBits_noticeMask, clearBits_noticeMask]
    exact ⟨rfl, rfl⟩
  · rintro rfl
    rw [sets, clears]
    simp only [State.perform, setBits_toneMute, clearBits_toneMute]
    exact ⟨rfl, rfl⟩

end Sys2Proof.Machine

/-! The control link: the requests a ready link answers (R172 to R174), the framing and its lock (R164), the request
queue (R168, R174), and the transmitter (R170). -/

namespace Sys2Proof.Machine

/-! ## Requests on a ready link (R172 to R174) -/

/-- The part revision lies in the range that the manual gives it (R160, R173). -/
theorem partRevision_range : 1 ≤ Config.partRevision.toNat ∧ Config.partRevision.toNat ≤ 255 := by
  have hmod : Config.revisionSeed % 255 < 255 := Nat.mod_lt _ (by decide)
  rw [Config.partRevision, BitVec.toNat_ofNat, Nat.mod_eq_of_lt (by omega)]
  omega

/-- Settles O13: performing a PING leaves the state and answers with the part. -/
theorem pingAnswersWithThePart : Obligations.PingAnswersWithThePart :=
  ⟨partRevision_range.1, partRevision_range.2, fun _ h hr => exec_ready (c := .ping h) (r := .ping) rfl hr⟩

/-- Clearing the positions of a mask leaves the other flags of the register (R172). -/
theorem getLsbD_clearedFlags (flags : BitVec 11) (mask : BitVec 16) (f : Flag) :
    (flags &&& ~~~(mask.setWidth 11)).getLsbD f.position =
      (flags.getLsbD f.position && !mask.getLsbD f.position) := by
  have hpos : f.position < 11 := by cases f <;> decide
  simp [hpos]

/-- Settles O14: the report is formed from the link as it stands, and the flags of the mask are then cleared. -/
theorem statusReadReportsThenClears : Obligations.StatusReadReportsThenClears := fun s h mask hr =>
  ⟨((s.withService h.service).statusRead mask).1, s.link.flags &&& ~~~(mask.setWidth 11),
    exec_ready (c := .statusRead h mask) (r := .statusRead mask) rfl hr, rfl, getLsbD_clearedFlags s.link.flags mask⟩

/-- Settles O15: the scope decides whether the RESET is accepted. -/
theorem resetRequestIsAnsweredAndWaits : Obligations.ResetRequestIsAnsweredAndWaits := by
  intro s h scope hr
  rw [exec_ready (c := .reset h scope) rfl hr, State.perform, State.askReset, ResetScope.ofCode]
  by_cases h0 : scope = 0
  · simp only [h0, if_true]
    rfl
  · by_cases h1 : scope = 1
    · simp only [h1, if_true, if_neg (show ¬(1 : Byte) = 0 by decide)]
      rfl
    · simp only [if_neg h0, if_neg h1]
      rfl

/-- Settles O8: every command but power-on reset keeps a framing once set, and power-on reset clears it. -/
theorem framingStaysUntilPowerOnReset : Obligations.FramingStaysUntilPowerOnReset := by
  refine ⟨fun c s t hc hf hx => (exec_keeps hc hx).framing hf, fun s t hx => ?_⟩
  cases hx
  rfl

/-! ## Changes of the link alone -/

theorem mapLink_congr {s : State} {f g : Link → Link} (h : f s.link = g s.link) : s.mapLink f = s.mapLink g := by
  simp only [State.mapLink, h]

/-- A receiver that stands where it is set stays as it is. -/
theorem setReceiver_of_receiver {s : State} {r : Receiver} (h : s.link.receiver = r) : s.setReceiver r = s := by
  subst h
  rfl

/-! ## The framing (R164) -/

/-- The start byte of a frame (R165, R166). -/
def startByte : Wire → Byte
  | .binary => 0xC3
  | .text => 0x3A

/-- The receiver right behind a start byte. -/
def receiverBegun : Wire → Receiver
  | .binary => .binary []
  | .text => .text [] none

/-- The state whose framing a start byte or a request's row has locked, when it was UNDECIDED. -/
def State.lockedTo (s : State) (w : Wire) : State :=
  if s.link.framing = .undecided then s.lockFraming (framingOf w) else s

theorem lockFraming_framing (s : State) (f : Framing) : (s.lockFraming f).link.framing = f :=
  (Link.start_evolves { s.link with framing := f }).framing

theorem lockedTo_of_locked {s : State} (h : s.link.framing ≠ .undecided) (w : Wire) : s.lockedTo w = s := if_neg h

theorem lockedTo_framing {s : State} {w : Wire} (h : s.link.framing = .undecided ∨ s.link.framing = framingOf w) :
    (s.lockedTo w).link.framing = framingOf w := by
  unfold State.lockedTo
  split
  · exact lockFraming_framing s _
  · next hlocked => exact h.resolve_left hlocked

/-- What starts does not depend on the receiver. -/
theorem Link.start_receiver (l : Link) (r : Receiver) :
    ({ l with receiver := r } : Link).start = { l.start with receiver := r } := by
  obtain ⟨framing, receiver, requests, replies, notices, sending, flags, bank, cursor, resetPending⟩ := l
  unfold Link.start
  split
  · rfl
  · cases replies with
    | cons w rest => rfl
    | nil =>
      cases notices with
      | nil => rfl
      | cons n rest => cases resetPending <;> rfl

theorem lockFraming_setReceiver (s : State) (r : Receiver) (f : Framing) :
    (s.setReceiver r).lockFraming f = (s.lockFraming f).setReceiver r :=
  congrArg (fun l => s.mapLink fun _ => l) (Link.start_receiver { s.link with framing := f } r)

/-- A request's row is its frame accepted by the receiver, unless the link has the other framing. -/
theorem submit_eq (s : State) (h : FrameHead) (r : Request) :
    s.submit h r =
      if ((s.withService h.service).lockedTo h.wire).link.framing = framingOf h.wire then
        (((s.withService h.service).lockedTo h.wire).setReceiver .waiting).acceptFrame (requestFrame h r)
      else (s.withService h.service).lockedTo h.wire := rfl

/-- Under its own framing, or one still UNDECIDED, a request's row is its frame accepted. -/
theorem submit_of_framing {s : State} {h : FrameHead}
    (hframing : s.link.framing = .undecided ∨ s.link.framing = framingOf h.wire) (r : Request) :
    s.submit h r =
      (((s.withService h.service).lockedTo h.wire).setReceiver .waiting).acceptFrame (requestFrame h r) := by
  rw [submit_eq, if_pos (lockedTo_framing (s := s.withService h.service) hframing)]

/-- Under the other framing nothing but the level of SERVICE is taken from it. -/
theorem submit_of_other_framing {s : State} {h : FrameHead} (hlocked : s.link.framing ≠ .undecided)
    (hother : s.link.framing ≠ framingOf h.wire) (r : Request) : s.submit h r = s.withService h.service := by
  rw [submit_eq, lockedTo_of_locked (s := s.withService h.service) hlocked, if_neg (by exact hother)]

/-- Settles O18: the byte by its value; the row by the framing it finds. -/
theorem firstStartByteLocksTheFraming : Obligations.FirstStartByteLocksTheFraming := by
  refine ⟨fun s hframing => ?_, fun c s h r hc => ⟨fun hframing => ?_, fun hlocked hother => ?_⟩⟩
  · have one (b : Byte) : exec (.framingStartByte b) s = .next
        (if b = 0xC3 then (s.setReceiver (.binary [])).lockFraming .binary
          else if b = 0x3A then (s.setReceiver (.text [] none)).lockFraming .text else s) := by
      change Host.Outcome.next (s.receiveByte b) = _
      rw [State.receiveByte, hframing]
    exact ⟨one _, one _, fun b hbinary htext => by rw [one, if_neg hbinary, if_neg htext]⟩
  · refine ⟨_, exec_of_request hc s, ?_⟩
    have locked := lockedTo_framing (s := s.withService h.service) (w := h.wire) (.inl hframing)
    rw [submit_of_framing (.inl hframing), (acceptFrame_keeps _ _).framing]
    · exact locked
    · exact locked.trans_ne (framingOf_ne_undecided _)
  · rw [exec_of_request hc, submit_of_other_framing hlocked hother]

/-! ## The request queue (R168, R174) -/

theorem replyWaits_iff (l : Link) : l.replyWaits = true ↔ ∃ w ∈ l.replies, w.origin = .executed := by
  simp [Link.replyWaits]

/-- The reply of an executed request waits behind those before it, also when its RESET drains the queue. -/
theorem replyWaits_drain_join (l : Link) (r : Reply) : (l.join ⟨r, .executed⟩).drain.replyWaits = true := by
  unfold Link.drain
  split <;> simp [Link.join, Link.replyWaits]

/-- Without a pending reset nothing is drained. -/
theorem Link.drain_of_no_reset {l : Link} (h : l.resetPending = none) : l.drain = l := by
  rw [Link.drain, h]

theorem Link.drain_sending (l : Link) : l.drain.sending = l.sending := by
  unfold Link.drain
  split <;> rfl

/-- Nothing is executed while a reply of an executed request waits (R168). -/
theorem pump_of_replyWaits {s : State} (h : s.link.replyWaits = true) (fuel : Nat) : s.pump fuel = s := by
  cases fuel with
  | zero => rfl
  | succ n => rw [State.pump, if_pos h]

theorem runQueue_of_empty {s : State} (h : s.link.requests = []) : s.runQueue = s := by
  rw [State.runQueue, h]
  rfl

/-- While the transmitter is busy, the request at the head of the queue is executed alone: its reply waits, and so the
requests behind it wait on (R168). -/
theorem runQueue_of_sending {s t : State} {f : QueuedFrame} {rest : List QueuedFrame} {a : Answer}
    (hwaits : s.link.replyWaits = false) (hqueue : s.link.requests = f :: rest)
    (hperform : (s.mapLink fun l => { l with requests := rest }).performFrame f = (t, a))
    (hsending : t.link.sending.isSome = true) :
    s.runQueue = t.mapLink fun l => (l.join ⟨f.reply a, .executed⟩).drain := by
  have executed : (s.mapLink fun l => { l with requests := rest }).executeFrame f =
      t.mapLink fun l => (l.join ⟨f.reply a, .executed⟩).drain := by
    rw [State.executeFrame, hperform]
    exact mapLink_congr (Link.start_of_sending (by rw [Link.drain_sending]; exact hsending))
  rw [State.runQueue, hqueue, List.length_cons, State.pump, if_neg (by simp [hwaits]), hqueue]
  simp only [executed]
  exact pump_of_replyWaits (replyWaits_drain_join _ _) _

/-- When what was executed is no RESET, nothing but its reply joins the link. -/
theorem runQueue_of_no_reset {s t : State} {f : QueuedFrame} {rest : List QueuedFrame} {a : Answer}
    (hwaits : s.link.replyWaits = false) (hqueue : s.link.requests = f :: rest)
    (hperform : (s.mapLink fun l => { l with requests := rest }).performFrame f = (t, a))
    (hsending : t.link.sending.isSome = true) (hreset : t.link.resetPending = none) :
    s.runQueue = t.mapLink fun l => l.join ⟨f.reply a, .executed⟩ :=
  (runQueue_of_sending hwaits hqueue hperform hsending).trans (mapLink_congr (Link.drain_of_no_reset hreset))

/-- While a reset is pending a good frame is a reception error (R174). -/
theorem acceptFrame_of_resetPending {s : State} (h : s.link.resetPending.isSome = true) (f : QueuedFrame) :
    s.acceptFrame f = s.raiseFault .linkFault := by
  rw [State.acceptFrame, if_pos h]
  rfl

/-- While a reply of an executed request waits, a good frame joins a queue with room (R168). -/
theorem acceptFrame_joins {s : State} (hreset : s.link.resetPending = none) (hroom : s.link.requests.length < 4)
    (hwaits : s.link.replyWaits = true) (f : QueuedFrame) :
    s.acceptFrame f = s.mapLink fun l => { l with requests := l.requests ++ [f] } := by
  rw [State.acceptFrame, if_neg (by simp [hreset]), if_pos (show _ < Config.requestQueueSize from hroom)]
  exact pump_of_replyWaits (by exact hwaits) _

/-- A good frame that finds the queue full is answered BUSY, or dropped when four such replies wait (R168). -/
theorem acceptFrame_of_full {s : State} (hreset : s.link.resetPending = none) (hfull : s.link.requests.length = 4)
    (f : QueuedFrame) :
    s.acceptFrame f = if s.link.busyWaiting < 4 then s.mapLink fun l => (l.join ⟨f.busy, .busy⟩).start
      else s.raiseFault .linkFault := by
  rw [State.acceptFrame, if_neg (by simp [hreset]), if_neg (by simp [hfull, Config.requestQueueSize])]
  rfl

/-- Under its own framing a request that finds the receiver waiting is a good frame (R164, R168). -/
theorem submit_accepted {s : State} {h : FrameHead} (hframing : s.link.framing = framingOf h.wire)
    (hreceiver : s.link.receiver = .waiting) (r : Request) :
    s.submit h r = (s.withService h.service).acceptFrame (requestFrame h r) := by
  rw [submit_of_framing (.inr hframing),
    lockedTo_of_locked (s := s.withService h.service) (hframing.trans_ne (framingOf_ne_undecided _)),
    setReceiver_of_receiver (s := s.withService h.service) hreceiver]

/-- Settles O17: the frame of the request is accepted as the queue and the waiting replies allow. -/
theorem goodFramesQueueOrAreTurnedAway : Obligations.GoodFramesQueueOrAreTurnedAway := by
  intro c s h r hc hframing hreceiver u
  have accepted : exec c s = .next (u.acceptFrame (requestFrame h r)) := by
    rw [exec_of_request hc, submit_accepted hframing hreceiver]
  refine ⟨fun hreset => ?_, fun hreset => ⟨fun hroom hwaits => ?_, fun hfull => ?_⟩⟩
  · rw [accepted, acceptFrame_of_resetPending (s := u) hreset]
  · rw [accepted, acceptFrame_joins (s := u) hreset hroom ((replyWaits_iff _).2 hwaits)]
    rfl
  · rw [accepted, acceptFrame_of_full (s := u) hreset hfull]
    exact apply_ite Host.Outcome.next _ _ _

/-! ## The transmitter (R170) -/

/-- An idle transmitter with a framing takes the oldest waiting reply. -/
theorem Link.start_reply {l : Link} {w : WaitingReply} {rest : List WaitingReply} (hidle : l.sending = none)
    (hframing : l.framing ≠ .undecided) (hreplies : l.replies = w :: rest) :
    l.start = { l with sending := some (.reply w.reply), replies := rest } := by
  rw [Link.start, if_neg (by simp [hidle, hframing]), hreplies]

/-- With no reply waiting and no reset pending it takes the oldest notice. -/
theorem Link.start_notice {l : Link} {n : Notice} {rest : List Notice} (hidle : l.sending = none)
    (hframing : l.framing ≠ .undecided) (hreplies : l.replies = []) (hnotices : l.notices = n :: rest)
    (hreset : l.resetPending = none) : l.start = { l with sending := some (.notice n), notices := rest } := by
  rw [Link.start, if_neg (by simp [hidle, hframing]), hreplies, hnotices]
  exact if_neg (by simp [hreset])

/-- With no reply waiting, and no notice or a reset pending, it stays idle. -/
theorem Link.start_nothing {l : Link} (hreplies : l.replies = [])
    (hnotices : l.notices = [] ∨ l.resetPending.isSome = true) : l.start = l := by
  rw [Link.start, hreplies]
  rcases hnotices with hnone | hreset
  · rw [hnone]
    exact ite_self l
  · cases l.notices <;> simp [hreset]

/-- The end of a frame leaves the link as the start of the next leaves it, and then frees the queue (R168, R170). -/
theorem exec_transmitComplete_of_start {s t : State} {x : OutFrame} {g : Link → Link} {service : Bool}
    (hx : s.link.sending = some x) (hstart : ({ s.link with sending := none } : Link).start = g s.link)
    (hrun : ((s.withService service).mapLink g).runQueue = t) : exec (.transmitComplete service) s = .next t := by
  have ended : (s.withService service).transmitDone = ((s.withService service).mapLink g).runQueue := by
    rw [State.transmitDone, State.withService_link, hx]
    exact congrArg State.runQueue (mapLink_congr hstart)
  rw [← hrun, ← ended]
  rfl

/-- The end of a frame starts the oldest waiting reply. -/
theorem exec_transmitComplete_of_reply {s t : State} {x : OutFrame} {w : WaitingReply} {rest : List WaitingReply}
    {service : Bool} (hx : s.link.sending = some x) (hframing : s.link.framing ≠ .undecided)
    (hreplies : s.link.replies = w :: rest)
    (hrun : ((s.withService service).mapLink fun l =>
      { l with sending := some (.reply w.reply), replies := rest }).runQueue = t) :
    exec (.transmitComplete service) s = .next t :=
  exec_transmitComplete_of_start hx (Link.start_reply (l := { s.link with sending := none }) rfl hframing hreplies) hrun

/-- Settles O19: with an empty queue the end of a frame does no more than start the next. -/
theorem transmitterTakesRepliesBeforeNotices : Obligations.TransmitterTakesRepliesBeforeNotices := by
  refine fun s service => ⟨fun hidle => ?_, fun x hx hframing hqueue => ⟨fun w rest hreplies => ?_,
    fun n rest hreplies hnotices hreset => ?_, fun hreplies hnotices => ?_⟩⟩
  · change Host.Outcome.next (s.withService service).transmitDone = _
    rw [State.transmitDone, State.withService_link, hidle]
  · exact exec_transmitComplete_of_reply hx hframing hreplies (runQueue_of_empty hqueue)
  · exact exec_transmitComplete_of_start hx
      (Link.start_notice (l := { s.link with sending := none }) rfl hframing hreplies hnotices hreset)
      (runQueue_of_empty hqueue)
  · exact exec_transmitComplete_of_start (g := fun l => { l with sending := none }) hx
      (Link.start_nothing hreplies hnotices) (runQueue_of_empty hqueue)

/-- Settles O20: the PING is performed behind the started reply, and its own reply then waits. -/
theorem nextRequestRunsWhenTheReplyStarts : Obligations.NextRequestRunsWhenTheReplyStarts := by
  intro s service x r tag busy rest hx hframing hreset hreplies hbusy hqueue
  refine exec_transmitComplete_of_reply hx hframing hreplies ?_
  refine Eq.trans (runQueue_of_no_reset (Bool.eq_false_iff.2 fun hwaits => ?_) hqueue rfl rfl hreset) rfl
  obtain ⟨w, hw, hexecuted⟩ := (replyWaits_iff _).1 hwaits
  simp [hbusy w hw] at hexecuted

/-- Settles O16: the RESET is performed behind the started reply, its own reply waits, and the queue is drained. -/
theorem resetDrainsTheRequestQueue : Obligations.ResetDrainsTheRequestQueue := by
  intro s service x r tag rest hx hframing hreplies hqueue hreset
  exact exec_transmitComplete_of_reply hx hframing hreplies
    (Eq.trans (runQueue_of_sending rfl hqueue rfl rfl) (mapLink_congr rfl))

end Sys2Proof.Machine

/-! The bodies of requests read back as their requests (R165, R168, R175 to R178). -/

namespace Sys2Proof.Machine

/-! ## Fields of more bytes (R175) -/

theorem word16_bytes (v : BitVec 16) : word16 (v.extractLsb' 8 8) (v.extractLsb' 0 8) = v := by
  rw [word16, BitVec.extractLsb'_append_extractLsb'_eq_extractLsb' (by decide), BitVec.extractLsb'_eq_self]

theorem word32_bytes (v : BitVec 32) :
    word32 (v.extractLsb' 24 8) (v.extractLsb' 16 8) (v.extractLsb' 8 8) (v.extractLsb' 0 8) = v := by
  simp only [word32, BitVec.extractLsb'_append_extractLsb'_eq_extractLsb', BitVec.extractLsb'_eq_self]

theorem word48_bytes (v : BitVec 48) :
    word48 (v.extractLsb' 40 8) (v.extractLsb' 32 8) (v.extractLsb' 24 8) (v.extractLsb' 16 8) (v.extractLsb' 8 8)
      (v.extractLsb' 0 8) = v := by
  simp only [word48, BitVec.extractLsb'_append_extractLsb'_eq_extractLsb', BitVec.extractLsb'_eq_self]

/-! ## The value of a SETTING_WRITE (R175) -/

/-- A value of the form that its identifier has reads back. -/
theorem readValue_valueField {id : Byte} {v : SettingValue} (h : (catalogue id).map (·.1) = some (formOf v)) :
    readValue id (valueField v) = some v := by
  cases v <;> simp [readValue, valueField, stampField, bytes16, h, formOf, word16_bytes, word32_bytes, word48_bytes]

/-! ## Run lists (R176) -/

/-- The slot numbers of a run list read back. -/
theorem readSlots_bytes (slots : List (BitVec 16)) : readSlots (slots.map bytes16).flatten = some slots := by
  induction slots with
  | nil => rfl
  | cons n slots ih =>
    rw [List.map_cons, List.flatten_cons, bytes16, List.cons_append, List.cons_append, List.nil_append, readSlots, ih,
      word16_bytes]
    rfl

theorem length_slotBytes (slots : List (BitVec 16)) : (slots.map bytes16).flatten.length = 2 * slots.length := by
  induction slots with
  | nil => rfl
  | cons n slots ih =>
    rw [List.map_cons, List.flatten_cons, List.length_append, ih, bytes16, List.length_cons, List.length_cons,
      List.length_cons, List.length_nil]
    omega

/-- A run list that fits a frame has an entry count of one byte. -/
theorem slotCount_of_fits {n : Nat} (h : fitsFrame n = true) : (BitVec.ofNat 8 n).toNat = n := by
  have hn : 2 + 2 * n ≤ 248 := by simpa [fitsFrame] using h
  rw [BitVec.toNat_ofNat, Nat.mod_eq_of_lt (by omega)]

/-! ## The groups of a CUE_WRITE (R66, R178) -/

theorem getLsbD_selected (b : Bool) (m : Byte) (k : Nat) : (if b then m else 0).getLsbD k = (b && m.getLsbD k) := by
  cases b <;> simp

/-- The mask byte marks the groups that are selected, in their order. -/
theorem maskField_marks (g : CueGroups) :
    (maskField g).getLsbD 0 = g.label.isSome ∧ (maskField g).getLsbD 1 = g.inPoint.isSome
      ∧ (maskField g).getLsbD 2 = g.outPoint.isSome ∧ (maskField g).getLsbD 3 = g.streamer.isSome
      ∧ (maskField g).getLsbD 4 = g.beeps.isSome ∧ (maskField g).getLsbD 5 = g.tail.isSome
      ∧ (maskField g).getLsbD 6 = g.flags.isSome ∧ (maskField g).getLsbD 7 = g.info := by
  simp only [maskField, BitVec.getLsbD_or, getLsbD_selected]
  simp

section Fields

variable (rest : List Byte)

theorem readLabelIf_field (o : Option (BitVec 16)) :
    readLabelIf o.isSome (fieldIf bytes16 o ++ rest) = some (o, rest) := by
  cases o with
  | none => rfl
  | some v => exact congrArg (fun x => some (some x, rest)) (word16_bytes v)

theorem readStampIf_field (o : Option Stamp) :
    readStampIf o.isSome (fieldIf stampField o ++ rest) = some (o, rest) := by
  cases o with
  | none => rfl
  | some st => exact congrArg (fun x => some (some (Stamp.mk st.hh st.mm st.ss st.ff x), rest)) (word16_bytes st.sf)

/-- A present OUT reads back as present, and an absent one as absent. -/
theorem readOutIf_field (o : Option (Option Stamp)) :
    readOutIf o.isSome (fieldIf outField o ++ rest) = some (o, rest) := by
  match o with
  | none => rfl
  | some none => rfl
  | some (some st) =>
    exact congrArg (fun x => some (some (some (Stamp.mk st.hh st.mm st.ss st.ff x)), rest)) (word16_bytes st.sf)

theorem readByteIf_field (o : Option Byte) :
    readByteIf o.isSome (fieldIf (fun b => [b]) o ++ rest) = some (o, rest) := by
  cases o <;> rfl

theorem readBeepsIf_field (o : Option (Byte × Byte × Byte)) :
    readBeepsIf o.isSome (fieldIf (fun b => [b.1, b.2.1, b.2.2]) o ++ rest) = some (o, rest) := by
  cases o <;> rfl

end Fields

/-- The groups read back, each with its value. -/
theorem readGroups_groupsField (g : CueGroups) : readGroups (maskField g) (groupsField g) = some g := by
  obtain ⟨h0, h1, h2, h3, h4, h5, h6, h7⟩ := maskField_marks g
  have last := readByteIf_field [] g.flags
  rw [List.append_nil] at last
  simp only [readGroups, groupsField, List.append_assoc, h0, h1, h2, h3, h4, h5, h6, h7, readLabelIf_field,
    readStampIf_field, readOutIf_field, readByteIf_field, readBeepsIf_field, last]

/-! ## Every body (R168, R176) -/

/-- A CUE_WRITE's body reads back. -/
theorem parseRequest_cueWrite (form : Byte) (operand : BitVec 16) (rounding : Byte) (g : CueGroups) :
    parseRequest 0x0A (requestBody (.cueWrite form operand rounding g)) =
      .ok (.cueWrite form operand rounding g) := by
  change orBadLength (Request.cueWrite form (word16 _ _) rounding) (readGroups (maskField g) (groupsField g)) = _
  rw [readGroups_groupsField, word16_bytes]
  rfl

/-- A RUNLIST_WRITE's body reads back when its list fits a frame. -/
theorem parseRequest_runlistWrite (lane : Byte) {slots : List (BitVec 16)} (h : fitsFrame slots.length = true) :
    parseRequest 0x0C (requestBody (.runlistWrite lane slots)) = .ok (.runlistWrite lane slots) := by
  change (match readSlots (slots.map bytes16).flatten with
    | none => Except.error Status.badLength
    | some l => if l.length = (BitVec.ofNat 8 slots.length).toNat then Except.ok (Request.runlistWrite lane l)
        else Except.error Status.badLength) = _
  rw [readSlots_bytes, slotCount_of_fits h]
  exact if_pos rfl

/-- A SETTING_WRITE's body reads back when its value has the form of its identifier. -/
theorem parseRequest_settingWrite {id : Byte} (rounding : Byte) {v : SettingValue}
    (h : (catalogue id).map (·.1) = some (formOf v)) :
    parseRequest 0x05 (requestBody (.settingWrite id rounding v)) = .ok (.settingWrite id rounding v) := by
  change orBadLength (Request.settingWrite id rounding) (readValue id (valueField v)) = _
  rw [readValue_valueField h]
  rfl

/-- Settles O21: by the request's kind; the fields of more than one byte are put together again. -/
theorem bodiesReadBackAsTheirRequests : Obligations.BodiesReadBackAsTheirRequests := by
  intro r hfits
  cases r with
  | settingWrite id rounding v => exact parseRequest_settingWrite rounding (of_decide_eq_true hfits)
  | cueWrite form operand rounding g => exact parseRequest_cueWrite form operand rounding g
  | runlistWrite lane slots => exact parseRequest_runlistWrite lane hfits
  | statusRead mask => exact congrArg (fun v => Except.ok (Request.statusRead v)) (word16_bytes mask)
  | cueRead form operand count mask view rounding =>
    exact congrArg (fun v => Except.ok (Request.cueRead form v count mask view rounding)) (word16_bytes operand)
  | cueErase form operand => exact congrArg (fun v => Except.ok (Request.cueErase form v)) (word16_bytes operand)
  | positionJam rounding st =>
    exact congrArg (fun v => Except.ok (Request.positionJam rounding ⟨st.hh, st.mm, st.ss, st.ff, v⟩))
      (word16_bytes st.sf)
  | _ => rfl

/-! ## The length of a body (R165) -/

theorem length_fieldIf_le {α : Type} {f : α → List Byte} {n : Nat} (h : ∀ a, (f a).length ≤ n) (o : Option α) :
    (fieldIf f o).length ≤ n := by
  cases o with
  | none => exact Nat.zero_le n
  | some a => exact h a

theorem length_outField (o : Option Stamp) : (outField o).length = 7 := by
  cases o <;> rfl

/-- All seven groups take 21 bytes. -/
theorem length_groupsField_le (g : CueGroups) : (groupsField g).length ≤ 21 := by
  have label := length_fieldIf_le (f := bytes16) (n := 2) (fun _ => Nat.le_refl 2) g.label
  have inPoint := length_fieldIf_le (f := stampField) (n := 6) (fun _ => Nat.le_refl 6) g.inPoint
  have outPoint := length_fieldIf_le (fun o => (length_outField o).le) g.outPoint
  have one := length_fieldIf_le (f := fun b : Byte => [b]) (n := 1) fun _ => Nat.le_refl 1
  have beeps := length_fieldIf_le (f := fun b : Byte × Byte × Byte => [b.1, b.2.1, b.2.2]) (n := 3)
    (fun _ => Nat.le_refl 3) g.beeps
  have streamer := one g.streamer
  have tail := one g.tail
  have flags := one g.flags
  simp only [groupsField, List.length_append]
  omega

/-- The body of a request that fits a frame holds at most 248 bytes. -/
theorem length_requestBody_le {r : Request} (hfits : requestFits r = true) : (requestBody r).length ≤ 248 := by
  cases r with
  | settingWrite id rounding v => cases v <;> simp [requestBody, valueField, stampField, bytes16]
  | cueWrite form operand rounding g =>
    have groups := length_groupsField_le g
    simp only [requestBody, bytes16, List.length_append, List.length_cons, List.length_nil]
    omega
  | runlistWrite lane slots =>
    have hn : 2 + 2 * slots.length ≤ 248 := of_decide_eq_true hfits
    rw [requestBody, List.length_append, length_slotBytes]
    exact hn
  | _ => simp [requestBody, stampField, bytes16]

end Sys2Proof.Machine

/-! The receiver of the control link: binary frames and their reception errors (R165, R167), text frames (R166), and the
bytes of a request's frame, which act as the request's row does (R164, R168, R176). -/

namespace Sys2Proof.Machine

/-! ## Bytes -/

theorem receiveBytes_cons (s : State) (b : Byte) (bytes : List Byte) :
    s.receiveBytes (b :: bytes) = (s.receiveByte b).receiveBytes bytes := rfl

theorem receiveBytes_append (s : State) (a b : List Byte) :
    s.receiveBytes (a ++ b) = (s.receiveBytes a).receiveBytes b := List.foldl_append

/-- A waiting receiver takes a start byte: it locks an UNDECIDED framing and begins a frame. -/
theorem receiveByte_startByte {s : State} {w : Wire} (hreceiver : s.link.receiver = .waiting)
    (hframing : s.link.framing = .undecided ∨ s.link.framing = framingOf w) :
    s.receiveByte (startByte w) = (s.lockedTo w).setReceiver (receiverBegun w) := by
  rcases hframing with hopen | hlocked
  · rw [State.lockedTo, if_pos hopen, ← lockFraming_setReceiver, State.receiveByte, hopen]
    cases w <;> rfl
  · rw [lockedTo_of_locked (by simp [hlocked]), State.receiveByte, hlocked, hreceiver]
    cases w <;> rfl

/-- The end of a good frame hands its request on (R165, R168). -/
theorem endFrame_of_good {bytes : List Byte} {f : QueuedFrame} (hgood : frameGood bytes = true)
    (hread : readFrame bytes = some f) (s : State) : s.endFrame bytes = (s.setReceiver .waiting).acceptFrame f := by
  simp only [State.endFrame, hgood, if_true, hread]

/-- The end of another frame is a reception error (R165, R167). -/
theorem endFrame_of_bad {bytes : List Byte} (hbad : frameGood bytes = false) (s : State) :
    s.endFrame bytes = (s.setReceiver .waiting).receptionFault := by
  simp only [State.endFrame, hbad, Bool.false_eq_true, if_false]

/-! ## Binary frames (R165, R167) -/

section Binary

variable {s : State} (hframing : s.link.framing = .binary)
include hframing

/-- Inside a binary frame the next byte follows those taken. -/
theorem receiveByte_binary (bytes : List Byte) (b : Byte) :
    (s.setReceiver (.binary bytes)).receiveByte b = s.binaryByte bytes b := by
  have inside : (s.setReceiver (.binary bytes)).receiveByte b = (s.setReceiver (.binary bytes)).binaryByte bytes b := by
    rw [State.receiveByte]
    simp only [State.setReceiver, State.mapLink_link, hframing]
  rw [inside]
  cases bytes <;> rfl

/-- A length outside 2 to 250 is a reception error (R167). -/
theorem receiveByte_badLength {n : Byte} (h : n.toNat < 2 ∨ 250 < n.toNat) :
    (s.setReceiver (.binary [])).receiveByte n = (s.setReceiver .waiting).receptionFault := by
  rw [receiveByte_binary hframing, State.binaryByte, if_neg (by omega)]

/-- The bytes up to the check are gathered. -/
theorem receiveBytes_gathers {n : Byte} {taken more : List Byte} (h : taken.length + more.length ≤ n.toNat) :
    (s.setReceiver (.binary (n :: taken))).receiveBytes more = s.setReceiver (.binary (n :: (taken ++ more))) := by
  induction more generalizing taken with
  | nil => rw [List.append_nil]; rfl
  | cons b more ih =>
    rw [List.length_cons] at h
    rw [receiveBytes_cons, receiveByte_binary hframing, State.binaryByte, if_neg (by omega), List.cons_append,
      ih (by rw [List.length_append, List.length_singleton]; omega), List.append_assoc]
    rfl

/-- The byte after as many as its length says ends the frame. -/
theorem receiveBytes_binaryFrame {n : Byte} {rest : List Byte} (hlow : 2 ≤ n.toNat) (hhigh : n.toNat ≤ 250)
    (hlength : rest.length = n.toNat + 1) :
    (s.setReceiver (.binary [])).receiveBytes (n :: rest) = s.endFrame (n :: rest) := by
  obtain ⟨body, check, rfl⟩ : ∃ body check, rest = body ++ [check] :=
    List.eq_nil_or_concat' rest |>.resolve_left (by rintro rfl; simp at hlength)
  have hbody : body.length = n.toNat := by simpa using hlength
  have first : (s.setReceiver (.binary [])).receiveByte n = s.setReceiver (.binary [n]) := by
    rw [receiveByte_binary hframing, State.binaryByte, if_pos ⟨hlow, hhigh⟩]
  have gathered := receiveBytes_gathers hframing (n := n) (taken := []) (more := body) (by simp [hbody])
  rw [receiveBytes_cons, first, receiveBytes_append, gathered, receiveBytes_cons, receiveByte_binary hframing,
    List.nil_append, State.binaryByte, if_pos hbody]
  rfl

/-- A good frame is taken up to its check, and ends there. -/
theorem receiveBytes_goodBinary {bytes : List Byte} (hgood : frameGood bytes = true) :
    (s.setReceiver (.binary [])).receiveBytes bytes = s.endFrame bytes := by
  cases bytes with
  | nil => cases hgood
  | cons n rest =>
    obtain ⟨hlow, hhigh, hlength⟩ := of_decide_eq_true (Bool.and_eq_true_iff.1 hgood).1
    exact receiveBytes_binaryFrame hframing hlow hhigh hlength

end Binary

/-- Settles O23: the length is refused at its byte, and a bad sum at the frame's end. -/
theorem binaryReceptionErrorsRaiseLinkFault : Obligations.BinaryReceptionErrorsRaiseLinkFault := by
  intro s n hframing hreceiver
  have begun : s.receiveByte 0xC3 = s.setReceiver (.binary []) := by
    have started := receiveByte_startByte (w := .binary) hreceiver (.inr hframing)
    rwa [lockedTo_of_locked (by simp [hframing])] at started
  have faulty : (s.setReceiver .waiting).receptionFault = s.raiseFault .linkFault := by
    rw [setReceiver_of_receiver hreceiver]
    rfl
  have received (bytes : List Byte) : exec (.receptionError (0xC3 :: bytes)) s =
      .next ((s.setReceiver (.binary [])).receiveBytes bytes) := by
    rw [← begun]
    rfl
  refine ⟨fun hn => ?_, fun rest hlow hhigh hlength hsum => ?_⟩
  · rw [received, receiveBytes_cons, receiveByte_badLength hframing hn, faulty]
    rfl
  · have bad : frameGood (n :: rest) = false := by
      rw [frameGood, decide_eq_false hsum, Bool.and_false]
    rw [received, receiveBytes_binaryFrame hframing hlow hhigh hlength, endFrame_of_bad bad, faulty]

/-! ## Text frames (R166) -/

theorem hexValue_hexChar {n : Nat} (h : n < 16) : hexValue (hexChar n) = some (BitVec.ofNat 4 n) := by
  have all : ∀ k : Fin 16, hexValue (hexChar k) = some (BitVec.ofNat 4 k) := by decide
  exact all ⟨n, h⟩

/-- A hexadecimal character is none of LF, ':' and CR. -/
theorem hexChar_ne {n : Nat} (h : n < 16) : hexChar n ≠ 0x0A ∧ hexChar n ≠ 0x3A ∧ hexChar n ≠ 0x0D := by
  have all : ∀ k : Fin 16, hexChar k ≠ 0x0A ∧ hexChar k ≠ 0x3A ∧ hexChar k ≠ 0x0D := by decide
  exact all ⟨n, h⟩

/-- The two halves of a byte put together are the byte. -/
theorem halves_append (b : Byte) : BitVec.ofNat 4 (b.toNat / 16) ++ BitVec.ofNat 4 (b.toNat % 16) = b := by
  have hb : b.toNat < 256 := b.isLt
  apply BitVec.eq_of_toNat_eq
  rw [BitVec.toNat_append, BitVec.toNat_ofNat, BitVec.toNat_ofNat, Nat.mod_eq_of_lt (by omega),
    Nat.mod_eq_of_lt (by omega), ← Nat.shiftLeft_add_eq_or_of_lt (by omega), Nat.shiftLeft_eq]
  omega

/-- The receiver that has taken one more half byte: it is the half in hand, or completes a byte with that half. -/
def halfTaken (bytes : List Byte) (v : BitVec 4) : Option (BitVec 4) → Receiver
  | none => .text bytes (some v)
  | some high => .text (bytes ++ [high ++ v]) none

section Text

variable {s : State} (hframing : s.link.framing = .text)
include hframing

/-- A hexadecimal character is a half byte. -/
theorem receiveByte_hexChar {n : Nat} (h : n < 16) (bytes : List Byte) (half : Option (BitVec 4)) :
    (s.setReceiver (.text bytes half)).receiveByte (hexChar n) =
      s.setReceiver (halfTaken bytes (BitVec.ofNat 4 n) half) := by
  obtain ⟨hlf, hcolon, hcr⟩ := hexChar_ne h
  rw [receiveByte_text (s := s.setReceiver (.text bytes half)) hframing rfl, State.textByte.eq_def, if_neg hlf,
    if_neg hcolon, if_neg hcr, hexValue_hexChar h]
  cases half <;> rfl

/-- Two characters for each byte are gathered into the bytes. -/
theorem receiveBytes_hexChars (taken bytes : List Byte) :
    (s.setReceiver (.text taken none)).receiveBytes
        (bytes.map fun b => [hexChar (b.toNat / 16), hexChar (b.toNat % 16)]).flatten =
      s.setReceiver (.text (taken ++ bytes) none) := by
  induction bytes generalizing taken with
  | nil => rw [List.append_nil]; rfl
  | cons b bytes ih =>
    have hb : b.toNat < 256 := b.isLt
    rw [List.map_cons, List.flatten_cons, List.cons_append, List.cons_append, List.nil_append, receiveBytes_cons,
      receiveBytes_cons, receiveByte_hexChar hframing (by omega), halfTaken, receiveByte_hexChar hframing (by omega),
      halfTaken, halves_append, ih, List.append_assoc]
    rfl

/-- A CR after whole bytes ends the frame. -/
theorem receiveByte_cr (bytes : List Byte) :
    (s.setReceiver (.text bytes none)).receiveByte 0x0D = s.endFrame bytes := by
  rw [receiveByte_text (s := s.setReceiver (.text bytes none)) hframing rfl]
  rfl

/-- A waiting receiver discards an LF. -/
theorem receiveByte_lf (hreceiver : s.link.receiver = .waiting) : s.receiveByte 0x0A = s := by
  rw [State.receiveByte, hframing, hreceiver]
  rfl

end Text

/-! ## The bytes of a frame (R165, R176) -/

/-- The check byte makes the sum a multiple of 256. -/
theorem sum_checkByte (bytes : List Byte) : (bytes ++ [checkByte bytes]).foldl (· + ·) 0 = 0 := by
  rw [List.foldl_append, checkByte]
  exact BitVec.add_right_neg _

/-- A frame whose body fits is good. -/
theorem frameGood_frameCore (kind tag : Byte) {body : List Byte} (h : body.length ≤ 248) :
    frameGood (frameCore kind tag body) = true := by
  have hcount : (BitVec.ofNat 8 (body.length + 2)).toNat = body.length + 2 := by
    rw [BitVec.toNat_ofNat, Nat.mod_eq_of_lt (by omega)]
  refine Bool.and_eq_true_iff.2 ⟨decide_eq_true ?_, decide_eq_true (sum_checkByte _)⟩
  change 2 ≤ _ ∧ _ ≤ 250 ∧ (kind :: tag :: (body ++ [_])).length = _
  rw [hcount, List.length_cons, List.length_cons, List.length_append, List.length_singleton]
  omega

/-- A frame reads back as its kind, its tag and the request its body spells. -/
theorem readFrame_frameCore (kind tag : Byte) (body : List Byte) :
    readFrame (frameCore kind tag body) = some ⟨kind, tag, parseRequest kind body⟩ := by
  change some (QueuedFrame.mk kind tag (parseRequest kind (body ++ [_]).dropLast)) = _
  rw [List.dropLast_concat]

/-! ## Frames as requests (R164 to R168) -/

theorem Link.drain_receiver (l : Link) : l.drain.receiver = l.receiver := by
  unfold Link.drain
  split <;> rfl

theorem executeFrame_receiver (s : State) (f : QueuedFrame) : (s.executeFrame f).link.receiver = s.link.receiver := by
  have performed : (s.performFrame f).1.link.receiver = s.link.receiver := by
    unfold State.performFrame
    split
    · rfl
    · exact (perform_spares s _).receiver
  exact ((Link.start_evolves _).receiver.trans (Link.drain_receiver _)).trans performed

theorem pump_receiver (s : State) (fuel : Nat) : (s.pump fuel).link.receiver = s.link.receiver := by
  induction fuel generalizing s with
  | zero => rfl
  | succ n ih =>
    unfold State.pump
    split
    · rfl
    · split
      · rfl
      · rw [ih, executeFrame_receiver]
        rfl

/-- What the queue does with a frame leaves the receiver as it is. -/
theorem acceptFrame_receiver (s : State) (f : QueuedFrame) : (s.acceptFrame f).link.receiver = s.link.receiver := by
  unfold State.acceptFrame
  repeat' split
  · exact (raiseFault_evolves s _).link.receiver
  · exact pump_receiver _ _
  · exact (Link.start_evolves _).receiver
  · exact (raiseFault_evolves s _).link.receiver

/-- A waiting receiver takes the bytes of a frame, binary or text, as that frame. -/
theorem receiveBytes_frame {s : State} {w : Wire} (hreceiver : s.link.receiver = .waiting)
    (hframing : s.link.framing = .undecided ∨ s.link.framing = framingOf w) (kind tag : Byte) {body : List Byte}
    (hbody : body.length ≤ 248) :
    s.receiveBytes (wireBytes (framingOf w) (frameCore kind tag body)) =
      ((s.lockedTo w).setReceiver .waiting).acceptFrame ⟨kind, tag, parseRequest kind body⟩ := by
  have locked := lockedTo_framing hframing
  have started := receiveByte_startByte hreceiver hframing
  have good := frameGood_frameCore kind tag hbody
  have ended := endFrame_of_good good (readFrame_frameCore kind tag body) (s.lockedTo w)
  cases w with
  | binary =>
    change (s.receiveByte (startByte .binary)).receiveBytes (frameCore kind tag body) = _
    rw [started, receiverBegun, receiveBytes_goodBinary locked good, ended]
  | text =>
    have framed := (acceptFrame_keeps ((s.lockedTo .text).setReceiver .waiting)
      ⟨kind, tag, parseRequest kind body⟩).framing (locked.trans_ne (framingOf_ne_undecided .text))
    change (s.receiveByte (startByte .text)).receiveBytes (_ ++ [0x0D, 0x0A]) = _
    rw [started, receiverBegun, receiveBytes_append, receiveBytes_hexChars locked, List.nil_append, receiveBytes_cons,
      receiveByte_cr locked, ended, receiveBytes_cons,
      receiveByte_lf (framed.trans locked) (acceptFrame_receiver _ _)]
    rfl

/-- Settles O22: the row and the bytes lock the same framing and hand on the same frame. -/
theorem frameBytesActAsTheirRequest : Obligations.FrameBytesActAsTheirRequest := by
  intro c s h r hc hfits hreceiver hframing
  refine ⟨_, rfl, ?_⟩
  rw [exec_of_request hc, submit_of_framing hframing, requestFrame, ← bodiesReadBackAsTheirRequests r hfits]
  exact congrArg Host.Outcome.next (receiveBytes_frame (s := s.withService h.service) hreceiver hframing r.kind h.tag
    (length_requestBody_le hfits)).symm

end Sys2Proof.Machine

/-! The queue of commands: the command at its front is the one that a step runs, and every command answers and leaves the
commands behind it waiting (chapter 95). -/

namespace Sys2Proof.Machine

/-- Settles O1: the step takes the front of the queue. -/
theorem stepRunsTheFrontCommand : Obligations.StepRunsTheFrontCommand := fun _ _ _ => rfl

/-- No meaning faults or refuses: each row of the dispatch answers a next state. -/
theorem exec_eq_next (c : Instr) (s : State) : ∃ t, exec c s = .next t := by
  cases c <;> exact ⟨_, rfl⟩

/-- Power-on reset keeps the queue by its own equation, every other command as all that it keeps. -/
theorem exec_pending {c : Instr} {s t : State} (hx : exec c s = .next t) : t.pending = s.pending := by
  by_cases hp : c = .powerOnReset
  · subst hp
    cases hx
    rfl
  · exact (exec_keeps hp hx).pending

/-- Settles O2: the state answered is the one whose queue every command keeps. -/
theorem everyCommandAnswersAndSparesTheQueue : Obligations.EveryCommandAnswersAndSparesTheQueue := by
  intro c s
  obtain ⟨t, hx⟩ := exec_eq_next c s
  exact ⟨t, hx, exec_pending hx⟩

end Sys2Proof.Machine
